-- ==== Sys2Proof/Word.lean ====
section
/-! DEFINITION. The words of ECORE: the widths the spec names, and nothing else. -/

namespace Sys2Proof

/-- A symbol, or one byte of BUF (00_scope.md R15, 20_memory.md R72). -/
abbrev Byte := BitVec 8

/-- A command operand, a FREQ entry, a code (30_encoding.md R90, 10_state.md R33). -/
abbrev Word := BitVec 32

/-- A result, a bit counter, a range coder register (30_encoding.md R92, 10_state.md R27, R38). -/
abbrev Quad := BitVec 64

/-- A command word of CMDW = 72 bits (30_encoding.md R90). -/
abbrev CmdWord := BitVec 72

end Sys2Proof
end

