-- ==== Sys2Proof/Syntax.lean ====
section
/-! DEFINITION. The 67 commands of ECORE, one constructor per row of spec/opcode_table.json.

A constructor carries exactly the operand fields the command's rule names (10_state.md R22); operand bits no rule names
are ignored (30_encoding.md R95) and so are no part of an instruction. The INIT commands of EGE, EGD, HFE and HFD carry the
whole of A, because their rules test all of it. -/

namespace Sys2Proof

/-- A command of ECORE with its operands (30_encoding.md R93). -/
inductive Instr where
  -- BSI, unit 0 (40_bit_stream.md)
  /-- `BS_WRBIT` (R124). -/
  | bsWrbit (bit : BitVec 1)
  /-- `BS_WRBITS` (R125). -/
  | bsWrbits (value : Word) (nbits : Word)
  /-- `BS_RDBIT` (R126). -/
  | bsRdbit
  /-- `BS_RDBITS` (R127). -/
  | bsRdbits (nbits : Word)
  /-- `BS_FLUSH` (R128). -/
  | bsFlush
  /-- `BS_CLOSE` (R129). -/
  | bsClose (ch : BitVec 1)
  /-- `BS_WRITTEN` (R130). -/
  | bsWritten
  /-- `BS_READ` (R131). -/
  | bsRead
  /-- `BS_HASMORE` (R132). -/
  | bsHasmore
  -- EGE, unit 1 (41_exp_golomb.md)
  /-- `EGE_ENCBYTE` (R150). -/
  | egeEncbyte (sym : Byte)
  /-- `EGE_ENCODE` (R151). -/
  | egeEncode (offset : Word) (length : Word)
  /-- `EGE_DISPOSE` (R152). -/
  | egeDispose
  /-- `EGE_INIT` (R153). -/
  | egeInit (mode : Word)
  /-- `EGE_STATUS` (R154). -/
  | egeStatus
  /-- `EGE_GETBS` (R155). -/
  | egeGetbs
  -- EGD, unit 2 (41_exp_golomb.md)
  /-- `EGD_DECBYTE` (R156). -/
  | egdDecbyte
  /-- `EGD_DECODE` (R157). -/
  | egdDecode (offset : Word) (length : Word)
  /-- `EGD_DISPOSE` (R158). -/
  | egdDispose
  /-- `EGD_INIT` (R159). -/
  | egdInit (mode : Word)
  /-- `EGD_STATUS` (R160). -/
  | egdStatus
  /-- `EGD_GETBS` (R161). -/
  | egdGetbs
  -- HCB, unit 3 (42_huffman_code_builder.md)
  /-- `HCB_SETFREQ` (R180). -/
  | hcbSetfreq (idx : Byte) (value : Word)
  /-- `HCB_CLRFREQ` (R181). -/
  | hcbClrfreq
  /-- `HCB_BUILD` (R182). -/
  | hcbBuild
  /-- `HCB_GETSIZE` (R183). -/
  | hcbGetsize (idx : Byte)
  /-- `HCB_GETCODE` (R184). -/
  | hcbGetcode (idx : Byte)
  /-- `HCB_GETFREQ` (R185). -/
  | hcbGetfreq (idx : Byte)
  -- HFE, unit 4 (43_huffman_codec.md)
  /-- `HFE_ENCBYTE` (R200). -/
  | hfeEncbyte (sym : Byte)
  /-- `HFE_ENCODE` (R201). -/
  | hfeEncode (offset : Word) (length : Word)
  /-- `HFE_DISPOSE` (R202). -/
  | hfeDispose
  /-- `HFE_INIT` (R203). -/
  | hfeInit (blockSize : Word)
  /-- `HFE_STATUS` (R204). -/
  | hfeStatus
  /-- `HFE_UPDATE` (R205). -/
  | hfeUpdate
  /-- `HFE_GETBS` (R207). -/
  | hfeGetbs
  -- HFD, unit 5 (43_huffman_codec.md)
  /-- `HFD_DECBYTE` (R210). -/
  | hfdDecbyte
  /-- `HFD_DECODE` (R211). -/
  | hfdDecode (offset : Word) (length : Word)
  /-- `HFD_DISPOSE` (R212). -/
  | hfdDispose
  /-- `HFD_INIT` (R213). -/
  | hfdInit (blockSize : Word)
  /-- `HFD_STATUS` (R214). -/
  | hfdStatus
  /-- `HFD_READLEN` (R215). -/
  | hfdReadlen
  /-- `HFD_GETBS` (R216). -/
  | hfdGetbs
  -- RCE, unit 6 (44_range_coder.md)
  /-- `RCE_ENCBYTE` (R250). -/
  | rceEncbyte (sym : Byte)
  /-- `RCE_ENCODE` (R251). -/
  | rceEncode (offset : Word) (length : Word)
  /-- `RCE_DISPOSE` (R252). -/
  | rceDispose
  /-- `RCE_INIT` (R253). -/
  | rceInit
  /-- `RCE_STATUS` (R254). -/
  | rceStatus
  /-- `RCE_GETBS` (R255). -/
  | rceGetbs
  -- RCD, unit 7 (44_range_coder.md)
  /-- `RCD_DECBYTE` (R256). -/
  | rcdDecbyte
  /-- `RCD_DECODE` (R257). -/
  | rcdDecode (offset : Word) (length : Word)
  /-- `RCD_DISPOSE` (R258). -/
  | rcdDispose
  /-- `RCD_INIT` (R259). -/
  | rcdInit
  /-- `RCD_STATUS` (R260). -/
  | rcdStatus
  /-- `RCD_GETBS` (R261). -/
  | rcdGetbs
  -- CME, unit 8 (46_cm_coder.md)
  /-- `CME_ENCBYTE` (R310). -/
  | cmeEncbyte (sym : Byte)
  /-- `CME_ENCODE` (R311). -/
  | cmeEncode (offset : Word) (length : Word)
  /-- `CME_DISPOSE` (R312). -/
  | cmeDispose
  /-- `CME_INIT` (R313). -/
  | cmeInit
  /-- `CME_STATUS` (R314). -/
  | cmeStatus
  /-- `CME_GETBS` (R315). -/
  | cmeGetbs
  -- CMD, unit 9 (46_cm_coder.md)
  /-- `CMD_DECBYTE` (R316). -/
  | cmdDecbyte
  /-- `CMD_DECODE` (R317). -/
  | cmdDecode (offset : Word) (length : Word)
  /-- `CMD_DISPOSE` (R318). -/
  | cmdDispose
  /-- `CMD_INIT` (R319). -/
  | cmdInit
  /-- `CMD_STATUS` (R320). -/
  | cmdStatus
  /-- `CMD_GETBS` (R321). -/
  | cmdGetbs
  -- SYS, unit 0xF (47_system_commands.md)
  /-- `SYS_RESET` (R338). -/
  | sysReset
  /-- `SYS_STATUS` (R339). -/
  | sysStatus
  deriving DecidableEq, Repr

end Sys2Proof
end

