-- ==== Sys2Proof/Decode.lean ====
section
/-! DEFINITION. Decoding a command word, total and rejecting reserved opcodes by name, and the encoder beside it.
Every encoding is the one format CMD72 of 30_encoding.md R90 with the opcodes of R93; the opcode alone selects the
command, and a reserved opcode never falls through to a neighbour (R94). -/

namespace Sys2Proof

/-- Why a command word is no command. -/
inductive DecodeError where
  /-- The opcode is not in the map of 30_encoding.md R93: reserved by R94, answered with IllegalCommand. -/
  | reservedOpcode (opc : Byte)
  deriving DecidableEq, Repr

/-- OPC, bits 71:64 of a command word (30_encoding.md R90). -/
def CmdWord.opc (w : CmdWord) : Byte := w.extractLsb' 64 8
/-- A, bits 63:32 of a command word (30_encoding.md R90). -/
def CmdWord.opA (w : CmdWord) : Word := w.extractLsb' 32 32
/-- B, bits 31:0 of a command word (30_encoding.md R90). -/
def CmdWord.opB (w : CmdWord) : Word := w.extractLsb' 0 32

/-- The command an opcode and its two operands stand for (30_encoding.md R93, R94; the operand fields are those of
10_state.md R22). -/
def decodeFields (opc : Byte) (a b : Word) : Except DecodeError Instr :=
  match opc.toNat with
  | 0x00 => .ok (.bsWrbit (a.setWidth 1))
  | 0x01 => .ok (.bsWrbits a b)
  | 0x02 => .ok .bsRdbit
  | 0x03 => .ok (.bsRdbits b)
  | 0x04 => .ok .bsFlush
  | 0x05 => .ok (.bsClose (a.setWidth 1))
  | 0x06 => .ok .bsWritten
  | 0x07 => .ok .bsRead
  | 0x08 => .ok .bsHasmore
  | 0x10 => .ok (.egeEncbyte (a.setWidth 8))
  | 0x11 => .ok (.egeEncode a b)
  | 0x12 => .ok .egeDispose
  | 0x13 => .ok (.egeInit a)
  | 0x14 => .ok .egeStatus
  | 0x16 => .ok .egeGetbs
  | 0x20 => .ok .egdDecbyte
  | 0x21 => .ok (.egdDecode a b)
  | 0x22 => .ok .egdDispose
  | 0x23 => .ok (.egdInit a)
  | 0x24 => .ok .egdStatus
  | 0x26 => .ok .egdGetbs
  | 0x30 => .ok (.hcbSetfreq (a.setWidth 8) b)
  | 0x31 => .ok .hcbClrfreq
  | 0x32 => .ok .hcbBuild
  | 0x33 => .ok (.hcbGetsize (a.setWidth 8))
  | 0x34 => .ok (.hcbGetcode (a.setWidth 8))
  | 0x35 => .ok (.hcbGetfreq (a.setWidth 8))
  | 0x40 => .ok (.hfeEncbyte (a.setWidth 8))
  | 0x41 => .ok (.hfeEncode a b)
  | 0x42 => .ok .hfeDispose
  | 0x43 => .ok (.hfeInit a)
  | 0x44 => .ok .hfeStatus
  | 0x45 => .ok .hfeUpdate
  | 0x46 => .ok .hfeGetbs
  | 0x50 => .ok .hfdDecbyte
  | 0x51 => .ok (.hfdDecode a b)
  | 0x52 => .ok .hfdDispose
  | 0x53 => .ok (.hfdInit a)
  | 0x54 => .ok .hfdStatus
  | 0x55 => .ok .hfdReadlen
  | 0x56 => .ok .hfdGetbs
  | 0x60 => .ok (.rceEncbyte (a.setWidth 8))
  | 0x61 => .ok (.rceEncode a b)
  | 0x62 => .ok .rceDispose
  | 0x63 => .ok .rceInit
  | 0x64 => .ok .rceStatus
  | 0x66 => .ok .rceGetbs
  | 0x70 => .ok .rcdDecbyte
  | 0x71 => .ok (.rcdDecode a b)
  | 0x72 => .ok .rcdDispose
  | 0x73 => .ok .rcdInit
  | 0x74 => .ok .rcdStatus
  | 0x76 => .ok .rcdGetbs
  | 0x80 => .ok (.cmeEncbyte (a.setWidth 8))
  | 0x81 => .ok (.cmeEncode a b)
  | 0x82 => .ok .cmeDispose
  | 0x83 => .ok .cmeInit
  | 0x84 => .ok .cmeStatus
  | 0x86 => .ok .cmeGetbs
  | 0x90 => .ok .cmdDecbyte
  | 0x91 => .ok (.cmdDecode a b)
  | 0x92 => .ok .cmdDispose
  | 0x93 => .ok .cmdInit
  | 0x94 => .ok .cmdStatus
  | 0x96 => .ok .cmdGetbs
  | 0xF0 => .ok .sysReset
  | 0xF1 => .ok .sysStatus
  | _ => .error (.reservedOpcode opc)

/-- The command a 72-bit command word stands for, or the name of the refusal (30_encoding.md R90, R94). -/
def decode (w : CmdWord) : Except DecodeError Instr :=
  decodeFields w.opc w.opA w.opB

/-- The 72-bit word OPC << 64 | A << 32 | B (30_encoding.md R90, R98). -/
def cmd72 (opc : Byte) (a b : Word) : CmdWord := opc ++ (a ++ b)

/-- The opcode and the operands of an instruction; operand bits its rule does not name are 0 (log entry 9). -/
def encodeFields : Instr → Byte × Word × Word
  | .bsWrbit bit => (0x00, bit.setWidth 32, 0)
  | .bsWrbits value nbits => (0x01, value, nbits)
  | .bsRdbit => (0x02, 0, 0)
  | .bsRdbits nbits => (0x03, 0, nbits)
  | .bsFlush => (0x04, 0, 0)
  | .bsClose ch => (0x05, ch.setWidth 32, 0)
  | .bsWritten => (0x06, 0, 0)
  | .bsRead => (0x07, 0, 0)
  | .bsHasmore => (0x08, 0, 0)
  | .egeEncbyte sym => (0x10, sym.setWidth 32, 0)
  | .egeEncode offset length => (0x11, offset, length)
  | .egeDispose => (0x12, 0, 0)
  | .egeInit mode => (0x13, mode, 0)
  | .egeStatus => (0x14, 0, 0)
  | .egeGetbs => (0x16, 0, 0)
  | .egdDecbyte => (0x20, 0, 0)
  | .egdDecode offset length => (0x21, offset, length)
  | .egdDispose => (0x22, 0, 0)
  | .egdInit mode => (0x23, mode, 0)
  | .egdStatus => (0x24, 0, 0)
  | .egdGetbs => (0x26, 0, 0)
  | .hcbSetfreq idx value => (0x30, idx.setWidth 32, value)
  | .hcbClrfreq => (0x31, 0, 0)
  | .hcbBuild => (0x32, 0, 0)
  | .hcbGetsize idx => (0x33, idx.setWidth 32, 0)
  | .hcbGetcode idx => (0x34, idx.setWidth 32, 0)
  | .hcbGetfreq idx => (0x35, idx.setWidth 32, 0)
  | .hfeEncbyte sym => (0x40, sym.setWidth 32, 0)
  | .hfeEncode offset length => (0x41, offset, length)
  | .hfeDispose => (0x42, 0, 0)
  | .hfeInit blockSize => (0x43, blockSize, 0)
  | .hfeStatus => (0x44, 0, 0)
  | .hfeUpdate => (0x45, 0, 0)
  | .hfeGetbs => (0x46, 0, 0)
  | .hfdDecbyte => (0x50, 0, 0)
  | .hfdDecode offset length => (0x51, offset, length)
  | .hfdDispose => (0x52, 0, 0)
  | .hfdInit blockSize => (0x53, blockSize, 0)
  | .hfdStatus => (0x54, 0, 0)
  | .hfdReadlen => (0x55, 0, 0)
  | .hfdGetbs => (0x56, 0, 0)
  | .rceEncbyte sym => (0x60, sym.setWidth 32, 0)
  | .rceEncode offset length => (0x61, offset, length)
  | .rceDispose => (0x62, 0, 0)
  | .rceInit => (0x63, 0, 0)
  | .rceStatus => (0x64, 0, 0)
  | .rceGetbs => (0x66, 0, 0)
  | .rcdDecbyte => (0x70, 0, 0)
  | .rcdDecode offset length => (0x71, offset, length)
  | .rcdDispose => (0x72, 0, 0)
  | .rcdInit => (0x73, 0, 0)
  | .rcdStatus => (0x74, 0, 0)
  | .rcdGetbs => (0x76, 0, 0)
  | .cmeEncbyte sym => (0x80, sym.setWidth 32, 0)
  | .cmeEncode offset length => (0x81, offset, length)
  | .cmeDispose => (0x82, 0, 0)
  | .cmeInit => (0x83, 0, 0)
  | .cmeStatus => (0x84, 0, 0)
  | .cmeGetbs => (0x86, 0, 0)
  | .cmdDecbyte => (0x90, 0, 0)
  | .cmdDecode offset length => (0x91, offset, length)
  | .cmdDispose => (0x92, 0, 0)
  | .cmdInit => (0x93, 0, 0)
  | .cmdStatus => (0x94, 0, 0)
  | .cmdGetbs => (0x96, 0, 0)
  | .sysReset => (0xF0, 0, 0)
  | .sysStatus => (0xF1, 0, 0)

/-- The command word of an instruction (30_encoding.md R90). -/
def encode (i : Instr) : CmdWord :=
  let f := encodeFields i
  cmd72 f.1 f.2.1 f.2.2

/-- The instruction the decoder reads from a table word: a command is ONE 72-bit word, so bit `k` of the table's number is
bit `k` of the command word, and bits at or above `nbits` are 0 (log entry 10). -/
def decodeTableWord (nbits w : Nat) : Option Instr :=
  match decode (BitVec.ofNat 72 (w % 2 ^ nbits)) with
  | .ok i => some i
  | .error _ => none

end Sys2Proof
end

