-- ==== Sys2Proof/Config.lean ====
section
/-! DEFINITION. The constants of 00_scope.md R9 and R10, and the shape of the parameters R11 leaves open.

Nothing of ECORE is drawn or left free (93_implementation_defined.md: `any value` is used nowhere), so there is
no opaque constant here. The open parameters are plain data that State carries: a claim about every state is a claim
about every value of them (log entry 1). -/

namespace Sys2Proof.Config

/-- NSYM: number of symbol values (00_scope.md R9). -/
def nsym : Nat := 256
/-- EG_MAXZ: most leading zeros of an Exp-Golomb code (00_scope.md R9). -/
def egMaxZ : Nat := 8
/-- HUF_LENBITS: width of the first code length of a block header (00_scope.md R9). -/
def hufLenBits : Nat := 5
/-- HUF_MAXLEN: largest code length (00_scope.md R9). -/
def hufMaxLen : Nat := 31
/-- HUF_BLOCK_DEFAULT: block size after reset (00_scope.md R10). -/
def hufBlockDefault : Nat := 65536
/-- HUF_BLOCK_MAX: largest block size INIT accepts (00_scope.md R10). -/
def hufBlockMax : Nat := 1048576
/-- RC_BITS: the interval lies in [0, 2^56) (00_scope.md R9). -/
def rcBits : Nat := 56
/-- RC_INIT_RANGE: `range` after reset (00_scope.md R10). -/
def rcInitRange : Nat := 2 ^ 56 - 1
/-- RC_MIN_RANGE: the minimum precision threshold (00_scope.md R10). -/
def rcMinRange : Nat := 2 ^ 40
/-- RC_MAX_TOTAL: total at which RCE and RCD refuse to code (00_scope.md R10). -/
def rcMaxTotal : Nat := 2 ^ 32 - 1
/-- RC_FLUSHBYTES in bits: what RCE_DISPOSE writes and RCD primes with (00_scope.md R9). -/
def rcFlushBits : Nat := 56
/-- CM_PRIMEBYTES in bits: what CMD primes with and CME_DISPOSE writes (00_scope.md R9). -/
def cmPrimeBits : Nat := 32
/-- CM_APMBINS: bins per APM context (00_scope.md R9). -/
def cmApmBins : Nat := 33
/-- CM_SM_RATE: StateMap update shift (00_scope.md R10). -/
def cmSmRate : Nat := 7
/-- CM_APM_RATE: update shift of the four APMs (00_scope.md R10). -/
def cmApmRate : Nat := 7
/-- CM_HASH_MUL: multiplier of the 4-byte context hash (00_scope.md R10). -/
def cmHashMul : Nat := 0x9E3779B1
/-- CM_RUN_MAX: saturation value of `run` (00_scope.md R10). -/
def cmRunMax : Nat := 65535

/-- SQ_TABLE: the 33 values `squash` interpolates (45_cm_predictor.md R273). -/
def sqTable : List Nat :=
  [1, 2, 3, 6, 10, 16, 27, 45, 73, 120, 194, 310, 488, 747, 1101, 1546, 2048,
   2549, 2994, 3348, 3607, 3785, 3901, 3975, 4022, 4050, 4068, 4079, 4085, 4089, 4092, 4093, 4094]

end Sys2Proof.Config

namespace Sys2Proof

/-- One entry of CM_STATE_TABLE: the state after a 0 and after a 1, and the counts the state records
(45_cm_predictor.md R271). -/
structure StateEntry where
  next0 : Byte
  next1 : Byte
  n0 : Nat
  n1 : Nat
  deriving DecidableEq, Repr

/-- The open parameters of the configuration that belong to no single unit: BUF_SIZE and CM_STATE_TABLE
(00_scope.md R11). The type of `size` is the constraint R11 puts on BUF_SIZE: a natural number at most 2^32. OUT_CAP
stands with the bit stream. ECORE never changes them (10_state.md R45). -/
structure Params where
  size : Fin (2 ^ 32 + 1)
  stateTable : Vector StateEntry 256
  deriving DecidableEq, Repr

/-- BUF_SIZE, the size of BUF in bytes (00_scope.md R11). -/
def Params.bufSize (p : Params) : Nat := p.size.val

/-- What the host chooses before a run: the open parameters and the launch state IN and BUF0
(00_scope.md R11, 70_reset_and_hazards.md R372, R374). -/
structure Launch where
  cfg : Params
  outCap : Option Nat
  inBits : List Bool
  buf0 : List Host.Cell
  deriving DecidableEq, Repr

end Sys2Proof
end

