-- ==== Sys2Proof/Machine/Tables.lean ====
section
/-! DEFINITION. How tables and the symbol buffer are held as plain data: full tables as vectors, and the few that are too
large to write out (BUF, and the APM tables of two million entries) as lists of the entries that differ from a default,
in one canonical form (log entries 2 and 6). The signed shift of 00_scope.md R12 stands here too. -/

namespace Sys2Proof

/-- Arithmetic shift right of a signed value, `floor (d / 2 ^ n)` (00_scope.md R12). -/
def asr (d : Int) (n : Nat) : Int := d.fdiv (2 ^ n)

/-- A table of `n` entries, entry `i` being `f i`: how a table's reset contents are written down. -/
def tabulate {α : Type} (n : Nat) (f : Nat → α) : Vector α n :=
  ⟨⟨(List.range n).map f⟩, by simp⟩

/-- Entry `i` of a table indexed by a symbol: the index is `zext_8` of it (00_scope.md R15). -/
def symGet {α : Type} (t : Vector α 256) (i : Byte) : α := t[i.toNat]'i.isLt

/-- `T[i] <- v` for a table indexed by a symbol (00_scope.md R14). -/
def symSet {α : Type} (t : Vector α 256) (i : Byte) (v : α) : Vector α 256 := t.set i.toNat v i.isLt

/-- The entry at a key: the listed one, or the default where none is listed. -/
def sparseGet {α : Type} (dflt : Nat → α) : List (Nat × α) → Nat → α
  | [], i => dflt i
  | c :: rest, i => if c.1 = i then c.2 else sparseGet dflt rest i

/-- A new entry, put before the first listed key that is not below it. -/
def sparseInsert {α : Type} (i : Nat) (v : α) : List (Nat × α) → List (Nat × α)
  | [] => [(i, v)]
  | c :: rest => if c.1 < i then c :: sparseInsert i v rest else (i, v) :: c :: rest

/-- The list after the entry at a key is set: a value equal to the default is not listed. -/
def sparseSet {α : Type} [DecidableEq α] (dflt : Nat → α) (t : List (Nat × α)) (i : Nat) (v : α) : List (Nat × α) :=
  let others := t.filter fun c => c.1 ≠ i
  if v = dflt i then others else sparseInsert i v others

/-- The canonical form: keys strictly rising, and no entry equal to the default of its key. -/
def sparseWf {α : Type} [DecidableEq α] (dflt : Nat → α) : List (Nat × α) → Bool
  | [] => true
  | c :: rest => decide (c.2 ≠ dflt c.1) && rest.all (fun d => decide (c.1 < d.1)) && sparseWf dflt rest

end Sys2Proof
end

