-- ==== Sys2Proof/Machine/Link.lean ====
section
/-! DEFINITION. The link functions `squash` and `stretch` (45_cm_predictor.md R273, R274), and the reset contents of the
tables that are made from them (10_state.md R41, R42). -/

namespace Sys2Proof.Machine

/-- `squash(x)` for any integer `x` (45_cm_predictor.md R273): 33 samples of the logistic curve, 128 units apart, with
linear interpolation. -/
def squash (x : Int) : Nat :=
  if x > 2047 then 4095
  else if x < -2047 then 0
  else
    let w := (x % 128).toNat
    let j := (x.fdiv 128 + 16).toNat
    (Config.sqTable.getD j 0 * (128 - w) + Config.sqTable.getD (j + 1) 0 * w + 64) >>> 7

/-- Bisection for the least `u` in `lo .. hi` with `squash (u - 2047) >= p`; `hi` where there is none below it. The fuel
is the number of halvings. -/
def stretchSearch (p : Nat) : Nat → Nat → Nat → Nat
  | 0, lo, _ => lo
  | fuel + 1, lo, hi =>
    if lo < hi then
      let mid := (lo + hi) / 2
      if squash ((mid : Int) - 2047) ≥ p then stretchSearch p fuel lo mid else stretchSearch p fuel (mid + 1) hi
    else lo

/-- `stretch(p)`: the least `x` in -2047 .. 2047 with `squash(x) >= p`, and 2047 where there is none
(45_cm_predictor.md R274); found by bisection, since `squash` is non-decreasing (log entry 11). -/
def stretch (p : Nat) : Int := (stretchSearch p 13 0 4094 : Int) - 2047

/-- The reset value of entry `k` of every APM table: bin `k mod 33` of the identity curve (10_state.md R42). -/
def apmReset (k : Nat) : BitVec 16 :=
  BitVec.ofNat 16 (squash (((k % Config.cmApmBins : Nat) : Int) * 128 - 2048) * 16)

/-- The reset value of the StateMap entry of a state, from the counts the state records (10_state.md R41). -/
def smReset (e : StateEntry) : BitVec 16 :=
  BitVec.ofNat 16 (65536 * (e.n1 + 1) / (e.n0 + e.n1 + 2))

/-- The reference instantiation of CM_STATE_TABLE: pairs of 4-bit saturating counters (45_cm_predictor.md R272). -/
def referenceEntry (s : Nat) : StateEntry :=
  let n0 := s >>> 4
  let n1 := s % 16
  { next0 := BitVec.ofNat 8 ((min (n0 + 1) 15) <<< 4 ||| n1)
    next1 := BitVec.ofNat 8 (n0 <<< 4 ||| min (n1 + 1) 15)
    n0 := n0
    n1 := n1 }

/-- The reference CM_STATE_TABLE (45_cm_predictor.md R272). -/
def referenceTable : Vector StateEntry 256 := tabulate 256 referenceEntry

end Sys2Proof.Machine
end

