-- ==== Sys2Proof/Machine/Units.lean ====
section
/-! DEFINITION. The private state of each unit, as plain data: every register and table of 10_state.md under the spec's
own name, with the spec's width. -/

namespace Sys2Proof.Machine

/-- The response latch RSP = (FLT, R) (10_state.md R21, 30_encoding.md R92). -/
structure Response where
  flt : BitVec 3
  r : Quad
  deriving DecidableEq, Repr

/-- The bit-stream state of BSI (10_state.md R30, R27). `outCap` is the parameter OUT_CAP (`none`: infinity) and `inBits`
the input list IN; ECORE changes neither. -/
structure Bsi where
  outCap : Option Nat
  inBits : List Bool
  out : List Bool
  outClosed : Bool
  inClosed : Bool
  wcnt : Quad
  rcnt : Quad
  deriving DecidableEq, Repr

/-- A unit's 6-bit status word USTAT, by field (10_state.md R24). -/
structure UStat where
  dead : Bool
  fcode : BitVec 3
  disposed : Bool
  primed : Bool
  deriving DecidableEq, Repr

/-- EGE or EGD: the SIGNED register and the status word (10_state.md R32). -/
structure EgUnit where
  signedMode : Bool
  ustat : UStat
  deriving DecidableEq, Repr

/-- HCB: the frequency, length and code tables (10_state.md R33). -/
structure Hcb where
  freq : Vector Word 256
  sizes : Vector (BitVec 5) 256
  codes : Vector Word 256
  deriving DecidableEq, Repr

/-- HFE or HFD: the code in force, the block size and the status word (10_state.md R34, R35). The decoder's tree and
lookahead cache are functions of the two tables and no state (R36; log entry 8). -/
structure HufUnit where
  sizes : Vector (BitVec 5) 256
  codes : Vector Word 256
  block : Word
  ustat : UStat
  deriving DecidableEq, Repr

/-- AFT: the split cumulative frequency table (10_state.md R37). -/
structure Aft where
  base : Vector Word 17
  delta : Vector Word 258
  deriving DecidableEq, Repr

/-- The interval and the frequency table a range coder works with, on either side (10_state.md R38, R39). -/
structure RcCoder where
  low : Quad
  range : Quad
  aft : Aft
  deriving DecidableEq, Repr

/-- RCE (10_state.md R38). -/
structure Rce where
  coder : RcCoder
  ustat : UStat
  deriving DecidableEq, Repr

/-- RCD (10_state.md R39). -/
structure Rcd where
  coder : RcCoder
  code : Quad
  ustat : UStat
  deriving DecidableEq, Repr

/-- One adaptive probability map (10_state.md R42): `t` lists the table entries that differ from their reset value, in
canonical form; `idx` is the lower bin of the last interpolation, `iw` its width. -/
structure Apm (iw : Nat) where
  t : List (Nat × BitVec 16)
  idx : BitVec iw
  deriving DecidableEq, Repr

/-- The predictor P: context state, StateMap and the four APMs (10_state.md R40, R41, R42). -/
structure Predictor where
  states : Vector Byte 256
  c0 : Byte
  c4 : Word
  bpos : BitVec 3
  run : BitVec 16
  runCtx : BitVec 2
  pred : BitVec 12
  sm : Vector (BitVec 16) 256
  smIdx : Byte
  apm2 : Apm 15
  apm3 : Apm 16
  apm5 : Apm 22
  apm4 : Apm 14
  deriving DecidableEq, Repr

/-- The interval and the predictor a context-mixing coder works with, on either side (10_state.md R43, R44). -/
structure CmCoder where
  low : Word
  high : Word
  p : Predictor
  deriving DecidableEq, Repr

/-- CME (10_state.md R43). -/
structure Cme where
  coder : CmCoder
  ustat : UStat
  deriving DecidableEq, Repr

/-- CMD (10_state.md R44). -/
structure Cmd where
  coder : CmCoder
  current : Word
  ustat : UStat
  deriving DecidableEq, Repr

/-- The units that have a status word, in the order of their numbers 1, 2, 4, 5, 6, 7, 8, 9 (10_state.md R24). -/
inductive UnitId where
  | ege
  | egd
  | hfe
  | hfd
  | rce
  | rcd
  | cme
  | cmd
  deriving DecidableEq, Repr

/-- What the host does between commands (20_memory.md R86, 70_reset_and_hazards.md R370; log entry 3). -/
inductive HostAction where
  /-- The host presents a command word (30_encoding.md R90). -/
  | command (w : CmdWord)
  /-- The host writes one byte of BUF between two commands (20_memory.md R86). -/
  | writeBuf (addr : Nat) (v : Byte)
  /-- The host drives the hardware reset input (70_reset_and_hazards.md R370). -/
  | resetInput
  deriving DecidableEq, Repr

end Sys2Proof.Machine
end

