-- ==== Sys2Proof/Machine/Predictor.lean ====
section
/-! DEFINITION. The context-mixing predictor: StateMap, the four adaptive probability maps, the bit-history state machine,
and the procedures `Predict` and `Update` (45_cm_predictor.md). -/

namespace Sys2Proof.Machine

/-- `SmTrain` on one entry: `t + (((bit << 16) - t) >>a 7)` (45_cm_predictor.md R276). -/
def smTrained (t : BitVec 16) (bit : Bool) : BitVec 16 :=
  BitVec.ofInt 16 ((t.toNat : Int) + asr ((if bit then 65536 else 0) - (t.toNat : Int)) Config.cmSmRate)

/-- `ApmTrain` on one entry: `t + ((g - t) >>a 7)` with g = 65535 or 0 (45_cm_predictor.md R278). -/
def apmTrained (t : BitVec 16) (bit : Bool) : BitVec 16 :=
  BitVec.ofInt 16 ((t.toNat : Int) + asr ((if bit then 65535 else 0) - (t.toNat : Int)) Config.cmApmRate)

/-- Entry `k` of an APM's table. -/
def Apm.entry {iw : Nat} (m : Apm iw) (k : Nat) : BitVec 16 := sparseGet apmReset m.t k

/-- Entry `k` of an APM's table trained with the observed bit. -/
def Apm.trainEntry {iw : Nat} (m : Apm iw) (bit : Bool) (k : Nat) : Apm iw :=
  { m with t := sparseSet apmReset m.t k (apmTrained (m.entry k) bit) }

/-- `ApmTrain(M, bit)`: the two bins of the last lookup move toward the observed bit (45_cm_predictor.md R278). -/
def Apm.train {iw : Nat} (m : Apm iw) (bit : Bool) : Apm iw :=
  (m.trainEntry bit m.idx.toNat).trainEntry bit (m.idx.toNat + 1)

/-- `ApmGet(M, pr, cx)`: the interpolated probability, and the map with its index register set
(45_cm_predictor.md R277). -/
def Apm.get {iw : Nat} (m : Apm iw) (pr cx : Nat) : Nat × Apm iw :=
  let s := (stretch pr + 2048).toNat
  let w := s % 128
  let idx := (s >>> 7) + cx * Config.cmApmBins
  (((m.entry idx).toNat * (128 - w) + (m.entry (idx + 1)).toNat * w) >>> 11, { m with idx := BitVec.ofNat iw idx })

/-- `c1`, the last complete byte (45_cm_predictor.md R279). -/
def Predictor.c1 (p : Predictor) : Nat := p.c4.toNat % 256

/-- `mflag`: the bits of the current byte so far equal the top bits of the last one (45_cm_predictor.md R279). -/
def Predictor.mflag (p : Predictor) : Nat :=
  if (p.c1 ||| 256) >>> (8 - p.bpos.toNat) = p.c0.toNat then 1 else 0

/-- `key2`, the partial byte and the match flag (45_cm_predictor.md R279). -/
def Predictor.key2 (p : Predictor) : Nat := p.c0.toNat ||| (p.mflag <<< 8)

/-- `key3`, the partial byte and the run-length class (45_cm_predictor.md R279). -/
def Predictor.key3 (p : Predictor) : Nat := p.c0.toNat ||| (p.runCtx.toNat <<< 8)

/-- `key5`, the 16-bit hash of the last four bytes mixed with the partial byte (45_cm_predictor.md R279). -/
def Predictor.key5 (p : Predictor) : Nat :=
  (((p.c4.toNat * Config.cmHashMul) % 2 ^ 32) >>> 16) ^^^ p.c0.toNat

/-- `key4`, the current byte (45_cm_predictor.md R279). -/
def Predictor.key4 (p : Predictor) : Nat := p.c0.toNat

/-- `Predict(P)`: the chain p2 → p3 → p5 (avg) → p4 (avg); it writes `sm_idx`, the four `idx` and `pred` and nothing else
(45_cm_predictor.md R280, R275). -/
def Predictor.predict (p : Predictor) : Predictor :=
  let si := symGet p.states p.c0
  let p0 := (symGet p.sm si).toNat >>> 4
  let a2 := p.apm2.get p0 p.key2
  let a3 := p.apm3.get a2.1 p.key3
  let a5 := p.apm5.get a3.1 p.key5
  let p5 := (a5.1 + a3.1 + 1) >>> 1
  let a4 := p.apm4.get p5 p.key4
  { p with
    smIdx := si
    apm2 := a2.2
    apm3 := a3.2
    apm5 := a5.2
    apm4 := a4.2
    pred := BitVec.ofNat 12 ((a4.1 + p5 + 1) >>> 1) }

/-- `next(s, bit)` of CM_STATE_TABLE (45_cm_predictor.md R271). -/
def nextState (tbl : Vector StateEntry 256) (s : Byte) (bit : Bool) : Byte :=
  let e := symGet tbl s
  if bit then e.next1 else e.next0

/-- The class of a run length: 0, 1, 2 or 3 for 0, 1, 2 to 3, 4 or more (45_cm_predictor.md R282). -/
def runClass (run : Nat) : BitVec 2 :=
  if run = 0 then 0 else if run = 1 then 1 else if run ≤ 3 then 2 else 3

/-- `UpdateContext(P, bit)` (45_cm_predictor.md R282). -/
def Predictor.updateContext (p : Predictor) (bit : Bool) : Predictor :=
  let c := p.c0.toNat <<< 1 ||| bit.toNat
  if c ≤ 255 then { p with c0 := BitVec.ofNat 8 c, bpos := p.bpos + 1 }
  else
    let byte := c % 256
    let run := if byte = p.c1 then min (p.run.toNat + 1) Config.cmRunMax else 0
    { p with
      run := BitVec.ofNat 16 run
      runCtx := runClass run
      c4 := BitVec.ofNat 32 (p.c4.toNat <<< 8 ||| byte)
      c0 := 1
      bpos := 0 }

/-- The training half of `Update`: the StateMap entry and the APM bins of the last prediction (45_cm_predictor.md R281,
R276, R278). -/
def Predictor.train (p : Predictor) (bit : Bool) : Predictor :=
  { p with
    sm := symSet p.sm p.smIdx (smTrained (symGet p.sm p.smIdx) bit)
    apm2 := p.apm2.train bit
    apm3 := p.apm3.train bit
    apm5 := p.apm5.train bit
    apm4 := p.apm4.train bit }

/-- The bit-history state of the current context moves on (45_cm_predictor.md R281). -/
def Predictor.transition (tbl : Vector StateEntry 256) (p : Predictor) (bit : Bool) : Predictor :=
  { p with states := symSet p.states p.c0 (nextState tbl (symGet p.states p.c0) bit) }

/-- `Update(P, bit)`: train, transition, extend the context, predict (45_cm_predictor.md R281). -/
def Predictor.update (tbl : Vector StateEntry 256) (p : Predictor) (bit : Bool) : Predictor :=
  (((p.train bit).transition tbl bit).updateContext bit).predict

end Sys2Proof.Machine
end

