-- ==== Sys2Proof/Machine/Resets.lean ====
section
/-! DEFINITION. The reset value of every unit (10_state.md; 70_reset_and_hazards.md R371). A unit's INIT command puts its
private state back to the same values (47_system_commands.md R335). -/

namespace Sys2Proof

/-- The launch the test vectors of 95_test_vectors.md use unless they say otherwise: BUF_SIZE 65536, no bound on OUT, the
reference CM_STATE_TABLE, IN empty, BUF all zero. DESIGN CHOICE (log entries 1 and 2). -/
def Launch.standard : Launch :=
  { cfg := { size := ⟨65536, by decide⟩, stateTable := Machine.referenceTable }, outCap := none, inBits := [], buf0 := [] }

end Sys2Proof

namespace Sys2Proof.Machine

/-- RSP after reset (10_state.md R21). -/
def Response.reset : Response := { flt := 0, r := 0 }

/-- BSI after reset: the streams are empty and open, the counters 0; OUT_CAP and IN are the host's
(10_state.md R30, 70_reset_and_hazards.md R372). -/
def Bsi.fresh (outCap : Option Nat) (inBits : List Bool) : Bsi :=
  { outCap := outCap, inBits := inBits, out := [], outClosed := false, inClosed := false, wcnt := 0, rcnt := 0 }

/-- A status word after reset: not dead, FCODE 0, not disposed, not primed (10_state.md R24). -/
def UStat.reset : UStat := { dead := false, fcode := 0, disposed := false, primed := false }

/-- EGE or EGD after reset: unsigned mode (10_state.md R26). -/
def EgUnit.reset : EgUnit := { signedMode := false, ustat := .reset }

/-- The flat code lengths: every symbol 8 bits (10_state.md R33). -/
def flatSizes : Vector (BitVec 5) 256 := tabulate 256 fun _ => 8

/-- The flat codes: `codes[s] = s` (10_state.md R33). -/
def flatCodes : Vector Word 256 := tabulate 256 fun s => BitVec.ofNat 32 s

/-- HCB after reset: flat frequencies and their code (10_state.md R33). -/
def Hcb.reset : Hcb := { freq := tabulate 256 fun _ => 1, sizes := flatSizes, codes := flatCodes }

/-- HFE or HFD with the flat code and a block size: its state after reset, and after its INIT command
(10_state.md R34, R35, 43_huffman_codec.md R203, R213). -/
def HufUnit.fresh (block : Word) : HufUnit :=
  { sizes := flatSizes, codes := flatCodes, block := block, ustat := .reset }

/-- HFE or HFD after reset (10_state.md R34, R35). -/
def HufUnit.reset : HufUnit := .fresh (BitVec.ofNat 32 Config.hufBlockDefault)

/-- AFT after reset: every one of the 257 slots has count 1 (10_state.md R37). -/
def Aft.reset : Aft :=
  { base := tabulate 17 fun j => BitVec.ofNat 32 (16 * j), delta := tabulate 258 fun i => BitVec.ofNat 32 (i % 16) }

/-- A range coder's interval and table after reset (10_state.md R38). -/
def RcCoder.reset : RcCoder := { low := 0, range := BitVec.ofNat 64 Config.rcInitRange, aft := .reset }

/-- RCE after reset (10_state.md R38). -/
def Rce.reset : Rce := { coder := .reset, ustat := .reset }

/-- RCD after reset (10_state.md R39). -/
def Rcd.reset : Rcd := { coder := .reset, code := 0, ustat := .reset }

/-- An APM before its first lookup: every row the identity curve (10_state.md R42). -/
def Apm.initial {iw : Nat} : Apm iw := { t := [], idx := 0 }

/-- The tables and context registers `PredictorReset` sets, before `Predict` runs (10_state.md R40, R41, R42). -/
def Predictor.initial (tbl : Vector StateEntry 256) : Predictor :=
  { states := tabulate 256 fun _ => 0
    c0 := 1
    c4 := 0
    bpos := 0
    run := 0
    runCtx := 0
    pred := 0
    sm := tabulate 256 fun s => smReset (symGet tbl (BitVec.ofNat 8 s))
    smIdx := 0
    apm2 := .initial
    apm3 := .initial
    apm5 := .initial
    apm4 := .initial }

/-- `PredictorReset(P)`: the reset values, and then `Predict` once (45_cm_predictor.md R283). -/
def Predictor.reset (tbl : Vector StateEntry 256) : Predictor := (Predictor.initial tbl).predict

/-- A context-mixing coder's interval and predictor after reset (10_state.md R43). -/
def CmCoder.reset (tbl : Vector StateEntry 256) : CmCoder :=
  { low := 0, high := 0xFFFFFFFF, p := .reset tbl }

/-- CME after reset (10_state.md R43). -/
def Cme.reset (tbl : Vector StateEntry 256) : Cme := { coder := .reset tbl, ustat := .reset }

/-- CMD after reset (10_state.md R44). -/
def Cmd.reset (tbl : Vector StateEntry 256) : Cmd := { coder := .reset tbl, current := 0, ustat := .reset }

end Sys2Proof.Machine
end

