-- ==== Sys2Proof/Machine/State.lean ====
section
/-! DEFINITION. The whole state of ECORE (10_state.md), the ways a step can stop, and the machine right after reset. -/

namespace Sys2Proof.Machine

/-- Everything ECORE holds (10_state.md R20), the parameters of the configuration (R45), and the host's actions not yet
taken (the model's own field; log entry 3). `buf` lists the bytes of BUF that are not 0 (log entry 2). -/
structure State where
  cfg : Params
  bsi : Bsi
  buf : List Host.Cell
  rsp : Response
  lastFlt : BitVec 3
  ege : EgUnit
  egd : EgUnit
  hcb : Hcb
  hfe : HufUnit
  hfd : HufUnit
  rce : Rce
  rcd : Rcd
  cme : Cme
  cmd : Cmd
  pending : List HostAction
  deriving DecidableEq, Repr

/-- How a step of the model can stop without a next state. No COMMAND stops so: a fault of ECORE is a response, that is a
next state (60_exceptions.md R349). -/
inductive Fault where
  /-- Raised by `step` for a host write to a BUF address at or above BUF_SIZE, which does not exist (20_memory.md R77).
  Safe: the model stops where the spec gives no such access a meaning (log entry 5). -/
  | absentBufAddress
  deriving DecidableEq, Repr

/-- Instructions without a meaning. -/
inductive Refusal where
  /-- Raised by `exec` for an instruction that has no meaning yet, by its mnemonic; no arm raises it now. Safe. -/
  | notModelled (mnemonic : String)
  deriving DecidableEq, Repr

/-- The machine after reset with the parameters and the launch state the host chose (70_reset_and_hazards.md R371, R372,
R374). -/
def State.resetWith (l : Launch) : State :=
  { cfg := l.cfg
    bsi := .fresh l.outCap l.inBits
    buf := l.buf0
    rsp := .reset
    lastFlt := 0
    ege := .reset
    egd := .reset
    hcb := .reset
    hfe := .reset
    hfd := .reset
    rce := .reset
    rcd := .reset
    cme := .reset l.cfg.stateTable
    cmd := .reset l.cfg.stateTable
    pending := [] }

/-- The machine right after reset, with the standard launch (70_reset_and_hazards.md R371; log entry 1). -/
def State.reset : State := .resetWith .standard

end Sys2Proof.Machine
end

