-- ==== Sys2Proof/Machine/Flags.lean ====
section
/-! DEFINITION. The fault codes, the status words, and every flag computation of the spec (10_state.md R24, R25;
47_system_commands.md R336, R339; 60_exceptions.md R341). -/

namespace Sys2Proof.Machine

/-- The fault codes by name (60_exceptions.md R341). Code 7 is reserved and never appears. -/
inductive FaultCode where
  | none
  | endOfStream
  | invalidStream
  | invalidArgument
  | illegalCommand
  | unitDead
  | writeFail
  deriving DecidableEq, Repr

/-- The 3-bit number of a fault code (60_exceptions.md R341). -/
def FaultCode.code : FaultCode → BitVec 3
  | .none => 0
  | .endOfStream => 1
  | .invalidStream => 2
  | .invalidArgument => 3
  | .illegalCommand => 4
  | .unitDead => 5
  | .writeFail => 6

/-- The 6-bit status word: DEAD in bit 0, FCODE in 3:1, DISPOSED in 4, PRIMED in 5 (10_state.md R24). -/
def UStat.word (u : UStat) : BitVec 6 :=
  BitVec.ofNat 6 (u.dead.toNat + 2 * u.fcode.toNat + 16 * u.disposed.toNat + 32 * u.primed.toNat)

/-- DEAD and FCODE are set together (10_state.md R24). -/
def UStat.die (u : UStat) (c : FaultCode) : UStat := { u with dead := true, fcode := c.code }

/-- DISPOSED is set (47_system_commands.md R334). -/
def UStat.dispose (u : UStat) : UStat := { u with disposed := true }

/-- PRIMED is set (44_range_coder.md R239, 46_cm_coder.md R304). -/
def UStat.prime (u : UStat) : UStat := { u with primed := true }

/-- `Gate` refuses a dead or a disposed unit (47_system_commands.md R331). -/
def UStat.shut (u : UStat) : Bool := u.dead || u.disposed

/-- The status word of a unit. -/
def State.ustat (s : State) : UnitId → UStat
  | .ege => s.ege.ustat
  | .egd => s.egd.ustat
  | .hfe => s.hfe.ustat
  | .hfd => s.hfd.ustat
  | .rce => s.rce.ustat
  | .rcd => s.rcd.ustat
  | .cme => s.cme.ustat
  | .cmd => s.cmd.ustat

/-- `USTAT[u] <- v`. -/
def State.setUstat (s : State) (u : UnitId) (v : UStat) : State :=
  match u with
  | .ege => { s with ege := { s.ege with ustat := v } }
  | .egd => { s with egd := { s.egd with ustat := v } }
  | .hfe => { s with hfe := { s.hfe with ustat := v } }
  | .hfd => { s with hfd := { s.hfd with ustat := v } }
  | .rce => { s with rce := { s.rce with ustat := v } }
  | .rcd => { s with rcd := { s.rcd with ustat := v } }
  | .cme => { s with cme := { s.cme with ustat := v } }
  | .cmd => { s with cmd := { s.cmd with ustat := v } }

/-- The configuration register a unit's status answers: SIGNED, BLOCK, or 0 (47_system_commands.md R336). -/
def State.configWord (s : State) : UnitId → Nat
  | .ege => s.ege.signedMode.toNat
  | .egd => s.egd.signedMode.toNat
  | .hfe => s.hfe.block.toNat
  | .hfd => s.hfd.block.toNat
  | .rce => 0
  | .rcd => 0
  | .cme => 0
  | .cmd => 0

/-- The result of `Status(u)`: the status word in bits 5:0, the configuration register in bits 63:32
(47_system_commands.md R336). -/
def State.statusWord (s : State) (u : UnitId) : Quad :=
  BitVec.ofNat 64 ((s.ustat u).word.toNat + s.configWord u * 2 ^ 32)

/-- The channel a unit is bound to: 0 the output channel, 1 the input channel (47_system_commands.md R337). -/
def channelOf : UnitId → Nat
  | .ege => 0
  | .egd => 1
  | .hfe => 0
  | .hfd => 1
  | .rce => 0
  | .rcd => 1
  | .cme => 0
  | .cmd => 1

/-- The result of SYS_STATUS: DEAD of unit u in bit u, LASTFLT in 18:16, OUT_CLOSED in 24, IN_CLOSED in 25
(47_system_commands.md R339). -/
def State.sysStatusWord (s : State) : Quad :=
  BitVec.ofNat 64
    (s.ege.ustat.dead.toNat * 2 ^ 1 + s.egd.ustat.dead.toNat * 2 ^ 2
      + s.hfe.ustat.dead.toNat * 2 ^ 4 + s.hfd.ustat.dead.toNat * 2 ^ 5
      + s.rce.ustat.dead.toNat * 2 ^ 6 + s.rcd.ustat.dead.toNat * 2 ^ 7
      + s.cme.ustat.dead.toNat * 2 ^ 8 + s.cmd.ustat.dead.toNat * 2 ^ 9
      + s.lastFlt.toNat * 2 ^ 16 + s.bsi.outClosed.toNat * 2 ^ 24 + s.bsi.inClosed.toNat * 2 ^ 25)

end Sys2Proof.Machine
end

