-- ==== Sys2Proof/Machine/Operands.lean ====
section
/-! DEFINITION. The operand forms of the commands (10_state.md R22, 30_encoding.md R91) and the operand checks of stage 3
(47_system_commands.md R330). -/

namespace Sys2Proof.Machine

/-- NBITS of BS_WRBITS and BS_RDBITS is refused when 0 or above 32 (40_bit_stream.md R125, R127). -/
def nbitsIllegal (n : Word) : Bool := decide (n.toNat = 0 ∨ n.toNat > 32)

/-- The mode operand of EGE_INIT and EGD_INIT is refused when A[31:1] is not 0 (41_exp_golomb.md R153, R159). -/
def modeIllegal (a : Word) : Bool := decide (a.toNat >>> 1 ≠ 0)

/-- SIGNED is A[0] of the mode operand (41_exp_golomb.md R153, R159). -/
def modeBit (a : Word) : Bool := a.getLsbD 0

/-- The block size of HFE_INIT and HFD_INIT, `sext_32(A)`, is refused when not positive or above HUF_BLOCK_MAX
(43_huffman_codec.md R203, R213; 30_encoding.md R91). -/
def blockIllegal (a : Word) : Bool := decide (a.toInt ≤ 0 ∨ a.toInt > (Config.hufBlockMax : Int))

/-- `OFFSET + LENGTH > BUF_SIZE`, the sum on unbounded integers (20_memory.md R71, 47_system_commands.md R333). -/
def rangeIllegal (s : State) (offset length : Word) : Bool := decide (offset.toNat + length.toNat > s.cfg.bufSize)

/-- `EgValue(v, signed)`: the integer an 8-bit symbol stands for (41_exp_golomb.md R141). -/
def egValue (v : Byte) (signed : Bool) : Int := if signed then v.toInt else (v.toNat : Int)

/-- An integer as a symbol, `x mod 256` (41_exp_golomb.md R156). -/
def symbolOf (x : Int) : Byte := BitVec.ofInt 8 x

/-- BIT and CH as a truth value (10_state.md R22). -/
def bitOf (b : BitVec 1) : Bool := b.getLsbD 0

end Sys2Proof.Machine
end

