-- ==== Sys2Proof/Machine/Ops.lean ====
section
/-! DEFINITION. The named operations every command is made of: BUF, the two bit streams, the response, taking a fault and
recovering from one, and the command skeletons of 47_system_commands.md (gate, bulk loops, dispose, status). -/

namespace Sys2Proof.Machine

/-! ## BUF (20_memory.md R71, R72) -/

/-- What a byte of BUF that is not listed reads as (log entry 2). -/
def bufDefault (_ : Nat) : Byte := 0

/-- `MemRead(addr, 1)` (20_memory.md R72). -/
def memRead (m : List Host.Cell) (addr : Nat) : Byte := sparseGet bufDefault m addr

/-- `MemWrite(addr, 1, v)` (20_memory.md R72); the canonical form is kept. -/
def memWrite (m : List Host.Cell) (addr : Nat) (v : Byte) : List Host.Cell := sparseSet bufDefault m addr v

/-- BUF is in its one canonical form: addresses strictly rising, no listed byte equal to what an unlisted one reads as. -/
def Memory.wf (m : List Host.Cell) : Bool := sparseWf bufDefault m

/-! ## How a procedure ends -/

/-- Why a procedure of a command ends before its last statement. -/
inductive Stop where
  /-- `raise EndOfStream` (60_exceptions.md R343). -/
  | endOfStream
  /-- `raise InvalidStream` (60_exceptions.md R343). -/
  | invalidStream
  /-- A short write: the sink refused part of a code (60_exceptions.md R344). -/
  | shortWrite
  /-- `refuse`: no code can be built, or the range coder's counter limit (42_huffman_code_builder.md R172,
  44_range_coder.md R238). -/
  | refused
  /-- `nocode`: the Huffman table has no code for the symbol (43_huffman_codec.md R191). -/
  | noCode
  deriving DecidableEq, Repr

/-- The result of a procedure: it ran to its end with a value, or it stopped; in both cases with the state it had reached,
which stays (60_exceptions.md R349). -/
inductive Run (σ α : Type) where
  | ok (a : α) (s : σ)
  | stop (r : Stop) (s : σ)
  deriving DecidableEq, Repr

/-- The next statement runs on the value and the state reached; a stop skips it (60_exceptions.md R343: no catching). -/
def Run.andThen {σ α β : Type} (x : Run σ α) (f : α → σ → Run σ β) : Run σ β :=
  match x with
  | .ok a s => f a s
  | .stop r s => .stop r s

/-- A procedure on a part of the state, seen as one on the whole. -/
def Run.within {σ τ α : Type} (x : Run σ α) (f : σ → τ) : Run τ α :=
  match x with
  | .ok a s => .ok a (f s)
  | .stop r s => .stop r (f s)

/-! ## The bit streams (40_bit_stream.md) -/

/-- The sink takes one more bit when `k` bits of this write are already in: the channel is open and OUT is below OUT_CAP
(40_bit_stream.md R121). -/
def Bsi.accepts (b : Bsi) (k : Nat) : Bool :=
  !b.outClosed && (match b.outCap with
    | none => true
    | some cap => decide (b.out.length + k < cap))

/-- The bits of a write the sink takes: bits i-1 down to 0 of the value, up to the first one refused; `k` bits are in
already (40_bit_stream.md R121). -/
def Bsi.taken (b : Bsi) (v : Nat) : Nat → Nat → List Bool
  | 0, _ => []
  | i + 1, k => if b.accepts k then v.testBit i :: b.taken v i (k + 1) else []

/-- `WriteBits(v, n)`: the number of bits appended, and the stream after (40_bit_stream.md R121). -/
def writeBits (v n : Nat) (b : Bsi) : Nat × Bsi :=
  let bits := b.taken v n 0
  (bits.length, { b with out := b.out ++ bits, wcnt := b.wcnt + BitVec.ofNat 64 bits.length })

/-- A write a coder needs in full: a short one is reported (60_exceptions.md R344). -/
def writeAll (v n : Nat) (b : Bsi) : Run Bsi Unit :=
  let w := writeBits v n b
  if w.1 = n then .ok () w.2 else .stop .shortWrite w.2

/-- `ReadBit()` (40_bit_stream.md R122). -/
def readBit (b : Bsi) : Run Bsi Bool :=
  if b.inClosed then .stop .endOfStream b
  else match b.inBits[b.rcnt.toNat]? with
    | some x => .ok x { b with rcnt := b.rcnt + 1 }
    | none => .stop .endOfStream b

/-- The loop of `ReadBits`: `n` more bits after the value `v`, the first read the most significant (40_bit_stream.md R123). -/
def readLoop (v : Nat) : Nat → Bsi → Nat × Bsi
  | 0, b => (v, b)
  | n + 1, b => readLoop (2 * v + (b.inBits.getD b.rcnt.toNat false).toNat) n { b with rcnt := b.rcnt + 1 }

/-- `ReadBits(n)`: all `n` bits or none (40_bit_stream.md R123). -/
def readBits (n : Nat) (b : Bsi) : Run Bsi Nat :=
  if n = 0 then .ok 0 b
  else if b.inClosed || decide (b.rcnt.toNat + n > b.inBits.length) then .stop .endOfStream b
  else .ok (readLoop 0 n b).1 (readLoop 0 n b).2

/-- `hasMoreToRead`: the input channel is open and a bit is left (40_bit_stream.md R132). -/
def Bsi.hasMore (b : Bsi) : Bool := !b.inClosed && decide (b.rcnt.toNat < b.inBits.length)

/-- The number whose bits, the first most significant, are the list (00_scope.md R13). -/
def bitsValue (l : List Bool) : Nat := l.foldl (fun v b => 2 * v + b.toNat) 0

/-- The whole bytes of a bit list, the first bit of each its bit 7; `k` is how many. -/
def packBytes : Nat → List Bool → List Byte
  | 0, _ => []
  | k + 1, l => BitVec.ofNat 8 (bitsValue (l.take 8)) :: packBytes k (l.drop 8)

/-- `OutBytes`, the byte view of OUT: whole bytes while the channel is open; once it is closed a last part of a byte is
filled with zero bits (40_bit_stream.md R133). -/
def Bsi.outBytes (b : Bsi) : List Byte :=
  let k := b.out.length
  if b.outClosed && decide (k % 8 ≠ 0) then packBytes (k / 8 + 1) (b.out ++ List.replicate (8 - k % 8) false)
  else packBytes (k / 8) b.out

/-! ## The response, faults and recovery (30_encoding.md R92, 60_exceptions.md) -/

/-- The R of every failed command, 2^64 - 1 (30_encoding.md R97). -/
def allOnes : Quad := BitVec.allOnes 64

/-- `Respond(r, flt)`: the latch is set, and LASTFLT when a fault is answered (30_encoding.md R92). -/
def State.respond (s : State) (r : Quad) (c : FaultCode) : State :=
  { s with
    rsp := { flt := c.code, r := r }
    lastFlt := if c = .none then s.lastFlt else c.code }

/-- A command that succeeds with a number: `Respond(r, 0)` with r mod 2^64 (30_encoding.md R92). -/
def State.answer (s : State) (r : Nat) : State := s.respond (BitVec.ofNat 64 r) .none

/-- A refusal: `Respond(2^64 - 1, code)`, nothing else changed (60_exceptions.md R345). -/
def State.refuse (s : State) (c : FaultCode) : State := s.respond allOnes c

/-- TAKING A FAULT: `raise X` inside a command of unit `u` (60_exceptions.md R343, R349). The unit dies with the fault's
code and the response carries it; there is no handler address, no saved pc and no mode. -/
def State.raise (s : State) (u : UnitId) (c : FaultCode) : State :=
  (s.setUstat u ((s.ustat u).die c)).refuse c

/-- `WrFail(u)`: the unit dies of a short write; no response, no LASTFLT (60_exceptions.md R344). -/
def State.wrFail (s : State) (u : UnitId) : State := s.setUstat u ((s.ustat u).die .writeFail)

/-- RECOVERY, `Init(u)`: the unit gets the private state of a new instance and a cleared status word, and 0 is answered
(47_system_commands.md R335, 60_exceptions.md R350). There is no return-from-fault command; this is the only way beside
reset to revive a dead or disposed unit. -/
def State.initUnit (s : State) (u : UnitId) (install : State → State) : State :=
  ((install s).setUstat u .reset).answer 0

/-- The hardware reset (70_reset_and_hazards.md R370, R372): every register and table takes its reset value; the
parameters, IN and BUF stay, and so do the host's actions. -/
def State.hardReset (s : State) : State :=
  { State.resetWith { cfg := s.cfg, outCap := s.bsi.outCap, inBits := s.bsi.inBits, buf0 := s.buf } with
    pending := s.pending }

/-- How a stopped procedure ends its command (60_exceptions.md R343, R344, R345; 43_huffman_codec.md R200): a raise kills
the unit and answers the fault; a short write kills it and answers 0; a refusal answers InvalidArgument; a symbol
without a code answers 0. -/
def State.endBy (s : State) (u : UnitId) : Stop → State
  | .endOfStream => s.raise u .endOfStream
  | .invalidStream => s.raise u .invalidStream
  | .shortWrite => (s.wrFail u).answer 0
  | .refused => s.refuse .invalidArgument
  | .noCode => s.answer 0

/-- A reserved opcode (30_encoding.md R94). -/
def State.illegalCommand (s : State) : State := s.refuse .illegalCommand

/-! ## The skeletons of the unit commands (47_system_commands.md) -/

/-- `Gate(u)` before a body: a dead or disposed unit answers UnitDead (47_system_commands.md R331). -/
def State.gated (s : State) (u : UnitId) (body : State → State) : State :=
  if (s.ustat u).shut then s.refuse .unitDead else body s

/-- The bounds test before the body of a bulk command (47_system_commands.md R333). -/
def State.bounded (s : State) (offset length : Word) (body : State → State) : State :=
  if rangeIllegal s offset length then s.refuse .invalidArgument else body s

/-- A part of the state a unit's procedures work on: how it is read and put back. -/
structure Part (σ : Type) where
  get : State → σ
  put : σ → State → State

/-- A gated single-symbol command: the unit's procedure runs on its part, then `done` answers, or the stop does. -/
def State.single {σ α : Type} (s : State) (u : UnitId) (part : Part σ) (proc : σ → Run σ α) (done : α → State → State) :
    State :=
  s.gated u fun s =>
    match proc (part.get s) with
    | .ok a t => done a (part.put t s)
    | .stop r t => (part.put t s).endBy u r

/-- The loop of `BulkEncode`: `k` symbols from address `a` on, `n` of them coded before. It ends with the count of symbols
coded in full, the reason where one was not, and the state reached (47_system_commands.md R333). -/
def encodeLoop {σ : Type} (enc : Byte → σ → Run σ Unit) (buf : List Host.Cell) :
    Nat → Nat → Nat → σ → Nat × Option Stop × σ
  | 0, _, n, t => (n, none, t)
  | k + 1, a, n, t =>
    match enc (memRead buf a) t with
    | .ok _ t' => encodeLoop enc buf k (a + 1) (n + 1) t'
    | .stop r t' => (n, some r, t')

/-- How a bulk encode ends: the count; after a short write the count with the unit dead; at a refusal InvalidArgument
(47_system_commands.md R333, 44_range_coder.md R251). -/
def State.endEncode (s : State) (u : UnitId) (n : Nat) : Option Stop → State
  | none => s.answer n
  | some .shortWrite => (s.wrFail u).answer n
  | some r => s.endBy u r

/-- `BulkEncode(u, EncSym)` (47_system_commands.md R333). -/
def State.bulkEncode {σ : Type} (s : State) (u : UnitId) (part : Part σ) (enc : Byte → σ → Run σ Unit)
    (offset length : Word) : State :=
  s.gated u fun s => s.bounded offset length fun s =>
    let e := encodeLoop enc s.buf length.toNat offset.toNat 0 (part.get s)
    (part.put e.2.2 s).endEncode u e.1 e.2.1

/-- The loop of `BulkDecode`: `k` symbols to addresses `a` on; the bytes stored before a raise stay
(47_system_commands.md R333). -/
def decodeLoop {σ : Type} (dec : σ → Run σ Byte) : Nat → Nat → σ × List Host.Cell → Run (σ × List Host.Cell) Unit
  | 0, _, t => .ok () t
  | k + 1, a, t =>
    match dec t.1 with
    | .ok v t' => decodeLoop dec k (a + 1) (t', memWrite t.2 a v)
    | .stop r t' => .stop r (t', t.2)

/-- How a bulk decode ends: LENGTH, or the stop (47_system_commands.md R333). -/
def State.endDecode {σ : Type} (s : State) (u : UnitId) (part : Part σ) (length : Word) :
    Run (σ × List Host.Cell) Unit → State
  | .ok _ t => (part.put t.1 { s with buf := t.2 }).answer length.toNat
  | .stop r t => (part.put t.1 { s with buf := t.2 }).endBy u r

/-- `BulkDecode(u, DecSym)` (47_system_commands.md R333). -/
def State.bulkDecode {σ : Type} (s : State) (u : UnitId) (part : Part σ) (dec : σ → Run σ Byte)
    (offset length : Word) : State :=
  s.gated u fun s => s.bounded offset length fun s =>
    s.endDecode u part length (decodeLoop dec length.toNat offset.toNat (part.get s, s.buf))

/-- `Dispose(u, Flush)`: idempotent; a live unit flushes, and a short flush raises EndOfStream
(47_system_commands.md R334). -/
def State.disposeUnit (s : State) (u : UnitId) (flush : Bsi → Run Bsi Unit) : State :=
  if (s.ustat u).disposed then s.answer 0
  else
    let s' := s.setUstat u (s.ustat u).dispose
    if (s.ustat u).dead then s'.answer 0
    else match flush s'.bsi with
      | .ok _ b => { s' with bsi := b }.answer 0
      | .stop _ b => { s' with bsi := b }.raise u .endOfStream

/-- The flush of a unit with nothing to flush (47_system_commands.md R334). -/
def noFlush (b : Bsi) : Run Bsi Unit := .ok () b

/-- `Status(u)` (47_system_commands.md R336). -/
def State.status (s : State) (u : UnitId) : State := s.respond (s.statusWord u) .none

/-- `GetBs(u)` (47_system_commands.md R337). -/
def State.getBs (s : State) (u : UnitId) : State := s.answer (channelOf u)

/-- The bit stream as a part of the state. -/
def bsiPart : Part Bsi := { get := fun s => s.bsi, put := fun b s => { s with bsi := b } }

end Sys2Proof.Machine
end

