-- ==== Sys2Proof/Machine/BitStream.lean ====
section
/-! DEFINITION. The nine commands of BSI (40_bit_stream.md R124 to R132). None has a gate, and none touches a coder unit. -/

namespace Sys2Proof.Machine

/-- A read by a BS command: the value is answered; EndOfStream is a refusal-shaped response, no unit dies
(40_bit_stream.md R126, R127; 60_exceptions.md R343). -/
def State.answerRead (s : State) : Run Bsi Nat → State
  | .ok v b => { s with bsi := b }.answer v
  | .stop _ b => { s with bsi := b }.refuse .endOfStream

/-- `BS_WRBIT` (40_bit_stream.md R124). -/
def execBsWrbit (bit : BitVec 1) (s : State) : Host.Outcome State Fault Refusal :=
  let w := writeBits bit.toNat 1 s.bsi
  .next ({ s with bsi := w.2 }.answer w.1)

/-- `BS_WRBITS` (40_bit_stream.md R125). -/
def execBsWrbits (value nbits : Word) (s : State) : Host.Outcome State Fault Refusal :=
  let w := writeBits value.toNat nbits.toNat s.bsi
  .next (if nbitsIllegal nbits then s.refuse .invalidArgument else { s with bsi := w.2 }.answer w.1)

/-- `BS_RDBIT` (40_bit_stream.md R126). -/
def execBsRdbit (s : State) : Host.Outcome State Fault Refusal :=
  .next (s.answerRead ((readBit s.bsi).andThen fun x b => .ok x.toNat b))

/-- `BS_RDBITS` (40_bit_stream.md R127). -/
def execBsRdbits (nbits : Word) (s : State) : Host.Outcome State Fault Refusal :=
  .next (if nbitsIllegal nbits then s.refuse .invalidArgument else s.answerRead (readBits nbits.toNat s.bsi))

/-- `BS_FLUSH`: nothing architectural changes (40_bit_stream.md R128). -/
def execBsFlush (s : State) : Host.Outcome State Fault Refusal :=
  .next (s.answer 0)

/-- `BS_CLOSE`: CH 0 closes the output channel, 1 the input channel (40_bit_stream.md R129). -/
def execBsClose (ch : BitVec 1) (s : State) : Host.Outcome State Fault Refusal :=
  .next ((if bitOf ch then { s with bsi := { s.bsi with inClosed := true } }
    else { s with bsi := { s.bsi with outClosed := true } }).answer 0)

/-- `BS_WRITTEN` (40_bit_stream.md R130). -/
def execBsWritten (s : State) : Host.Outcome State Fault Refusal :=
  .next (s.respond s.bsi.wcnt .none)

/-- `BS_READ` (40_bit_stream.md R131). -/
def execBsRead (s : State) : Host.Outcome State Fault Refusal :=
  .next (s.respond s.bsi.rcnt .none)

/-- `BS_HASMORE` (40_bit_stream.md R132). -/
def execBsHasmore (s : State) : Host.Outcome State Fault Refusal :=
  .next (s.answer s.bsi.hasMore.toNat)

end Sys2Proof.Machine
end

