-- ==== Sys2Proof/Machine/CmCoder.lean ====
section
/-! DEFINITION. The context-mixing binary arithmetic coder and the commands of CME and CMD (46_cm_coder.md). The predictor
is Machine/Predictor.lean. -/

namespace Sys2Proof.Machine

/-- `CmSplit(X)` (46_cm_coder.md R301). -/
def CmCoder.split (x : CmCoder) : Nat :=
  x.low.toNat + ((x.high.toNat - x.low.toNat) >>> 12) * x.p.pred.toNat

/-- The part of the interval the bit owns: the lower for 1, the upper for 0 (46_cm_coder.md R302). -/
def CmCoder.narrow (x : CmCoder) (bit : Bool) : CmCoder :=
  if bit then { x with high := BitVec.ofNat 32 x.split } else { x with low := BitVec.ofNat 32 (x.split + 1) }

/-- One bit resolved: narrow, then update the predictor (46_cm_coder.md R302, R305). -/
def CmCoder.resolve (tbl : Vector StateEntry 256) (x : CmCoder) (bit : Bool) : CmCoder :=
  { x.narrow bit with p := x.p.update tbl bit }

/-- The top bytes of `low` and `high` agree (46_cm_coder.md R303). -/
def CmCoder.settled (x : CmCoder) : Bool := decide (x.low.toNat >>> 24 = x.high.toNat >>> 24)

/-- The 8-bit shift: zeros into `low`, ones into `high` (46_cm_coder.md R303). -/
def CmCoder.shifted (x : CmCoder) : CmCoder :=
  { x with low := x.low <<< 8, high := x.high <<< 8 ||| 0xFF }

/-- `CmRenorm(X, shift)`: `shift` is the stream side of one 8-bit shift. The fuel is 4 shifts, after which `low` is 0 and
`high` all ones and the loop has ended (46_cm_coder.md R303). -/
def cmRenorm {σ : Type} (shift : CmCoder → σ → Run σ Unit) : Nat → CmCoder × σ → Run (CmCoder × σ) Unit
  | 0, t => .ok () t
  | fuel + 1, t =>
    if t.1.settled then
      match shift t.1 t.2 with
      | .stop r u => .stop r (t.1, u)
      | .ok _ u => cmRenorm shift fuel (t.1.shifted, u)
    else .ok () t

/-- The shifts of one renormalisation (46_cm_coder.md R303). -/
def cmShifts : Nat := 4

/-- What CME's procedures work on. -/
abbrev CmeSide := CmCoder × Bsi

/-- What CMD's procedures work on. -/
abbrev CmdSide := Cmd × Bsi

/-- CME's side as a part of the state. -/
def cmePart : Part CmeSide :=
  { get := fun s => (s.cme.coder, s.bsi), put := fun t s => { s with cme := { s.cme with coder := t.1 }, bsi := t.2 } }

/-- CMD's side as a part of the state. -/
def cmdPart : Part CmdSide :=
  { get := fun s => (s.cmd, s.bsi), put := fun t s => { s with cmd := t.1, bsi := t.2 } }

/-- CME's shift: the common top byte goes out (46_cm_coder.md R302). -/
def cmEmit (x : CmCoder) (b : Bsi) : Run Bsi Unit := writeAll (x.high.toNat >>> 24) 8 b

/-- CMD's shift: one byte comes into the window (46_cm_coder.md R305). -/
def cmConsume (_ : CmCoder) (t : Word × Bsi) : Run (Word × Bsi) Unit :=
  match readBits 8 t.2 with
  | .ok v b => .ok () (t.1 <<< 8 ||| BitVec.ofNat 32 v, b)
  | .stop r b => .stop r (t.1, b)

/-- `CmEncodeBit(bit)` (46_cm_coder.md R302). -/
def cmEncodeBit (tbl : Vector StateEntry 256) (bit : Bool) (t : CmeSide) : Run CmeSide Unit :=
  cmRenorm cmEmit cmShifts (t.1.resolve tbl bit, t.2)

/-- The bits `i - 1` down to 0 of a symbol, coded in that order (46_cm_coder.md R306). -/
def cmEncodeBits (tbl : Vector StateEntry 256) (v : Byte) : Nat → CmeSide → Run CmeSide Unit
  | 0, t => .ok () t
  | i + 1, t => (cmEncodeBit tbl (v.getLsbD i) t).andThen fun _ t => cmEncodeBits tbl v i t

/-- `CmEncodeSymbol(v)` (46_cm_coder.md R306). -/
def cmEncodeSymbol (tbl : Vector StateEntry 256) (v : Byte) (t : CmeSide) : Run CmeSide Unit :=
  cmEncodeBits tbl v 8 t

/-- `CmFlush()`: the 32 bits of `low` (46_cm_coder.md R307). -/
def cmFlush (low : Word) (b : Bsi) : Run Bsi Unit := writeAll low.toNat Config.cmPrimeBits b

/-- `CmPrime()` (46_cm_coder.md R304). -/
def cmPrime (t : CmdSide) : Run CmdSide Unit :=
  if t.1.ustat.primed then .ok () t
  else match readBits Config.cmPrimeBits t.2 with
    | .ok v b => .ok () ({ t.1 with current := BitVec.ofNat 32 v, ustat := t.1.ustat.prime }, b)
    | .stop r b => .stop r (t.1, b)

/-- The bit the window selects (46_cm_coder.md R305). -/
def Cmd.bit (d : Cmd) : Bool := decide (d.current.toNat ≤ d.coder.split)

/-- The interval, the window and the stream put back into CMD's side. -/
def Cmd.putBack (d : Cmd) (t : CmCoder × Word × Bsi) : CmdSide := ({ d with coder := t.1, current := t.2.1 }, t.2.2)

/-- `CmDecodeBit()` (46_cm_coder.md R305). -/
def cmDecodeBit (tbl : Vector StateEntry 256) (t : CmdSide) : Run CmdSide Bool :=
  let bit := t.1.bit
  ((cmRenorm cmConsume cmShifts (t.1.coder.resolve tbl bit, t.1.current, t.2)).within t.1.putBack).andThen fun _ u => .ok bit u

/-- `k` more bits after the value `v`, the first decoded the most significant (46_cm_coder.md R306). -/
def cmDecodeBits (tbl : Vector StateEntry 256) : Nat → Nat → CmdSide → Run CmdSide Nat
  | 0, v, t => .ok v t
  | k + 1, v, t => (cmDecodeBit tbl t).andThen fun bit t => cmDecodeBits tbl k (2 * v + bit.toNat) t

/-- `CmDecodeSymbol()` (46_cm_coder.md R306). -/
def cmDecodeSymbol (tbl : Vector StateEntry 256) (t : CmdSide) : Run CmdSide Byte :=
  (cmPrime t).andThen fun _ t => (cmDecodeBits tbl 8 0 t).andThen fun v t => .ok (BitVec.ofNat 8 v) t

/-- `CME_ENCBYTE` (46_cm_coder.md R310). -/
def execCmeEncbyte (sym : Byte) (s : State) : Host.Outcome State Fault Refusal :=
  .next (s.single .cme cmePart (cmEncodeSymbol s.cfg.stateTable sym) fun _ s => s.answer 1)

/-- `CME_ENCODE` (46_cm_coder.md R311). -/
def execCmeEncode (offset length : Word) (s : State) : Host.Outcome State Fault Refusal :=
  .next (s.bulkEncode .cme cmePart (cmEncodeSymbol s.cfg.stateTable) offset length)

/-- `CME_DISPOSE` (46_cm_coder.md R312). -/
def execCmeDispose (s : State) : Host.Outcome State Fault Refusal :=
  .next (s.disposeUnit .cme (cmFlush s.cme.coder.low))

/-- `CME_INIT` (46_cm_coder.md R313). -/
def execCmeInit (s : State) : Host.Outcome State Fault Refusal :=
  .next (s.initUnit .cme fun s => { s with cme := .reset s.cfg.stateTable })

/-- `CME_STATUS` (46_cm_coder.md R314). -/
def execCmeStatus (s : State) : Host.Outcome State Fault Refusal := .next (s.status .cme)

/-- `CME_GETBS` (46_cm_coder.md R315). -/
def execCmeGetbs (s : State) : Host.Outcome State Fault Refusal := .next (s.getBs .cme)

/-- `CMD_DECBYTE` (46_cm_coder.md R316). -/
def execCmdDecbyte (s : State) : Host.Outcome State Fault Refusal :=
  .next (s.single .cmd cmdPart (cmDecodeSymbol s.cfg.stateTable) fun v s => s.answer v.toNat)

/-- `CMD_DECODE` (46_cm_coder.md R317). -/
def execCmdDecode (offset length : Word) (s : State) : Host.Outcome State Fault Refusal :=
  .next (s.bulkDecode .cmd cmdPart (cmDecodeSymbol s.cfg.stateTable) offset length)

/-- `CMD_DISPOSE` (46_cm_coder.md R318). -/
def execCmdDispose (s : State) : Host.Outcome State Fault Refusal :=
  .next (s.disposeUnit .cmd noFlush)

/-- `CMD_INIT` (46_cm_coder.md R319). -/
def execCmdInit (s : State) : Host.Outcome State Fault Refusal :=
  .next (s.initUnit .cmd fun s => { s with cmd := .reset s.cfg.stateTable })

/-- `CMD_STATUS` (46_cm_coder.md R320). -/
def execCmdStatus (s : State) : Host.Outcome State Fault Refusal := .next (s.status .cmd)

/-- `CMD_GETBS` (46_cm_coder.md R321). -/
def execCmdGetbs (s : State) : Host.Outcome State Fault Refusal := .next (s.getBs .cmd)

end Sys2Proof.Machine
end

