-- ==== Sys2Proof/Machine/CodeBuilder.lean ====
section
/-! DEFINITION. The canonical Huffman code builder and the six commands of HCB (42_huffman_code_builder.md). None of the
commands has a gate or touches a stream. -/

namespace Sys2Proof.Machine

/-- A node of the tree of one build; it exists only inside the command that builds it (10_state.md R45). -/
inductive HTree where
  | leaf (sym : Nat)
  | node (l r : HTree)
  deriving DecidableEq, Repr

/-- A pending node with its weight. Weights are 64 bits wide and the largest is below 2^40, so exact numbers serve
(42_huffman_code_builder.md R172). -/
abbrev Pending := Nat × HTree

/-- Leaves go by (frequency, symbol), ascending (42_huffman_code_builder.md R171). -/
abbrev leafBefore (x y : Nat × Nat) : Prop := x.1 < y.1 ∨ (x.1 = y.1 ∧ x.2 ≤ y.2)

/-- The present symbols as (frequency, symbol), in leaf order (42_huffman_code_builder.md R171). -/
def presentLeaves (freq : Vector Word 256) : List (Nat × Nat) :=
  ((freq.toList.map BitVec.toNat).zipIdx.filter fun p => p.1 ≠ 0).insertionSort leafBefore

/-- `PopMin`: the lighter head of the two queues, the leaf on equal weights (42_huffman_code_builder.md R172). -/
def popMin : List Pending → List Pending → Option (Pending × List Pending × List Pending)
  | [], [] => none
  | a :: q1, [] => some (a, q1, [])
  | [], b :: q2 => some (b, [], q2)
  | a :: q1, b :: q2 => if a.1 ≤ b.1 then some (a, q1, b :: q2) else some (b, a :: q1, q2)

/-- The merge loop: two picks and one merged node at the tail of Q2, until one node remains
(42_huffman_code_builder.md R172). The fuel is the number of nodes pending. -/
def mergeNodes : Nat → List Pending → List Pending → Option HTree
  | 0, _, _ => none
  | fuel + 1, q1, q2 =>
    match popMin q1 q2 with
    | none => none
    | some (a, r1, r2) =>
      match popMin r1 r2 with
      | none => some a.2
      | some (b, t1, t2) => mergeNodes fuel t1 (t2 ++ [(a.1 + b.1, .node a.2 b.2)])

/-- The depth of every leaf, as (symbol, depth) (42_huffman_code_builder.md R172). -/
def HTree.depths : HTree → Nat → List (Nat × Nat)
  | .leaf s, d => [(s, d)]
  | .node l r, d => l.depths (d + 1) ++ r.depths (d + 1)

/-- The lengths before the height test, as (symbol, length): one present symbol gets length 1, more get their depths
(42_huffman_code_builder.md R172, R173). -/
def leafLengths (leaves : List (Nat × Nat)) : List (Nat × Nat) :=
  match leaves with
  | [] => []
  | [p] => [(p.2, 1)]
  | ps =>
    match mergeNodes ps.length (ps.map fun p => (p.1, .leaf p.2)) [] with
    | some t => t.depths 0
    | none => []

/-- The value listed for a symbol, 0 where none is. -/
def listedFor (l : List (Nat × Nat)) (s : Nat) : Nat := (l.lookup s).getD 0

/-- `BuildLengths(FREQ)`: `none` is `refuse` (42_huffman_code_builder.md R172, R173, R174). -/
def buildLengths (freq : Vector Word 256) : Option (Vector (BitVec 5) 256) :=
  let lens := leafLengths (presentLeaves freq)
  if lens.isEmpty || lens.any (fun p => decide (p.2 > Config.hufMaxLen)) then none
  else some (tabulate 256 fun s => BitVec.ofNat 5 (listedFor lens s))

/-- Codes go by decreasing length, then increasing symbol (42_huffman_code_builder.md R175). -/
abbrev codeBefore (x y : Nat × Nat) : Prop := y.1 < x.1 ∨ (x.1 = y.1 ∧ x.2 ≤ y.2)

/-- The symbols that have a code, as (length, symbol), in code order (42_huffman_code_builder.md R175). -/
def codedSymbols (sizes : Vector (BitVec 5) 256) : List (Nat × Nat) :=
  ((sizes.toList.map BitVec.toNat).zipIdx.filter fun p => p.1 ≠ 0).insertionSort codeBefore

/-- The loop of `AssignCodes`: the codes as (symbol, code); the shift is by the drop in length
(42_huffman_code_builder.md R175). -/
def assignLoop : List (Nat × Nat) → Nat → Nat → List (Nat × Nat)
  | [], _, _ => []
  | (l, s) :: rest, code, len =>
    if l < len then (s, code >>> (len - l)) :: assignLoop rest (code >>> (len - l) + 1) l
    else (s, code) :: assignLoop rest (code + 1) len

/-- `AssignCodes(sizes)` (42_huffman_code_builder.md R175). -/
def assignCodes (sizes : Vector (BitVec 5) 256) : Vector Word 256 :=
  let coded := codedSymbols sizes
  let codes := assignLoop coded 0 ((coded.head?.map Prod.fst).getD 0)
  tabulate 256 fun s => BitVec.ofNat 32 (listedFor codes s)

/-- How many symbols have a code. -/
def codedCount (sizes : Vector (BitVec 5) 256) : Nat := sizes.toList.countP fun z => decide (z ≠ 0)

/-- The Kraft sum scaled by 2^31 (42_huffman_code_builder.md R176, R177). -/
def kraftSum (sizes : Vector (BitVec 5) 256) : Nat :=
  ((sizes.toList.filter fun z => decide (z ≠ 0)).map fun z => 2 ^ (31 - z.toNat)).sum

/-- `LengthsValid(sizes)`: a single length of 1, or a full tree (42_huffman_code_builder.md R177). Lengths of 5 bits are
within 0 .. 31. -/
def lengthsValid (sizes : Vector (BitVec 5) 256) : Bool :=
  if codedCount sizes = 1 then sizes.toList.all fun z => decide (z = 0 ∨ z = 1)
  else decide (kraftSum sizes = 2 ^ 31)

/-- `HCB_SETFREQ` (42_huffman_code_builder.md R180). -/
def execHcbSetfreq (idx : Byte) (value : Word) (s : State) : Host.Outcome State Fault Refusal :=
  .next ({ s with hcb := { s.hcb with freq := symSet s.hcb.freq idx value } }.answer 0)

/-- `HCB_CLRFREQ` (42_huffman_code_builder.md R181). -/
def execHcbClrfreq (s : State) : Host.Outcome State Fault Refusal :=
  .next ({ s with hcb := { s.hcb with freq := tabulate 256 fun _ => 0 } }.answer 0)

/-- `HCB_BUILD` (42_huffman_code_builder.md R182). -/
def execHcbBuild (s : State) : Host.Outcome State Fault Refusal :=
  .next (match buildLengths s.hcb.freq with
    | none => s.refuse .invalidArgument
    | some z => { s with hcb := { s.hcb with sizes := z, codes := assignCodes z } }.answer (codedCount z))

/-- `HCB_GETSIZE` (42_huffman_code_builder.md R183). -/
def execHcbGetsize (idx : Byte) (s : State) : Host.Outcome State Fault Refusal :=
  .next (s.answer (symGet s.hcb.sizes idx).toNat)

/-- `HCB_GETCODE` (42_huffman_code_builder.md R184). -/
def execHcbGetcode (idx : Byte) (s : State) : Host.Outcome State Fault Refusal :=
  .next (s.answer (symGet s.hcb.codes idx).toNat)

/-- `HCB_GETFREQ` (42_huffman_code_builder.md R185). -/
def execHcbGetfreq (idx : Byte) (s : State) : Host.Outcome State Fault Refusal :=
  .next (s.answer (symGet s.hcb.freq idx).toNat)

end Sys2Proof.Machine
end

