-- ==== Sys2Proof/Machine/ExpGolomb.lean ====
section
/-! DEFINITION. The Exp-Golomb code and the commands of EGE and EGD (41_exp_golomb.md). The two procedures are also the
signed helper of the Huffman header (43_huffman_codec.md R192, R194). -/

namespace Sys2Proof.Machine

/-- `EgEncode(x, signed)`: L zeros, the L + 1 bits of |x| + 1, and in signed mode a sign bit unless x is 0; a short write
is reported (41_exp_golomb.md R142). -/
def egEncode (x : Int) (signed : Bool) (b : Bsi) : Run Bsi Unit :=
  let m := x.natAbs + 1
  let len := Nat.log2 m
  if signed && decide (x ≠ 0) then writeAll (2 * m + (if x < 0 then 1 else 0)) (2 * len + 2) b
  else writeAll m (2 * len + 1) b

/-- The zeros of a code before its 1: `k` of them are still allowed, and one more is InvalidStream (41_exp_golomb.md R146,
R147). -/
def egZeros : Nat → Bsi → Run Bsi Nat
  | 0, b => (readBit b).andThen fun x b => if x then .ok 0 b else .stop .invalidStream b
  | k + 1, b => (readBit b).andThen fun x b => if x then .ok 0 b else (egZeros k b).andThen fun n b => .ok (n + 1) b

/-- The value of a code whose magnitude has been read: the range test, and in signed mode the sign bit
(41_exp_golomb.md R146, R147). -/
def egFinish (signed : Bool) (mag : Nat) (b : Bsi) : Run Bsi Int :=
  if signed then
    if mag = 0 then .ok 0 b
    else (readBit b).andThen fun neg b =>
      let x : Int := if neg then -(mag : Int) else mag
      if x < -128 ∨ x > 127 then .stop .invalidStream b else .ok x b
  else if mag > 255 then .stop .invalidStream b
  else .ok mag b

/-- `EgDecode(signed)` (41_exp_golomb.md R146). -/
def egDecode (signed : Bool) (b : Bsi) : Run Bsi Int :=
  (egZeros Config.egMaxZ b).andThen fun len b =>
    (readBits len b).andThen fun t b => egFinish signed (2 ^ len - 1 + t) b

/-- The coding of one symbol by EGE in a mode (41_exp_golomb.md R150). -/
def egeSymbol (signed : Bool) (v : Byte) (b : Bsi) : Run Bsi Unit := egEncode (egValue v signed) signed b

/-- The decoding of one symbol by EGD in a mode (41_exp_golomb.md R156). -/
def egdSymbol (signed : Bool) (b : Bsi) : Run Bsi Byte := (egDecode signed b).andThen fun x b => .ok (symbolOf x) b

/-- `EGE_ENCBYTE` (41_exp_golomb.md R150). -/
def execEgeEncbyte (sym : Byte) (s : State) : Host.Outcome State Fault Refusal :=
  .next (s.single .ege bsiPart (egeSymbol s.ege.signedMode sym) fun _ s => s.answer 1)

/-- `EGE_ENCODE` (41_exp_golomb.md R151). -/
def execEgeEncode (offset length : Word) (s : State) : Host.Outcome State Fault Refusal :=
  .next (s.bulkEncode .ege bsiPart (egeSymbol s.ege.signedMode) offset length)

/-- `EGE_DISPOSE` (41_exp_golomb.md R152). -/
def execEgeDispose (s : State) : Host.Outcome State Fault Refusal :=
  .next (s.disposeUnit .ege noFlush)

/-- `EGE_INIT` (41_exp_golomb.md R153). -/
def execEgeInit (mode : Word) (s : State) : Host.Outcome State Fault Refusal :=
  .next (if modeIllegal mode then s.refuse .invalidArgument
    else s.initUnit .ege fun s => { s with ege := { s.ege with signedMode := modeBit mode } })

/-- `EGE_STATUS` (41_exp_golomb.md R154). -/
def execEgeStatus (s : State) : Host.Outcome State Fault Refusal := .next (s.status .ege)

/-- `EGE_GETBS` (41_exp_golomb.md R155). -/
def execEgeGetbs (s : State) : Host.Outcome State Fault Refusal := .next (s.getBs .ege)

/-- `EGD_DECBYTE` (41_exp_golomb.md R156). -/
def execEgdDecbyte (s : State) : Host.Outcome State Fault Refusal :=
  .next (s.single .egd bsiPart (egdSymbol s.egd.signedMode) fun v s => s.answer v.toNat)

/-- `EGD_DECODE` (41_exp_golomb.md R157). -/
def execEgdDecode (offset length : Word) (s : State) : Host.Outcome State Fault Refusal :=
  .next (s.bulkDecode .egd bsiPart (egdSymbol s.egd.signedMode) offset length)

/-- `EGD_DISPOSE` (41_exp_golomb.md R158). -/
def execEgdDispose (s : State) : Host.Outcome State Fault Refusal :=
  .next (s.disposeUnit .egd noFlush)

/-- `EGD_INIT` (41_exp_golomb.md R159). -/
def execEgdInit (mode : Word) (s : State) : Host.Outcome State Fault Refusal :=
  .next (if modeIllegal mode then s.refuse .invalidArgument
    else s.initUnit .egd fun s => { s with egd := { s.egd with signedMode := modeBit mode } })

/-- `EGD_STATUS` (41_exp_golomb.md R160). -/
def execEgdStatus (s : State) : Host.Outcome State Fault Refusal := .next (s.status .egd)

/-- `EGD_GETBS` (41_exp_golomb.md R161). -/
def execEgdGetbs (s : State) : Host.Outcome State Fault Refusal := .next (s.getBs .egd)

end Sys2Proof.Machine
end

