-- ==== Sys2Proof/Machine/Huffman.lean ====
section
/-! DEFINITION. The canonical Huffman encoder and decoder: symbols, block headers, block loops, and the commands of HFE and
HFD (43_huffman_codec.md). The lookahead cache is invisible (R206): decoding is bit by bit (log entry 8). -/

namespace Sys2Proof.Machine

/-- What HFE's procedures work on: HCB's tables, HFE and the bit stream (10_state.md R20). -/
abbrev HfeSide := Hcb × HufUnit × Bsi

/-- What HFD's procedures work on. -/
abbrev HfdSide := HufUnit × Bsi

/-- HFE's side as a part of the state. -/
def hfePart : Part HfeSide :=
  { get := fun s => (s.hcb, s.hfe, s.bsi), put := fun t s => { s with hcb := t.1, hfe := t.2.1, bsi := t.2.2 } }

/-- HFD's side as a part of the state. -/
def hfdPart : Part HfdSide :=
  { get := fun s => (s.hfd, s.bsi), put := fun t s => { s with hfd := t.1, bsi := t.2 } }

/-- `HfEncodeSymbol(v)` (43_huffman_codec.md R191). -/
def hfEncodeSymbol (v : Byte) (t : HfeSide) : Run HfeSide Unit :=
  let n := (symGet t.2.1.sizes v).toNat
  if n = 0 then .stop .noCode t
  else (writeAll (symGet t.2.1.codes v).toNat n t.2.2).within fun b => (t.1, t.2.1, b)

/-- The deltas of a header, each length minus the one before it, in signed Exp-Golomb (43_huffman_codec.md R192). -/
def writeDeltas (prev : Nat) : List Nat → Bsi → Run Bsi Unit
  | [], b => .ok () b
  | z :: rest, b => (egEncode ((z : Int) - (prev : Int)) true b).andThen fun _ b => writeDeltas z rest b

/-- `HfWriteHeader(z)` (43_huffman_codec.md R192). -/
def hfWriteHeader (z : Vector (BitVec 5) 256) (b : Bsi) : Run Bsi Unit :=
  let lens := z.toList.map BitVec.toNat
  (writeAll (lens.headD 0) Config.hufLenBits b).andThen fun _ b => writeDeltas (lens.headD 0) lens.tail b

/-- `HfUpdate()`: build from HCB.FREQ, install in HCB and HFE, send the header (43_huffman_codec.md R193). -/
def hfUpdate (t : HfeSide) : Run HfeSide Unit :=
  match buildLengths t.1.freq with
  | none => .stop .refused t
  | some z =>
    let codes := assignCodes z
    (hfWriteHeader z t.2.2).within fun b =>
      ({ t.1 with sizes := z, codes := codes }, { t.2.1 with sizes := z, codes := codes }, b)

/-- The 255 running lengths of a header after the first, each within 0 .. 31 (43_huffman_codec.md R194). -/
def readDeltas : Nat → Nat → Bsi → Run Bsi (List Nat)
  | 0, _, b => .ok [] b
  | k + 1, prev, b => (egDecode true b).andThen fun d b =>
      let z := (prev : Int) + d
      if z < 0 ∨ z > (Config.hufMaxLen : Int) then .stop .invalidStream b
      else (readDeltas k z.toNat b).andThen fun rest b => .ok (z.toNat :: rest) b

/-- The length table of a header (43_huffman_codec.md R194). -/
def readHeader (b : Bsi) : Run Bsi (Vector (BitVec 5) 256) :=
  (readBits Config.hufLenBits b).andThen fun z0 b =>
    (readDeltas 255 z0 b).andThen fun rest b =>
      .ok (tabulate 256 fun i => BitVec.ofNat 5 ((z0 :: rest).getD i 0)) b

/-- `HfReadLengths()`: the tables change only when the whole header is read and valid; the value is how many symbols have
a code (43_huffman_codec.md R194, R215). -/
def hfReadLengths (t : HfdSide) : Run HfdSide Nat :=
  ((readHeader t.2).within fun b => (t.1, b)).andThen fun z t =>
    if lengthsValid z then .ok (codedCount z) ({ t.1 with sizes := z, codes := assignCodes z }, t.2)
    else .stop .invalidStream t

/-- The lengths and codes of a table, symbol by symbol. -/
def HufUnit.codeList (u : HufUnit) : List (Nat × Nat) :=
  (u.sizes.toList.map BitVec.toNat).zip (u.codes.toList.map BitVec.toNat)

/-- The walk of `HfDecodeSymbol`: `len` bits read so far spell `c`. The fuel is the bits a code may still have: no length is
above 31, so the walk ends before it does (43_huffman_codec.md R195). -/
def hfWalk (l : List (Nat × Nat)) : Nat → Nat → Nat → Bsi → Run Bsi Byte
  | 0, _, _, b => .stop .invalidStream b
  | fuel + 1, len, c, b => (readBit b).andThen fun x b =>
      let len' := len + 1
      let c' := 2 * c + x.toNat
      match l.findIdx? fun e => decide (e.1 = len' ∧ e.2 = c') with
      | some s => .ok (BitVec.ofNat 8 s) b
      | none =>
        if l.any fun e => decide (e.1 > len' ∧ e.2 >>> (e.1 - len') = c') then hfWalk l fuel len' c' b
        else .stop .invalidStream b

/-- `HfDecodeSymbol()` (43_huffman_codec.md R195). -/
def hfDecodeSymbol (t : HfdSide) : Run HfdSide Byte :=
  (hfWalk t.1.codeList Config.hufMaxLen 0 0 t.2).within fun b => (t.1, b)

/-- The counts of the `k` symbols from address `a` on, which replace FREQ at the start of a block
(43_huffman_codec.md R196). -/
def blockCounts (buf : List Host.Cell) (a k : Nat) : Vector Word 256 :=
  let block := (List.range k).map fun i => memRead buf (a + i)
  tabulate 256 fun s => BitVec.ofNat 32 (block.count (BitVec.ofNat 8 s))

/-- The loop of `HfBulkEncode`: `rem` symbols from address `a` on, `n` coded before; every block is counted, announced and
coded. The fuel is the symbols left, at least one of which each block codes (43_huffman_codec.md R196). -/
def hfEncodeBlocks (buf : List Host.Cell) : Nat → Nat → Nat → Nat → HfeSide → Nat × Option Stop × HfeSide
  | 0, _, _, n, t => (n, none, t)
  | fuel + 1, rem, a, n, t =>
    if rem = 0 then (n, none, t)
    else
      let k := min t.2.1.block.toNat rem
      match hfUpdate ({ t.1 with freq := blockCounts buf a k }, t.2) with
      | .stop r t => (n, some r, t)
      | .ok _ t =>
        match encodeLoop hfEncodeSymbol buf k a n t with
        | (n, some r, t) => (n, some r, t)
        | (n, none, t) => hfEncodeBlocks buf fuel (rem - k) (a + k) n t

/-- The loop of `HfBulkDecode`: `rem` symbols to addresses `a` on, a header before each block (43_huffman_codec.md R197).
The fuel is the symbols left. -/
def hfDecodeBlocks : Nat → Nat → Nat → HfdSide × List Host.Cell → Run (HfdSide × List Host.Cell) Unit
  | 0, _, _, t => .ok () t
  | fuel + 1, rem, a, t =>
    if rem = 0 then .ok () t
    else
      let k := min t.1.1.block.toNat rem
      ((hfReadLengths t.1).within fun u => (u, t.2)).andThen fun _ t =>
        (decodeLoop hfDecodeSymbol k a t).andThen fun _ t => hfDecodeBlocks fuel (rem - k) (a + k) t

/-- `HFE_ENCBYTE` (43_huffman_codec.md R200). -/
def execHfeEncbyte (sym : Byte) (s : State) : Host.Outcome State Fault Refusal :=
  .next (s.single .hfe hfePart (hfEncodeSymbol sym) fun _ s => s.answer 1)

/-- `HFE_ENCODE` (43_huffman_codec.md R201). -/
def execHfeEncode (offset length : Word) (s : State) : Host.Outcome State Fault Refusal :=
  .next (s.gated .hfe fun s => s.bounded offset length fun s =>
    let e := hfEncodeBlocks s.buf length.toNat length.toNat offset.toNat 0 (hfePart.get s)
    (hfePart.put e.2.2 s).endEncode .hfe e.1 e.2.1)

/-- `HFE_DISPOSE` (43_huffman_codec.md R202). -/
def execHfeDispose (s : State) : Host.Outcome State Fault Refusal :=
  .next (s.disposeUnit .hfe noFlush)

/-- `HFE_INIT` (43_huffman_codec.md R203). -/
def execHfeInit (blockSize : Word) (s : State) : Host.Outcome State Fault Refusal :=
  .next (if blockIllegal blockSize then s.refuse .invalidArgument
    else s.initUnit .hfe fun s => { s with hfe := .fresh blockSize })

/-- `HFE_STATUS` (43_huffman_codec.md R204). -/
def execHfeStatus (s : State) : Host.Outcome State Fault Refusal := .next (s.status .hfe)

/-- `HFE_UPDATE` (43_huffman_codec.md R205). -/
def execHfeUpdate (s : State) : Host.Outcome State Fault Refusal :=
  .next (s.single .hfe hfePart hfUpdate fun _ s => s.answer 1)

/-- `HFE_GETBS` (43_huffman_codec.md R207). -/
def execHfeGetbs (s : State) : Host.Outcome State Fault Refusal := .next (s.getBs .hfe)

/-- `HFD_DECBYTE` (43_huffman_codec.md R210). -/
def execHfdDecbyte (s : State) : Host.Outcome State Fault Refusal :=
  .next (s.single .hfd hfdPart hfDecodeSymbol fun v s => s.answer v.toNat)

/-- `HFD_DECODE` (43_huffman_codec.md R211). -/
def execHfdDecode (offset length : Word) (s : State) : Host.Outcome State Fault Refusal :=
  .next (s.gated .hfd fun s => s.bounded offset length fun s =>
    s.endDecode .hfd hfdPart length
      (hfDecodeBlocks length.toNat length.toNat offset.toNat (hfdPart.get s, s.buf)))

/-- `HFD_DISPOSE` (43_huffman_codec.md R212). -/
def execHfdDispose (s : State) : Host.Outcome State Fault Refusal :=
  .next (s.disposeUnit .hfd noFlush)

/-- `HFD_INIT` (43_huffman_codec.md R213). -/
def execHfdInit (blockSize : Word) (s : State) : Host.Outcome State Fault Refusal :=
  .next (if blockIllegal blockSize then s.refuse .invalidArgument
    else s.initUnit .hfd fun s => { s with hfd := .fresh blockSize })

/-- `HFD_STATUS` (43_huffman_codec.md R214). -/
def execHfdStatus (s : State) : Host.Outcome State Fault Refusal := .next (s.status .hfd)

/-- `HFD_READLEN` (43_huffman_codec.md R215). -/
def execHfdReadlen (s : State) : Host.Outcome State Fault Refusal :=
  .next (s.single .hfd hfdPart hfReadLengths fun n s => s.answer n)

/-- `HFD_GETBS` (43_huffman_codec.md R216). -/
def execHfdGetbs (s : State) : Host.Outcome State Fault Refusal := .next (s.getBs .hfd)

end Sys2Proof.Machine
end

