-- ==== Sys2Proof/Machine/RangeCoder.lean ====
section
/-! DEFINITION. The adaptive range coder: the frequency table AFT, the interval, and the commands of RCE and RCD
(44_range_coder.md). -/

namespace Sys2Proof.Machine

/-! ## The adaptive frequency table -/

/-- `cum(i) = baseFreq[i >> 4] + deltaFreq[i]`, for i in 0 .. 257 (44_range_coder.md R231). -/
def Aft.cum (f : Aft) (i : Nat) : Nat :=
  ((f.base[i >>> 4]?).getD 0).toNat + ((f.delta[i]?).getD 0).toNat

/-- `total = cum(257)` (44_range_coder.md R231). -/
def Aft.total (f : Aft) : Nat := f.cum 257

/-- A table with 1 added to the entries whose index passes a test. -/
def bumpWhere {n : Nat} (t : Vector Word n) (p : Nat → Bool) : Vector Word n :=
  tabulate n fun i => let x := (t[i]?).getD 0; if p i then x + 1 else x

/-- `AftUpdate(v)`: baseFreq from the first group wholly above `v` to the end, deltaFreq from `v + 1` to the end of its
group (44_range_coder.md R232). -/
def Aft.update (f : Aft) (v : Nat) : Aft :=
  let value := v + 1
  let start := (value + 15) >>> 4
  { base := bumpWhere f.base fun j => decide (start ≤ j)
    delta := bumpWhere f.delta fun j => decide (value ≤ j ∧ j < 16 * start) }

/-- `AftFind(count)`: the slot whose interval of cumulative counts holds `count`; it exists whenever the counts rise from
0 to above `count` (44_range_coder.md R233). -/
def Aft.find (f : Aft) (count : Nat) : Option Nat :=
  (List.range 257).find? fun v => decide (f.cum v ≤ count ∧ count < f.cum (v + 1))

/-! ## The interval -/

/-- `Narrow(X, v)` (44_range_coder.md R235). -/
def RcCoder.narrow (x : RcCoder) (v : Nat) : RcCoder :=
  let r := x.range.toNat / x.aft.total
  let lo := x.aft.cum v
  let hi := x.aft.cum (v + 1)
  { x with low := BitVec.ofNat 64 (x.low.toNat + lo * r), range := BitVec.ofNat 64 ((hi - lo) * r) }

/-- The top bytes of `low` and of `low + range` agree, compared unmasked (44_range_coder.md R236). -/
def RcCoder.settled (x : RcCoder) : Bool :=
  decide (x.low.toNat >>> 48 = (x.low.toNat + x.range.toNat) >>> 48)

/-- What one pass of the renormalisation does before its shift: nothing where the top byte is settled, the underflow cut
where `range` is too small, and `none` where the loop ends (44_range_coder.md R236). -/
def RcCoder.passStart (x : RcCoder) : Option RcCoder :=
  if x.settled then some x
  else if x.range.toNat < Config.rcMinRange then
    some { x with range := BitVec.ofNat 64 ((2 ^ Config.rcBits - x.low.toNat) % Config.rcMinRange) }
  else none

/-- The 8-bit shift of both registers (44_range_coder.md R236). -/
def RcCoder.shifted (x : RcCoder) : RcCoder :=
  { x with
    low := BitVec.ofNat 64 ((x.low.toNat <<< 8) % 2 ^ Config.rcBits)
    range := BitVec.ofNat 64 (x.range.toNat <<< 8) }

/-- `RcRenorm(X, shift)`: `shift` is the stream side of one 8-bit shift, and sees the interval before it. The fuel is 7
passes, which R237 shows to be enough after every narrowing (44_range_coder.md R236; log entry 7). -/
def rcRenorm {σ : Type} (shift : RcCoder → σ → Run σ Unit) : Nat → RcCoder × σ → Run (RcCoder × σ) Unit
  | 0, t => .ok () t
  | fuel + 1, t =>
    match t.1.passStart with
    | none => .ok () t
    | some x =>
      match shift x t.2 with
      | .stop r u => .stop r (x, u)
      | .ok _ u => rcRenorm shift fuel (x.shifted, u)

/-- The passes of one renormalisation (44_range_coder.md R237). -/
def rcPasses : Nat := 7

/-! ## Symbols -/

/-- What RCE's procedures work on. -/
abbrev RceSide := RcCoder × Bsi

/-- What RCD's procedures work on. -/
abbrev RcdSide := Rcd × Bsi

/-- RCE's side as a part of the state. -/
def rcePart : Part RceSide :=
  { get := fun s => (s.rce.coder, s.bsi), put := fun t s => { s with rce := { s.rce with coder := t.1 }, bsi := t.2 } }

/-- RCD's side as a part of the state. -/
def rcdPart : Part RcdSide :=
  { get := fun s => (s.rcd, s.bsi), put := fun t s => { s with rcd := t.1, bsi := t.2 } }

/-- RCE's shift: the byte `low[55:48]` goes out (44_range_coder.md R238). -/
def rcEmit (x : RcCoder) (b : Bsi) : Run Bsi Unit := writeAll (x.low.toNat >>> 48) 8 b

/-- RCD's shift: one byte comes into the window (44_range_coder.md R240). -/
def rcConsume (_ : RcCoder) (t : Quad × Bsi) : Run (Quad × Bsi) Unit :=
  match readBits 8 t.2 with
  | .ok v b => .ok () (BitVec.ofNat 64 ((t.1.toNat <<< 8) % 2 ^ Config.rcBits + v), b)
  | .stop r b => .stop r (t.1, b)

/-- `AftUpdate(v)` on a coder's own table. -/
def RcCoder.learn (x : RcCoder) (v : Nat) : RcCoder := { x with aft := x.aft.update v }

/-- `RcEncodeSymbol(v)` (44_range_coder.md R238). -/
def rcEncodeSymbol (v : Byte) (t : RceSide) : Run RceSide Unit :=
  if t.1.aft.total ≥ Config.rcMaxTotal then .stop .refused t
  else (rcRenorm rcEmit rcPasses (t.1.narrow v.toNat, t.2)).andThen fun _ t => .ok () (t.1.learn v.toNat, t.2)

/-- `RcPrime()` (44_range_coder.md R239). -/
def rcPrime (t : RcdSide) : Run RcdSide Unit :=
  if t.1.ustat.primed then .ok () t
  else match readBits Config.rcFlushBits t.2 with
    | .ok v b => .ok () ({ t.1 with code := BitVec.ofNat 64 v, ustat := t.1.ustat.prime }, b)
    | .stop r b => .stop r (t.1, b)

/-- The interval, the window and the stream put back into RCD's side. -/
def Rcd.putBack (d : Rcd) (t : RcCoder × Quad × Bsi) : RcdSide := ({ d with coder := t.1, code := t.2.1 }, t.2.2)

/-- The slot of AFT the window selects, or the fault: outside every slot InvalidStream, the sentinel EndOfStream
(44_range_coder.md R240). -/
def Rcd.slot (d : Rcd) : Except Stop Nat :=
  let tot := d.coder.aft.total
  let count := ((d.code - d.coder.low).toNat % 2 ^ Config.rcBits) / (d.coder.range.toNat / tot)
  if count ≥ tot then .error .invalidStream
  else match d.coder.aft.find count with
    | none => .error .invalidStream
    | some v => if v = 256 then .error .endOfStream else .ok v

/-- The decoding of one symbol once the window is loaded (44_range_coder.md R240). -/
def rcDecodePrimed (t : RcdSide) : Run RcdSide Byte :=
  match t.1.slot with
  | .error r => .stop r t
  | .ok v =>
    ((rcRenorm rcConsume rcPasses (t.1.coder.narrow v, t.1.code, t.2)).within t.1.putBack).andThen fun _ u =>
      .ok (BitVec.ofNat 8 v) ({ u.1 with coder := u.1.coder.learn v }, u.2)

/-- `RcDecodeSymbol()` (44_range_coder.md R240). -/
def rcDecodeSymbol (t : RcdSide) : Run RcdSide Byte :=
  if t.1.coder.aft.total ≥ Config.rcMaxTotal then .stop .refused t
  else (rcPrime t).andThen fun _ t => rcDecodePrimed t

/-- `RcFlush()`: the 56 bits of `low` (44_range_coder.md R241). -/
def rcFlush (low : Quad) (b : Bsi) : Run Bsi Unit := writeAll low.toNat Config.rcFlushBits b

/-! ## Commands -/

/-- `RCE_ENCBYTE` (44_range_coder.md R250). -/
def execRceEncbyte (sym : Byte) (s : State) : Host.Outcome State Fault Refusal :=
  .next (s.single .rce rcePart (rcEncodeSymbol sym) fun _ s => s.answer 1)

/-- `RCE_ENCODE` (44_range_coder.md R251). -/
def execRceEncode (offset length : Word) (s : State) : Host.Outcome State Fault Refusal :=
  .next (s.bulkEncode .rce rcePart rcEncodeSymbol offset length)

/-- `RCE_DISPOSE` (44_range_coder.md R252). -/
def execRceDispose (s : State) : Host.Outcome State Fault Refusal :=
  .next (s.disposeUnit .rce (rcFlush s.rce.coder.low))

/-- `RCE_INIT` (44_range_coder.md R253). -/
def execRceInit (s : State) : Host.Outcome State Fault Refusal :=
  .next (s.initUnit .rce fun s => { s with rce := .reset })

/-- `RCE_STATUS` (44_range_coder.md R254). -/
def execRceStatus (s : State) : Host.Outcome State Fault Refusal := .next (s.status .rce)

/-- `RCE_GETBS` (44_range_coder.md R255). -/
def execRceGetbs (s : State) : Host.Outcome State Fault Refusal := .next (s.getBs .rce)

/-- `RCD_DECBYTE` (44_range_coder.md R256). -/
def execRcdDecbyte (s : State) : Host.Outcome State Fault Refusal :=
  .next (s.single .rcd rcdPart rcDecodeSymbol fun v s => s.answer v.toNat)

/-- `RCD_DECODE` (44_range_coder.md R257). -/
def execRcdDecode (offset length : Word) (s : State) : Host.Outcome State Fault Refusal :=
  .next (s.bulkDecode .rcd rcdPart rcDecodeSymbol offset length)

/-- `RCD_DISPOSE` (44_range_coder.md R258). -/
def execRcdDispose (s : State) : Host.Outcome State Fault Refusal :=
  .next (s.disposeUnit .rcd noFlush)

/-- `RCD_INIT` (44_range_coder.md R259). -/
def execRcdInit (s : State) : Host.Outcome State Fault Refusal :=
  .next (s.initUnit .rcd fun s => { s with rcd := .reset })

/-- `RCD_STATUS` (44_range_coder.md R260). -/
def execRcdStatus (s : State) : Host.Outcome State Fault Refusal := .next (s.status .rcd)

/-- `RCD_GETBS` (44_range_coder.md R261). -/
def execRcdGetbs (s : State) : Host.Outcome State Fault Refusal := .next (s.getBs .rcd)

end Sys2Proof.Machine
end

