-- ==== Sys2Proof/Machine/System.lean ====
section
/-! DEFINITION. The two system commands (47_system_commands.md R338, R339). -/

namespace Sys2Proof.Machine

/-- `SYS_RESET` (47_system_commands.md R338). -/
def execSysReset (s : State) : Host.Outcome State Fault Refusal := .next (s.hardReset.answer 0)

/-- `SYS_STATUS` (47_system_commands.md R339). -/
def execSysStatus (s : State) : Host.Outcome State Fault Refusal := .next (s.respond s.sysStatusWord .none)

end Sys2Proof.Machine
end

