-- ==== Sys2Proof/Machine/Dispatch.lean ====
section
/-! DEFINITION. The meaning of each command: one arm per constructor of Instr, each one direct call. -/

namespace Sys2Proof.Machine

def exec (i : Instr) (s : State) : Host.Outcome State Fault Refusal :=
  match i with
  | .bsWrbit bit => Sys2Proof.Machine.execBsWrbit bit s
  | .bsWrbits value nbits => Sys2Proof.Machine.execBsWrbits value nbits s
  | .bsRdbit => Sys2Proof.Machine.execBsRdbit s
  | .bsRdbits nbits => Sys2Proof.Machine.execBsRdbits nbits s
  | .bsFlush => Sys2Proof.Machine.execBsFlush s
  | .bsClose ch => Sys2Proof.Machine.execBsClose ch s
  | .bsWritten => Sys2Proof.Machine.execBsWritten s
  | .bsRead => Sys2Proof.Machine.execBsRead s
  | .bsHasmore => Sys2Proof.Machine.execBsHasmore s
  | .egeEncbyte sym => Sys2Proof.Machine.execEgeEncbyte sym s
  | .egeEncode offset length => Sys2Proof.Machine.execEgeEncode offset length s
  | .egeDispose => Sys2Proof.Machine.execEgeDispose s
  | .egeInit mode => Sys2Proof.Machine.execEgeInit mode s
  | .egeStatus => Sys2Proof.Machine.execEgeStatus s
  | .egeGetbs => Sys2Proof.Machine.execEgeGetbs s
  | .egdDecbyte => Sys2Proof.Machine.execEgdDecbyte s
  | .egdDecode offset length => Sys2Proof.Machine.execEgdDecode offset length s
  | .egdDispose => Sys2Proof.Machine.execEgdDispose s
  | .egdInit mode => Sys2Proof.Machine.execEgdInit mode s
  | .egdStatus => Sys2Proof.Machine.execEgdStatus s
  | .egdGetbs => Sys2Proof.Machine.execEgdGetbs s
  | .hcbSetfreq idx value => Sys2Proof.Machine.execHcbSetfreq idx value s
  | .hcbClrfreq => Sys2Proof.Machine.execHcbClrfreq s
  | .hcbBuild => Sys2Proof.Machine.execHcbBuild s
  | .hcbGetsize idx => Sys2Proof.Machine.execHcbGetsize idx s
  | .hcbGetcode idx => Sys2Proof.Machine.execHcbGetcode idx s
  | .hcbGetfreq idx => Sys2Proof.Machine.execHcbGetfreq idx s
  | .hfeEncbyte sym => Sys2Proof.Machine.execHfeEncbyte sym s
  | .hfeEncode offset length => Sys2Proof.Machine.execHfeEncode offset length s
  | .hfeDispose => Sys2Proof.Machine.execHfeDispose s
  | .hfeInit blockSize => Sys2Proof.Machine.execHfeInit blockSize s
  | .hfeStatus => Sys2Proof.Machine.execHfeStatus s
  | .hfeUpdate => Sys2Proof.Machine.execHfeUpdate s
  | .hfeGetbs => Sys2Proof.Machine.execHfeGetbs s
  | .hfdDecbyte => Sys2Proof.Machine.execHfdDecbyte s
  | .hfdDecode offset length => Sys2Proof.Machine.execHfdDecode offset length s
  | .hfdDispose => Sys2Proof.Machine.execHfdDispose s
  | .hfdInit blockSize => Sys2Proof.Machine.execHfdInit blockSize s
  | .hfdStatus => Sys2Proof.Machine.execHfdStatus s
  | .hfdReadlen => Sys2Proof.Machine.execHfdReadlen s
  | .hfdGetbs => Sys2Proof.Machine.execHfdGetbs s
  | .rceEncbyte sym => Sys2Proof.Machine.execRceEncbyte sym s
  | .rceEncode offset length => Sys2Proof.Machine.execRceEncode offset length s
  | .rceDispose => Sys2Proof.Machine.execRceDispose s
  | .rceInit => Sys2Proof.Machine.execRceInit s
  | .rceStatus => Sys2Proof.Machine.execRceStatus s
  | .rceGetbs => Sys2Proof.Machine.execRceGetbs s
  | .rcdDecbyte => Sys2Proof.Machine.execRcdDecbyte s
  | .rcdDecode offset length => Sys2Proof.Machine.execRcdDecode offset length s
  | .rcdDispose => Sys2Proof.Machine.execRcdDispose s
  | .rcdInit => Sys2Proof.Machine.execRcdInit s
  | .rcdStatus => Sys2Proof.Machine.execRcdStatus s
  | .rcdGetbs => Sys2Proof.Machine.execRcdGetbs s
  | .cmeEncbyte sym => Sys2Proof.Machine.execCmeEncbyte sym s
  | .cmeEncode offset length => Sys2Proof.Machine.execCmeEncode offset length s
  | .cmeDispose => Sys2Proof.Machine.execCmeDispose s
  | .cmeInit => Sys2Proof.Machine.execCmeInit s
  | .cmeStatus => Sys2Proof.Machine.execCmeStatus s
  | .cmeGetbs => Sys2Proof.Machine.execCmeGetbs s
  | .cmdDecbyte => Sys2Proof.Machine.execCmdDecbyte s
  | .cmdDecode offset length => Sys2Proof.Machine.execCmdDecode offset length s
  | .cmdDispose => Sys2Proof.Machine.execCmdDispose s
  | .cmdInit => Sys2Proof.Machine.execCmdInit s
  | .cmdStatus => Sys2Proof.Machine.execCmdStatus s
  | .cmdGetbs => Sys2Proof.Machine.execCmdGetbs s
  | .sysReset => Sys2Proof.Machine.execSysReset s
  | .sysStatus => Sys2Proof.Machine.execSysStatus s

end Sys2Proof.Machine
end

