-- ==== Sys2Proof/Machine/Present.lean ====
section
/-! DEFINITION. What one presented command word does, and what a host action between commands does. ECORE fetches nothing
from memory (20_memory.md R84): the word comes from the host. -/

namespace Sys2Proof.Machine

/-- One command word: the command it stands for runs, and a reserved opcode is answered IllegalCommand
(30_encoding.md R94, 47_system_commands.md R330). -/
def State.present (s : State) (w : CmdWord) : Host.Outcome State Fault Refusal :=
  match decode w with
  | .ok i => exec i s
  | .error _ => .next s.illegalCommand

/-- A host write of one byte of BUF between commands; an address at or above BUF_SIZE does not exist
(20_memory.md R77, R86; log entry 5). -/
def State.hostWrite (s : State) (addr : Nat) (v : Byte) : Host.Outcome State Fault Refusal :=
  if addr < s.cfg.bufSize then .next { s with buf := memWrite s.buf addr v } else .fault .absentBufAddress

/-- What a host action does to ECORE (20_memory.md R86, 70_reset_and_hazards.md R370). -/
def State.take (s : State) : HostAction → Host.Outcome State Fault Refusal
  | .command w => s.present w
  | .writeBuf addr v => s.hostWrite addr v
  | .resetInput => .next s.hardReset

/-- The command word that stands for a table word of `nbits` bits (log entry 10). -/
def tableWord (nbits w : Nat) : CmdWord := BitVec.ofNat 72 (w % 2 ^ nbits)

end Sys2Proof.Machine
end

