-- ==== Sys2Proof/Machine/Step.lean ====
section
/-! DEFINITION. One step of the model: the host's next action (00_scope.md R8, 20_memory.md R80, 70_reset_and_hazards.md
R374; log entries 3 and 4). -/

namespace Sys2Proof.Machine

/-- ECORE takes the first host action pending. With none pending it holds its state (60_exceptions.md R357). -/
def step (s : State) : Host.Outcome State Fault Refusal :=
  match s.pending with
  | [] => .next s
  | a :: rest => { s with pending := rest }.take a

/-- The state with a command word presented first: the very next step runs it. -/
def State.withFetchWord (s : State) (nbits w : Nat) : State :=
  { s with pending := .command (tableWord nbits w) :: s.pending }

end Sys2Proof.Machine
end

