-- ==== Sys2Proof/WellFormed.lean ====
section
/-! DEFINITION. Well-formed instructions: those whose operands pass, by themselves, the operand checks of stage 3
(47_system_commands.md R330). An ill-formed instruction is still a command: ECORE answers it with InvalidArgument
(60_exceptions.md R342), and it still encodes and decodes. -/

namespace Sys2Proof

/-- NBITS of BS_WRBITS and BS_RDBITS is 1 to 32 (40_bit_stream.md R125, R127). -/
def nbitsOk (n : Word) : Bool := decide (1 ≤ n.toNat ∧ n.toNat ≤ 32)

/-- The mode operand of EGE_INIT and EGD_INIT has A[31:1] = 0 (41_exp_golomb.md R153, R159). -/
def modeOk (a : Word) : Bool := decide (a.toNat ≤ 1)

/-- The block size of HFE_INIT and HFD_INIT, read as `sext_32`, is 1 to HUF_BLOCK_MAX (43_huffman_codec.md R203, R213). -/
def blockSizeOk (a : Word) : Bool := decide (0 < a.toInt ∧ a.toInt ≤ (Config.hufBlockMax : Int))

/-- The operands are legal whatever the state: no operand check that looks at the operands alone refuses them. -/
def Instr.wf : Instr → Bool
  | .bsWrbits _ nbits => nbitsOk nbits
  | .bsRdbits nbits => nbitsOk nbits
  | .egeInit mode => modeOk mode
  | .egdInit mode => modeOk mode
  | .hfeInit blockSize => blockSizeOk blockSize
  | .hfdInit blockSize => blockSizeOk blockSize
  | .bsWrbit _ => true
  | .bsRdbit => true
  | .bsFlush => true
  | .bsClose _ => true
  | .bsWritten => true
  | .bsRead => true
  | .bsHasmore => true
  | .egeEncbyte _ => true
  | .egeEncode _ _ => true
  | .egeDispose => true
  | .egeStatus => true
  | .egeGetbs => true
  | .egdDecbyte => true
  | .egdDecode _ _ => true
  | .egdDispose => true
  | .egdStatus => true
  | .egdGetbs => true
  | .hcbSetfreq _ _ => true
  | .hcbClrfreq => true
  | .hcbBuild => true
  | .hcbGetsize _ => true
  | .hcbGetcode _ => true
  | .hcbGetfreq _ => true
  | .hfeEncbyte _ => true
  | .hfeEncode _ _ => true
  | .hfeDispose => true
  | .hfeStatus => true
  | .hfeUpdate => true
  | .hfeGetbs => true
  | .hfdDecbyte => true
  | .hfdDecode _ _ => true
  | .hfdDispose => true
  | .hfdStatus => true
  | .hfdReadlen => true
  | .hfdGetbs => true
  | .rceEncbyte _ => true
  | .rceEncode _ _ => true
  | .rceDispose => true
  | .rceInit => true
  | .rceStatus => true
  | .rceGetbs => true
  | .rcdDecbyte => true
  | .rcdDecode _ _ => true
  | .rcdDispose => true
  | .rcdInit => true
  | .rcdStatus => true
  | .rcdGetbs => true
  | .cmeEncbyte _ => true
  | .cmeEncode _ _ => true
  | .cmeDispose => true
  | .cmeInit => true
  | .cmeStatus => true
  | .cmeGetbs => true
  | .cmdDecbyte => true
  | .cmdDecode _ _ => true
  | .cmdDispose => true
  | .cmdInit => true
  | .cmdStatus => true
  | .cmdGetbs => true
  | .sysReset => true
  | .sysStatus => true

end Sys2Proof
end

