-- ==== Sys2Proof/Safety.lean ====
section
/-! DEFINITION. The terms the claims are made in: what a safe run is, the invariants of a live machine, and the bit formats
of 30_encoding.md part B written as bit lists, apart from the procedures that produce them. -/

namespace Sys2Proof.Machine

/-! ## Responses -/

/-- A command that succeeds: RSP carries FLT = 0 and the result, LASTFLT stays (30_encoding.md R92). -/
def answered (s : State) (r : Nat) : State := { s with rsp := { flt := 0, r := BitVec.ofNat 64 r } }

/-- A command that fails: FLT and LASTFLT carry the fault, R = 2^64 - 1 (30_encoding.md R92, R97). -/
def failed (s : State) (c : BitVec 3) : State := { s with rsp := { flt := c, r := BitVec.allOnes 64 }, lastFlt := c }

/-- A unit dies of a cause; the rest of its status word stays (10_state.md R24, 60_exceptions.md R343, R344). -/
def died (s : State) (u : UnitId) (c : BitVec 3) : State :=
  s.setUstat u { s.ustat u with dead := true, fcode := c }

/-- The unit takes coding commands: neither dead nor disposed (47_system_commands.md R331). -/
def Live (s : State) (u : UnitId) : Prop := (s.ustat u).dead = false ∧ (s.ustat u).disposed = false

/-! ## Bit lists -/

/-- The low `n` bits of a value, the most significant first (00_scope.md R13). -/
def bitsMsb (v : Nat) : Nat → List Bool
  | 0 => []
  | i + 1 => v.testBit i :: bitsMsb v i

/-- How many of `n` bits the sink takes (40_bit_stream.md R121). -/
def Bsi.room (b : Bsi) (n : Nat) : Nat :=
  if b.outClosed then 0 else match b.outCap with
    | none => n
    | some cap => min n (cap - b.out.length)

/-- The stream after a bit list is appended to OUT. -/
def Bsi.append (b : Bsi) (l : List Bool) : Bsi :=
  { b with out := b.out ++ l, wcnt := b.wcnt + BitVec.ofNat 64 l.length }

/-- OUT accepts the whole of a bit list. -/
def Fits (s : State) (l : List Bool) : Prop := s.bsi.room l.length = l.length

/-- The state after a bit list is offered to OUT: what the sink takes of it is appended (40_bit_stream.md R121). -/
def emitted (s : State) (l : List Bool) : State :=
  { s with bsi := s.bsi.append (l.take (s.bsi.room l.length)) }

/-- The stream after `n` bits of IN are consumed. -/
def Bsi.advance (b : Bsi) (n : Nat) : Bsi := { b with rcnt := b.rcnt + BitVec.ofNat 64 n }

/-- The next `n` bits of IN, at the positions RCNT takes (40_bit_stream.md R122, R123). -/
def Bsi.ahead (b : Bsi) (n : Nat) : List Bool :=
  (List.range n).map fun i => b.inBits.getD (b.rcnt + BitVec.ofNat 64 i).toNat false

/-- How many bits of IN can still be read (40_bit_stream.md R122, R123). -/
def Bsi.left (b : Bsi) : Nat := if b.inClosed then 0 else b.inBits.length - b.rcnt.toNat

/-- At least `n` bits of IN can be read (40_bit_stream.md R123). -/
def Bsi.canRead (b : Bsi) (n : Nat) : Prop := b.inClosed = false ∧ b.rcnt.toNat + n ≤ b.inBits.length

/-- IN continues with a given bit list from the present position on, and the counter does not wrap inside it. -/
def Bsi.continues (b : Bsi) (l : List Bool) : Prop :=
  b.inClosed = false ∧ l <+: b.inBits.drop b.rcnt.toNat ∧ b.rcnt.toNat + l.length < 2 ^ 64

/-! ## Coded formats (30_encoding.md part B) -/

/-- The Exp-Golomb code of an integer: L zeros, a 1, the L low bits of m, and in signed mode the sign bit unless the
magnitude is 0 (30_encoding.md R101). -/
def egCode (x : Int) (signed : Bool) : List Bool :=
  let m := x.natAbs + 1
  let len := Nat.log2 m
  List.replicate len false ++ true :: bitsMsb m len ++
    (if signed && decide (x ≠ 0) then [decide (x < 0)] else [])

/-- The Exp-Golomb code of a symbol in a mode (41_exp_golomb.md R141). -/
def egSymbolCode (signed : Bool) (v : Byte) : List Bool := egCode (if signed then v.toInt else (v.toNat : Int)) signed

/-- The deltas of a list of lengths after `prev`, each the signed code of this length minus the one before (30_encoding.md
R102). -/
def deltaCodes (prev : Nat) : List Nat → List Bool
  | [] => []
  | z :: rest => egCode ((z : Int) - (prev : Int)) true ++ deltaCodes z rest

/-- How many bits `EgDecode` consumes where IN ends `k` bits into the code of an integer: the zeros and the 1 are read bit by
bit, the suffix all or nothing, and then the sign bit (41_exp_golomb.md R146, R147). -/
def egEaten (x : Int) (k : Nat) : Nat :=
  let zeros := Nat.log2 (x.natAbs + 1)
  if k < 2 * zeros + 1 then min k (zeros + 1) else k

/-- A Huffman block header as far as it sends a list of lengths: the first in 5 bits, then the deltas (30_encoding.md R102). -/
def headerStart (lens : List Nat) : List Bool := bitsMsb (lens.headD 0) 5 ++ deltaCodes (lens.headD 0) lens.tail

/-- The Huffman block header of a length table (30_encoding.md R102). -/
def headerBits (z : Vector (BitVec 5) 256) : List Bool := headerStart (z.toList.map BitVec.toNat)

/-- The Huffman code of a symbol in a pair of tables (30_encoding.md R103). -/
def hufBits (sizes : Vector (BitVec 5) 256) (codes : Vector Word 256) (v : Byte) : List Bool :=
  bitsMsb (symGet codes v).toNat (symGet sizes v).toNat

/-- The Kraft sum of the lengths of all symbols, scaled by 2^31 (42_huffman_code_builder.md R176). -/
def kraft (sizes : Vector (BitVec 5) 256) : Nat :=
  ((List.range 256).map fun s =>
    let n := (symGet sizes (BitVec.ofNat 8 s)).toNat
    if n = 0 then 0 else 2 ^ (31 - n)).sum

/-- The weight of a node of a build's tree: the frequencies of its leaves together (42_huffman_code_builder.md R172). -/
def HTree.weight (freq : Vector Word 256) : HTree → Nat
  | .leaf s => ((freq[s]?).getD 0).toNat
  | .node l r => l.weight freq + r.weight freq

/-- The leaves of a build: the present symbols, in symbol order (42_huffman_code_builder.md R171). -/
def presentNodes (freq : Vector Word 256) : List HTree :=
  ((List.range 256).filter fun s => decide ((freq[s]?).getD 0 ≠ 0)).map .leaf

/-- The merges of a build on ONE list of pending nodes, the leaves in symbol order and behind them the merged nodes in the
order they were made: the two picks each take the first of the lightest nodes, so that of equal weights a leaf goes before
a merged node, a smaller symbol before a larger one, and an older merged node before a newer one; the new node goes to the
end (42_huffman_code_builder.md R171, R172). The builder itself keeps two queues. The first argument bounds the merges. -/
def mergedTree (freq : Vector Word 256) : Nat → List HTree → Option HTree
  | 0, _ => none
  | n + 1, pool =>
    match pool.argmin (HTree.weight freq) with
    | none => none
    | some a =>
      match (pool.erase a).argmin (HTree.weight freq) with
      | none => some a
      | some b => mergedTree freq n ((pool.erase a).erase b ++ [.node a b])

/-- No coded symbol's bits are the start of another's (42_huffman_code_builder.md R176). -/
def PrefixFree (sizes : Vector (BitVec 5) 256) (codes : Vector Word 256) : Prop :=
  ∀ a b : Byte, a ≠ b → symGet sizes a ≠ 0 → symGet sizes b ≠ 0 → ¬ hufBits sizes codes a <+: hufBits sizes codes b

/-- Every code fits in its length (42_huffman_code_builder.md R175). -/
def CodesFit (sizes : Vector (BitVec 5) 256) (codes : Vector Word 256) : Prop :=
  ∀ a : Byte, (symGet codes a).toNat < 2 ^ (symGet sizes a).toNat

/-- The bytes of BUF from an address on. -/
def bufBytes (m : List Host.Cell) (a k : Nat) : List Byte := (List.range k).map fun i => memRead m (a + i)

/-- BUF `m'` holds a list of bytes from an address on, and every other byte reads as in `m` (20_memory.md R71, R72). -/
def Stored (m m' : List Host.Cell) (a : Nat) (vs : List Byte) : Prop :=
  ∀ x, memRead m' x = if a ≤ x ∧ x < a + vs.length then vs.getD (x - a) 0 else memRead m x

/-- A bulk decode that delivered a list of bytes and consumed the whole of an IN read from its start. -/
def Delivered (s t : State) (offset length : Word) (vs : List Byte) : Prop :=
  t.rsp = { flt := 0, r := length.setWidth 64 } ∧ Stored s.buf t.buf offset.toNat vs ∧
  t.bsi.rcnt = BitVec.ofNat 64 s.bsi.inBits.length

/-- The response of a bulk command one part of which was done before: `n` more symbols where it succeeded. -/
def plusDone (t : State) (n : Nat) : State :=
  { t with rsp := if t.rsp.flt = 0 then { flt := 0, r := t.rsp.r + BitVec.ofNat 64 n } else t.rsp }

/-! ## Commands by unit -/

/-- The DISPOSE command of a unit (30_encoding.md R93). -/
def disposeOf : UnitId → Instr
  | .ege => .egeDispose
  | .egd => .egdDispose
  | .hfe => .hfeDispose
  | .hfd => .hfdDispose
  | .rce => .rceDispose
  | .rcd => .rcdDispose
  | .cme => .cmeDispose
  | .cmd => .cmdDispose

/-- The STATUS command of a unit (30_encoding.md R93). -/
def statusOf : UnitId → Instr
  | .ege => .egeStatus
  | .egd => .egdStatus
  | .hfe => .hfeStatus
  | .hfd => .hfdStatus
  | .rce => .rceStatus
  | .rcd => .rcdStatus
  | .cme => .cmeStatus
  | .cmd => .cmdStatus

/-- The GETBS command of a unit (30_encoding.md R93). -/
def getBsOf : UnitId → Instr
  | .ege => .egeGetbs
  | .egd => .egdGetbs
  | .hfe => .hfeGetbs
  | .hfd => .hfdGetbs
  | .rce => .rceGetbs
  | .rcd => .rcdGetbs
  | .cme => .cmeGetbs
  | .cmd => .cmdGetbs

/-- The encoder units; the other four are decoders (40_bit_stream.md R120). -/
def UnitId.isEncoder : UnitId → Bool
  | .ege | .hfe | .rce | .cme => true
  | .egd | .hfd | .rcd | .cmd => false

/-- What a unit's DISPOSE writes: the 56 or 32 bits of `low`, or nothing (47_system_commands.md R334,
44_range_coder.md R241, 46_cm_coder.md R307). -/
def flushBits (s : State) : UnitId → List Bool
  | .rce => bitsMsb s.rce.coder.low.toNat 56
  | .cme => bitsMsb s.cme.coder.low.toNat 32
  | _ => []

/-- The 32 bits a unit's status answers in R[63:32] (47_system_commands.md R336). -/
def configBits (s : State) : UnitId → Word
  | .ege => if s.ege.signedMode then 1 else 0
  | .egd => if s.egd.signedMode then 1 else 0
  | .hfe => s.hfe.block
  | .hfd => s.hfd.block
  | _ => 0

end Sys2Proof.Machine

namespace Sys2Proof

open Sys2Proof.Machine

/-! ## Operands -/

/-- The operand bits a command's rule names, in A and in B; every other operand bit is ignored (30_encoding.md R95). -/
def Instr.namedBits : Instr → Word × Word
  | .bsWrbit _ | .bsClose _ => (1, 0)
  | .egeEncbyte _ | .hfeEncbyte _ | .rceEncbyte _ | .cmeEncbyte _ => (0xFF, 0)
  | .hcbGetsize _ | .hcbGetcode _ | .hcbGetfreq _ => (0xFF, 0)
  | .hcbSetfreq _ _ => (0xFF, BitVec.allOnes 32)
  | .bsRdbits _ => (0, BitVec.allOnes 32)
  | .egeInit _ | .egdInit _ | .hfeInit _ | .hfdInit _ => (BitVec.allOnes 32, 0)
  | .bsWrbits _ _ => (BitVec.allOnes 32, BitVec.allOnes 32)
  | .egeEncode _ _ | .hfeEncode _ _ | .rceEncode _ _ | .cmeEncode _ _ => (BitVec.allOnes 32, BitVec.allOnes 32)
  | .egdDecode _ _ | .hfdDecode _ _ | .rcdDecode _ _ | .cmdDecode _ _ => (BitVec.allOnes 32, BitVec.allOnes 32)
  | _ => (0, 0)

/-- An opcode the map of 30_encoding.md R93 leaves empty, in the ranges R94 lists. -/
def reservedOpcode (o : Nat) : Bool :=
  decide (0x09 ≤ o ∧ o ≤ 0x0F) || decide (o = 0x15) || decide (0x17 ≤ o ∧ o ≤ 0x1F) || decide (o = 0x25)
    || decide (0x27 ≤ o ∧ o ≤ 0x2F) || decide (0x36 ≤ o ∧ o ≤ 0x3F) || decide (0x47 ≤ o ∧ o ≤ 0x4F)
    || decide (0x57 ≤ o ∧ o ≤ 0x5F) || decide (o = 0x65) || decide (0x67 ≤ o ∧ o ≤ 0x6F) || decide (o = 0x75)
    || decide (0x77 ≤ o ∧ o ≤ 0x7F) || decide (o = 0x85) || decide (0x87 ≤ o ∧ o ≤ 0x8F) || decide (o = 0x95)
    || decide (0x97 ≤ o ∧ o ≤ 0x9F) || decide (0xA0 ≤ o ∧ o ≤ 0xEF) || decide (0xF2 ≤ o ∧ o ≤ 0xFF)

/-- Which unit a command belongs to: `none` for BSI, HCB and the system commands, which have no status word
(10_state.md R24). -/
def Instr.unit? : Instr → Option UnitId
  | .egeEncbyte _ | .egeEncode _ _ | .egeDispose | .egeInit _ | .egeStatus | .egeGetbs => some .ege
  | .egdDecbyte | .egdDecode _ _ | .egdDispose | .egdInit _ | .egdStatus | .egdGetbs => some .egd
  | .hfeEncbyte _ | .hfeEncode _ _ | .hfeDispose | .hfeInit _ | .hfeStatus | .hfeUpdate | .hfeGetbs => some .hfe
  | .hfdDecbyte | .hfdDecode _ _ | .hfdDispose | .hfdInit _ | .hfdStatus | .hfdReadlen | .hfdGetbs => some .hfd
  | .rceEncbyte _ | .rceEncode _ _ | .rceDispose | .rceInit | .rceStatus | .rceGetbs => some .rce
  | .rcdDecbyte | .rcdDecode _ _ | .rcdDispose | .rcdInit | .rcdStatus | .rcdGetbs => some .rcd
  | .cmeEncbyte _ | .cmeEncode _ _ | .cmeDispose | .cmeInit | .cmeStatus | .cmeGetbs => some .cme
  | .cmdDecbyte | .cmdDecode _ _ | .cmdDispose | .cmdInit | .cmdStatus | .cmdGetbs => some .cmd
  | _ => none

/-- The commands that change HCB's tables: its own, and the two of HFE that run the builder (10_state.md R20). -/
def Instr.touchesHcb : Instr → Bool
  | .hcbSetfreq _ _ | .hcbClrfreq | .hcbBuild | .hfeUpdate | .hfeEncode _ _ => true
  | _ => false

/-- The commands that start with `Gate` (47_system_commands.md R331). -/
def Instr.isCoding : Instr → Bool
  | .egeEncbyte _ | .egeEncode _ _ | .egdDecbyte | .egdDecode _ _ => true
  | .hfeEncbyte _ | .hfeEncode _ _ | .hfeUpdate | .hfdDecbyte | .hfdDecode _ _ | .hfdReadlen => true
  | .rceEncbyte _ | .rceEncode _ _ | .rcdDecbyte | .rcdDecode _ _ => true
  | .cmeEncbyte _ | .cmeEncode _ _ | .cmdDecbyte | .cmdDecode _ _ => true
  | _ => false

/-- The bulk commands, with OFFSET and LENGTH (20_memory.md R71). -/
def Instr.bulk? : Instr → Option (Word × Word)
  | .egeEncode o l | .hfeEncode o l | .rceEncode o l | .cmeEncode o l => some (o, l)
  | .egdDecode o l | .hfdDecode o l | .rcdDecode o l | .cmdDecode o l => some (o, l)
  | _ => none

/-- The commands that store to BUF (20_memory.md R70). -/
def Instr.stores? : Instr → Option (Word × Word)
  | .egdDecode o l | .hfdDecode o l | .rcdDecode o l | .cmdDecode o l => some (o, l)
  | _ => none

end Sys2Proof

namespace Sys2Proof.Machine

/-! ## Invariants -/

/-- BUF is in canonical form and lists only addresses that exist (20_memory.md R77). -/
def BufInv (s : State) : Prop := Memory.wf s.buf = true ∧ ∀ c ∈ s.buf, c.1 < s.cfg.bufSize

/-- A status word is consistent: a unit is dead exactly when FCODE names one of the causes listed (10_state.md R24). -/
def UStat.consistent (u : UStat) (causes : List (BitVec 3)) : Prop :=
  if u.dead then u.fcode ∈ causes else u.fcode = 0

/-- Every status word is consistent, with the causes 60_exceptions.md R342 and R344 give its unit, and only RCD and CMD are
ever primed (10_state.md R24). -/
def StatusInv (s : State) : Prop :=
  s.ege.ustat.consistent [6] ∧ s.egd.ustat.consistent [1, 2] ∧ s.hfe.ustat.consistent [6] ∧
  s.hfd.ustat.consistent [1, 2] ∧ s.rce.ustat.consistent [1, 6] ∧ s.rcd.ustat.consistent [1, 2] ∧
  s.cme.ustat.consistent [1, 6] ∧ s.cmd.ustat.consistent [1] ∧
  s.ege.ustat.primed = false ∧ s.egd.ustat.primed = false ∧ s.hfe.ustat.primed = false ∧
  s.hfd.ustat.primed = false ∧ s.rce.ustat.primed = false ∧ s.cme.ustat.primed = false

/-- RSP has one of the two shapes of 30_encoding.md R97, and no code above UnitDead is ever answered (60_exceptions.md
R341). -/
def ResponseInv (s : State) : Prop :=
  s.rsp.flt.toNat ≤ 5 ∧ s.lastFlt.toNat ≤ 5 ∧ (s.rsp.flt ≠ 0 → s.rsp.r = BitVec.allOnes 64 ∧ s.lastFlt = s.rsp.flt)

/-- WCNT counts OUT and OUT stays within OUT_CAP (10_state.md R27, R30). -/
def OutInv (s : State) : Prop :=
  s.bsi.wcnt = BitVec.ofNat 64 s.bsi.out.length ∧ ∀ cap, s.bsi.outCap = some cap → s.bsi.out.length ≤ cap

/-- RCNT never passes the end of IN (40_bit_stream.md R122, R123). -/
def InInv (s : State) : Prop := s.bsi.inBits.length < 2 ^ 64 ∧ s.bsi.rcnt.toNat ≤ s.bsi.inBits.length

/-- The block sizes are legal (10_state.md R26). -/
def BlockInv (s : State) : Prop :=
  (1 ≤ s.hfe.block.toNat ∧ s.hfe.block.toNat ≤ 2 ^ 20) ∧ (1 ≤ s.hfd.block.toNat ∧ s.hfd.block.toNat ≤ 2 ^ 20)

/-- AFT counts: cumulative counts rise strictly from 0, group boundaries carry no delta, and coding is refused before the
total reaches 2^32 (44_range_coder.md R231, R234, R238). -/
def Aft.Inv (f : Aft) : Prop :=
  (f.base[0]).toNat = 0 ∧ (∀ j, j ≤ 16 → ((f.delta[16 * j]?).getD 0).toNat = 0) ∧
  (∀ i, i < 257 → f.cum i < f.cum (i + 1)) ∧ f.total ≤ 2 ^ 32 - 1

/-- The interval of a range coder between symbols (44_range_coder.md R237). -/
def RcCoder.Inv (x : RcCoder) : Prop :=
  x.low.toNat < 2 ^ 56 ∧ x.low.toNat + x.range.toNat ≤ 2 ^ 56 ∧ 2 ^ 40 ≤ x.range.toNat ∧
  x.low.toNat >>> 48 ≠ (x.low.toNat + x.range.toNat) >>> 48 ∧ x.aft.Inv

/-- Both range coders hold the invariant of 44_range_coder.md R237 while they are alive. -/
def RcInv (s : State) : Prop :=
  (s.rce.ustat.dead = false → s.rce.coder.Inv) ∧
  (s.rcd.ustat.dead = false → s.rcd.coder.Inv ∧ s.rcd.code.toNat < 2 ^ 56)

/-- The interval of a context-mixing coder between bits (46_cm_coder.md R308). -/
def CmCoder.Inv (x : CmCoder) : Prop :=
  x.low.toNat < x.high.toNat ∧ x.low.toNat >>> 24 ≠ x.high.toNat >>> 24

/-- The predictor between symbols of a live unit: no bit of a symbol is pending, and the run class is that of the run
(46_cm_coder.md R306, 45_cm_predictor.md R282). -/
def Predictor.Idle (p : Predictor) : Prop := p.c0 = 1 ∧ p.bpos = 0 ∧ p.runCtx = runClass p.run.toNat

/-- Both context-mixing coders between commands, while they are alive (46_cm_coder.md R306, R308). -/
def CmInv (s : State) : Prop :=
  (s.cme.ustat.dead = false → s.cme.coder.Inv ∧ s.cme.coder.p.Idle) ∧
  (s.cmd.ustat.dead = false → s.cmd.coder.Inv ∧ s.cmd.coder.p.Idle)

/-- The part of the interval a slot owns, as (low, range) (44_range_coder.md R235). -/
def RcCoder.slotPart (x : RcCoder) (v : Nat) : Nat × Nat :=
  let r := x.range.toNat / x.aft.total
  (x.low.toNat + x.aft.cum v * r, (x.aft.cum (v + 1) - x.aft.cum v) * r)

/-- The interval (low, range) one more byte is shifted out of: as it stands where its top byte is settled, cut to the next
multiple of 2^40 where `range` is below 2^40; `none` where the renormalisation ends (44_range_coder.md R236). -/
def rcDue (i : Nat × Nat) : Option (Nat × Nat) :=
  if i.1 / 2 ^ 48 = (i.1 + i.2) / 2 ^ 48 then some i
  else if i.2 < 2 ^ 40 then some (i.1, (2 ^ 56 - i.1) % 2 ^ 40)
  else none

/-- The interval after `k` bytes are shifted out of it, where as many are due (44_range_coder.md R236). -/
def rcAfter (i : Nat × Nat) : Nat → Option (Nat × Nat)
  | 0 => some i
  | k + 1 => (rcAfter i k).bind fun j => (rcDue j).map fun c => (c.1 * 256 % 2 ^ 56, c.2 * 256)

/-- A symbol coded by a range coder: the table counts it, the bits shifted out with the new interval lie inside the part of
the old one that the symbol owns, and start where it starts, and the interval is the one the renormalisation of that part
ends with (44_range_coder.md R232, R235, R236, R237). -/
def RcStep (x x' : RcCoder) (v : Nat) (out : List Bool) : Prop :=
  let r := x.range.toNat / x.aft.total
  let lo := x.low.toNat + x.aft.cum v * r
  let hi := x.low.toNat + x.aft.cum (v + 1) * r
  x'.Inv ∧ (∀ i, i ≤ 257 → x'.aft.cum i = x.aft.cum i + (if v < i then 1 else 0)) ∧
  8 ∣ out.length ∧ out.length ≤ 56 ∧
  bitsValue out * 2 ^ 56 + x'.low.toNat = lo * 2 ^ out.length ∧
  bitsValue out * 2 ^ 56 + x'.low.toNat + x'.range.toNat ≤ hi * 2 ^ out.length ∧
  (out = [] → x'.range.toNat = hi - lo) ∧
  rcAfter (x.slotPart v) (out.length / 8) = some (x'.low.toNat, x'.range.toNat) ∧
  rcDue (x'.low.toNat, x'.range.toNat) = none

/-- The position of RCD's window in the interval, in steps of one count (44_range_coder.md R240). -/
def Rcd.count (d : Rcd) : Nat :=
  ((d.code.toNat + 2 ^ 64 - d.coder.low.toNat) % 2 ^ 56) / (d.coder.range.toNat / d.coder.aft.total)

/-- An APM whose two bins of the last lookup have moved toward the observed bit, and no other (45_cm_predictor.md R278). -/
def Apm.Nudged {iw : Nat} (m m' : Apm iw) (bit : Bool) : Prop :=
  ∀ k, m'.entry k = if k = m.idx.toNat ∨ k = m.idx.toNat + 1 then apmTrained (m.entry k) bit else m.entry k

/-- What `Update` leaves before its last line, `Predict`: the StateMap entry and the APM bins the last prediction used are
trained, the state of the context the bit was coded in has moved on, and the context has taken the bit in
(45_cm_predictor.md R271, R276, R278, R281, R282). -/
structure Predictor.Learned (tbl : Vector StateEntry 256) (p : Predictor) (bit : Bool) (q : Predictor) : Prop where
  sm : ∀ b : Byte, symGet q.sm b = if b = p.smIdx then smTrained (symGet p.sm b) bit else symGet p.sm b
  apm2 : p.apm2.Nudged q.apm2 bit
  apm3 : p.apm3.Nudged q.apm3 bit
  apm5 : p.apm5.Nudged q.apm5 bit
  apm4 : p.apm4.Nudged q.apm4 bit
  states : ∀ b : Byte, symGet q.states b =
    if b = p.c0 then (if bit then (symGet tbl (symGet p.states b)).next1 else (symGet tbl (symGet p.states b)).next0)
    else symGet p.states b
  inByte : p.c0.toNat < 128 →
    q.c0.toNat = 2 * p.c0.toNat + bit.toNat ∧ q.bpos = p.bpos + 1 ∧ q.c4 = p.c4 ∧ q.run = p.run ∧ q.runCtx = p.runCtx
  atByteEnd : 128 ≤ p.c0.toNat →
    let byte := (2 * p.c0.toNat + bit.toNat) % 256
    let run := if byte = p.c4.toNat % 256 then min (p.run.toNat + 1) 65535 else 0
    q.c0 = 1 ∧ q.bpos = 0 ∧ q.c4.toNat = (p.c4.toNat * 256 + byte) % 2 ^ 32 ∧ q.run.toNat = run ∧
      q.runCtx = if run = 0 then 0 else if run = 1 then 1 else if run ≤ 3 then 2 else 3

/-- The predictor after a list of bits (45_cm_predictor.md R281). -/
def predictorRun (tbl : Vector StateEntry 256) (p : Predictor) (l : List Bool) : Predictor :=
  l.foldl (fun q b => q.update tbl b) p

/-- The part of the interval a bit owns, as (low, high): up to the split point for 1, above it for 0 (46_cm_coder.md R301,
R302). -/
def CmCoder.bitPart (x : CmCoder) (bit : Bool) : Nat × Nat :=
  let m := x.low.toNat + (x.high.toNat - x.low.toNat) / 4096 * x.p.pred.toNat
  if bit then (x.low.toNat, m) else (m + 1, x.high.toNat)

/-- The bit a window selects (46_cm_coder.md R305). -/
def CmCoder.selected (x : CmCoder) (w : Nat) : Bool := decide (w ≤ (x.bitPart true).2)

/-- Whole bytes are shifted out of an interval (low, high), and the coder holds what is left of it: they are the common first
bytes of both ends, zeros have come into `low` and ones into `high` (46_cm_coder.md R303). -/
def CmShifted (i : Nat × Nat) (x : CmCoder) (out : List Bool) : Prop :=
  8 ∣ out.length ∧ bitsValue out * 2 ^ 32 + x.low.toNat = i.1 * 2 ^ out.length ∧
  bitsValue out * 2 ^ 32 + x.high.toNat + 1 = (i.2 + 1) * 2 ^ out.length

/-- One more byte is due to be shifted out: the top bytes of `low` and `high` agree (46_cm_coder.md R303). -/
def CmCoder.due (x : CmCoder) : Prop := x.low.toNat / 2 ^ 24 = x.high.toNat / 2 ^ 24

/-- One bit coded: the coder holds what is left of the bit's part of the interval once no byte is due, and the predictor has
seen the bit (46_cm_coder.md R302, R303, R305). -/
def CmBit (tbl : Vector StateEntry 256) (x : CmCoder) (bit : Bool) (x' : CmCoder) (out : List Bool) : Prop :=
  CmShifted (x.bitPart bit) x' out ∧ ¬ x'.due ∧ x'.p = x.p.update tbl bit

/-- A list of bits coded one after the other, each in the interval the one before leaves (46_cm_coder.md R302, R306). -/
def CmBits (tbl : Vector StateEntry 256) : CmCoder → List Bool → CmCoder → List Bool → Prop
  | x, [], x', out => x' = x ∧ out = []
  | x, bit :: rest, x', out => ∃ y o₁ o₂, out = o₁ ++ o₂ ∧ CmBit tbl x bit y o₁ ∧ CmBits tbl y rest x' o₂

/-- A list of bits decoded one after the other with a 32-bit window: each is the bit the window selects, and for every byte
shifted out of the interval one of `inp` comes into the window (46_cm_coder.md R305). -/
def CmReads (tbl : Vector StateEntry 256) : CmCoder → Nat → List Bool → List Bool → CmCoder → Nat → Prop
  | x, w, [], inp, x', w' => x' = x ∧ w' = w ∧ inp = []
  | x, w, bit :: rest, inp, x', w' => bit = x.selected w ∧ ∃ y out i₁ i₂, inp = i₁ ++ i₂ ∧ i₁.length = out.length ∧
      CmBit tbl x bit y out ∧ CmReads tbl y ((w * 2 ^ i₁.length + bitsValue i₁) % 2 ^ 32) rest i₂ x' w'

/-- A symbol coded by a context-mixing coder: the predictor has seen its eight bits, most significant first; they
select the part of the interval that the bits shifted out and the new interval stand for, bit by bit, and that part lies
inside the old interval (46_cm_coder.md R301, R302, R303, R306, R308). -/
def CmStep (tbl : Vector StateEntry 256) (x x' : CmCoder) (v : Byte) (out : List Bool) : Prop :=
  x'.Inv ∧ x'.p.Idle ∧ x'.p = predictorRun tbl x.p (bitsMsb v.toNat 8) ∧
  CmBits tbl x (bitsMsb v.toNat 8) x' out ∧
  8 ∣ out.length ∧ out.length ≤ 256 ∧
  x.low.toNat * 2 ^ out.length ≤ bitsValue out * 2 ^ 32 + x'.low.toNat ∧
  bitsValue out * 2 ^ 32 + x'.high.toNat < (x.high.toNat + 1) * 2 ^ out.length

/-- What reset leaves in a predictor (45_cm_predictor.md R283; 10_state.md R40, R41, R42). -/
structure Predictor.ResetValues (tbl : Vector StateEntry 256) (p : Predictor) : Prop where
  states : ∀ b : Byte, symGet p.states b = 0
  context : p.c0 = 1 ∧ p.c4 = 0 ∧ p.bpos = 0 ∧ p.run = 0 ∧ p.runCtx = 0
  sm : ∀ b : Byte, (symGet p.sm b).toNat =
    65536 * ((symGet tbl b).n1 + 1) / ((symGet tbl b).n0 + (symGet tbl b).n1 + 2)
  apm2 : ∀ c j, c < 512 → j < 33 → (p.apm2.entry (c * 33 + j)).toNat = squash (((j : Int) - 16) * 128) * 16
  apm3 : ∀ c j, c < 1024 → j < 33 → (p.apm3.entry (c * 33 + j)).toNat = squash (((j : Int) - 16) * 128) * 16
  apm5 : ∀ c j, c < 65536 → j < 33 → (p.apm5.entry (c * 33 + j)).toNat = squash (((j : Int) - 16) * 128) * 16
  apm4 : ∀ c j, c < 256 → j < 33 → (p.apm4.entry (c * 33 + j)).toNat = squash (((j : Int) - 16) * 128) * 16
  computed : (symGet tbl 0).n0 = (symGet tbl 0).n1 →
    p.smIdx = 0 ∧ p.apm2.idx = 8497 ∧ p.apm3.idx = 49 ∧ p.apm5.idx = 49 ∧ p.apm4.idx = 49 ∧ p.pred = 2048

/-- The flat code: every length 8, every code the symbol itself (10_state.md R33). -/
def FlatCode (sizes : Vector (BitVec 5) 256) (codes : Vector Word 256) : Prop :=
  ∀ b : Byte, symGet sizes b = 8 ∧ symGet codes b = b.setWidth 32

/-- What reset leaves in a range coder: the whole interval, every slot with count 1 (10_state.md R37, R38). -/
def RcCoder.ResetValues (x : RcCoder) : Prop :=
  x.low = 0 ∧ x.range = 0xFFFFFFFFFFFFFF ∧
  (∀ j (h : j < 17), (x.aft.base[j]).toNat = 16 * j) ∧ (∀ i (h : i < 258), (x.aft.delta[i]).toNat = i % 16)

/-- The table of 70_reset_and_hazards.md R371, row by row. -/
structure ResetValues (s : State) : Prop where
  rsp : s.rsp = { flt := 0, r := 0 }
  lastFlt : s.lastFlt = 0
  ustat : ∀ u, s.ustat u = { dead := false, fcode := 0, disposed := false, primed := false }
  streams : s.bsi.out = [] ∧ s.bsi.wcnt = 0 ∧ s.bsi.rcnt = 0 ∧ s.bsi.outClosed = false ∧ s.bsi.inClosed = false
  modes : s.ege.signedMode = false ∧ s.egd.signedMode = false
  freq : ∀ b : Byte, symGet s.hcb.freq b = 1
  codes : FlatCode s.hcb.sizes s.hcb.codes ∧ FlatCode s.hfe.sizes s.hfe.codes ∧ FlatCode s.hfd.sizes s.hfd.codes
  blocks : s.hfe.block = 65536 ∧ s.hfd.block = 65536
  rangeCoders : s.rce.coder.ResetValues ∧ s.rcd.coder.ResetValues ∧ s.rcd.code = 0
  intervals : s.cme.coder.low = 0 ∧ s.cme.coder.high = 0xFFFFFFFF ∧ s.cmd.coder.low = 0 ∧
    s.cmd.coder.high = 0xFFFFFFFF ∧ s.cmd.current = 0
  predictors : s.cme.coder.p.ResetValues s.cfg.stateTable ∧ s.cmd.coder.p.ResetValues s.cfg.stateTable

/-- A launch state the host may choose: BUF0 in canonical form within BUF_SIZE, and an IN the 64-bit position can count
(00_scope.md R11; that BUF_SIZE is at most 2^32 is its type's). -/
def LaunchOk (l : Launch) : Prop :=
  Memory.wf l.buf0 = true ∧ (∀ c ∈ l.buf0, c.1 < l.cfg.bufSize) ∧ l.inBits.length < 2 ^ 64

/-- What holds of streams, responses and status in every reachable state. -/
def BaseInv (s : State) : Prop :=
  BufInv s ∧ StatusInv s ∧ ResponseInv s ∧ OutInv s ∧ InInv s ∧ BlockInv s

/-- A length table one of the two ends of 42_huffman_code_builder.md R177 accepts, with its canonical codes. -/
def HufUnit.Valid (u : HufUnit) : Prop := lengthsValid u.sizes = true ∧ u.codes = assignCodes u.sizes

/-- The three pairs of Huffman tables are each a valid length table with its canonical codes (10_state.md R33 to R35). -/
def TablesInv (s : State) : Prop :=
  (lengthsValid s.hcb.sizes = true ∧ s.hcb.codes = assignCodes s.hcb.sizes) ∧ s.hfe.Valid ∧ s.hfd.Valid

end Sys2Proof.Machine
end

