-- ==== Sys2Proof/Certificates/Slice0/Obligations.lean ====
section
/-! DEFINITION. The statements for the provers, from the numbered rules of spec/. Each is a Prop; OBLIGATIONS.json gives
its tier, its basis and the rules it cites. No statement rests on a program: each is about every state, or every state
that meets a named invariant. -/

open Sys2Proof Sys2Proof.Machine

/-! ## Encoding (30_encoding.md) -/

/-- Decoding the word of any command gives the command back, with every operand value (30_encoding.md R90, R93). -/
def Obligations.DecodeInvertsEncode : Prop :=
  ∀ i : Instr, decode (encode i) = .ok i

/-- A decoded command carries the opcode and exactly the named operand bits of its word, and every word that differs only
in unnamed operand bits decodes to the same command (30_encoding.md R90, R91, R95). -/
def Obligations.DecodeReadsOpcodeAndNamedOperandBits : Prop :=
  ∀ (w : CmdWord) (i : Instr), decode w = .ok i →
    ((encode i).opc = w.opc ∧ (encode i).opA = w.opA &&& i.namedBits.1 ∧ (encode i).opB = w.opB &&& i.namedBits.2) ∧
    ∀ w' : CmdWord, w'.opc = w.opc → w'.opA &&& i.namedBits.1 = w.opA &&& i.namedBits.1 →
      w'.opB &&& i.namedBits.2 = w.opB &&& i.namedBits.2 → decode w' = .ok i

/-- Words written out from R90 and R93 decode to their commands: one for each unit. -/
def Obligations.WordsFromTheEncodingTableDecode : Prop :=
  decode 0x010000000500000003 = .ok (.bsWrbits 5 3) ∧ decode 0x050000000100000000 = .ok (.bsClose 1) ∧
  decode 0x130000000100000000 = .ok (.egeInit 1) ∧ decode 0x210000001000000003 = .ok (.egdDecode 16 3) ∧
  decode 0x300000004100000007 = .ok (.hcbSetfreq 0x41 7) ∧ decode 0x430000100000000000 = .ok (.hfeInit 4096) ∧
  decode 0x550000000000000000 = .ok .hfdReadlen ∧ decode 0x600000004100000000 = .ok (.rceEncbyte 0x41) ∧
  decode 0x700000000000000000 = .ok .rcdDecbyte ∧ decode 0x810000000000000003 = .ok (.cmeEncode 0 3) ∧
  decode 0x960000000000000000 = .ok .cmdGetbs ∧ decode 0xF10000000000000000 = .ok .sysStatus

/-- R94: the reserved opcodes are refused with IllegalCommand and change nothing but the response; every other word is a
command, and no opcode executes as another. -/
def Obligations.ReservedOpcodesAnswerIllegalCommand : Prop :=
  (∀ (s : State) (w : CmdWord), reservedOpcode w.opc.toNat = true → s.present w = .next (failed s 4)) ∧
  (∀ w : CmdWord, reservedOpcode w.opc.toNat = false →
    ∃ i, decode w = .ok i ∧ (encode i).opc = w.opc ∧ ∀ s : State, s.present w = exec i s) ∧
  (∀ o : Nat, 0xA0 ≤ o → o ≤ 0xEF → reservedOpcode o = true)

/-! ## The step (log entries 3, 4, 5 and 10) -/

/-- A step takes the first pending action; where that is a command word that decodes, it runs the command on the state
without it, and `withFetchWord` presents a table word so that the very next step runs it. -/
def Obligations.StepRunsThePresentedCommand : Prop :=
  (∀ (s : State) (w : CmdWord) (rest : List HostAction) (i : Instr), s.pending = .command w :: rest →
    decode w = .ok i → step s = exec i { s with pending := rest }) ∧
  (∀ (s : State) (nbits w : Nat) (i : Instr), decodeTableWord nbits w = some i →
    step (s.withFetchWord nbits w) = exec i s)

/-- What a step does with the other host actions: a host write stores one byte that exists and faults on one that does not,
the reset input resets, and without an action the state holds (the model's choice: log entries 3, 4 and 5). -/
def Obligations.StepTakesHostWritesResetAndIdle : Prop :=
  (∀ (s : State) (rest : List HostAction) (a : Nat) (v : Byte), s.pending = .writeBuf a v :: rest → a < s.cfg.bufSize →
    ∃ m, step s = .next { s with pending := rest, buf := m } ∧ Stored s.buf m a [v]) ∧
  (∀ (s : State) (rest : List HostAction) (a : Nat) (v : Byte), s.pending = .writeBuf a v :: rest → s.cfg.bufSize ≤ a →
    step s = .fault .absentBufAddress) ∧
  (∀ (s : State) (rest : List HostAction), s.pending = .resetInput :: rest →
    ∃ t, step s = .next t ∧ ResetValues t ∧ t.pending = rest) ∧
  (∀ s : State, s.pending = [] → step s = .next s)

/-! ## Reset (70_reset_and_hazards.md) -/

/-- R371: every row of the table of values after reset, for every launch the host may choose. -/
def Obligations.ResetLeavesTheTableOfValues : Prop :=
  ∀ l : Launch, ResetValues (State.resetWith l)

/-- R338: SYS_RESET gives every register and table its reset value and answers 0, leaves IN and BUF and the parameters, and
has the effect of the hardware reset. -/
def Obligations.SysResetIsTheHardwareReset : Prop :=
  ∀ s : State, ∃ t, exec .sysReset s = .next t ∧ s.take .resetInput = .next t ∧ ResetValues t ∧
    t.cfg = s.cfg ∧ t.buf = s.buf ∧ t.bsi.inBits = s.bsi.inBits ∧ t.bsi.outCap = s.bsi.outCap ∧ t.pending = s.pending

/-! ## Responses, admission and refusals (47_system_commands.md, 60_exceptions.md) -/

/-- Every command answers, from every state; a failed one carries R = 2^64 - 1 and a code of 1 to 5 and records it in LASTFLT,
and LASTFLT moves in no other way but reset (R92, R97, R341, R346). -/
def Obligations.EveryCommandAnswersInOneOfTwoShapes : Prop :=
  ∀ (i : Instr) (s : State), ∃ t, exec i s = .next t ∧
    ((t.rsp.flt = 0 ∧ t.lastFlt = if i = .sysReset then 0 else s.lastFlt) ∨
     (t.rsp.flt ≠ 0 ∧ t.rsp.flt.toNat ≤ 5 ∧ t.rsp.r = BitVec.allOnes 64 ∧ t.lastFlt = t.rsp.flt))

/-- R331: a coding command of a dead or disposed unit answers UnitDead and changes nothing else; a command without a gate
never answers UnitDead. -/
def Obligations.GateRefusesDeadAndDisposedUnits : Prop :=
  (∀ (i : Instr) (u : UnitId) (s : State), i.unit? = some u → i.isCoding = true →
    (s.ustat u).dead = true ∨ (s.ustat u).disposed = true → exec i s = .next (failed s 5)) ∧
  (∀ (i : Instr) (s t : State), i.isCoding = false → exec i s = .next t → t.rsp.flt ≠ 5)

/-- The bounds test of the eight bulk commands of a live unit, and LENGTH = 0, which touches nothing (R71, R333, R345). -/
def Obligations.BulkCommandsRefuseRangesOutsideBuf : Prop :=
  ∀ (i : Instr) (u : UnitId) (o l : Word) (s : State), i.unit? = some u → i.bulk? = some (o, l) → Live s u →
    (s.cfg.bufSize < o.toNat + l.toNat → exec i s = .next (failed s 3)) ∧
    (l = 0 → o.toNat ≤ s.cfg.bufSize → exec i s = .next (answered s 0))

/-- R334: dispose is idempotent, writes the flush of a live unit, writes nothing for a dead one, and answers a short flush
with EndOfStream, dead and disposed; after it every coding command of the unit answers UnitDead. -/
def Obligations.DisposeFlushesALiveUnitOnce : Prop :=
  ∀ (s : State) (u : UnitId),
    let d : State := s.setUstat u { s.ustat u with disposed := true }
    ((s.ustat u).disposed = true → exec (disposeOf u) s = .next (answered s 0)) ∧
    ((s.ustat u).disposed = false → (s.ustat u).dead = true → exec (disposeOf u) s = .next (answered d 0)) ∧
    (Live s u → Fits s (flushBits s u) → exec (disposeOf u) s = .next (answered (emitted d (flushBits s u)) 0)) ∧
    (Live s u → ¬ Fits s (flushBits s u) →
      exec (disposeOf u) s = .next (failed (died (emitted d (flushBits s u)) u 1) 1)) ∧
    (∀ (i : Instr) (t : State), exec (disposeOf u) s = .next t → i.unit? = some u → i.isCoding = true →
      exec i t = .next (failed t 5))

/-- R336, R337, R339: the eight STATUS words and the system status, bit by bit, and the channel of each unit; nothing but the
response changes. -/
def Obligations.StatusCommandsAnswerFlagsAndChannel : Prop :=
  (∀ (s : State) (u : UnitId), ∃ r : Quad, exec (statusOf u) s = .next { s with rsp := { flt := 0, r := r } } ∧
      r.getLsbD 0 = (s.ustat u).dead ∧ r.extractLsb' 1 3 = (s.ustat u).fcode ∧ r.getLsbD 4 = (s.ustat u).disposed ∧
      r.getLsbD 5 = (s.ustat u).primed ∧ r.extractLsb' 6 26 = 0 ∧ r.extractLsb' 32 32 = configBits s u) ∧
  (∀ (s : State) (u : UnitId), exec (getBsOf u) s = .next (answered s (if u.isEncoder then 0 else 1))) ∧
  (∀ w : CmdWord, w.opc = 0xF1 → decode w = .ok .sysStatus) ∧
  (∀ s : State, ∃ r : Quad, exec .sysStatus s = .next { s with rsp := { flt := 0, r := r } } ∧
      r.getLsbD 0 = false ∧ r.getLsbD 1 = s.ege.ustat.dead ∧ r.getLsbD 2 = s.egd.ustat.dead ∧ r.getLsbD 3 = false ∧
      r.getLsbD 4 = s.hfe.ustat.dead ∧ r.getLsbD 5 = s.hfd.ustat.dead ∧ r.getLsbD 6 = s.rce.ustat.dead ∧
      r.getLsbD 7 = s.rcd.ustat.dead ∧ r.getLsbD 8 = s.cme.ustat.dead ∧ r.getLsbD 9 = s.cmd.ustat.dead ∧
      r.extractLsb' 10 6 = 0 ∧ r.extractLsb' 16 3 = s.lastFlt ∧ r.extractLsb' 19 5 = 0 ∧
      r.getLsbD 24 = s.bsi.outClosed ∧ r.getLsbD 25 = s.bsi.inClosed ∧ r.extractLsb' 26 38 = 0)

/-- The eight INIT commands: a mode above 1, or a block size that is not positive as a signed number or above 2^20, is refused;
else the unit is a new instance with that setting, whatever it was, and the streams and every other unit stay (R153, R159,
R203, R213, R253, R259, R313, R319, R335). -/
def Obligations.InitGivesTheUnitOfANewInstance : Prop :=
  ((∀ w : CmdWord, w.opc = 0x13 → decode w = .ok (.egeInit w.opA)) ∧
    (∀ w : CmdWord, w.opc = 0x23 → decode w = .ok (.egdInit w.opA)) ∧
    ∀ (s : State) (a : Word),
      (2 ≤ a.toNat → exec (.egeInit a) s = .next (failed s 3) ∧ exec (.egdInit a) s = .next (failed s 3)) ∧
      (a.toNat < 2 →
        exec (.egeInit a) s = .next (answered { s with ege := { signedMode := a == 1, ustat := .reset } } 0) ∧
        exec (.egdInit a) s = .next (answered { s with egd := { signedMode := a == 1, ustat := .reset } } 0))) ∧
  ((∀ w : CmdWord, w.opc = 0x43 → decode w = .ok (.hfeInit w.opA)) ∧
    (∀ w : CmdWord, w.opc = 0x53 → decode w = .ok (.hfdInit w.opA)) ∧
    ∀ (s : State) (a : Word),
      (a.toInt ≤ 0 ∨ 2 ^ 20 < a.toInt →
        exec (.hfeInit a) s = .next (failed s 3) ∧ exec (.hfdInit a) s = .next (failed s 3)) ∧
      (0 < a.toInt → a.toInt ≤ 2 ^ 20 → ∃ u : HufUnit, FlatCode u.sizes u.codes ∧ u.block = a ∧ u.ustat = .reset ∧
        exec (.hfeInit a) s = .next (answered { s with hfe := u } 0) ∧
        exec (.hfdInit a) s = .next (answered { s with hfd := u } 0))) ∧
  (∀ s : State,
      (∃ x : RcCoder, x.ResetValues ∧
        exec .rceInit s = .next (answered { s with rce := { coder := x, ustat := .reset } } 0) ∧
        exec .rcdInit s = .next (answered { s with rcd := { coder := x, code := 0, ustat := .reset } } 0)) ∧
      (∃ x : CmCoder, x.low = 0 ∧ x.high = 0xFFFFFFFF ∧ x.p.ResetValues s.cfg.stateTable ∧
        exec .cmeInit s = .next (answered { s with cme := { coder := x, ustat := .reset } } 0) ∧
        exec .cmdInit s = .next (answered { s with cmd := { coder := x, current := 0, ustat := .reset } } 0)))

/-! ## BSI (40_bit_stream.md) -/

/-- R124, R125: the two direct writes append what the sink takes, the most significant bit first, and answer how many. -/
def Obligations.DirectWritesAppendWhatTheSinkTakes : Prop :=
  (∀ w : CmdWord, w.opc = 0x00 → decode w = .ok (.bsWrbit (w.opA.setWidth 1))) ∧
  (∀ w : CmdWord, w.opc = 0x01 → decode w = .ok (.bsWrbits w.opA w.opB)) ∧
  (∀ (s : State) (bit : BitVec 1),
    exec (.bsWrbit bit) s = .next (answered (emitted s (bitsMsb bit.toNat 1)) (s.bsi.room 1))) ∧
  (∀ (s : State) (value nbits : Word), nbits.toNat = 0 ∨ 32 < nbits.toNat →
    exec (.bsWrbits value nbits) s = .next (failed s 3)) ∧
  (∀ (s : State) (value nbits : Word), 1 ≤ nbits.toNat → nbits.toNat ≤ 32 →
    exec (.bsWrbits value nbits) s =
      .next (answered (emitted s (bitsMsb value.toNat nbits.toNat)) (s.bsi.room nbits.toNat)))

/-- R126, R127: the two direct reads answer the next bits of IN, the first most significant, all or none. -/
def Obligations.DirectReadsTakeAllOrNone : Prop :=
  (∀ w : CmdWord, w.opc = 0x02 → decode w = .ok .bsRdbit) ∧
  (∀ w : CmdWord, w.opc = 0x03 → decode w = .ok (.bsRdbits w.opB)) ∧
  (∀ s : State, s.bsi.canRead 1 →
    exec .bsRdbit s = .next (answered { s with bsi := s.bsi.advance 1 } (bitsValue (s.bsi.ahead 1)))) ∧
  (∀ s : State, ¬ s.bsi.canRead 1 → exec .bsRdbit s = .next (failed s 1)) ∧
  (∀ (s : State) (nbits : Word), nbits.toNat = 0 ∨ 32 < nbits.toNat → exec (.bsRdbits nbits) s = .next (failed s 3)) ∧
  (∀ (s : State) (nbits : Word), 1 ≤ nbits.toNat → nbits.toNat ≤ 32 → s.bsi.canRead nbits.toNat →
    exec (.bsRdbits nbits) s =
      .next (answered { s with bsi := s.bsi.advance nbits.toNat } (bitsValue (s.bsi.ahead nbits.toNat)))) ∧
  (∀ (s : State) (nbits : Word), 1 ≤ nbits.toNat → nbits.toNat ≤ 32 → ¬ s.bsi.canRead nbits.toNat →
    exec (.bsRdbits nbits) s = .next (failed s 1))

/-- R128, R130, R131, R132: flush and the three queries change nothing but the response. -/
def Obligations.FlushAndQueriesChangeNoStream : Prop :=
  (∀ w : CmdWord, (w.opc = 0x04 → decode w = .ok .bsFlush) ∧ (w.opc = 0x06 → decode w = .ok .bsWritten) ∧
    (w.opc = 0x07 → decode w = .ok .bsRead) ∧ (w.opc = 0x08 → decode w = .ok .bsHasmore)) ∧
  ∀ s : State, exec .bsFlush s = .next (answered s 0) ∧ exec .bsWritten s = .next (answered s s.bsi.wcnt.toNat) ∧
    exec .bsRead s = .next (answered s s.bsi.rcnt.toNat) ∧
    (s.bsi.canRead 1 → exec .bsHasmore s = .next (answered s 1)) ∧
    (¬ s.bsi.canRead 1 → exec .bsHasmore s = .next (answered s 0))

/-- R129: CLOSE closes one channel; then writes append nothing, reads end the stream, and only reset opens it again. -/
def Obligations.CloseStopsTheChannelForGood : Prop :=
  (∀ w : CmdWord, w.opc = 0x05 → decode w = .ok (.bsClose (w.opA.setWidth 1))) ∧
  (∀ s : State, exec (.bsClose 0) s = .next (answered { s with bsi := { s.bsi with outClosed := true } } 0) ∧
    exec (.bsClose 1) s = .next (answered { s with bsi := { s.bsi with inClosed := true } } 0)) ∧
  (∀ (s : State) (v n : Nat), s.bsi.outClosed = true → writeBits v n s.bsi = (0, s.bsi)) ∧
  (∀ (s : State) (n : Nat), s.bsi.inClosed = true → 0 < n →
    readBit s.bsi = .stop .endOfStream s.bsi ∧ readBits n s.bsi = .stop .endOfStream s.bsi ∧
    exec .bsHasmore s = .next (answered s 0)) ∧
  (∀ (i : Instr) (s t : State), i ≠ .sysReset → exec i s = .next t →
    (s.bsi.outClosed = true → t.bsi.outClosed = true) ∧ (s.bsi.inClosed = true → t.bsi.inClosed = true))

/-- R133: the byte view of OUT: whole bytes, the first bit of each in bit 7, and once closed a last byte padded with zeros. -/
def Obligations.ByteViewPacksAndPads : Prop :=
  ∀ b : Bsi,
    b.outBytes.length = (if b.outClosed = true then (b.out.length + 7) / 8 else b.out.length / 8) ∧
    ∀ j i, j < b.outBytes.length → i < 8 → (b.outBytes.getD j 0).getLsbD (7 - i) = b.out.getD (8 * j + i) false

/-- The streams move one way: OUT only grows and RCNT never passes the end of IN or steps back; an encoder never touches
the input channel nor a decoder the output channel (R30, R120, R122, R123). -/
def Obligations.StreamsOnlyMoveForward : Prop :=
  ∀ (i : Instr) (s t : State), i ≠ .sysReset → InInv s → exec i s = .next t →
    s.bsi.out <+: t.bsi.out ∧ s.bsi.rcnt.toNat ≤ t.bsi.rcnt.toNat ∧ t.bsi.rcnt.toNat ≤ t.bsi.inBits.length ∧
    (∀ u, i.unit? = some u → u.isEncoder = true → t.bsi.rcnt = s.bsi.rcnt ∧ t.bsi.inClosed = s.bsi.inClosed) ∧
    (∀ u, i.unit? = some u → u.isEncoder = false →
      t.bsi.out = s.bsi.out ∧ t.bsi.wcnt = s.bsi.wcnt ∧ t.bsi.outClosed = s.bsi.outClosed)

/-! ## Exp-Golomb (41_exp_golomb.md) -/

/-- R150: the gate; the whole code and R = 1; or what the sink takes of it, R = 0 and the unit dead of WriteFail. -/
def Obligations.ExpGolombEncodeWritesTheCode : Prop :=
  (∀ w : CmdWord, w.opc = 0x10 → decode w = .ok (.egeEncbyte (w.opA.setWidth 8))) ∧
  ∀ (s : State) (v : Byte),
    (¬ Live s .ege → exec (.egeEncbyte v) s = .next (failed s 5)) ∧
    (Live s .ege → Fits s (egSymbolCode s.ege.signedMode v) →
      exec (.egeEncbyte v) s = .next (answered (emitted s (egSymbolCode s.ege.signedMode v)) 1)) ∧
    (Live s .ege → ¬ Fits s (egSymbolCode s.ege.signedMode v) →
      exec (.egeEncbyte v) s = .next (answered (died (emitted s (egSymbolCode s.ege.signedMode v)) .ege 6) 0))

/-- EGD inverts EGE on every symbol in either mode and consumes exactly its code (R146, R147, R156). -/
def Obligations.ExpGolombDecodeInvertsTheCode : Prop :=
  ∀ (s : State) (v : Byte), Live s .egd → s.bsi.continues (egSymbolCode s.egd.signedMode v) →
    exec .egdDecbyte s =
      .next (answered { s with bsi := s.bsi.advance (egSymbolCode s.egd.signedMode v).length } v.toNat)

/-- EGD dies of InvalidStream at a ninth zero, at an unsigned magnitude above 255 and at a signed value outside -128..127, the
offending bits consumed; and of EndOfStream where IN ends inside a code: a single-bit read consumes what is there, the
suffix all or nothing (R123, R146, R147). -/
def Obligations.ExpGolombDecodeFaults : Prop :=
  (∀ s : State, Live s .egd →
      (s.bsi.continues (List.replicate 9 false) →
        exec .egdDecbyte s = .next (failed (died { s with bsi := s.bsi.advance 9 } .egd 2) 2)) ∧
      (∀ m : Nat, s.egd.signedMode = false → 255 < m → m ≤ 510 → s.bsi.continues (egCode m false) →
        exec .egdDecbyte s = .next (failed (died { s with bsi := s.bsi.advance 17 } .egd 2) 2)) ∧
      (∀ x : Int, s.egd.signedMode = true → x < -128 ∨ 127 < x → x.natAbs ≤ 510 → s.bsi.continues (egCode x true) →
        exec .egdDecbyte s = .next (failed (died { s with bsi := s.bsi.advance (egCode x true).length } .egd 2) 2))) ∧
  (∀ (s : State) (v : Byte), Live s .egd → s.bsi.inBits.length < 2 ^ 64 →
      let code := egSymbolCode s.egd.signedMode v
      let zeros := Nat.log2 ((if s.egd.signedMode then v.toInt else (v.toNat : Int)).natAbs + 1)
      let left := s.bsi.inBits.drop s.bsi.rcnt.toNat
      let n := if left.length < 2 * zeros + 1 then min left.length (zeros + 1) else left.length
      (s.bsi.inClosed = true → exec .egdDecbyte s = .next (failed (died s .egd 1) 1)) ∧
      (s.bsi.inClosed = false → left <+: code → left ≠ code →
        exec .egdDecbyte s = .next (failed (died { s with bsi := s.bsi.advance n } .egd 1) 1)))

/-- EGE_ENCODE writes the codes of the bytes of BUF in order and answers how many were written in full; EGD_DECODE stores the
symbols IN continues with, in order from OFFSET, and leaves every other byte (R151, R157, R333). -/
def Obligations.ExpGolombBulkCommandsFollowTheCodes : Prop :=
  (∀ (s : State) (o l : Word), Live s .ege → o.toNat + l.toNat ≤ s.cfg.bufSize →
      let codes := fun k => (bufBytes s.buf o.toNat k).flatMap (egSymbolCode s.ege.signedMode)
      (Fits s (codes l.toNat) → exec (.egeEncode o l) s = .next (answered (emitted s (codes l.toNat)) l.toNat)) ∧
      (¬ Fits s (codes l.toNat) → ∃ n, n < l.toNat ∧ Fits s (codes n) ∧ ¬ Fits s (codes (n + 1)) ∧
        exec (.egeEncode o l) s = .next (answered (died (emitted s (codes l.toNat)) .ege 6) n))) ∧
  (∀ (s : State) (o l : Word) (vs : List Byte), Live s .egd → o.toNat + l.toNat ≤ s.cfg.bufSize → vs.length = l.toNat →
      s.bsi.continues (vs.flatMap (egSymbolCode s.egd.signedMode)) →
      ∃ m, exec (.egdDecode o l) s = .next (answered
          { s with bsi := s.bsi.advance (vs.flatMap (egSymbolCode s.egd.signedMode)).length, buf := m } l.toNat) ∧
        Stored s.buf m o.toNat vs)

/-! ## Bulk commands as single commands (70_reset_and_hazards.md R375) -/

/-- A bulk command of EG, RC or CM is the single-symbol command on the first symbol and then the bulk command on the rest; an
encode ends at the first symbol not coded, a decode with the first fault, the bytes before it stored (R333, R375). -/
def Obligations.BulkCommandsAreSingleCommands : Prop :=
  (∀ c ∈ [(Instr.egeEncbyte, Instr.egeEncode, UnitId.ege), (Instr.rceEncbyte, Instr.rceEncode, UnitId.rce),
        (Instr.cmeEncbyte, Instr.cmeEncode, UnitId.cme)],
      ∀ (s : State) (o l : Word), Live s c.2.2 → l ≠ 0 → o.toNat + l.toNat ≤ s.cfg.bufSize →
        ∃ t, exec (c.1 (memRead s.buf o.toNat)) s = .next t ∧
          (t.rsp ≠ { flt := 0, r := 1 } → exec (c.2.1 o l) s = .next t) ∧
          (t.rsp = { flt := 0, r := 1 } → ∃ t', exec (c.2.1 (o + 1) (l - 1)) t = .next t' ∧
            exec (c.2.1 o l) s = .next (plusDone t' 1))) ∧
  (∀ c ∈ [(Instr.egdDecbyte, Instr.egdDecode, UnitId.egd), (Instr.rcdDecbyte, Instr.rcdDecode, UnitId.rcd),
        (Instr.cmdDecbyte, Instr.cmdDecode, UnitId.cmd)],
      ∀ (s : State) (o l : Word), Live s c.2.2 → l ≠ 0 → o.toNat + l.toNat ≤ s.cfg.bufSize →
        ∃ t, exec c.1 s = .next t ∧
          (t.rsp.flt ≠ 0 → exec (c.2.1 o l) s = .next t) ∧
          (t.rsp.flt = 0 → ∃ m t', Stored s.buf m o.toNat [t.rsp.r.setWidth 8] ∧
            exec (c.2.1 (o + 1) (l - 1)) { t with buf := m } = .next t' ∧
            exec (c.2.1 o l) s = .next (plusDone t' 1)))

/-! ## The code builder (42_huffman_code_builder.md) -/

/-- R180, R181, R183, R184, R185: the table commands of HCB write and read the entry their operand names. -/
def Obligations.HcbTableCommandsReadAndWriteEntries : Prop :=
  (∀ w : CmdWord, (w.opc = 0x30 → decode w = .ok (.hcbSetfreq (w.opA.setWidth 8) w.opB)) ∧
    (w.opc = 0x31 → decode w = .ok .hcbClrfreq) ∧ (w.opc = 0x33 → decode w = .ok (.hcbGetsize (w.opA.setWidth 8))) ∧
    (w.opc = 0x34 → decode w = .ok (.hcbGetcode (w.opA.setWidth 8))) ∧
    (w.opc = 0x35 → decode w = .ok (.hcbGetfreq (w.opA.setWidth 8)))) ∧
  ∀ (s : State) (idx : Byte) (value : Word),
    (∃ f, exec (.hcbSetfreq idx value) s = .next (answered { s with hcb := { s.hcb with freq := f } } 0) ∧
      ∀ b, symGet f b = if b = idx then value else symGet s.hcb.freq b) ∧
    (∃ f, exec .hcbClrfreq s = .next (answered { s with hcb := { s.hcb with freq := f } } 0) ∧ ∀ b, symGet f b = 0) ∧
    exec (.hcbGetsize idx) s = .next (answered s (symGet s.hcb.sizes idx).toNat) ∧
    exec (.hcbGetcode idx) s = .next (answered s (symGet s.hcb.codes idx).toNat) ∧
    exec (.hcbGetfreq idx) s = .next (answered s (symGet s.hcb.freq idx).toNat)

/-- A build of no present symbol is refused; one gets the code `0` of one bit; two get one bit each, the smaller symbol `0`;
with two or more, the merges of R171 and R172 make a tree, the build is refused exactly where a leaf of it is deeper than 31,
and else it installs the depths of the leaves as lengths, a full tree over exactly the present symbols, with their canonical
codes, and answers how many there are (R171, R172, R173, R174, R176, R182). -/
def Obligations.BuildInstallsAFullTree : Prop :=
  (∀ s : State,
      ((∀ b : Byte, symGet s.hcb.freq b = 0) → exec .hcbBuild s = .next (failed s 3)) ∧
      (∀ a : Byte, (∀ b : Byte, symGet s.hcb.freq b ≠ 0 ↔ b = a) → ∃ z c,
        exec .hcbBuild s = .next (answered { s with hcb := { s.hcb with sizes := z, codes := c } } 1) ∧
        ∀ b : Byte, symGet z b = (if b = a then 1 else 0) ∧ symGet c b = 0) ∧
      (∀ a a' : Byte, a < a' → (∀ b : Byte, symGet s.hcb.freq b ≠ 0 ↔ b = a ∨ b = a') → ∃ z c,
        exec .hcbBuild s = .next (answered { s with hcb := { s.hcb with sizes := z, codes := c } } 2) ∧
        ∀ b : Byte, symGet z b = (if b = a ∨ b = a' then 1 else 0) ∧ symGet c b = (if b = a' then 1 else 0))) ∧
  (∀ s : State,
      let present := (s.hcb.freq.toList.filter fun f => decide (f ≠ 0)).length
      2 ≤ present → ∃ t, mergedTree s.hcb.freq 256 (presentNodes s.hcb.freq) = some t ∧
        ((∃ d ∈ t.depths 0, 31 < d.2) → exec .hcbBuild s = .next (failed s 3)) ∧
        ((∀ d ∈ t.depths 0, d.2 ≤ 31) → ∃ z, exec .hcbBuild s =
            .next (answered { s with hcb := { s.hcb with sizes := z, codes := assignCodes z } } present) ∧
          (∀ d ∈ t.depths 0, (symGet z (BitVec.ofNat 8 d.1)).toNat = d.2) ∧
          kraft z = 2 ^ 31 ∧ ∀ b : Byte, symGet z b ≠ 0 ↔ symGet s.hcb.freq b ≠ 0))

/-- A table of at most 2^20 counts, not all zero, is never refused: its tree is at most 28 deep (R174). -/
def Obligations.SmallTotalsAlwaysBuild : Prop :=
  ∀ s : State, (∃ b : Byte, symGet s.hcb.freq b ≠ 0) → (s.hcb.freq.toList.map BitVec.toNat).sum ≤ 2 ^ 20 →
    ∃ z n, exec .hcbBuild s = .next (answered { s with hcb := { s.hcb with sizes := z, codes := assignCodes z } } n) ∧
      (∀ b : Byte, (symGet z b).toNat ≤ 28) ∧ ∀ b : Byte, symGet z b ≠ 0 ↔ symGet s.hcb.freq b ≠ 0

/-- On a full length table the canonical codes are prefix-free and fit their lengths; equal lengths rise with the symbol, a
longer code lies below any shorter one, the first is all zeros and the last all ones (R175, R176). -/
def Obligations.CanonicalCodesArePrefixFreeAndOrdered : Prop :=
  ∀ z : Vector (BitVec 5) 256, kraft z = 2 ^ 31 →
    let size := fun a : Byte => (symGet z a).toNat
    let code := fun a : Byte => (symGet (assignCodes z) a).toNat
    PrefixFree z (assignCodes z) ∧ CodesFit z (assignCodes z) ∧
    (∀ a b : Byte, size a ≠ 0 → size b = size a → a < b → code a < code b) ∧
    (∀ a b : Byte, size b ≠ 0 → size b < size a → code a * 2 ^ (31 - size a) < code b * 2 ^ (31 - size b)) ∧
    (∀ a : Byte, size a ≠ 0 → (∀ b : Byte, size b < size a ∨ (size b = size a ∧ a ≤ b)) → code a = 0) ∧
    (∀ a : Byte, size a ≠ 0 → (∀ b : Byte, size b ≠ 0 → size a < size b ∨ (size b = size a ∧ b ≤ a)) →
      code a = 2 ^ size a - 1)

/-- R177: the test of received lengths accepts a single length of 1 or a full tree, and accepts exactly the tables the
builder makes from some frequency table. -/
def Obligations.ValidLengthsAreTheBuildableOnes : Prop :=
  ∀ z : Vector (BitVec 5) 256,
    (lengthsValid z = true ↔
      if (z.toList.filter fun n => decide (n ≠ 0)).length = 1 then ∃ b : Byte, symGet z b = 1 else kraft z = 2 ^ 31) ∧
    (lengthsValid z = true ↔ ∃ freq, buildLengths freq = some z)

/-! ## Huffman coding (43_huffman_codec.md) -/

/-- R200: the gate; a symbol without a code answers 0 and changes nothing; else the code is written, R = 1, or what the sink
takes of it, R = 0 and the unit dead of WriteFail. -/
def Obligations.HuffmanEncodeWritesTheCode : Prop :=
  (∀ w : CmdWord, w.opc = 0x40 → decode w = .ok (.hfeEncbyte (w.opA.setWidth 8))) ∧
  ∀ (s : State) (v : Byte),
    let code := hufBits s.hfe.sizes s.hfe.codes v
    (¬ Live s .hfe → exec (.hfeEncbyte v) s = .next (failed s 5)) ∧
    (Live s .hfe → symGet s.hfe.sizes v = 0 → exec (.hfeEncbyte v) s = .next (answered s 0)) ∧
    (Live s .hfe → symGet s.hfe.sizes v ≠ 0 → Fits s code →
      exec (.hfeEncbyte v) s = .next (answered (emitted s code) 1)) ∧
    (Live s .hfe → symGet s.hfe.sizes v ≠ 0 → ¬ Fits s code →
      exec (.hfeEncbyte v) s = .next (answered (died (emitted s code) .hfe 6) 0))

/-- HFD delivers the symbol whose code IN continues with and consumes exactly that code. Its faults: with a full tree none but
EndOfStream; with the one-symbol table a 1 bit is InvalidStream; inside a code the end of IN is EndOfStream, the bits there
consumed (R195, R210). -/
def Obligations.HuffmanDecodeInvertsTheCode : Prop :=
  (∀ (s : State) (v : Byte), Live s .hfd → s.hfd.Valid → symGet s.hfd.sizes v ≠ 0 →
      s.bsi.continues (hufBits s.hfd.sizes s.hfd.codes v) →
      exec .hfdDecbyte s =
        .next (answered { s with bsi := s.bsi.advance (symGet s.hfd.sizes v).toNat } v.toNat)) ∧
  (∀ s : State, Live s .hfd → s.hfd.Valid →
      (∀ t, kraft s.hfd.sizes = 2 ^ 31 → exec .hfdDecbyte s = .next t → t.rsp.flt = 0 ∨ t.rsp.flt = 1) ∧
      (kraft s.hfd.sizes ≠ 2 ^ 31 → s.bsi.continues [true] →
        exec .hfdDecbyte s = .next (failed (died { s with bsi := s.bsi.advance 1 } .hfd 2) 2)) ∧
      (∀ v : Byte, symGet s.hfd.sizes v ≠ 0 → s.bsi.inClosed = false → s.bsi.inBits.length < 2 ^ 64 →
        s.bsi.inBits.drop s.bsi.rcnt.toNat <+: hufBits s.hfd.sizes s.hfd.codes v →
        s.bsi.inBits.drop s.bsi.rcnt.toNat ≠ hufBits s.hfd.sizes s.hfd.codes v →
        exec .hfdDecbyte s = .next (failed
          (died { s with bsi := s.bsi.advance (s.bsi.inBits.length - s.bsi.rcnt.toNat) } .hfd 1) 1)))

/-- R193, R205: the gate; a refused build changes nothing; else HCB and HFE get the lengths and codes and the header is
written, R = 1, or what the sink takes of it, R = 0 and the unit dead of WriteFail. -/
def Obligations.HuffmanUpdateInstallsAndAnnounces : Prop :=
  (∀ w : CmdWord, w.opc = 0x45 → decode w = .ok .hfeUpdate) ∧
  ∀ s : State,
    (¬ Live s .hfe → exec .hfeUpdate s = .next (failed s 5)) ∧
    (Live s .hfe → buildLengths s.hcb.freq = none → exec .hfeUpdate s = .next (failed s 3)) ∧
    (∀ z, Live s .hfe → buildLengths s.hcb.freq = some z →
      let t : State := { emitted s (headerBits z) with
        hcb := { s.hcb with sizes := z, codes := assignCodes z }
        hfe := { s.hfe with sizes := z, codes := assignCodes z } }
      (Fits s (headerBits z) → exec .hfeUpdate s = .next (answered t 1)) ∧
      (¬ Fits s (headerBits z) → exec .hfeUpdate s = .next (answered (died t .hfe 6) 0)))

/-- HFD_READLEN inverts the header of every length table: a valid one is installed with its canonical codes, any other is
InvalidStream, the tables unchanged. A header that goes wrong after some lengths leaves the tables unchanged too: a running
length outside 0..31 is InvalidStream as soon as its delta is read, nine zeros in place of a delta are, and IN ending inside
the first length or a delta is EndOfStream (R123, R146, R147, R194, R215). -/
def Obligations.ReadLengthsInvertsTheHeader : Prop :=
  (∀ (s : State) (z : Vector (BitVec 5) 256), Live s .hfd → s.bsi.continues (headerBits z) →
    let read : State := { s with bsi := s.bsi.advance (headerBits z).length }
    (lengthsValid z = true → exec .hfdReadlen s = .next (answered
      { read with hfd := { s.hfd with sizes := z, codes := assignCodes z } }
      (z.toList.filter fun n => decide (n ≠ 0)).length)) ∧
    (lengthsValid z = false → exec .hfdReadlen s = .next (failed (died read .hfd 2) 2))) ∧
  (∀ s : State, Live s .hfd → ¬ s.bsi.canRead 5 → exec .hfdReadlen s = .next (failed (died s .hfd 1) 1)) ∧
  (∀ (s : State) (lens : List Nat), Live s .hfd → lens ≠ [] → lens.length ≤ 255 → (∀ n ∈ lens, n ≤ 31) →
    let start := headerStart lens
    let read := fun n : Nat => { s with bsi := s.bsi.advance (start.length + n) }
    (∀ d : Int, d.natAbs ≤ 510 → (lens.getLastD 0 : Int) + d < 0 ∨ 31 < (lens.getLastD 0 : Int) + d →
      s.bsi.continues (start ++ egCode d true) →
      exec .hfdReadlen s = .next (failed (died (read (egCode d true).length) .hfd 2) 2)) ∧
    (s.bsi.continues (start ++ List.replicate 9 false) →
      exec .hfdReadlen s = .next (failed (died (read 9) .hfd 2) 2)) ∧
    (∀ (d : Int) (part : List Bool), d.natAbs ≤ 510 → part <+: egCode d true → part ≠ egCode d true →
      s.bsi.inClosed = false → s.bsi.inBits.length < 2 ^ 64 → s.bsi.inBits.drop s.bsi.rcnt.toNat = start ++ part →
      exec .hfdReadlen s = .next (failed (died (read (egEaten d part.length)) .hfd 1) 1)))

/-- One block of HFE_ENCODE: FREQ counts its bytes, the code is built and installed, the header and the codes are written;
cut short, it answers the symbols written in full (R104, R196, R201). -/
def Obligations.HuffmanBlockEncodeWritesHeaderAndCodes : Prop :=
  ∀ (s : State) (o l : Word), Live s .hfe → 0 < l.toNat → l.toNat ≤ s.hfe.block.toNat → l.toNat ≤ 2 ^ 20 →
    o.toNat + l.toNat ≤ s.cfg.bufSize →
    ∃ f z, (∀ v : Byte, (symGet f v).toNat = (bufBytes s.buf o.toNat l.toNat).count v) ∧ buildLengths f = some z ∧
      let bits := fun k => headerBits z ++ (bufBytes s.buf o.toNat k).flatMap (hufBits z (assignCodes z))
      let t : State := { emitted s (bits l.toNat) with
        hcb := { freq := f, sizes := z, codes := assignCodes z }
        hfe := { s.hfe with sizes := z, codes := assignCodes z } }
      (Fits s (bits l.toNat) → exec (.hfeEncode o l) s = .next (answered t l.toNat)) ∧
      (¬ Fits s (bits l.toNat) → ∃ n, n < l.toNat ∧ (n = 0 ∨ Fits s (bits n)) ∧ ¬ Fits s (bits (n + 1)) ∧
        exec (.hfeEncode o l) s = .next (answered (died t .hfe 6) n))

/-- One block of HFD_DECODE: the header is installed, the symbols stored (R197, R211). -/
def Obligations.HuffmanBlockDecodeStoresTheSymbols : Prop :=
  ∀ (s : State) (o l : Word) (z : Vector (BitVec 5) 256) (vs : List Byte), Live s .hfd → vs.length = l.toNat →
    0 < l.toNat → l.toNat ≤ s.hfd.block.toNat → o.toNat + l.toNat ≤ s.cfg.bufSize → lengthsValid z = true →
    (∀ v ∈ vs, symGet z v ≠ 0) →
    let bits := headerBits z ++ vs.flatMap (hufBits z (assignCodes z))
    s.bsi.continues bits →
    ∃ m, exec (.hfdDecode o l) s = .next (answered { s with
        bsi := s.bsi.advance bits.length, buf := m, hfd := { s.hfd with sizes := z, codes := assignCodes z } }
        l.toNat) ∧
      Stored s.buf m o.toNat vs

/-- A longer HFE_ENCODE or HFD_DECODE is its first block and then the same command on the rest (R196, R197, R380). -/
def Obligations.HuffmanBulkGoesBlockByBlock : Prop :=
  (∀ (s : State) (o l : Word), Live s .hfe → 1 ≤ s.hfe.block.toNat → s.hfe.block.toNat < l.toNat →
    o.toNat + l.toNat ≤ s.cfg.bufSize →
    let k := s.hfe.block
    ∃ t, exec (.hfeEncode o k) s = .next t ∧
      (t.rsp ≠ { flt := 0, r := k.setWidth 64 } → exec (.hfeEncode o l) s = .next t) ∧
      (t.rsp = { flt := 0, r := k.setWidth 64 } → ∃ t', exec (.hfeEncode (o + k) (l - k)) t = .next t' ∧
        exec (.hfeEncode o l) s = .next (plusDone t' k.toNat))) ∧
  (∀ (s : State) (o l : Word), Live s .hfd → 1 ≤ s.hfd.block.toNat → s.hfd.block.toNat < l.toNat →
    o.toNat + l.toNat ≤ s.cfg.bufSize →
    let k := s.hfd.block
    ∃ t, exec (.hfdDecode o k) s = .next t ∧
      (t.rsp.flt ≠ 0 → exec (.hfdDecode o l) s = .next t) ∧
      (t.rsp.flt = 0 → ∃ t', exec (.hfdDecode (o + k) (l - k)) t = .next t' ∧
        exec (.hfdDecode o l) s = .next (plusDone t' k.toNat)))

/-! ## The range coder (44_range_coder.md) -/

/-- AftUpdate adds 1 to every cumulative count above the symbol and to nothing else, keeps the table strictly rising with empty
group starts, and never changes the two last deltas; below the total, AftFind finds the one slot whose interval holds the
count (R232, R233, R234). -/
def Obligations.FrequencyTableCountsAndFinds : Prop :=
  (∀ (f : Aft) (v : Nat), f.Inv → v < 256 → f.total < 2 ^ 32 - 1 →
      (f.update v).Inv ∧ (∀ i, i ≤ 257 → (f.update v).cum i = f.cum i + (if v < i then 1 else 0)) ∧
      (f.update v).delta[256] = f.delta[256] ∧ (f.update v).delta[257] = f.delta[257]) ∧
  (∀ (f : Aft) (count : Nat), f.Inv → count < f.total →
      ∃ v, v ≤ 256 ∧ f.find count = some v ∧ f.cum v ≤ count ∧ count < f.cum (v + 1) ∧
        ∀ u, u ≤ 256 → f.cum u ≤ count → count < f.cum (u + 1) → u = v)

/-- RCE codes a symbol: the table counts it, whole bytes go out, and they start where the symbol's part of the interval starts
and stay inside it. RCE_ENCODE on an OUT with room codes all LENGTH bytes, counts each, and writes at most seven bytes for
each (R235 to R238, R250, R251, R333). -/
def Obligations.RangeEncodeNarrowsToTheSymbol : Prop :=
  (∀ (s : State) (v : Byte), Live s .rce → s.rce.coder.Inv → s.rce.coder.aft.total < 2 ^ 32 - 1 → s.bsi.room 56 = 56 →
      ∃ x out, exec (.rceEncbyte v) s = .next (answered
          { s with rce := { s.rce with coder := x }, bsi := s.bsi.append out } 1) ∧
        RcStep s.rce.coder x v.toNat out) ∧
  (∀ (s : State) (o l : Word), Live s .rce → s.rce.coder.Inv → s.rce.coder.aft.total + l.toNat ≤ 2 ^ 32 - 1 →
      o.toNat + l.toNat ≤ s.cfg.bufSize → s.bsi.room (56 * l.toNat) = 56 * l.toNat →
      ∃ x out, exec (.rceEncode o l) s = .next (answered
          { s with rce := { s.rce with coder := x }, bsi := s.bsi.append out } l.toNat) ∧
        x.Inv ∧ 8 ∣ out.length ∧ out.length ≤ 56 * l.toNat ∧
        ∀ i, i ≤ 257 → x.aft.cum i =
          s.rce.coder.aft.cum i + (bufBytes s.buf o.toNat l.toNat).countP fun b => decide (b.toNat < i))

/-- RCD with a loaded window delivers the symbol whose slot holds the window, narrows as the encoder does, and shifts one
byte of IN in for each byte the encoder shifts out; RCD_DECODE of one symbol stores it (R240, R256, R257). -/
def Obligations.RangeDecodeDeliversTheSlot : Prop :=
  ∀ (s : State) (v : Byte), Live s .rcd → s.rcd.coder.Inv → s.rcd.coder.aft.total < 2 ^ 32 - 1 →
    s.rcd.ustat.primed = true → s.rcd.code.toNat < 2 ^ 56 → s.bsi.canRead 56 → s.bsi.inBits.length < 2 ^ 64 →
    s.rcd.coder.aft.cum v.toNat ≤ s.rcd.count → s.rcd.count < s.rcd.coder.aft.cum (v.toNat + 1) →
    ∃ x out w, exec .rcdDecbyte s = .next (answered { s with
        rcd := { s.rcd with coder := x, code := w }, bsi := s.bsi.advance out.length } v.toNat) ∧
      (∀ o : Word, o.toNat + 1 ≤ s.cfg.bufSize → ∃ m, exec (.rcdDecode o 1) s = .next (answered { s with
        rcd := { s.rcd with coder := x, code := w }, bsi := s.bsi.advance out.length, buf := m } 1) ∧
        Stored s.buf m o.toNat [v]) ∧
      RcStep s.rcd.coder x v.toNat out ∧
      w.toNat = (s.rcd.code.toNat * 2 ^ out.length + bitsValue (s.bsi.ahead out.length)) % 2 ^ 56

/-- RCD with a loaded window: the tail of the interval is InvalidStream, the sentinel slot EndOfStream, and nothing is consumed.
Where a shift of a data symbol's renormalisation finds fewer than 8 bits left, EndOfStream: the shifts before it stay done,
`low`, `range` and the window keep what they had reached, and the table has not learned the symbol. At a table total of 2^32 - 1 both range coders refuse to code, before the window is loaded, and nothing changes (R238, R240,
R250, R251, R256, R257, R384). -/
def Obligations.RangeDecodeRefusalsAndFaults : Prop :=
  (∀ s : State, Live s .rcd → s.rcd.coder.Inv → s.rcd.coder.aft.total < 2 ^ 32 - 1 → s.rcd.ustat.primed = true →
      (s.rcd.coder.aft.total ≤ s.rcd.count → exec .rcdDecbyte s = .next (failed (died s .rcd 2) 2)) ∧
      (s.rcd.coder.aft.cum 256 ≤ s.rcd.count → s.rcd.count < s.rcd.coder.aft.total →
        exec .rcdDecbyte s = .next (failed (died s .rcd 1) 1)) ∧
      (∀ (v : Byte) (i c : Nat × Nat), s.rcd.code.toNat < 2 ^ 56 → s.bsi.inBits.length < 2 ^ 64 →
        s.rcd.coder.aft.cum v.toNat ≤ s.rcd.count → s.rcd.count < s.rcd.coder.aft.cum (v.toNat + 1) →
        let k := s.bsi.left / 8
        rcAfter (s.rcd.coder.slotPart v.toNat) k = some i → rcDue i = some c →
        exec .rcdDecbyte s = .next (failed (died { s with
          rcd := { s.rcd with
            coder := { low := BitVec.ofNat 64 c.1, range := BitVec.ofNat 64 c.2, aft := s.rcd.coder.aft }
            code := BitVec.ofNat 64 ((s.rcd.code.toNat * 2 ^ (8 * k) + bitsValue (s.bsi.ahead (8 * k))) % 2 ^ 56) }
          bsi := s.bsi.advance (8 * k) } .rcd 1) 1))) ∧
  (∀ (s : State) (v : Byte) (o l : Word),
      (Live s .rce → 2 ^ 32 - 1 ≤ s.rce.coder.aft.total → exec (.rceEncbyte v) s = .next (failed s 3) ∧
        (l ≠ 0 → exec (.rceEncode o l) s = .next (failed s 3))) ∧
      (Live s .rcd → 2 ^ 32 - 1 ≤ s.rcd.coder.aft.total → exec .rcdDecbyte s = .next (failed s 3) ∧
        (l ≠ 0 → exec (.rcdDecode o l) s = .next (failed s 3))))

/-- RCD and CMD load their window from the next 56 or 32 bits at the first decode, all or none, and then decode from it
(R239, R304). -/
def Obligations.DecodersPrimeAtTheFirstDecode : Prop :=
  ∀ s : State,
    (Live s .rcd → s.rcd.ustat.primed = false → s.rcd.coder.aft.total < 2 ^ 32 - 1 →
      (s.bsi.canRead 56 → exec .rcdDecbyte s = exec .rcdDecbyte { s with
        rcd := { s.rcd with
          code := BitVec.ofNat 64 (bitsValue (s.bsi.ahead 56)), ustat := { s.rcd.ustat with primed := true } }
        bsi := s.bsi.advance 56 }) ∧
      (¬ s.bsi.canRead 56 → exec .rcdDecbyte s = .next (failed (died s .rcd 1) 1))) ∧
    (Live s .cmd → s.cmd.ustat.primed = false →
      (s.bsi.canRead 32 → exec .cmdDecbyte s = exec .cmdDecbyte { s with
        cmd := { s.cmd with
          current := BitVec.ofNat 32 (bitsValue (s.bsi.ahead 32)), ustat := { s.cmd.ustat with primed := true } }
        bsi := s.bsi.advance 32 }) ∧
      (¬ s.bsi.canRead 32 → exec .cmdDecbyte s = .next (failed (died s .cmd 1) 1)))

/-- Encoder and decoder of the two arithmetic coders stay in lockstep: from the same interval and model, the decoder that
delivers a symbol is where the encoder that codes it is, and has shifted in as many bits as went out (R240, R284, R305,
R383). -/
def Obligations.ArithmeticCodersStayInLockstep : Prop :=
  ∀ (s t t' : State) (v : Byte),
    (s.rcd.coder = s.rce.coder → s.rcd.ustat.primed = true → exec .rcdDecbyte s = .next t →
      t.rsp = { flt := 0, r := v.setWidth 64 } → exec (.rceEncbyte v) s = .next t' → t'.rsp = { flt := 0, r := 1 } →
      t.rcd.coder = t'.rce.coder ∧ t.bsi.rcnt - s.bsi.rcnt = t'.bsi.wcnt - s.bsi.wcnt) ∧
    (s.cmd.coder = s.cme.coder → s.cmd.ustat.primed = true → exec .cmdDecbyte s = .next t →
      t.rsp = { flt := 0, r := v.setWidth 64 } → exec (.cmeEncbyte v) s = .next t' → t'.rsp = { flt := 0, r := 1 } →
      t.cmd.coder = t'.cme.coder ∧ t.bsi.rcnt - s.bsi.rcnt = t'.bsi.wcnt - s.bsi.wcnt)

/-! ## The predictor and the context-mixing coder (45_cm_predictor.md, 46_cm_coder.md) -/

/-- R274: stretch is the least preimage of squash on -2047..2047, non-decreasing, with the values listed. -/
def Obligations.StretchIsTheLeastPreimageOfSquash : Prop :=
  (∀ p : Nat, p ≤ 4095 → -2047 ≤ stretch p ∧ stretch p ≤ 2047 ∧ (p ≤ 4094 → p ≤ squash (stretch p)) ∧
    ∀ x : Int, -2047 ≤ x → x < stretch p → squash x < p) ∧
  (∀ p q : Nat, p ≤ q → q ≤ 4095 → stretch p ≤ stretch q) ∧
  (∀ x : Int, -2047 ≤ x → x ≤ 2047 → stretch (squash x) ≤ x) ∧
  (stretch 0 = -2047 ∧ stretch 1 = -2047 ∧ stretch 2 = -1984 ∧ stretch 100 = -951 ∧ stretch 1024 = -284 ∧
    stretch 2047 = 0 ∧ stretch 2048 = 0 ∧ stretch 2049 = 1 ∧ stretch 3072 = 285 ∧ stretch 4000 = 963 ∧
    stretch 4094 = 1984 ∧ stretch 4095 = 2047)

/-- `Update` trains the StateMap entry and the eight APM bins of the last prediction, moves the state of the coded context on by
CM_STATE_TABLE, takes the bit into the context, and then predicts. Training moves an entry by a 128th of its distance,
rounded down, and never leaves 0..65535; eight context updates with the bits of a byte roll it into `c4`, count the run and
leave the context at its marker, from any predictor between symbols (R271, R276, R278, R281, R282). -/
def Obligations.UpdateTrainsAndRollsTheContext : Prop :=
  (∀ (tbl : Vector StateEntry 256) (p : Predictor) (bit : Bool),
      ∃ q, p.Learned tbl bit q ∧ p.update tbl bit = q.predict) ∧
  (∀ (t : BitVec 16) (bit : Bool),
      ((smTrained t bit).toNat : Int) = t.toNat + ((if bit then 65536 else 0) - (t.toNat : Int)).fdiv 128 ∧
      ((apmTrained t bit).toNat : Int) = t.toNat + ((if bit then 65535 else 0) - (t.toNat : Int)).fdiv 128) ∧
  (∀ (p : Predictor) (v : Byte), p.Idle →
      let run := if p.c4.extractLsb' 0 8 = v then min (p.run.toNat + 1) 65535 else 0
      (bitsMsb v.toNat 8).foldl Predictor.updateContext p = { p with
        c4 := p.c4.extractLsb' 0 24 ++ v
        run := BitVec.ofNat 16 run
        runCtx := if run = 0 then 0 else if run = 1 then 1 else if run ≤ 3 then 2 else 3 })

/-- A prediction is a 12-bit probability made by the chain p2, p3, p5 (averaged), p4 (averaged), each stage reading two
neighbouring bins of the context row its key of R279 selects; it writes the index registers and `pred` alone (R275, R277, R279, R280). -/
def Obligations.PredictRunsTheChain : Prop :=
  ∀ p : Predictor, ∃ p2 p3 q5 q4 : Nat,
    let si := symGet p.states p.c0
    let p0 := (symGet p.sm si).toNat >>> 4
    let p5 := (q5 + p3 + 1) / 2
    let bin := fun pr : Nat => (stretch pr + 2048).toNat / 128
    let mix := fun (lo hi : BitVec 16) (pr : Nat) =>
      (lo.toNat * (128 - (stretch pr + 2048).toNat % 128) + hi.toNat * ((stretch pr + 2048).toNat % 128)) / 2048
    let mflag := if (256 + p.c4.toNat % 256) / 2 ^ (8 - p.bpos.toNat) = p.c0.toNat then 1 else 0
    let key2 := p.c0.toNat + 256 * mflag
    let key3 := p.c0.toNat + 256 * p.runCtx.toNat
    let key5 := (p.c4.toNat * 0x9E3779B1 % 2 ^ 32 / 2 ^ 16) ^^^ p.c0.toNat
    let key4 := p.c0.toNat
    let i2 := bin p0 + key2 * 33
    let i3 := bin p2 + key3 * 33
    let i5 := bin p3 + key5 * 33
    let i4 := bin p5 + key4 * 33
    p2 = mix (p.apm2.entry i2) (p.apm2.entry (i2 + 1)) p0 ∧ p3 = mix (p.apm3.entry i3) (p.apm3.entry (i3 + 1)) p2 ∧
    q5 = mix (p.apm5.entry i5) (p.apm5.entry (i5 + 1)) p3 ∧ q4 = mix (p.apm4.entry i4) (p.apm4.entry (i4 + 1)) p5 ∧
    key2 < 512 ∧ key3 < 1024 ∧ key5 < 65536 ∧ key4 < 256 ∧
    bin p0 < 32 ∧ bin p2 < 32 ∧ bin p3 < 32 ∧ bin p5 < 32 ∧ (q4 + p5 + 1) / 2 < 4096 ∧
    p.predict = { p with
      smIdx := si
      apm2 := { p.apm2 with idx := p.predict.apm2.idx }
      apm3 := { p.apm3 with idx := p.predict.apm3.idx }
      apm5 := { p.apm5 with idx := p.predict.apm5.idx }
      apm4 := { p.apm4 with idx := p.predict.apm4.idx }
      pred := p.predict.pred } ∧
    p.predict.apm2.idx.toNat = i2 ∧ p.predict.apm3.idx.toNat = i3 ∧ p.predict.apm5.idx.toNat = i5 ∧
    p.predict.apm4.idx.toNat = i4 ∧ p.predict.pred.toNat = (q4 + p5 + 1) / 2

/-- The split point leaves both bits a non-empty part of the interval. CME codes a symbol with eight predictor updates, and the
whole bytes that go out stand, with the new interval, for the part of the old one that the symbol's eight bits select, each
by the split of the interval and prediction the bit before leaves; CME_ENCODE on an OUT with room codes all the bits of all
LENGTH bytes so, in order (R301, R302, R303, R306, R310, R311). -/
def Obligations.ContextMixingEncodeCodesEightBits : Prop :=
  (∀ x : CmCoder, x.low.toNat < x.high.toNat →
      x.split = x.low.toNat + (x.high.toNat - x.low.toNat) / 4096 * x.p.pred.toNat ∧ x.low.toNat ≤ x.split ∧
      x.split < x.high.toNat ∧ (x.narrow true).high.toNat = x.split ∧ (x.narrow false).low.toNat = x.split + 1) ∧
  (∀ (s : State) (v : Byte), Live s .cme → s.cme.coder.Inv → s.cme.coder.p.Idle → s.bsi.room 256 = 256 →
      ∃ x out, exec (.cmeEncbyte v) s = .next (answered
          { s with cme := { s.cme with coder := x }, bsi := s.bsi.append out } 1) ∧
        CmStep s.cfg.stateTable s.cme.coder x v out) ∧
  (∀ (s : State) (o l : Word), Live s .cme → s.cme.coder.Inv → s.cme.coder.p.Idle → o.toNat + l.toNat ≤ s.cfg.bufSize →
      s.bsi.room (256 * l.toNat) = 256 * l.toNat →
      ∃ x out, exec (.cmeEncode o l) s = .next (answered
          { s with cme := { s.cme with coder := x }, bsi := s.bsi.append out } l.toNat) ∧
        x.Inv ∧ x.p.Idle ∧ 8 ∣ out.length ∧ out.length ≤ 256 * l.toNat ∧
        CmBits s.cfg.stateTable s.cme.coder ((bufBytes s.buf o.toNat l.toNat).flatMap fun b => bitsMsb b.toNat 8) x out ∧
        x.p = predictorRun s.cfg.stateTable s.cme.coder.p
          ((bufBytes s.buf o.toNat l.toNat).flatMap fun b => bitsMsb b.toNat 8))

/-- CMD with a loaded window and enough of IN delivers the symbol whose eight bits the window selects: the predictor has seen
them, and a byte of IN comes in for each byte the encoder would put out; CMD_DECODE stores LENGTH symbols so. Where a shift
after some bits finds fewer than 8 bits of IN left, EndOfStream: the interval, the window and the predictor keep what they
had reached. The only faults CMD ever answers are UnitDead, InvalidArgument and EndOfStream (R305, R306, R316, R317). -/
def Obligations.ContextMixingDecodeDeliversSymbols : Prop :=
  (∀ s : State, Live s .cmd → s.cmd.coder.Inv → s.cmd.coder.p.Idle → s.cmd.ustat.primed = true → s.bsi.canRead 256 →
      s.bsi.inBits.length < 2 ^ 64 →
      ∃ v x out w, exec .cmdDecbyte s = .next (answered { s with
          cmd := { s.cmd with coder := x, current := w }, bsi := s.bsi.advance out.length } v.toNat) ∧
        CmStep s.cfg.stateTable s.cmd.coder x v out ∧
        CmReads s.cfg.stateTable s.cmd.coder s.cmd.current.toNat (bitsMsb v.toNat 8) (s.bsi.ahead out.length) x w.toNat ∧
        w.toNat = (s.cmd.current.toNat * 2 ^ out.length + bitsValue (s.bsi.ahead out.length)) % 2 ^ 32) ∧
  ((∀ (s : State) (o l : Word), Live s .cmd → s.cmd.coder.Inv → s.cmd.coder.p.Idle → o.toNat + l.toNat ≤ s.cfg.bufSize →
      s.bsi.canRead (32 + 256 * l.toNat) → s.bsi.inBits.length < 2 ^ 64 → l ≠ 0 →
      ∃ vs d n m, exec (.cmdDecode o l) s = .next (answered { s with cmd := d, bsi := s.bsi.advance n, buf := m } l.toNat) ∧
        vs.length = l.toNat ∧ Stored s.buf m o.toNat vs ∧ d.ustat = { s.cmd.ustat with primed := true } ∧ d.coder.Inv ∧
        8 ∣ n ∧ n ≤ 32 + 256 * l.toNat ∧
        d.coder.p = predictorRun s.cfg.stateTable s.cmd.coder.p (vs.flatMap fun b => bitsMsb b.toNat 8) ∧
        let k := if s.cmd.ustat.primed then 0 else 32
        let w := if s.cmd.ustat.primed then s.cmd.current.toNat else bitsValue (s.bsi.ahead 32)
        k ≤ n ∧ CmReads s.cfg.stateTable s.cmd.coder w (vs.flatMap fun b => bitsMsb b.toNat 8)
          ((s.bsi.advance k).ahead (n - k)) d.coder d.current.toNat) ∧
    (∀ (s : State) (bits inp out : List Bool) (y z : CmCoder) (w : Nat), Live s .cmd → s.cmd.coder.Inv →
      s.cmd.coder.p.Idle → s.cmd.ustat.primed = true → s.bsi.inBits.length < 2 ^ 64 → bits.length < 8 →
      inp.length + out.length ≤ s.bsi.left → s.bsi.left < inp.length + out.length + 8 → inp = s.bsi.ahead inp.length →
      CmReads s.cfg.stateTable s.cmd.coder s.cmd.current.toNat bits inp y w →
      CmShifted (y.bitPart (y.selected w)) z out → z.p = y.p.update s.cfg.stateTable (y.selected w) → z.due →
      exec .cmdDecbyte s = .next (failed (died { s with
        cmd := { s.cmd with
          coder := z
          current := BitVec.ofNat 32
            (w * 2 ^ out.length + bitsValue ((s.bsi.advance inp.length).ahead out.length)) }
        bsi := s.bsi.advance (inp.length + out.length) } .cmd 1) 1)) ∧
    (∀ (i : Instr) (s t : State), i.unit? = some .cmd → exec i s = .next t →
      t.rsp.flt = 0 ∨ t.rsp.flt = 1 ∨ t.rsp.flt = 3 ∨ t.rsp.flt = 5))

/-! ## Round trips (43_huffman_codec.md R218) -/

/-- Exp-Golomb round trip: what EGE_ENCODE wrote in full, EGD_DECODE in the same mode reads back (R147, R218). -/
def Obligations.ExpGolombRoundTrip : Prop :=
  ∀ (s t d : State) (o l : Word), Live s .ege → o.toNat + l.toNat ≤ s.cfg.bufSize →
    exec (.egeEncode o l) s = .next t → t.rsp = { flt := 0, r := l.setWidth 64 } →
    Live d .egd → d.egd.signedMode = s.ege.signedMode → o.toNat + l.toNat ≤ d.cfg.bufSize →
    d.bsi.inClosed = false → d.bsi.rcnt = 0 → d.bsi.inBits = t.bsi.out.drop s.bsi.out.length →
    ∃ e, exec (.egdDecode o l) d = .next e ∧ Delivered d e o l (bufBytes s.buf o.toNat l.toNat)

/-- Huffman round trip with equal block sizes (R218, R380). -/
def Obligations.HuffmanRoundTrip : Prop :=
  ∀ (s t d : State) (o l : Word), Live s .hfe → BlockInv s → o.toNat + l.toNat ≤ s.cfg.bufSize →
    exec (.hfeEncode o l) s = .next t → t.rsp = { flt := 0, r := l.setWidth 64 } →
    Live d .hfd → d.hfd.block = s.hfe.block → o.toNat + l.toNat ≤ d.cfg.bufSize →
    d.bsi.inClosed = false → d.bsi.rcnt = 0 → d.bsi.inBits = t.bsi.out.drop s.bsi.out.length →
    ∃ e, exec (.hfdDecode o l) d = .next e ∧ Delivered d e o l (bufBytes s.buf o.toNat l.toNat)

/-- Range coder round trip: encode, dispose, and decode from the same interval and table (R218, R240, R241). -/
def Obligations.RangeCoderRoundTrip : Prop :=
  ∀ (s t t' d : State) (o l : Word), Live s .rce → s.rce.coder.Inv → l ≠ 0 → o.toNat + l.toNat ≤ s.cfg.bufSize →
    exec (.rceEncode o l) s = .next t → t.rsp = { flt := 0, r := l.setWidth 64 } →
    exec .rceDispose t = .next t' → t'.rsp = { flt := 0, r := 0 } →
    Live d .rcd → d.rcd.coder = s.rce.coder → d.rcd.ustat.primed = false → o.toNat + l.toNat ≤ d.cfg.bufSize →
    d.bsi.inClosed = false → d.bsi.rcnt = 0 → d.bsi.inBits = t'.bsi.out.drop s.bsi.out.length →
    ∃ e, exec (.rcdDecode o l) d = .next e ∧ Delivered d e o l (bufBytes s.buf o.toNat l.toNat)

/-- Context-mixing round trip, for every state table (R218, R308). -/
def Obligations.ContextMixingRoundTrip : Prop :=
  ∀ (s t t' d : State) (o l : Word), Live s .cme → s.cme.coder.Inv → s.cme.coder.p.Idle → l ≠ 0 →
    o.toNat + l.toNat ≤ s.cfg.bufSize →
    exec (.cmeEncode o l) s = .next t → t.rsp = { flt := 0, r := l.setWidth 64 } →
    exec .cmeDispose t = .next t' → t'.rsp = { flt := 0, r := 0 } →
    Live d .cmd → d.cmd.coder = s.cme.coder → d.cfg.stateTable = s.cfg.stateTable → d.cmd.ustat.primed = false →
    o.toNat + l.toNat ≤ d.cfg.bufSize →
    d.bsi.inClosed = false → d.bsi.rcnt = 0 → d.bsi.inBits = t'.bsi.out.drop s.bsi.out.length →
    ∃ e, exec (.cmdDecode o l) d = .next e ∧ Delivered d e o l (bufBytes s.buf o.toNat l.toNat)

/-! ## Frames and invariants -/

/-- A short write kills the encoder with FCODE 6 and no fault is recorded: a coding command of an encoder that answers less
than it was asked, without a fault, leaves its unit dead, but for HFE_ENCBYTE of a symbol without a code (R344). -/
def Obligations.ShortWritesKillTheEncoder : Prop :=
  ∀ (i : Instr) (u : UnitId) (s t : State), i.unit? = some u → u.isEncoder = true → i.isCoding = true →
    exec i s = .next t → t.rsp.flt = 0 →
    t.rsp.r = (match i.bulk? with | some (_, l) => l.setWidth 64 | none => 1) ∨
    (t.lastFlt = s.lastFlt ∧ (t.ustat u).dead = true ∧ (t.ustat u).fcode = 6) ∨
    (∃ v, i = .hfeEncbyte v ∧ symGet s.hfe.sizes v = 0 ∧ t = answered s 0)

/-- A command changes its own unit's private state alone, HCB's tables only where it is one of the five commands that do, and
never the parameters, IN, OUT_CAP or the host's actions; BUF changes only under the four bulk decodes, and only at OFFSET ..
OFFSET + LENGTH - 1 (R20, R45, R70, R71, R72, R388). -/
def Obligations.CommandsLeaveOtherStateAlone : Prop :=
  (∀ (i : Instr) (s t : State), i ≠ .sysReset → exec i s = .next t →
      (i.unit? ≠ some .ege → t.ege = s.ege) ∧ (i.unit? ≠ some .egd → t.egd = s.egd) ∧
      (i.unit? ≠ some .hfe → t.hfe = s.hfe) ∧ (i.unit? ≠ some .hfd → t.hfd = s.hfd) ∧
      (i.unit? ≠ some .rce → t.rce = s.rce) ∧ (i.unit? ≠ some .rcd → t.rcd = s.rcd) ∧
      (i.unit? ≠ some .cme → t.cme = s.cme) ∧ (i.unit? ≠ some .cmd → t.cmd = s.cmd) ∧
      (i.touchesHcb = false → t.hcb = s.hcb) ∧
      t.cfg = s.cfg ∧ t.bsi.inBits = s.bsi.inBits ∧ t.bsi.outCap = s.bsi.outCap ∧ t.pending = s.pending) ∧
  (∀ (i : Instr) (s t : State), exec i s = .next t → ∀ a : Nat,
      (match i.stores? with | some (o, l) => a < o.toNat ∨ o.toNat + l.toNat ≤ a | none => True) →
      memRead t.buf a = memRead s.buf a)

/-- Reset with any launch the host may choose meets every invariant below. -/
def Obligations.ResetMeetsTheInvariants : Prop :=
  (∀ l : Launch, LaunchOk l → BaseInv (State.resetWith l) ∧ TablesInv (State.resetWith l) ∧
    RcInv (State.resetWith l) ∧ CmInv (State.resetWith l)) ∧
  LaunchOk Launch.standard

/-- Every step keeps BUF canonical and inside BUF_SIZE, the status words and responses consistent, WCNT equal to the length
of OUT, OUT within OUT_CAP, RCNT within IN, and the block sizes legal. -/
def Obligations.StepKeepsStreamsStatusAndResponses : Prop :=
  ∀ s s' : State, BaseInv s → step s = .next s' → BaseInv s'

/-- Every step keeps each of the three Huffman tables a valid length table with its canonical codes (R176, R177). -/
def Obligations.StepKeepsTheHuffmanTablesValid : Prop :=
  ∀ s s' : State, TablesInv s → step s = .next s' → TablesInv s'

/-- Every step keeps the interval and the table of both range coders as R237 and R234 say, while they are alive. -/
def Obligations.StepKeepsTheRangeCoderInvariant : Prop :=
  ∀ s s' : State, RcInv s → step s = .next s' → RcInv s'

/-- Every step keeps the interval and the context of both context-mixing coders as R308 and R306 say, while alive. -/
def Obligations.StepKeepsTheContextMixingInvariant : Prop :=
  ∀ s s' : State, CmInv s → step s = .next s' → CmInv s'
end

