-- ==== Sys2Proof/Laws/Decode.lean ====
section
/-! SUPPORT. The three fields of a command word put together from its fields (30_encoding.md R90). -/

namespace Sys2Proof

@[simp] theorem opc_cmd72 (o : Byte) (a b : Word) : (cmd72 o a b).opc = o := by
  apply BitVec.eq_of_getLsbD_eq
  intro i hi
  simp only [CmdWord.opc, cmd72, BitVec.getLsbD_extractLsb', BitVec.getLsbD_append, hi, decide_true, Bool.true_and]
  rw [if_neg (by omega)]
  congr 1
  omega

@[simp] theorem opA_cmd72 (o : Byte) (a b : Word) : (cmd72 o a b).opA = a := by
  apply BitVec.eq_of_getLsbD_eq
  intro i hi
  simp only [CmdWord.opA, cmd72, BitVec.getLsbD_extractLsb', BitVec.getLsbD_append, hi, decide_true, Bool.true_and]
  rw [if_pos (by omega), if_neg (by omega)]
  congr 1
  omega

@[simp] theorem opB_cmd72 (o : Byte) (a b : Word) : (cmd72 o a b).opB = b := by
  apply BitVec.eq_of_getLsbD_eq
  intro i hi
  simp only [CmdWord.opB, cmd72, BitVec.getLsbD_extractLsb', BitVec.getLsbD_append, hi, decide_true, Bool.true_and]
  rw [if_pos (by omega), if_pos (by omega)]
  congr 1
  omega

/-- The opcode of an encoded command. -/
@[simp] theorem opc_encode (i : Instr) : (encode i).opc = (encodeFields i).1 := by simp [encode]

/-- Operand A of an encoded command. -/
@[simp] theorem opA_encode (i : Instr) : (encode i).opA = (encodeFields i).2.1 := by simp [encode]

/-- Operand B of an encoded command. -/
@[simp] theorem opB_encode (i : Instr) : (encode i).opB = (encodeFields i).2.2 := by simp [encode]

end Sys2Proof
end

