-- ==== Sys2Proof/Laws/State.lean ====
section
/-! SUPPORT. What each update of the state leaves in each field: one lemma per field per update, so that no proof unfolds a
record update. -/

/-- BUF_SIZE is at most 2^32 (00_scope.md R11). -/
theorem Sys2Proof.Params.bufSize_le (p : Sys2Proof.Params) : p.bufSize ≤ 2 ^ 32 := Nat.le_of_lt_succ p.size.isLt

namespace Sys2Proof.Machine

/-! ## Responses -/

@[simp] theorem State.respond_cfg (s : State) (r : Quad) (c : FaultCode) : (s.respond r c).cfg = s.cfg := rfl
@[simp] theorem State.respond_bsi (s : State) (r : Quad) (c : FaultCode) : (s.respond r c).bsi = s.bsi := rfl
@[simp] theorem State.respond_buf (s : State) (r : Quad) (c : FaultCode) : (s.respond r c).buf = s.buf := rfl
@[simp] theorem State.respond_rsp (s : State) (r : Quad) (c : FaultCode) :
    (s.respond r c).rsp = { flt := c.code, r := r } := rfl
@[simp] theorem State.respond_lastFlt (s : State) (r : Quad) (c : FaultCode) :
    (s.respond r c).lastFlt = if c = .none then s.lastFlt else c.code := rfl
@[simp] theorem State.respond_ege (s : State) (r : Quad) (c : FaultCode) : (s.respond r c).ege = s.ege := rfl
@[simp] theorem State.respond_egd (s : State) (r : Quad) (c : FaultCode) : (s.respond r c).egd = s.egd := rfl
@[simp] theorem State.respond_hcb (s : State) (r : Quad) (c : FaultCode) : (s.respond r c).hcb = s.hcb := rfl
@[simp] theorem State.respond_hfe (s : State) (r : Quad) (c : FaultCode) : (s.respond r c).hfe = s.hfe := rfl
@[simp] theorem State.respond_hfd (s : State) (r : Quad) (c : FaultCode) : (s.respond r c).hfd = s.hfd := rfl
@[simp] theorem State.respond_rce (s : State) (r : Quad) (c : FaultCode) : (s.respond r c).rce = s.rce := rfl
@[simp] theorem State.respond_rcd (s : State) (r : Quad) (c : FaultCode) : (s.respond r c).rcd = s.rcd := rfl
@[simp] theorem State.respond_cme (s : State) (r : Quad) (c : FaultCode) : (s.respond r c).cme = s.cme := rfl
@[simp] theorem State.respond_cmd (s : State) (r : Quad) (c : FaultCode) : (s.respond r c).cmd = s.cmd := rfl
@[simp] theorem State.respond_pending (s : State) (r : Quad) (c : FaultCode) :
    (s.respond r c).pending = s.pending := rfl

@[simp] theorem State.answer_cfg (s : State) (n : Nat) : (s.answer n).cfg = s.cfg := rfl
@[simp] theorem State.answer_bsi (s : State) (n : Nat) : (s.answer n).bsi = s.bsi := rfl
@[simp] theorem State.answer_buf (s : State) (n : Nat) : (s.answer n).buf = s.buf := rfl
@[simp] theorem State.answer_rsp (s : State) (n : Nat) :
    (s.answer n).rsp = { flt := 0, r := BitVec.ofNat 64 n } := rfl
@[simp] theorem State.answer_lastFlt (s : State) (n : Nat) : (s.answer n).lastFlt = s.lastFlt := rfl
@[simp] theorem State.answer_ege (s : State) (n : Nat) : (s.answer n).ege = s.ege := rfl
@[simp] theorem State.answer_egd (s : State) (n : Nat) : (s.answer n).egd = s.egd := rfl
@[simp] theorem State.answer_hcb (s : State) (n : Nat) : (s.answer n).hcb = s.hcb := rfl
@[simp] theorem State.answer_hfe (s : State) (n : Nat) : (s.answer n).hfe = s.hfe := rfl
@[simp] theorem State.answer_hfd (s : State) (n : Nat) : (s.answer n).hfd = s.hfd := rfl
@[simp] theorem State.answer_rce (s : State) (n : Nat) : (s.answer n).rce = s.rce := rfl
@[simp] theorem State.answer_rcd (s : State) (n : Nat) : (s.answer n).rcd = s.rcd := rfl
@[simp] theorem State.answer_cme (s : State) (n : Nat) : (s.answer n).cme = s.cme := rfl
@[simp] theorem State.answer_cmd (s : State) (n : Nat) : (s.answer n).cmd = s.cmd := rfl
@[simp] theorem State.answer_pending (s : State) (n : Nat) : (s.answer n).pending = s.pending := rfl

@[simp] theorem State.refuse_cfg (s : State) (c : FaultCode) : (s.refuse c).cfg = s.cfg := rfl
@[simp] theorem State.refuse_bsi (s : State) (c : FaultCode) : (s.refuse c).bsi = s.bsi := rfl
@[simp] theorem State.refuse_buf (s : State) (c : FaultCode) : (s.refuse c).buf = s.buf := rfl
@[simp] theorem State.refuse_rsp (s : State) (c : FaultCode) :
    (s.refuse c).rsp = { flt := c.code, r := allOnes } := rfl
@[simp] theorem State.refuse_lastFlt (s : State) (c : FaultCode) :
    (s.refuse c).lastFlt = if c = .none then s.lastFlt else c.code := rfl
@[simp] theorem State.refuse_ege (s : State) (c : FaultCode) : (s.refuse c).ege = s.ege := rfl
@[simp] theorem State.refuse_egd (s : State) (c : FaultCode) : (s.refuse c).egd = s.egd := rfl
@[simp] theorem State.refuse_hcb (s : State) (c : FaultCode) : (s.refuse c).hcb = s.hcb := rfl
@[simp] theorem State.refuse_hfe (s : State) (c : FaultCode) : (s.refuse c).hfe = s.hfe := rfl
@[simp] theorem State.refuse_hfd (s : State) (c : FaultCode) : (s.refuse c).hfd = s.hfd := rfl
@[simp] theorem State.refuse_rce (s : State) (c : FaultCode) : (s.refuse c).rce = s.rce := rfl
@[simp] theorem State.refuse_rcd (s : State) (c : FaultCode) : (s.refuse c).rcd = s.rcd := rfl
@[simp] theorem State.refuse_cme (s : State) (c : FaultCode) : (s.refuse c).cme = s.cme := rfl
@[simp] theorem State.refuse_cmd (s : State) (c : FaultCode) : (s.refuse c).cmd = s.cmd := rfl
@[simp] theorem State.refuse_pending (s : State) (c : FaultCode) : (s.refuse c).pending = s.pending := rfl

/-! ## Status words -/

@[simp] theorem State.setUstat_cfg (s : State) (u : UnitId) (v : UStat) :
    (s.setUstat u v).cfg = s.cfg := by cases u <;> rfl
@[simp] theorem State.setUstat_bsi (s : State) (u : UnitId) (v : UStat) :
    (s.setUstat u v).bsi = s.bsi := by cases u <;> rfl
@[simp] theorem State.setUstat_buf (s : State) (u : UnitId) (v : UStat) :
    (s.setUstat u v).buf = s.buf := by cases u <;> rfl
@[simp] theorem State.setUstat_rsp (s : State) (u : UnitId) (v : UStat) :
    (s.setUstat u v).rsp = s.rsp := by cases u <;> rfl
@[simp] theorem State.setUstat_lastFlt (s : State) (u : UnitId) (v : UStat) :
    (s.setUstat u v).lastFlt = s.lastFlt := by cases u <;> rfl
@[simp] theorem State.setUstat_hcb (s : State) (u : UnitId) (v : UStat) :
    (s.setUstat u v).hcb = s.hcb := by cases u <;> rfl
@[simp] theorem State.setUstat_pending (s : State) (u : UnitId) (v : UStat) :
    (s.setUstat u v).pending = s.pending := by cases u <;> rfl
@[simp] theorem State.setUstat_ege_self (s : State) (v : UStat) :
    (s.setUstat .ege v).ege = { s.ege with ustat := v } := rfl
@[simp] theorem State.setUstat_egd_self (s : State) (v : UStat) :
    (s.setUstat .egd v).egd = { s.egd with ustat := v } := rfl
@[simp] theorem State.setUstat_hfe_self (s : State) (v : UStat) :
    (s.setUstat .hfe v).hfe = { s.hfe with ustat := v } := rfl
@[simp] theorem State.setUstat_hfd_self (s : State) (v : UStat) :
    (s.setUstat .hfd v).hfd = { s.hfd with ustat := v } := rfl
@[simp] theorem State.setUstat_rce_self (s : State) (v : UStat) :
    (s.setUstat .rce v).rce = { s.rce with ustat := v } := rfl
@[simp] theorem State.setUstat_rcd_self (s : State) (v : UStat) :
    (s.setUstat .rcd v).rcd = { s.rcd with ustat := v } := rfl
@[simp] theorem State.setUstat_cme_self (s : State) (v : UStat) :
    (s.setUstat .cme v).cme = { s.cme with ustat := v } := rfl
@[simp] theorem State.setUstat_cmd_self (s : State) (v : UStat) :
    (s.setUstat .cmd v).cmd = { s.cmd with ustat := v } := rfl
@[simp] theorem State.ustat_setUstat_self (s : State) (u : UnitId) (v : UStat) :
    (s.setUstat u v).ustat u = v := by cases u <;> rfl

/-- Writing one unit's status word leaves every other unit's. -/
theorem State.ustat_setUstat_ne (s : State) {u w : UnitId} (v : UStat) (h : w ≠ u) : (s.setUstat u v).ustat w = s.ustat w := by
  cases u <;> cases w <;> first | rfl | exact absurd rfl h

@[simp] theorem State.ustat_respond (s : State) (r : Quad) (c : FaultCode) (u : UnitId) :
    (s.respond r c).ustat u = s.ustat u := by cases u <;> rfl
@[simp] theorem State.ustat_answer (s : State) (n : Nat) (u : UnitId) :
    (s.answer n).ustat u = s.ustat u := by cases u <;> rfl
@[simp] theorem State.ustat_refuse (s : State) (c : FaultCode) (u : UnitId) :
    (s.refuse c).ustat u = s.ustat u := by cases u <;> rfl
@[simp] theorem UStat.die_dead (u : UStat) (c : FaultCode) : (u.die c).dead = true := rfl
@[simp] theorem UStat.die_fcode (u : UStat) (c : FaultCode) : (u.die c).fcode = c.code := rfl
@[simp] theorem UStat.die_disposed (u : UStat) (c : FaultCode) : (u.die c).disposed = u.disposed := rfl
@[simp] theorem UStat.die_primed (u : UStat) (c : FaultCode) : (u.die c).primed = u.primed := rfl
@[simp] theorem UStat.dispose_dead (u : UStat) : (u.dispose).dead = u.dead := rfl
@[simp] theorem UStat.dispose_fcode (u : UStat) : (u.dispose).fcode = u.fcode := rfl
@[simp] theorem UStat.dispose_disposed (u : UStat) : (u.dispose).disposed = true := rfl
@[simp] theorem UStat.dispose_primed (u : UStat) : (u.dispose).primed = u.primed := rfl
@[simp] theorem UStat.prime_dead (u : UStat) : (u.prime).dead = u.dead := rfl
@[simp] theorem UStat.prime_fcode (u : UStat) : (u.prime).fcode = u.fcode := rfl
@[simp] theorem UStat.prime_disposed (u : UStat) : (u.prime).disposed = u.disposed := rfl
@[simp] theorem UStat.prime_primed (u : UStat) : (u.prime).primed = true := rfl

/-! ## The bit stream -/

@[simp] theorem Bsi.append_outCap (b : Bsi) (l : List Bool) : (b.append l).outCap = b.outCap := rfl
@[simp] theorem Bsi.append_inBits (b : Bsi) (l : List Bool) : (b.append l).inBits = b.inBits := rfl
@[simp] theorem Bsi.append_out (b : Bsi) (l : List Bool) : (b.append l).out = b.out ++ l := rfl
@[simp] theorem Bsi.append_outClosed (b : Bsi) (l : List Bool) : (b.append l).outClosed = b.outClosed := rfl
@[simp] theorem Bsi.append_inClosed (b : Bsi) (l : List Bool) : (b.append l).inClosed = b.inClosed := rfl
@[simp] theorem Bsi.append_wcnt (b : Bsi) (l : List Bool) :
    (b.append l).wcnt = b.wcnt + BitVec.ofNat 64 l.length := rfl
@[simp] theorem Bsi.append_rcnt (b : Bsi) (l : List Bool) : (b.append l).rcnt = b.rcnt := rfl
@[simp] theorem Bsi.advance_outCap (b : Bsi) (n : Nat) : (b.advance n).outCap = b.outCap := rfl
@[simp] theorem Bsi.advance_inBits (b : Bsi) (n : Nat) : (b.advance n).inBits = b.inBits := rfl
@[simp] theorem Bsi.advance_out (b : Bsi) (n : Nat) : (b.advance n).out = b.out := rfl
@[simp] theorem Bsi.advance_outClosed (b : Bsi) (n : Nat) : (b.advance n).outClosed = b.outClosed := rfl
@[simp] theorem Bsi.advance_inClosed (b : Bsi) (n : Nat) : (b.advance n).inClosed = b.inClosed := rfl
@[simp] theorem Bsi.advance_wcnt (b : Bsi) (n : Nat) : (b.advance n).wcnt = b.wcnt := rfl
@[simp] theorem Bsi.advance_rcnt (b : Bsi) (n : Nat) : (b.advance n).rcnt = b.rcnt + BitVec.ofNat 64 n := rfl

/-! ## The terms of Safety.lean as the operations that make them -/

/-- A success of Safety.lean is the answer of the operations. -/
theorem answered_eq (s : State) (n : Nat) : answered s n = s.answer n := rfl

/-- A failure of Safety.lean is the refusal of the operations. -/
theorem failed_eq (s : State) (c : FaultCode) (h : c ≠ .none) : failed s c.code = s.refuse c := by
  simp [failed, State.refuse, State.respond, allOnes, h]

/-- A unit's death in Safety.lean is a raise without its response. -/
theorem died_eq (s : State) (u : UnitId) (c : FaultCode) : died s u c.code = s.setUstat u ((s.ustat u).die c) := rfl

/-- Taking a fault is dying and answering it. -/
theorem raise_eq (s : State) (u : UnitId) (c : FaultCode) (h : c ≠ .none) : s.raise u c = failed (died s u c.code) c.code := by
  rw [died_eq, failed_eq _ _ h]; rfl

end Sys2Proof.Machine
end

