-- ==== Sys2Proof/Laws/Tables.lean ====
section
/-! SUPPORT. Reading a table after a write, and the canonical form of the sparse lists: every operation on BUF keeps it.
The entries of an APM are read the same way. -/

namespace Sys2Proof

@[simp] theorem tabulate_getElem {α : Type} (n : Nat) (f : Nat → α) (i : Nat) (h : i < n) : (tabulate n f)[i] = f i := by
  simp [tabulate]

/-- A tabulated table at a symbol. -/
@[simp] theorem symGet_tabulate {α : Type} (f : Nat → α) (b : Byte) : symGet (tabulate 256 f) b = f b.toNat := by
  simp [symGet]

/-- Reading a table after one entry is written. -/
@[simp] theorem symGet_symSet {α : Type} (t : Vector α 256) (i j : Byte) (v : α) :
    symGet (symSet t i v) j = if j = i then v else symGet t j := by
  unfold symGet symSet
  rw [Vector.getElem_set]
  by_cases h : j = i
  · simp [h]
  · have : i.toNat ≠ j.toNat := fun e => h (BitVec.eq_of_toNat_eq e.symm)
    simp [h, this]

variable {α : Type} [DecidableEq α] (dflt : Nat → α)

/-- Leaving out the entries of one key leaves the value at every other. -/
theorem sparseGet_filter (t : List (Nat × α)) (i j : Nat) :
    sparseGet dflt (t.filter fun c => c.1 ≠ i) j = if j = i then dflt j else sparseGet dflt t j := by
  induction t with
  | nil => simp [sparseGet]
  | cons c rest ih =>
    by_cases hc : c.1 = i <;> by_cases hj : j = i <;> simp_all [sparseGet]
    intro h; omega

omit [DecidableEq α] in
/-- An inserted entry is read at its key and leaves the others. -/
theorem sparseGet_insert (t : List (Nat × α)) (i j : Nat) (v : α) (h : ∀ c ∈ t, c.1 ≠ i) :
    sparseGet dflt (sparseInsert i v t) j = if j = i then v else sparseGet dflt t j := by
  induction t with
  | nil => simp [sparseInsert, sparseGet, eq_comm]
  | cons c rest ih =>
    have hc : c.1 ≠ i := h c (by simp)
    have ih := ih fun d hd => h d (by simp [hd])
    unfold sparseInsert
    split
    · simp only [sparseGet, ih]
      by_cases hj : c.1 = j
      · subst hj; simp [hc]
      · simp [hj]
    · simp [sparseGet, eq_comm]

/-- Reading a sparse table after one entry is set, whatever the list. -/
theorem sparseGet_sparseSet (t : List (Nat × α)) (i j : Nat) (v : α) :
    sparseGet dflt (sparseSet dflt t i v) j = if j = i then v else sparseGet dflt t j := by
  simp only [sparseSet]
  split
  · rename_i hv
    rw [sparseGet_filter]
    by_cases hj : j = i <;> simp [hj, hv]
  · rw [sparseGet_insert _ _ _ _ _ (by simp), sparseGet_filter]
    by_cases hj : j = i <;> simp [hj]

/-- A canonical list starts with an entry that is not the default and lies below every other. -/
theorem sparseWf_cons (c : Nat × α) (t : List (Nat × α)) :
    sparseWf dflt (c :: t) = true ↔ c.2 ≠ dflt c.1 ∧ (∀ d ∈ t, c.1 < d.1) ∧ sparseWf dflt t = true := by
  simp [sparseWf, and_assoc]

theorem sparseWf_filter (t : List (Nat × α)) (i : Nat) (h : sparseWf dflt t = true) :
    sparseWf dflt (t.filter fun c => c.1 ≠ i) = true := by
  induction t with
  | nil => exact h
  | cons c rest ih =>
    rw [sparseWf_cons] at h
    by_cases hc : c.1 = i
    · simpa [hc] using ih h.2.2
    · rw [List.filter_cons_of_pos (by simpa using hc), sparseWf_cons]
      exact ⟨h.1, fun d hd => h.2.1 d (List.mem_filter.mp hd).1, ih h.2.2⟩

omit [DecidableEq α] in
/-- The keys of a list after an insertion. -/
theorem mem_sparseInsert (t : List (Nat × α)) (i : Nat) (v : α) (d : Nat × α) :
    d ∈ sparseInsert i v t → d = (i, v) ∨ d ∈ t := by
  induction t with
  | nil => simp [sparseInsert]
  | cons c rest ih =>
    unfold sparseInsert
    split
    · intro hd
      rcases List.mem_cons.mp hd with rfl | hd
      · simp
      · rcases ih hd with h | h <;> simp [h]
    · simp

theorem sparseWf_insert (t : List (Nat × α)) (i : Nat) (v : α) (h : sparseWf dflt t = true) (hi : ∀ c ∈ t, c.1 ≠ i)
    (hv : v ≠ dflt i) : sparseWf dflt (sparseInsert i v t) = true := by
  induction t with
  | nil => simp [sparseInsert, sparseWf, hv]
  | cons c rest ih =>
    have hw := (sparseWf_cons dflt c rest).mp h
    unfold sparseInsert
    split
    · rename_i hlt
      rw [sparseWf_cons]
      refine ⟨hw.1, fun d hd => ?_, ih hw.2.2 fun d hd => hi d (by simp [hd])⟩
      rcases mem_sparseInsert rest i v d hd with rfl | hd
      · exact hlt
      · exact hw.2.1 d hd
    · rename_i hlt
      have hne : c.1 ≠ i := hi c (by simp)
      rw [sparseWf_cons]
      refine ⟨hv, fun d hd => ?_, h⟩
      rcases List.mem_cons.mp hd with rfl | hd
      · show i < d.1
        omega
      · have := hw.2.1 d hd
        show i < d.1
        omega

/-- Setting an entry keeps the canonical form. -/
theorem sparseWf_sparseSet (t : List (Nat × α)) (i : Nat) (v : α) (h : sparseWf dflt t = true) :
    sparseWf dflt (sparseSet dflt t i v) = true := by
  simp only [sparseSet]
  split
  · exact sparseWf_filter dflt t i h
  · exact sparseWf_insert dflt _ i v (sparseWf_filter dflt t i h) (by simp) ‹_›

namespace Machine

/-- A read of BUF after a write: the byte written there, and every other byte as before. -/
@[simp] theorem memRead_memWrite (m : List Host.Cell) (a b : Nat) (v : Byte) :
    memRead (memWrite m a v) b = if b = a then v else memRead m b :=
  sparseGet_sparseSet bufDefault m a b v

/-- A write to BUF keeps its canonical form. -/
theorem memWrite_wf (m : List Host.Cell) (a : Nat) (v : Byte) (h : Memory.wf m = true) :
    Memory.wf (memWrite m a v) = true :=
  sparseWf_sparseSet bufDefault m a v h

/-- A write to BUF lists no address but the old ones and its own. -/
theorem memWrite_addresses (m : List Host.Cell) (a : Nat) (v : Byte) (c : Host.Cell) (h : c ∈ memWrite m a v) :
    c.1 = a ∨ c ∈ m := by
  simp only [memWrite, sparseSet] at h
  split at h
  · exact .inr (List.mem_filter.mp h).1
  · rcases mem_sparseInsert _ _ _ _ h with rfl | h
    · exact .inl rfl
    · exact .inr (List.mem_filter.mp h).1

/-- Every entry of an APM after one is trained (45_cm_predictor.md R278). -/
@[simp] theorem Apm.trainEntry_entry {iw : Nat} (m : Apm iw) (bit : Bool) (k j : Nat) :
    (m.trainEntry bit k).entry j = if j = k then apmTrained (m.entry k) bit else m.entry j :=
  sparseGet_sparseSet apmReset m.t k j _

@[simp] theorem Apm.trainEntry_idx {iw : Nat} (m : Apm iw) (bit : Bool) (k : Nat) : (m.trainEntry bit k).idx = m.idx := rfl

/-- The state a procedure reached, however it ended. -/
def Run.final {σ α : Type} : Run σ α → σ
  | .ok _ s => s
  | .stop _ s => s

/-- The loop of a bulk decode keeps BUF canonical. -/
theorem decodeLoop_wf {σ : Type} (dec : σ → Run σ Byte) (k a : Nat) (t : σ × List Host.Cell)
    (h : Memory.wf t.2 = true) : Memory.wf (decodeLoop dec k a t).final.2 = true := by
  induction k generalizing a t with
  | zero => exact h
  | succ k ih =>
    unfold decodeLoop
    split
    · exact ih _ (_, _) (memWrite_wf _ _ _ h)
    · exact h

end Machine

end Sys2Proof
end

