-- ==== Sys2Proof/Laws/Ops.lean ====
section
/-! SUPPORT. One lemma for each shared operation that says once everything it can do. -/

namespace Sys2Proof.Machine

/-! ## Procedures -/

/-- A sequence of procedures that ran to its end: both did. -/
theorem andThen_ok {σ α β : Type} {x : Run σ α} {f : α → σ → Run σ β} {b : β} {s : σ} (h : x.andThen f = .ok b s) :
    ∃ a t, x = .ok a t ∧ f a t = .ok b s := by
  cases x with
  | ok a t => exact ⟨a, t, rfl, h⟩
  | stop r t => cases h

/-- A sequence of procedures that stopped: the first did, or the second after it. -/
theorem andThen_stop {σ α β : Type} {x : Run σ α} {f : α → σ → Run σ β} {r : Stop} {s : σ}
    (h : x.andThen f = .stop r s) : x = .stop r s ∨ ∃ a t, x = .ok a t ∧ f a t = .stop r s := by
  cases x with
  | ok a t => exact .inr ⟨a, t, rfl, h⟩
  | stop r' t => cases h; exact .inl rfl

/-! ## The bit streams -/

@[simp] theorem bitsMsb_length (v n : Nat) : (bitsMsb v n).length = n := by
  induction n with
  | zero => rfl
  | succ n ih => simp [bitsMsb, ih]

/-- The sink takes one more bit exactly when it takes more than it has. -/
theorem accepts_iff (b : Bsi) (k : Nat) :
    b.accepts k = (!b.outClosed && match b.outCap with
      | none => true
      | some cap => decide (b.out.length + k < cap)) := rfl

/-- The bits taken are the first ones of the write, as many as there is room for (40_bit_stream.md R121). -/
theorem taken_eq (b : Bsi) (v n k : Nat) :
    b.taken v n k = (bitsMsb v n).take (if b.outClosed then 0 else match b.outCap with
      | none => n
      | some cap => min n (cap - (b.out.length + k))) := by
  induction n generalizing k with
  | zero => simp [Bsi.taken, bitsMsb]
  | succ n ih =>
    unfold Bsi.taken
    rw [accepts_iff, ih (k + 1)]
    cases b.outClosed with
    | true => simp
    | false =>
      cases b.outCap with
      | none => simp [bitsMsb]
      | some cap =>
        by_cases h : b.out.length + k < cap
        · have : min (n + 1) (cap - (b.out.length + k)) = min n (cap - (b.out.length + (k + 1))) + 1 := by omega
          simp [h, this, bitsMsb]
        · have : cap - (b.out.length + k) = 0 := by omega
          simp [h, this]

/-- What `WriteBits` takes is never more than it is given. -/
theorem room_le (b : Bsi) (n : Nat) : b.room n ≤ n := by
  unfold Bsi.room
  cases b.outClosed <;> cases b.outCap <;> simp

/-- `WriteBits` appends what the sink takes, and answers how many bits that is (40_bit_stream.md R121). -/
theorem writeBits_eq (v n : Nat) (b : Bsi) : writeBits v n b = (b.room n, b.append ((bitsMsb v n).take (b.room n))) := by
  have h : b.taken v n 0 = (bitsMsb v n).take (b.room n) := by rw [taken_eq]; rfl
  have hl : ((bitsMsb v n).take (b.room n)).length = b.room n := by simp [room_le]
  simp only [writeBits, h, Bsi.append, hl]

/-- A write a coder needs in full runs to its end where it fits, and is a short write else (60_exceptions.md R344). -/
theorem writeAll_eq (v n : Nat) (b : Bsi) :
    writeAll v n b = if b.room n = n then .ok () (b.append (bitsMsb v n))
      else .stop .shortWrite (b.append ((bitsMsb v n).take (b.room n))) := by
  unfold writeAll
  rw [writeBits_eq]
  dsimp only
  split
  · rename_i h
    rw [h, List.take_of_length_le (by simp)]
  · rfl

/-- `ReadBit` where a bit is left, and where none is (40_bit_stream.md R122). -/
theorem readBit_eq (b : Bsi) :
    readBit b = if b.inClosed = false ∧ b.rcnt.toNat < b.inBits.length
      then .ok (b.inBits.getD b.rcnt.toNat false) (b.advance 1) else .stop .endOfStream b := by
  unfold readBit Bsi.advance
  cases hc : b.inClosed with
  | true => simp
  | false =>
    by_cases h : b.rcnt.toNat < b.inBits.length
    · simp [h]
    · simp [h]

/-- `ReadBits` of at least one bit reads all or stops without consuming any (40_bit_stream.md R123). -/
theorem readBits_pos (n : Nat) (b : Bsi) (hn : n ≠ 0) :
    readBits n b = if b.inClosed = false ∧ b.rcnt.toNat + n ≤ b.inBits.length
      then .ok (readLoop 0 n b).1 (readLoop 0 n b).2 else .stop .endOfStream b := by
  unfold readBits
  rw [if_neg hn]
  cases hc : b.inClosed with
  | true => simp
  | false =>
    by_cases h : b.rcnt.toNat + n ≤ b.inBits.length
    · have : ¬ b.rcnt.toNat + n > b.inBits.length := by omega
      simp [h, this]
    · have : b.rcnt.toNat + n > b.inBits.length := by omega
      simp [h, this]

/-- The loop of `ReadBits` moves the read position and nothing else of the stream. -/
theorem readLoop_bsi (v n : Nat) (b : Bsi) : (readLoop v n b).2 = b.advance n := by
  induction n generalizing v b with
  | zero => simp [readLoop, Bsi.advance]
  | succ n ih =>
    rw [readLoop, ih]
    simp only [Bsi.advance, Bsi.mk.injEq, true_and]
    rw [BitVec.add_assoc, Nat.add_comm n 1, BitVec.ofNat_add]
    rfl

/-! ## Admission -/

/-- A gated command: refused where the unit is dead or disposed, else its body (47_system_commands.md R331). -/
theorem gated_cases (s : State) (u : UnitId) (body : State → State) :
    (Live s u ∧ s.gated u body = body s) ∨ (¬ Live s u ∧ s.gated u body = s.refuse .unitDead) := by
  unfold State.gated UStat.shut Live
  cases (s.ustat u).dead <;> cases (s.ustat u).disposed <;> simp

/-- A live unit passes the gate. -/
theorem gated_live {s : State} {u : UnitId} (h : Live s u) (body : State → State) : s.gated u body = body s := by
  rcases gated_cases s u body with ⟨_, e⟩ | ⟨n, _⟩
  · exact e
  · exact absurd h n

/-- A dead or disposed unit does not. -/
theorem gated_shut {s : State} {u : UnitId} (h : ¬ Live s u) (body : State → State) :
    s.gated u body = s.refuse .unitDead := by
  rcases gated_cases s u body with ⟨l, _⟩ | ⟨_, e⟩
  · exact absurd l h
  · exact e

/-- The bounds test of a bulk command (47_system_commands.md R333). -/
theorem bounded_cases (s : State) (o l : Word) (body : State → State) :
    (o.toNat + l.toNat ≤ s.cfg.bufSize ∧ s.bounded o l body = body s) ∨
    (s.cfg.bufSize < o.toNat + l.toNat ∧ s.bounded o l body = s.refuse .invalidArgument) := by
  unfold State.bounded rangeIllegal
  by_cases h : o.toNat + l.toNat > s.cfg.bufSize
  · exact .inr ⟨h, by simp [h]⟩
  · exact .inl ⟨by omega, by simp [h]⟩

/-- A single-symbol command: refused by the gate, done, or stopped (47_system_commands.md R330). -/
theorem single_cases {σ α : Type} (s : State) (u : UnitId) (part : Part σ) (proc : σ → Run σ α)
    (done : α → State → State) :
    (¬ Live s u ∧ s.single u part proc done = s.refuse .unitDead) ∨
    (Live s u ∧ ∃ a t, proc (part.get s) = .ok a t ∧ s.single u part proc done = done a (part.put t s)) ∨
    (Live s u ∧ ∃ r t, proc (part.get s) = .stop r t ∧ s.single u part proc done = (part.put t s).endBy u r) := by
  unfold State.single
  by_cases h : Live s u
  · right
    rw [gated_live h]
    cases hp : proc (part.get s) with
    | ok a t => exact .inl ⟨h, a, t, rfl, rfl⟩
    | stop r t => exact .inr ⟨h, r, t, rfl, rfl⟩
  · exact .inl ⟨h, gated_shut h _⟩

/-- A bulk encode: refused by the gate or the bounds, or its loop ends it (47_system_commands.md R333). -/
theorem bulkEncode_cases {σ : Type} (s : State) (u : UnitId) (part : Part σ) (enc : Byte → σ → Run σ Unit)
    (o l : Word) :
    (¬ Live s u ∧ s.bulkEncode u part enc o l = s.refuse .unitDead) ∨
    (Live s u ∧ s.cfg.bufSize < o.toNat + l.toNat ∧ s.bulkEncode u part enc o l = s.refuse .invalidArgument) ∨
    (Live s u ∧ o.toNat + l.toNat ≤ s.cfg.bufSize ∧ ∃ n r t,
      encodeLoop enc s.buf l.toNat o.toNat 0 (part.get s) = (n, r, t) ∧
      s.bulkEncode u part enc o l = (part.put t s).endEncode u n r) := by
  unfold State.bulkEncode
  by_cases h : Live s u
  · right
    rw [gated_live h]
    by_cases hb : s.cfg.bufSize < o.toNat + l.toNat
    · exact .inl ⟨h, hb, by simp [State.bounded, rangeIllegal, hb]⟩
    · have hr : rangeIllegal s o l = false := by simp [rangeIllegal]; omega
      exact .inr ⟨h, by omega, _, _, _, rfl, by simp [State.bounded, hr]⟩
  · exact .inl ⟨h, gated_shut h _⟩

/-- A bulk decode: refused by the gate or the bounds, or its loop ends it (47_system_commands.md R333). -/
theorem bulkDecode_cases {σ : Type} (s : State) (u : UnitId) (part : Part σ) (dec : σ → Run σ Byte) (o l : Word) :
    (¬ Live s u ∧ s.bulkDecode u part dec o l = s.refuse .unitDead) ∨
    (Live s u ∧ s.cfg.bufSize < o.toNat + l.toNat ∧ s.bulkDecode u part dec o l = s.refuse .invalidArgument) ∨
    (Live s u ∧ o.toNat + l.toNat ≤ s.cfg.bufSize ∧ s.bulkDecode u part dec o l =
      s.endDecode u part l (decodeLoop dec l.toNat o.toNat (part.get s, s.buf))) := by
  unfold State.bulkDecode
  by_cases h : Live s u
  · right
    rw [gated_live h]
    by_cases hb : s.cfg.bufSize < o.toNat + l.toNat
    · exact .inl ⟨h, hb, by simp [State.bounded, rangeIllegal, hb]⟩
    · have hr : rangeIllegal s o l = false := by simp [rangeIllegal]; omega
      exact .inr ⟨h, by omega, by simp [State.bounded, hr]⟩
  · exact .inl ⟨h, gated_shut h _⟩

/-- What ends a command that stopped: the five ways (60_exceptions.md R343, R344, R345). -/
theorem endBy_eq (s : State) (u : UnitId) (r : Stop) :
    s.endBy u r = match r with
      | .endOfStream => failed (died s u 1) 1
      | .invalidStream => failed (died s u 2) 2
      | .shortWrite => answered (died s u 6) 0
      | .refused => failed s 3
      | .noCode => answered s 0 := by
  cases r with
  | endOfStream => exact raise_eq s u .endOfStream (by decide)
  | invalidStream => exact raise_eq s u .invalidStream (by decide)
  | shortWrite => rfl
  | refused => exact (failed_eq s .invalidArgument (by decide)).symm
  | noCode => rfl

/-! ## Presenting a command -/

/-- A presented word runs the command it decodes to. -/
theorem present_ok {w : CmdWord} {i : Instr} (h : decode w = .ok i) (s : State) : s.present w = exec i s := by
  unfold State.present
  rw [h]

/-- A presented word that is no command is answered IllegalCommand (30_encoding.md R94). -/
theorem present_error {w : CmdWord} {e : DecodeError} (h : decode w = .error e) (s : State) :
    s.present w = .next s.illegalCommand := by
  unfold State.present
  rw [h]

end Sys2Proof.Machine
end

