-- ==== Sys2Proof/Laws/PerInstr.lean ====
section
/-! SUPPORT. A statement made for each command in turn: its encoding carries an opcode that is not reserved, and no operand
bit its rule does not name. -/

namespace Sys2Proof.Laws.EncodedFields

/-- An encoded command has an opcode of the map, and zeros in every operand bit its rule does not name (30_encoding.md R93,
R95). -/
def Statement (i : Instr) : Prop :=
  reservedOpcode (encode i).opc.toNat = false ∧
  (encode i).opA &&& ~~~i.namedBits.1 = 0 ∧ (encode i).opB &&& ~~~i.namedBits.2 = 0

/-- An operand narrower than a word has no bit above its own. -/
theorem narrow_named {w : Nat} (x : BitVec w) (m : Word) (h : ∀ i, i < w → m.getLsbD i = true) :
    x.setWidth 32 &&& ~~~m = 0 := by
  apply BitVec.eq_of_getLsbD_eq
  intro i hi
  by_cases hw : i < w
  · simp [h i hw]
  · simp [BitVec.getLsbD_of_ge x i (by omega)]

theorem bsWrbit (bit : BitVec 1) : Statement (.bsWrbit bit) :=
  ⟨by rw [opc_encode]; rfl, by rw [opA_encode]; exact narrow_named _ 1 (by decide),
    by rw [opB_encode]; simp [encodeFields, Instr.namedBits]⟩
theorem bsWrbits (value : Word) (nbits : Word) : Statement (.bsWrbits value nbits) :=
  ⟨by rw [opc_encode]; rfl, by rw [opA_encode]; simp [encodeFields, Instr.namedBits],
    by rw [opB_encode]; simp [encodeFields, Instr.namedBits]⟩
theorem bsRdbit : Statement (.bsRdbit) := ⟨by decide, by decide, by decide⟩
theorem bsRdbits (nbits : Word) : Statement (.bsRdbits nbits) :=
  ⟨by rw [opc_encode]; rfl, by rw [opA_encode]; simp [encodeFields, Instr.namedBits],
    by rw [opB_encode]; simp [encodeFields, Instr.namedBits]⟩
theorem bsFlush : Statement (.bsFlush) := ⟨by decide, by decide, by decide⟩
theorem bsClose (ch : BitVec 1) : Statement (.bsClose ch) :=
  ⟨by rw [opc_encode]; rfl, by rw [opA_encode]; exact narrow_named _ 1 (by decide),
    by rw [opB_encode]; simp [encodeFields, Instr.namedBits]⟩
theorem bsWritten : Statement (.bsWritten) := ⟨by decide, by decide, by decide⟩
theorem bsRead : Statement (.bsRead) := ⟨by decide, by decide, by decide⟩
theorem bsHasmore : Statement (.bsHasmore) := ⟨by decide, by decide, by decide⟩
theorem egeEncbyte (sym : Byte) : Statement (.egeEncbyte sym) :=
  ⟨by rw [opc_encode]; rfl, by rw [opA_encode]; exact narrow_named _ 0xFF (by decide),
    by rw [opB_encode]; simp [encodeFields, Instr.namedBits]⟩
theorem egeEncode (offset : Word) (length : Word) : Statement (.egeEncode offset length) :=
  ⟨by rw [opc_encode]; rfl, by rw [opA_encode]; simp [encodeFields, Instr.namedBits],
    by rw [opB_encode]; simp [encodeFields, Instr.namedBits]⟩
theorem egeDispose : Statement (.egeDispose) := ⟨by decide, by decide, by decide⟩
theorem egeInit (mode : Word) : Statement (.egeInit mode) :=
  ⟨by rw [opc_encode]; rfl, by rw [opA_encode]; simp [encodeFields, Instr.namedBits],
    by rw [opB_encode]; simp [encodeFields, Instr.namedBits]⟩
theorem egeStatus : Statement (.egeStatus) := ⟨by decide, by decide, by decide⟩
theorem egeGetbs : Statement (.egeGetbs) := ⟨by decide, by decide, by decide⟩
theorem egdDecbyte : Statement (.egdDecbyte) := ⟨by decide, by decide, by decide⟩
theorem egdDecode (offset : Word) (length : Word) : Statement (.egdDecode offset length) :=
  ⟨by rw [opc_encode]; rfl, by rw [opA_encode]; simp [encodeFields, Instr.namedBits],
    by rw [opB_encode]; simp [encodeFields, Instr.namedBits]⟩
theorem egdDispose : Statement (.egdDispose) := ⟨by decide, by decide, by decide⟩
theorem egdInit (mode : Word) : Statement (.egdInit mode) :=
  ⟨by rw [opc_encode]; rfl, by rw [opA_encode]; simp [encodeFields, Instr.namedBits],
    by rw [opB_encode]; simp [encodeFields, Instr.namedBits]⟩
theorem egdStatus : Statement (.egdStatus) := ⟨by decide, by decide, by decide⟩
theorem egdGetbs : Statement (.egdGetbs) := ⟨by decide, by decide, by decide⟩
theorem hcbSetfreq (idx : Byte) (value : Word) : Statement (.hcbSetfreq idx value) :=
  ⟨by rw [opc_encode]; rfl, by rw [opA_encode]; exact narrow_named _ 0xFF (by decide),
    by rw [opB_encode]; simp [encodeFields, Instr.namedBits]⟩
theorem hcbClrfreq : Statement (.hcbClrfreq) := ⟨by decide, by decide, by decide⟩
theorem hcbBuild : Statement (.hcbBuild) := ⟨by decide, by decide, by decide⟩
theorem hcbGetsize (idx : Byte) : Statement (.hcbGetsize idx) :=
  ⟨by rw [opc_encode]; rfl, by rw [opA_encode]; exact narrow_named _ 0xFF (by decide),
    by rw [opB_encode]; simp [encodeFields, Instr.namedBits]⟩
theorem hcbGetcode (idx : Byte) : Statement (.hcbGetcode idx) :=
  ⟨by rw [opc_encode]; rfl, by rw [opA_encode]; exact narrow_named _ 0xFF (by decide),
    by rw [opB_encode]; simp [encodeFields, Instr.namedBits]⟩
theorem hcbGetfreq (idx : Byte) : Statement (.hcbGetfreq idx) :=
  ⟨by rw [opc_encode]; rfl, by rw [opA_encode]; exact narrow_named _ 0xFF (by decide),
    by rw [opB_encode]; simp [encodeFields, Instr.namedBits]⟩
theorem hfeEncbyte (sym : Byte) : Statement (.hfeEncbyte sym) :=
  ⟨by rw [opc_encode]; rfl, by rw [opA_encode]; exact narrow_named _ 0xFF (by decide),
    by rw [opB_encode]; simp [encodeFields, Instr.namedBits]⟩
theorem hfeEncode (offset : Word) (length : Word) : Statement (.hfeEncode offset length) :=
  ⟨by rw [opc_encode]; rfl, by rw [opA_encode]; simp [encodeFields, Instr.namedBits],
    by rw [opB_encode]; simp [encodeFields, Instr.namedBits]⟩
theorem hfeDispose : Statement (.hfeDispose) := ⟨by decide, by decide, by decide⟩
theorem hfeInit (blockSize : Word) : Statement (.hfeInit blockSize) :=
  ⟨by rw [opc_encode]; rfl, by rw [opA_encode]; simp [encodeFields, Instr.namedBits],
    by rw [opB_encode]; simp [encodeFields, Instr.namedBits]⟩
theorem hfeStatus : Statement (.hfeStatus) := ⟨by decide, by decide, by decide⟩
theorem hfeUpdate : Statement (.hfeUpdate) := ⟨by decide, by decide, by decide⟩
theorem hfeGetbs : Statement (.hfeGetbs) := ⟨by decide, by decide, by decide⟩
theorem hfdDecbyte : Statement (.hfdDecbyte) := ⟨by decide, by decide, by decide⟩
theorem hfdDecode (offset : Word) (length : Word) : Statement (.hfdDecode offset length) :=
  ⟨by rw [opc_encode]; rfl, by rw [opA_encode]; simp [encodeFields, Instr.namedBits],
    by rw [opB_encode]; simp [encodeFields, Instr.namedBits]⟩
theorem hfdDispose : Statement (.hfdDispose) := ⟨by decide, by decide, by decide⟩
theorem hfdInit (blockSize : Word) : Statement (.hfdInit blockSize) :=
  ⟨by rw [opc_encode]; rfl, by rw [opA_encode]; simp [encodeFields, Instr.namedBits],
    by rw [opB_encode]; simp [encodeFields, Instr.namedBits]⟩
theorem hfdStatus : Statement (.hfdStatus) := ⟨by decide, by decide, by decide⟩
theorem hfdReadlen : Statement (.hfdReadlen) := ⟨by decide, by decide, by decide⟩
theorem hfdGetbs : Statement (.hfdGetbs) := ⟨by decide, by decide, by decide⟩
theorem rceEncbyte (sym : Byte) : Statement (.rceEncbyte sym) :=
  ⟨by rw [opc_encode]; rfl, by rw [opA_encode]; exact narrow_named _ 0xFF (by decide),
    by rw [opB_encode]; simp [encodeFields, Instr.namedBits]⟩
theorem rceEncode (offset : Word) (length : Word) : Statement (.rceEncode offset length) :=
  ⟨by rw [opc_encode]; rfl, by rw [opA_encode]; simp [encodeFields, Instr.namedBits],
    by rw [opB_encode]; simp [encodeFields, Instr.namedBits]⟩
theorem rceDispose : Statement (.rceDispose) := ⟨by decide, by decide, by decide⟩
theorem rceInit : Statement (.rceInit) := ⟨by decide, by decide, by decide⟩
theorem rceStatus : Statement (.rceStatus) := ⟨by decide, by decide, by decide⟩
theorem rceGetbs : Statement (.rceGetbs) := ⟨by decide, by decide, by decide⟩
theorem rcdDecbyte : Statement (.rcdDecbyte) := ⟨by decide, by decide, by decide⟩
theorem rcdDecode (offset : Word) (length : Word) : Statement (.rcdDecode offset length) :=
  ⟨by rw [opc_encode]; rfl, by rw [opA_encode]; simp [encodeFields, Instr.namedBits],
    by rw [opB_encode]; simp [encodeFields, Instr.namedBits]⟩
theorem rcdDispose : Statement (.rcdDispose) := ⟨by decide, by decide, by decide⟩
theorem rcdInit : Statement (.rcdInit) := ⟨by decide, by decide, by decide⟩
theorem rcdStatus : Statement (.rcdStatus) := ⟨by decide, by decide, by decide⟩
theorem rcdGetbs : Statement (.rcdGetbs) := ⟨by decide, by decide, by decide⟩
theorem cmeEncbyte (sym : Byte) : Statement (.cmeEncbyte sym) :=
  ⟨by rw [opc_encode]; rfl, by rw [opA_encode]; exact narrow_named _ 0xFF (by decide),
    by rw [opB_encode]; simp [encodeFields, Instr.namedBits]⟩
theorem cmeEncode (offset : Word) (length : Word) : Statement (.cmeEncode offset length) :=
  ⟨by rw [opc_encode]; rfl, by rw [opA_encode]; simp [encodeFields, Instr.namedBits],
    by rw [opB_encode]; simp [encodeFields, Instr.namedBits]⟩
theorem cmeDispose : Statement (.cmeDispose) := ⟨by decide, by decide, by decide⟩
theorem cmeInit : Statement (.cmeInit) := ⟨by decide, by decide, by decide⟩
theorem cmeStatus : Statement (.cmeStatus) := ⟨by decide, by decide, by decide⟩
theorem cmeGetbs : Statement (.cmeGetbs) := ⟨by decide, by decide, by decide⟩
theorem cmdDecbyte : Statement (.cmdDecbyte) := ⟨by decide, by decide, by decide⟩
theorem cmdDecode (offset : Word) (length : Word) : Statement (.cmdDecode offset length) :=
  ⟨by rw [opc_encode]; rfl, by rw [opA_encode]; simp [encodeFields, Instr.namedBits],
    by rw [opB_encode]; simp [encodeFields, Instr.namedBits]⟩
theorem cmdDispose : Statement (.cmdDispose) := ⟨by decide, by decide, by decide⟩
theorem cmdInit : Statement (.cmdInit) := ⟨by decide, by decide, by decide⟩
theorem cmdStatus : Statement (.cmdStatus) := ⟨by decide, by decide, by decide⟩
theorem cmdGetbs : Statement (.cmdGetbs) := ⟨by decide, by decide, by decide⟩
theorem sysReset : Statement (.sysReset) := ⟨by decide, by decide, by decide⟩
theorem sysStatus : Statement (.sysStatus) := ⟨by decide, by decide, by decide⟩

end Sys2Proof.Laws.EncodedFields
end

