-- ==== Sys2Proof/Tests/Slice0.lean ====
section
/-! SUPPORT. The model's own tests: the checks of WellFormed, a word for every command written out from 30_encoding.md R90 and
R93, one step of the commands on the examples the rules give, and for each obligation with hypotheses a state and operands
that meet them all. Every expected value is the spec's own example or worked by hand from its rule. -/

set_option Elab.async false

namespace Sys2Proof.Tests

open Sys2Proof Sys2Proof.Machine

/-- The state one command leaves (every command answers with a next state). -/
def after (i : Instr) (s : State) : State :=
  match exec i s with
  | .next t => t
  | _ => s

/-- The state several commands leave, in order. -/
def afterAll (l : List Instr) (s : State) : State := l.foldl (fun s i => after i s) s

/-- Reset with an input list. -/
def withIn (l : List Bool) : State := { State.reset with bsi := { State.reset.bsi with inBits := l } }

/-- Reset with a bound on OUT. -/
def withCap (n : Nat) : State := { State.reset with bsi := { State.reset.bsi with outCap := some n } }

/-- Reset with bytes in BUF from address 0 on (none of them 0). -/
def withBuf (l : List Nat) : State := { State.reset with buf := l.zipIdx.map fun p => (p.2, BitVec.ofNat 8 p.1) }

/-- A state seen right after a command succeeded with a number. -/
def ok (s : State) (r : Nat) : Bool := s.rsp == { flt := 0, r := BitVec.ofNat 64 r }

/-- A state seen right after a command failed with a fault code. -/
def fails (s : State) (c : BitVec 3) : Bool := s.rsp == { flt := c, r := BitVec.allOnes 64 } && s.lastFlt == c

/-! ## WellFormed: one ill-formed term for each check, and the boundary on the other side -/

theorem test_wf_refuses_nbits_zero : (Instr.bsWrbits 5 0).wf = false := by decide
theorem test_wf_refuses_nbits_33 : (Instr.bsRdbits 33).wf = false := by decide
theorem test_wf_accepts_nbits_32 : (Instr.bsWrbits 5 32).wf = true ∧ (Instr.bsRdbits 1).wf = true := by decide
theorem test_wf_refuses_mode_two : (Instr.egeInit 2).wf = false ∧ (Instr.egdInit 2).wf = false := by decide
theorem test_wf_accepts_mode_one : (Instr.egeInit 1).wf = true ∧ (Instr.egdInit 0).wf = true := by decide
theorem test_wf_refuses_block_zero : (Instr.hfeInit 0).wf = false ∧ (Instr.hfdInit 0).wf = false := by decide
theorem test_wf_refuses_block_negative : (Instr.hfeInit 0xFFFFFFFF).wf = false := by decide
theorem test_wf_refuses_block_above_max : (Instr.hfdInit 0x100001).wf = false := by decide
theorem test_wf_accepts_block_max : (Instr.hfeInit 0x100000).wf = true := by decide

/-! ## Decoding: a word for every command (R90: OPC in 71:64, A in 63:32, B in 31:0; R93: the opcodes) -/

theorem test_decode_bit_stream :
    decode 0x000000000100000000 = .ok (.bsWrbit 1) ∧
    decode 0x010000000500000003 = .ok (.bsWrbits 5 3) ∧
    decode 0x020000000000000000 = .ok (.bsRdbit) ∧
    decode 0x030000000000000005 = .ok (.bsRdbits 5) ∧
    decode 0x040000000000000000 = .ok (.bsFlush) ∧
    decode 0x050000000100000000 = .ok (.bsClose 1) ∧
    decode 0x060000000000000000 = .ok (.bsWritten) ∧
    decode 0x070000000000000000 = .ok (.bsRead) ∧
    decode 0x080000000000000000 = .ok (.bsHasmore) := by decide

theorem test_decode_exp_golomb_encoder :
    decode 0x10000000FF00000000 = .ok (.egeEncbyte 0xFF) ∧
    decode 0x110000001000000003 = .ok (.egeEncode 16 3) ∧
    decode 0x120000000000000000 = .ok (.egeDispose) ∧
    decode 0x130000000100000000 = .ok (.egeInit 1) ∧
    decode 0x140000000000000000 = .ok (.egeStatus) ∧
    decode 0x160000000000000000 = .ok (.egeGetbs) := by decide

theorem test_decode_exp_golomb_decoder :
    decode 0x200000000000000000 = .ok (.egdDecbyte) ∧
    decode 0x210000001000000003 = .ok (.egdDecode 16 3) ∧
    decode 0x220000000000000000 = .ok (.egdDispose) ∧
    decode 0x230000000100000000 = .ok (.egdInit 1) ∧
    decode 0x240000000000000000 = .ok (.egdStatus) ∧
    decode 0x260000000000000000 = .ok (.egdGetbs) := by decide

theorem test_decode_code_builder :
    decode 0x300000004100000007 = .ok (.hcbSetfreq 0x41 7) ∧
    decode 0x310000000000000000 = .ok (.hcbClrfreq) ∧
    decode 0x320000000000000000 = .ok (.hcbBuild) ∧
    decode 0x330000004100000000 = .ok (.hcbGetsize 0x41) ∧
    decode 0x340000004100000000 = .ok (.hcbGetcode 0x41) ∧
    decode 0x350000004100000000 = .ok (.hcbGetfreq 0x41) := by decide

theorem test_decode_huffman_encoder :
    decode 0x400000004100000000 = .ok (.hfeEncbyte 0x41) ∧
    decode 0x410000000000000004 = .ok (.hfeEncode 0 4) ∧
    decode 0x420000000000000000 = .ok (.hfeDispose) ∧
    decode 0x430000100000000000 = .ok (.hfeInit 4096) ∧
    decode 0x440000000000000000 = .ok (.hfeStatus) ∧
    decode 0x450000000000000000 = .ok (.hfeUpdate) ∧
    decode 0x460000000000000000 = .ok (.hfeGetbs) := by decide

theorem test_decode_huffman_decoder :
    decode 0x500000000000000000 = .ok (.hfdDecbyte) ∧
    decode 0x510000000000000004 = .ok (.hfdDecode 0 4) ∧
    decode 0x520000000000000000 = .ok (.hfdDispose) ∧
    decode 0x530000100000000000 = .ok (.hfdInit 4096) ∧
    decode 0x540000000000000000 = .ok (.hfdStatus) ∧
    decode 0x550000000000000000 = .ok (.hfdReadlen) ∧
    decode 0x560000000000000000 = .ok (.hfdGetbs) := by decide

theorem test_decode_range_encoder :
    decode 0x600000004100000000 = .ok (.rceEncbyte 0x41) ∧
    decode 0x610000000000000003 = .ok (.rceEncode 0 3) ∧
    decode 0x620000000000000000 = .ok (.rceDispose) ∧
    decode 0x630000000000000000 = .ok (.rceInit) ∧
    decode 0x640000000000000000 = .ok (.rceStatus) ∧
    decode 0x660000000000000000 = .ok (.rceGetbs) := by decide

theorem test_decode_range_decoder :
    decode 0x700000000000000000 = .ok (.rcdDecbyte) ∧
    decode 0x710000000000000003 = .ok (.rcdDecode 0 3) ∧
    decode 0x720000000000000000 = .ok (.rcdDispose) ∧
    decode 0x730000000000000000 = .ok (.rcdInit) ∧
    decode 0x740000000000000000 = .ok (.rcdStatus) ∧
    decode 0x760000000000000000 = .ok (.rcdGetbs) := by decide

theorem test_decode_cm_encoder :
    decode 0x800000004100000000 = .ok (.cmeEncbyte 0x41) ∧
    decode 0x810000000000000003 = .ok (.cmeEncode 0 3) ∧
    decode 0x820000000000000000 = .ok (.cmeDispose) ∧
    decode 0x830000000000000000 = .ok (.cmeInit) ∧
    decode 0x840000000000000000 = .ok (.cmeStatus) ∧
    decode 0x860000000000000000 = .ok (.cmeGetbs) := by decide

theorem test_decode_cm_decoder :
    decode 0x900000000000000000 = .ok (.cmdDecbyte) ∧
    decode 0x910000000000000003 = .ok (.cmdDecode 0 3) ∧
    decode 0x920000000000000000 = .ok (.cmdDispose) ∧
    decode 0x930000000000000000 = .ok (.cmdInit) ∧
    decode 0x940000000000000000 = .ok (.cmdStatus) ∧
    decode 0x960000000000000000 = .ok (.cmdGetbs) := by decide

theorem test_decode_system :
    decode 0xF00000000000000000 = .ok (.sysReset) ∧
    decode 0xF10000000000000000 = .ok (.sysStatus) := by decide

/-- Operand bits no rule names are ignored (R95), and a reserved opcode is refused by name (R94). -/
theorem test_decode_ignores_unnamed_bits :
    decode 0x06FFFFFFFFFFFFFFFF = .ok .bsWritten ∧ decode 0x10FFFFFF41FFFFFFFF = .ok (.egeEncbyte 0x41) := by decide

theorem test_decode_reserved : decode 0x090000000000000000 = .error (.reservedOpcode 0x09) ∧
    decode 0xEF0000000000000000 = .error (.reservedOpcode 0xEF) ∧
    decode 0xFF0000000000000000 = .error (.reservedOpcode 0xFF) := by decide

/-- Bit k of a table word is bit k of the command word. -/
theorem test_decode_table_word : decodeTableWord 72 0x010000000500000003 = some (.bsWrbits 5 3) := by decide

/-! ## One step, on the examples of the rules -/

/-- a presented word runs (R90, R125). -/
theorem test_step_runs_word : (match step (State.reset.withFetchWord 72 0x010000000500000003) with | .next t => t.bsi.out == [true, false, true] && ok t 3 | _ => false) = true := by decide +kernel

/-- R94. -/
theorem test_step_reserved : (match step (State.reset.withFetchWord 72 0x090000000000000000) with | .next t => fails t 4 | _ => false) = true := by decide +kernel

/-- R124. -/
theorem test_wrbit : (after (.bsWrbit 1) State.reset).bsi.out = [true] ∧ (after (.bsWrbit 1) State.reset).bsi.wcnt = 1 := by decide +kernel

/-- R124: a full channel answers 0. -/
theorem test_wrbit_full : ok (after (.bsWrbit 1) (withCap 0)) 0 = true := by decide +kernel

/-- R125. -/
theorem test_wrbits_order : (after (.bsWrbits 5 3) State.reset).bsi.out = [true, false, true] := by decide +kernel

/-- R125: a short write answers the count. -/
theorem test_wrbits_short : ok (after (.bsWrbits 5 3) (withCap 2)) 2 = true ∧ (after (.bsWrbits 5 3) (withCap 2)).bsi.out = [true, false] := by decide +kernel

/-- R126. -/
theorem test_rdbit : ok (after .bsRdbit (withIn [true, false])) 1 = true ∧ ok (afterAll [.bsRdbit, .bsRdbit] (withIn [true, false])) 0 = true := by decide +kernel

/-- R126. -/
theorem test_rdbit_end : fails (after .bsRdbit State.reset) 1 = true := by decide +kernel

/-- R127. -/
theorem test_rdbits : ok (after (.bsRdbits 5) (withIn (bitsMsb 0xB2 8))) 22 = true ∧ (after (.bsRdbits 5) (withIn (bitsMsb 0xB2 8))).bsi.rcnt = 5 := by decide +kernel

/-- R127. -/
theorem test_rdbits_all_or_none : fails (after (.bsRdbits 9) (withIn (bitsMsb 0xB2 8))) 1 = true ∧ (after (.bsRdbits 9) (withIn (bitsMsb 0xB2 8))).bsi.rcnt = 0 := by decide +kernel

/-- R128. -/
theorem test_flush : ok (after .bsFlush (after (.bsWrbit 1) State.reset)) 0 = true ∧ (after .bsFlush (after (.bsWrbit 1) State.reset)).bsi.out = [true] := by decide +kernel

/-- R129, R133. -/
theorem test_close_out_pads : (afterAll [.bsWrbits 5 3, .bsClose 0, .bsWrbit 1] State.reset).bsi.outBytes = [0xA0] := by decide +kernel

/-- R129. -/
theorem test_close_in : fails (afterAll [.bsClose 1, .bsRdbit] (withIn [true])) 1 = true := by decide +kernel

/-- R130. -/
theorem test_written : ok (afterAll [.bsWrbits 5 3, .bsWritten] State.reset) 3 = true := by decide +kernel

/-- R131. -/
theorem test_read : ok (afterAll [.bsRdbits 5, .bsRead] (withIn (bitsMsb 0xB2 8))) 5 = true := by decide +kernel

/-- R132. -/
theorem test_hasmore : ok (after .bsHasmore (withIn [false])) 1 = true ∧ ok (after .bsHasmore State.reset) 0 = true := by decide +kernel

/-- R150. -/
theorem test_ege_unsigned_three : (after (.egeEncbyte 3) State.reset).bsi.out = [false, false, true, false, false] := by decide +kernel

/-- R150. -/
theorem test_ege_signed_minus_one : (afterAll [.egeInit 1, .egeEncbyte 0xFF] State.reset).bsi.out = [false, true, false, true] := by decide +kernel

/-- R150 and R344: FCODE 6, LASTFLT 0. -/
theorem test_ege_short_write_kills : let t := after (.egeEncbyte 3) (withCap 2); ok t 0 = true ∧ t.ege.ustat.dead = true ∧ t.ege.ustat.fcode = 6 ∧ t.lastFlt = 0 := by decide +kernel

/-- R151. -/
theorem test_ege_encode : let t := after (.egeEncode 0 3) (withBuf [1, 2]); ok t 3 = true ∧ t.bsi.out = [false, true, false, false, true, true, true] := by decide +kernel

/-- R152. -/
theorem test_ege_dispose : fails (afterAll [.egeDispose, .egeEncbyte 0] State.reset) 5 = true := by decide +kernel

/-- R153. -/
theorem test_ege_init_status : ok (afterAll [.egeInit 1, .egeStatus] State.reset) 0x100000000 = true := by decide +kernel

/-- R153. -/
theorem test_ege_init_illegal : fails (after (.egeInit 2) State.reset) 3 = true := by decide +kernel

/-- R154, R336: DEAD, FCODE 6. -/
theorem test_ege_status_dead : ok (afterAll [.egeEncbyte 3, .egeStatus] (withCap 2)) 13 = true := by decide +kernel

/-- R337. -/
theorem test_getbs : [Instr.egeGetbs, .hfeGetbs, .rceGetbs, .cmeGetbs].all (fun i => ok (after i State.reset) 0) = true ∧ [Instr.egdGetbs, .hfdGetbs, .rcdGetbs, .cmdGetbs].all (fun i => ok (after i State.reset) 1) = true := by decide +kernel

/-- R156. -/
theorem test_egd_unsigned : let t := after .egdDecbyte (withIn [false, false, true, false, false]); ok t 3 = true ∧ t.bsi.rcnt = 5 := by decide +kernel

/-- R156. -/
theorem test_egd_signed : ok (afterAll [.egdInit 1, .egdDecbyte] (withIn [false, true, false, true])) 0xFF = true := by decide +kernel

/-- R157. -/
theorem test_egd_decode : let t := after (.egdDecode 4 3) (withIn [true, false, true, false, false, true, true]); ok t 3 = true ∧ bufBytes t.buf 4 3 = [0, 1, 2] := by decide +kernel

/-- R158. -/
theorem test_egd_dispose : fails (afterAll [.egdDispose, .egdDecbyte] State.reset) 5 = true := by decide +kernel

/-- R159. -/
theorem test_egd_init_revives : ok (afterAll [.egdDecbyte, .egdInit 0, .egdStatus] State.reset) 0 = true := by decide +kernel

/-- R160: a dead unit with FCODE 1. -/
theorem test_egd_status : ok (afterAll [.egdDecbyte, .egdStatus] State.reset) 3 = true := by decide +kernel

/-- R180. -/
theorem test_hcb_setfreq : ok (afterAll [.hcbSetfreq 0x41 7, .hcbGetfreq 0x41] State.reset) 7 = true ∧ ok (afterAll [.hcbSetfreq 0x41 7, .hcbGetfreq 0x42] State.reset) 1 = true := by decide +kernel

/-- R181. -/
theorem test_hcb_clrfreq : ok (afterAll [.hcbClrfreq, .hcbGetfreq 0] State.reset) 0 = true := by decide +kernel

/-- R183, R33. -/
theorem test_hcb_getsize : ok (after (.hcbGetsize 0xFF) State.reset) 8 = true := by decide +kernel

/-- R184, R33. -/
theorem test_hcb_getcode : ok (after (.hcbGetcode 0xFE) State.reset) 0xFE = true := by decide +kernel

/-- R182. -/
theorem test_hcb_build_refuses_zero : fails (afterAll [.hcbClrfreq, .hcbBuild] State.reset) 3 = true := by decide +kernel

/-- R200. -/
theorem test_hfe_encbyte : (after (.hfeEncbyte 0x41) State.reset).bsi.out = [false, true, false, false, false, false, false, true] := by decide +kernel

/-- R202. -/
theorem test_hfe_dispose : fails (afterAll [.hfeDispose, .hfeEncbyte 0] State.reset) 5 = true := by decide +kernel

/-- R203. -/
theorem test_hfe_init : ok (afterAll [.hfeInit 4096, .hfeStatus] State.reset) 0x100000000000 = true ∧ fails (after (.hfeInit 0) State.reset) 3 = true := by decide +kernel

/-- R204. -/
theorem test_hfe_status : ok (after .hfeStatus State.reset) 0x1000000000000 = true := by decide +kernel

/-- R205. -/
theorem test_hfe_update_refuses_zero : fails (afterAll [.hcbClrfreq, .hfeUpdate] State.reset) 3 = true := by decide +kernel

/-- R210. -/
theorem test_hfd_decbyte : ok (after .hfdDecbyte (withIn (bitsMsb 0x41 8))) 0x41 = true := by decide +kernel

/-- R211, R333: LENGTH 0. -/
theorem test_hfd_decode_zero : ok (after (.hfdDecode 65536 0) State.reset) 0 = true ∧ fails (after (.hfdDecode 65536 1) State.reset) 3 = true := by decide +kernel

/-- R212. -/
theorem test_hfd_dispose : fails (afterAll [.hfdDispose, .hfdReadlen] State.reset) 5 = true := by decide +kernel

/-- R213. -/
theorem test_hfd_init : fails (after (.hfdInit 0x100001) State.reset) 3 = true := by decide +kernel

/-- R214. -/
theorem test_hfd_status : ok (after .hfdStatus State.reset) 0x1000000000000 = true := by decide +kernel

/-- R194, R215: no header. -/
theorem test_hfd_readlen_end : fails (after .hfdReadlen State.reset) 1 = true := by decide +kernel

/-- R250. -/
theorem test_rce_encbyte : let t := after (.rceEncbyte 0x41) State.reset; t.rce.coder.low = 0x40BF40BF40BF00 ∧ t.rce.coder.range = 0xFF00FF00FF00 ∧ t.bsi.out = [] ∧ ok t 1 = true := by decide +kernel

/-- R262. -/
theorem test_rce_encode_dispose : let t := afterAll [.rceEncode 0 3, .rceDispose] (withBuf [0x41, 0x42, 0x43]); t.bsi.outBytes = [0x41, 0x01, 0xBC, 0xF9, 0x00, 0xD9, 0xA2, 0x99, 0x00] := by decide +kernel

/-- R252: 56 zero bits. -/
theorem test_rce_dispose_empty : let t := after .rceDispose State.reset; t.bsi.out = List.replicate 56 false ∧ ok t 0 = true := by decide +kernel

/-- R252, R334. -/
theorem test_rce_dispose_short : let t := after .rceDispose (withCap 55); fails t 1 = true ∧ t.rce.ustat = { dead := true, fcode := 1, disposed := true, primed := false } := by decide +kernel

/-- R253. -/
theorem test_rce_init : let t := afterAll [.rceEncbyte 0x41, .rceInit] State.reset; t.rce.coder.low = 0 ∧
    t.rce.coder.range = 0xFFFFFFFFFFFFFF ∧ t.rce.coder.aft.total = 257 := by decide +kernel

/-- R254: DISPOSED. -/
theorem test_rce_status : ok (afterAll [.rceDispose, .rceStatus] State.reset) 16 = true := by decide +kernel

/-- R256. -/
theorem test_rcd_decbyte : let t := after .rcdDecbyte (withIn (bitsMsb 0x4101BCF900D9A29900 72)); ok t 0x41 = true ∧ t.bsi.rcnt = 56 := by decide +kernel

/-- R256, R257. -/
theorem test_rcd_decode : let t := after (.rcdDecode 0 3) (withIn (bitsMsb 0x4101BCF900D9A29900 72)); ok t 3 = true ∧ bufBytes t.buf 0 3 = [0x41, 0x42, 0x43] ∧ t.bsi.rcnt = 72 := by decide +kernel

/-- R258. -/
theorem test_rcd_dispose : fails (afterAll [.rcdDispose, .rcdDecbyte] State.reset) 5 = true := by decide +kernel

/-- R259. -/
theorem test_rcd_init : (afterAll [.rcdDecbyte, .rcdInit] State.reset).rcd.ustat = .reset := by decide +kernel

/-- R260: PRIMED. -/
theorem test_rcd_status : ok (afterAll [.rcdDecbyte, .rcdStatus] (withIn (bitsMsb 0x4101BCF900D9A29900 72))) 32 = true := by decide +kernel

/-- R310. -/
theorem test_cme_encbyte : let t := after (.cmeEncbyte 0x41) State.reset; t.cme.coder.low = 0xBD5B6A3B ∧ t.cme.coder.high = 0xBE631603 ∧ t.bsi.out = [] ∧ t.cme.coder.p.pred = 1365 := by decide +kernel

/-- R312. -/
theorem test_cme_dispose : (afterAll [.cmeEncbyte 0x41, .cmeDispose] State.reset).bsi.outBytes = [0xBD, 0x5B, 0x6A, 0x3B] := by decide +kernel

/-- R311. -/
theorem test_cme_encode : let t := after (.cmeEncode 0 3) (withBuf [0x41, 0x41, 0x41]); ok t 3 = true ∧ t.bsi.outBytes = [0xBE] := by decide +kernel

/-- R313. -/
theorem test_cme_init : (afterAll [.cmeEncbyte 0x41, .cmeInit] State.reset).cme.coder.p.pred = 2048 := by decide +kernel

/-- R314. -/
theorem test_cme_status : ok (after .cmeStatus State.reset) 0 = true := by decide +kernel

/-- R316. -/
theorem test_cmd_decbyte : let t := after .cmdDecbyte (withIn (bitsMsb 0xBD5B6A3B 32)); ok t 0x41 = true ∧ t.bsi.rcnt = 32 := by decide +kernel

/-- R317. -/
theorem test_cmd_decode : let t := after (.cmdDecode 0 3) (withIn (bitsMsb 0xBE1F4D4C34 40)); ok t 3 = true ∧ bufBytes t.buf 0 3 = [0x41, 0x41, 0x41] ∧ t.bsi.rcnt = 40 := by decide +kernel

/-- R318. -/
theorem test_cmd_dispose : fails (afterAll [.cmdDispose, .cmdDecbyte] State.reset) 5 = true := by decide +kernel

/-- R319: dead of the end of IN, then new. -/
theorem test_cmd_init : ok (afterAll [.cmdDecbyte, .cmdInit, .cmdStatus] State.reset) 0 = true := by decide +kernel

/-- R320. -/
theorem test_cmd_status : ok (afterAll [.cmdDecbyte, .cmdStatus] State.reset) 3 = true := by decide +kernel

/-- R338. -/
theorem test_sys_reset : ok (afterAll [.bsWrbit 1, .sysReset, .bsWritten] State.reset) 0 = true := by decide +kernel

/-- R339. -/
theorem test_sys_status : ok (after .sysStatus State.reset) 0 = true ∧ ok (afterAll [.egdDecbyte, .sysStatus] State.reset) 0x10004 = true := by decide +kernel

/-- R283. -/
theorem test_predictor_reset : let p := State.reset.cme.coder.p; p.apm2.idx = 8497 ∧ p.apm3.idx = 49 ∧ p.apm5.idx = 49 ∧ p.apm4.idx = 49 ∧ p.pred = 2048 := by decide +kernel

/-- R273, R274. -/
theorem test_link_values : squash (-2047) = 1 ∧ squash (-1) = 2044 ∧ squash 1 = 2052 ∧ squash 2048 = 4095 ∧ stretch 100 = -951 ∧ stretch 4095 = 2047 := by decide +kernel

/-- R276, R278. -/
theorem test_training : smTrained 32512 true = 32770 ∧ apmTrained 40784 false = 40465 := by decide +kernel

/-- R272. -/
theorem test_state_table : symGet referenceTable 0xF3 = { next0 := 0xF3, next1 := 0xF4, n0 := 15, n1 := 3 } := by decide +kernel

/-- The worked example of R186: lengths 4, 4, 3, 3, 3, 1 and a shift by two. -/
def exampleFreq : Vector Word 256 :=
  tabulate 256 fun s => match s with
    | 0x61 => 5 | 0x62 => 9 | 0x63 => 12 | 0x64 => 13 | 0x65 => 16 | 0x66 => 45 | _ => 0

/-- The state of R186 after the build. -/
def exampleBuilt : State := after .hcbBuild { State.reset with hcb := { State.reset.hcb with freq := exampleFreq } }

/-- R182, R186. -/
theorem test_hcb_build_example : ok exampleBuilt 6 = true ∧
    [0x61, 0x62, 0x63, 0x64, 0x65, 0x66].map (fun s => (symGet exampleBuilt.hcb.sizes s, symGet exampleBuilt.hcb.codes s))
      = [(4, 0), (4, 1), (3, 1), (3, 2), (3, 3), (1, 1)] := by decide +kernel

/-- The example of R201: four times 0x41, a header of 266 bits and four bits. -/
def oneSymbolBlock : State := after (.hfeEncode 0 4) (withBuf [0x41, 0x41, 0x41, 0x41])

/-- The header of R201 and the four codes after it. -/
def oneSymbolBits : List Bool :=
  List.replicate 5 false ++ List.replicate 64 true ++ [false, true, false, false, false, true, false, true] ++
    List.replicate 189 true ++ List.replicate 4 false

/-- R201. -/
theorem test_hfe_encode_example : ok oneSymbolBlock 4 = true ∧ oneSymbolBlock.bsi.out = oneSymbolBits := by decide +kernel

/-- R211: the decoder reads that block back. -/
theorem test_hfd_decode_example :
    let t := after (.hfdDecode 0 4) (withIn oneSymbolBits)
    ok t 4 = true ∧ bufBytes t.buf 0 4 = [0x41, 0x41, 0x41, 0x41] ∧ t.bsi.rcnt = 270 := by decide +kernel

/-! ## Witnesses: for each obligation with hypotheses, a state and operands that meet them, each clause at a boundary -/

theorem witness_DecodeReadsOpcodeAndNamedOperandBits :
    decode 0x10FFFFFF41FFFFFFFF = .ok (.egeEncbyte 0x41) ∧
    (0x10FFFFFF41FFFFFFFF : CmdWord).opA &&& (Instr.egeEncbyte 0x41).namedBits.1
      = (0x100000004100000000 : CmdWord).opA &&& (Instr.egeEncbyte 0x41).namedBits.1 := by decide

theorem witness_ReservedOpcodesAnswerIllegalCommand :
    [0x09, 0x0F, 0x15, 0x17, 0x36, 0x9F, 0xA0, 0xEF, 0xF2, 0xFF].all reservedOpcode = true ∧
    [0x08, 0x10, 0x14, 0x16, 0x35, 0x96, 0xF0, 0xF1].all (fun o => !reservedOpcode o) = true := by decide

theorem witness_StepRunsThePresentedCommand :
    (State.reset.withFetchWord 72 0x010000000500000003).pending = .command 0x010000000500000003 :: [] ∧
    decode 0x010000000500000003 = .ok (.bsWrbits 5 3) ∧
    decodeTableWord 72 0x010000000500000003 = some (.bsWrbits 5 3) := ⟨by decide, by decide, by decide⟩

theorem witness_StepTakesHostWritesResetAndIdle :
    65535 < State.reset.cfg.bufSize ∧ State.reset.cfg.bufSize ≤ 65536 ∧ State.reset.pending = [] ∧
    ({ State.reset with pending := [.writeBuf 65535 7, .resetInput] } : State).pending
      = .writeBuf 65535 7 :: [.resetInput] := ⟨by decide, by decide, rfl, rfl⟩

/-- A dead EGE, a disposed RCE, a dead RCE. -/
theorem witness_GateRefusesDeadAndDisposedUnits :
    (Instr.egeEncbyte 3).unit? = some .ege ∧ (Instr.egeEncbyte 3).isCoding = true ∧
    ((after (.egeEncbyte 3) (withCap 2)).ustat .ege).dead = true ∧
    (Instr.rceEncode 0 1).unit? = some .rce ∧ (Instr.rceEncode 0 1).isCoding = true ∧
    ((after .rceDispose State.reset).ustat .rce).disposed = true ∧
    Instr.rceDispose.isCoding = false ∧ (∃ t, exec .rceDispose State.reset = .next t) :=
  ⟨rfl, rfl, by decide +kernel, rfl, rfl, by decide +kernel, rfl, _, rfl⟩

/-- Every unit is live after reset. -/
theorem reset_live (u : UnitId) : Live State.reset u := by cases u <;> exact And.intro rfl rfl

theorem witness_BulkCommandsRefuseRangesOutsideBuf :
    Live State.reset .ege ∧ (Instr.egeEncode 65535 2).unit? = some .ege ∧
    (Instr.egeEncode 65535 2).bulk? = some (65535, 2) ∧
    State.reset.cfg.bufSize < (65535 : Word).toNat + (2 : Word).toNat ∧ (65536 : Word).toNat ≤ State.reset.cfg.bufSize :=
  ⟨reset_live _, rfl, rfl, by decide, by decide⟩

theorem witness_DisposeFlushesALiveUnitOnce :
    ((after .rceDispose State.reset).ustat .rce).disposed = true ∧
    ((after (.egeEncbyte 3) (withCap 2)).ustat .ege).disposed = false ∧
    ((after (.egeEncbyte 3) (withCap 2)).ustat .ege).dead = true ∧
    (Live (withCap 56) .rce ∧ Fits (withCap 56) (flushBits (withCap 56) .rce)) ∧
    (Live (withCap 55) .rce ∧ ¬ Fits (withCap 55) (flushBits (withCap 55) .rce)) ∧
    (∃ t, exec (disposeOf .rce) State.reset = .next t ∧ (Instr.rceEncode 0 1).unit? = some .rce ∧
      (Instr.rceEncode 0 1).isCoding = true) :=
  ⟨by decide +kernel, by decide +kernel, by decide +kernel, ⟨⟨rfl, rfl⟩, by unfold Fits; decide +kernel⟩,
    ⟨⟨rfl, rfl⟩, by unfold Fits; decide +kernel⟩, _, rfl, rfl, rfl⟩

theorem witness_InitGivesTheUnitOfANewInstance :
    (0x130000000100000000 : CmdWord).opc = 0x13 ∧ 2 ≤ (2 : Word).toNat ∧ (1 : Word).toNat < 2 ∧
    (0 : Word).toInt ≤ 0 ∧ (0xFFFFFFFF : Word).toInt ≤ 0 ∧ 2 ^ 20 < (0x100001 : Word).toInt ∧
    (0 < (1 : Word).toInt ∧ (1 : Word).toInt ≤ 2 ^ 20) ∧ 0 < (0x100000 : Word).toInt ∧
    (0x100000 : Word).toInt ≤ 2 ^ 20 := by decide

theorem witness_DirectWritesAppendWhatTheSinkTakes :
    (0x000000000100000000 : CmdWord).opc = 0x00 ∧ (0x010000000500000003 : CmdWord).opc = 0x01 ∧
    (0 : Word).toNat = 0 ∧ 32 < (33 : Word).toNat ∧ 1 ≤ (1 : Word).toNat ∧ (32 : Word).toNat ≤ 32 := by decide

theorem witness_DirectReadsTakeAllOrNone :
    (withIn [true]).bsi.canRead 1 ∧ ¬ State.reset.bsi.canRead 1 ∧ (withIn (bitsMsb 1 32)).bsi.canRead (32 : Word).toNat ∧
    ¬ (withIn (bitsMsb 1 31)).bsi.canRead (32 : Word).toNat := by unfold Bsi.canRead; decide +kernel

theorem witness_CloseStopsTheChannelForGood :
    (after (.bsClose 0) State.reset).bsi.outClosed = true ∧ (after (.bsClose 1) State.reset).bsi.inClosed = true ∧
    0 < 1 ∧ Instr.bsFlush ≠ .sysReset ∧ ∃ t, exec .bsFlush (after (.bsClose 0) State.reset) = .next t :=
  ⟨by decide +kernel, by decide +kernel, by decide, by decide, _, rfl⟩

theorem witness_StreamsOnlyMoveForward :
    InInv State.reset ∧ Instr.egeEncbyte 3 ≠ .sysReset ∧ (Instr.egeEncbyte 3).unit? = some .ege ∧
    UnitId.ege.isEncoder = true ∧ Instr.egdDecbyte.unit? = some .egd ∧ UnitId.egd.isEncoder = false ∧
    ∃ t, exec (.egeEncbyte 3) State.reset = .next t :=
  ⟨by unfold InInv; decide +kernel, by decide, rfl, rfl, rfl, rfl, _, rfl⟩

theorem witness_ExpGolombEncodeWritesTheCode :
    ¬ Live (after .egeDispose State.reset) .ege ∧ Live (withCap 17) .ege ∧
    Fits (withCap 17) (egSymbolCode false 0xFF) ∧ Live (withCap 16) .ege ∧
    ¬ Fits (withCap 16) (egSymbolCode false 0xFF) :=
  ⟨by unfold Live; decide +kernel, ⟨rfl, rfl⟩, by unfold Fits; decide +kernel, ⟨rfl, rfl⟩, by unfold Fits; decide +kernel⟩

theorem witness_ExpGolombDecodeInvertsTheCode :
    Live (withIn (egSymbolCode false 0xFF)) .egd ∧
    (withIn (egSymbolCode false 0xFF)).bsi.continues (egSymbolCode (withIn (egSymbolCode false 0xFF)).egd.signedMode 0xFF) :=
  ⟨⟨rfl, rfl⟩, by unfold Bsi.continues; decide +kernel⟩

/-- A state in signed mode with an input list. -/
def signedIn (l : List Bool) : State := { withIn l with egd := { State.reset.egd with signedMode := true } }

theorem witness_ExpGolombDecodeFaults :
    (Live (withIn (List.replicate 9 false)) .egd ∧
      (withIn (List.replicate 9 false)).bsi.continues (List.replicate 9 false)) ∧
    ((withIn (egCode 256 false)).egd.signedMode = false ∧ (withIn (egCode 256 false)).bsi.continues (egCode 256 false) ∧
      (withIn (egCode 510 false)).bsi.continues (egCode 510 false)) ∧
    ((signedIn (egCode 128 true)).egd.signedMode = true ∧ (signedIn (egCode 128 true)).bsi.continues (egCode 128 true) ∧
      (signedIn (egCode (-129) true)).bsi.continues (egCode (-129) true)) ∧
    ((after (.bsClose 1) State.reset).bsi.inClosed = true ∧ Live (after (.bsClose 1) State.reset) .egd) ∧
    ((withIn [false, false, true]).bsi.inClosed = false ∧ (withIn [false, false, true]).bsi.inBits.length < 2 ^ 64 ∧
      (withIn [false, false, true]).bsi.inBits.drop (withIn [false, false, true]).bsi.rcnt.toNat <+:
        egSymbolCode (withIn [false, false, true]).egd.signedMode 3 ∧ [false, false, true] ≠ egSymbolCode false 3) := by
  unfold Live Bsi.continues
  decide +kernel

theorem witness_ExpGolombBulkCommandsFollowTheCodes :
    (Live (withCap 7) .ege ∧ (0 : Word).toNat + (3 : Word).toNat ≤ (withCap 7).cfg.bufSize ∧
      Fits (withCap 3) ((bufBytes (withCap 3).buf 0 3).flatMap (egSymbolCode false)) ∧
      ¬ Fits (withCap 2) ((bufBytes (withCap 2).buf 0 3).flatMap (egSymbolCode false))) ∧
    (Live (withIn [true, false, true, false]) .egd ∧ [0, 1].length = (2 : Word).toNat ∧
      (withIn [true, false, true, false]).bsi.continues ([0, 1].flatMap (egSymbolCode false))) := by
  unfold Live Fits Bsi.continues
  decide +kernel

theorem witness_BulkCommandsAreSingleCommands :
    Live State.reset .ege ∧ Live State.reset .cmd ∧ (2 : Word) ≠ 0 ∧
    (65534 : Word).toNat + (2 : Word).toNat ≤ State.reset.cfg.bufSize ∧
    (after (.egeEncbyte (memRead State.reset.buf 65534)) State.reset).rsp = { flt := 0, r := 1 } ∧
    (after (.egeEncbyte 0) (withCap 0)).rsp ≠ { flt := 0, r := 1 } ∧
    (after .egdDecbyte (withIn [true])).rsp.flt = 0 ∧ (after .egdDecbyte State.reset).rsp.flt ≠ 0 :=
  ⟨reset_live _, reset_live _, by decide, by decide, by decide +kernel, by decide +kernel, by decide +kernel,
    by decide +kernel⟩

/-- Reset with a frequency for each of a few symbols. -/
def withFreq (l : List (Byte × Word)) : State :=
  { State.reset with hcb := { State.reset.hcb with
      freq := l.foldl (fun f p => symSet f p.1 p.2) (tabulate 256 fun _ => 0) } }

theorem withFreq_two (b : Byte) : symGet (withFreq [(0x61, 5), (0xFF, 9)]).hcb.freq b ≠ 0 ↔ b = 0x61 ∨ b = 0xFF := by
  revert b; decide +kernel

theorem witness_BuildInstallsAFullTree :
    (∀ b : Byte, symGet (withFreq []).hcb.freq b = 0) ∧
    (∀ b : Byte, symGet (withFreq [(0xFF, 0xFFFFFFFF)]).hcb.freq b ≠ 0 ↔ b = 0xFF) ∧
    ((0x61 : Byte) < 0xFF ∧ ∀ b : Byte, symGet (withFreq [(0x61, 5), (0xFF, 9)]).hcb.freq b ≠ 0 ↔ b = 0x61 ∨ b = 0xFF) ∧
    2 ≤ ((withFreq [(0x61, 5), (0xFF, 9)]).hcb.freq.toList.filter fun f => decide (f ≠ 0)).length :=
  ⟨by decide +kernel, by decide +kernel, ⟨by decide, withFreq_two⟩, by decide +kernel⟩

/-- The first 33 Fibonacci numbers, whose total is the least of a tree 32 deep (42_huffman_code_builder.md R174). -/
def fibonacciFreq (n : Nat) : Vector Word 256 := tabulate 256 fun s => if s < n then BitVec.ofNat 32 (Nat.fib (s + 1)) else 0

/-- The depths of the tree of a build, by the merges on one list. -/
def treeDepths (freq : Vector Word 256) : Option (List Nat) :=
  (mergedTree freq 256 (presentNodes freq)).map fun t => (t.depths 0).map Prod.snd

/-- 33 Fibonacci frequencies give a leaf at depth 32, 32 of them none deeper than 31. -/
theorem witness_BuildInstallsAFullTree_depths :
    (treeDepths (fibonacciFreq 33)).map (fun l => l.any fun d => decide (31 < d)) = some true ∧
    (treeDepths (fibonacciFreq 32)).map (fun l => l.any fun d => decide (31 < d)) = some false := by decide +kernel

/-- R186: the lengths of the example, by the merges on one list. -/
theorem test_merged_tree_example :
    ((mergedTree exampleFreq 256 (presentNodes exampleFreq)).map fun t => t.depths 0) =
      some [(0x66, 1), (0x63, 3), (0x64, 3), (0x61, 4), (0x62, 4), (0x65, 3)] := by decide +kernel

theorem witness_SmallTotalsAlwaysBuild :
    (∃ b : Byte, symGet (withFreq [(0, 1), (1, 0xFFFFF)]).hcb.freq b ≠ 0) ∧
    ((withFreq [(0, 1), (1, 0xFFFFF)]).hcb.freq.toList.map BitVec.toNat).sum = 2 ^ 20 :=
  ⟨⟨0, by decide +kernel⟩, by decide +kernel⟩

/-- The lengths of R186, given as a table: not flat, with a gap. -/
def exampleSizes : Vector (BitVec 5) 256 :=
  tabulate 256 fun s => match s with
    | 0x61 => 4 | 0x62 => 4 | 0x63 => 3 | 0x64 => 3 | 0x65 => 3 | 0x66 => 1 | _ => 0

theorem witness_CanonicalCodesArePrefixFreeAndOrdered :
    kraft exampleSizes = 2 ^ 31 ∧ symGet exampleSizes 0x61 ≠ 0 ∧ symGet exampleSizes 0x62 = symGet exampleSizes 0x61 ∧
    (∀ b : Byte, (symGet exampleSizes b).toNat < (symGet exampleSizes 0x61).toNat ∨
      ((symGet exampleSizes b).toNat = (symGet exampleSizes 0x61).toNat ∧ 0x61 ≤ b)) ∧
    (∀ b : Byte, (symGet exampleSizes b).toNat ≠ 0 → (symGet exampleSizes 0x66).toNat < (symGet exampleSizes b).toNat ∨
      ((symGet exampleSizes b).toNat = (symGet exampleSizes 0x66).toNat ∧ b ≤ 0x66)) := by decide +kernel

theorem witness_HuffmanEncodeWritesTheCode :
    ¬ Live (after .hfeDispose State.reset) .hfe ∧ Live (withCap 8) .hfe ∧
    (Live { State.reset with hfe := { State.reset.hfe with sizes := exampleSizes } } .hfe ∧ symGet exampleSizes 0 = 0) ∧
    symGet (withCap 8).hfe.sizes 0x41 ≠ 0 ∧
    Fits (withCap 8) (hufBits (withCap 8).hfe.sizes (withCap 8).hfe.codes 0x41) ∧ Live (withCap 7) .hfe ∧
    ¬ Fits (withCap 7) (hufBits (withCap 7).hfe.sizes (withCap 7).hfe.codes 0x41) := by
  unfold Live Fits
  decide +kernel

/-- Reset with the tables of R186 in HFD and an input list. -/
def decoderIn (z : Vector (BitVec 5) 256) (l : List Bool) : State :=
  { withIn l with hfd := { State.reset.hfd with sizes := z, codes := assignCodes z } }

/-- One symbol, 0x41, with the code `0`. -/
def oneSize : Vector (BitVec 5) 256 := tabulate 256 fun s => if s = 0x41 then 1 else 0

theorem decoder_valid : (decoderIn exampleSizes []).hfd.Valid ∧ (decoderIn oneSize []).hfd.Valid :=
  ⟨⟨by decide +kernel, rfl⟩, by decide +kernel, rfl⟩

theorem witness_HuffmanDecodeInvertsTheCode :
    (Live (decoderIn exampleSizes [false, false, false, true]) .hfd ∧
      (decoderIn exampleSizes [false, false, false, true]).hfd.Valid ∧ symGet exampleSizes 0x62 ≠ 0 ∧
      (decoderIn exampleSizes [false, false, false, true]).bsi.continues
        (hufBits exampleSizes (assignCodes exampleSizes) 0x62)) ∧
    kraft exampleSizes = 2 ^ 31 ∧
    (kraft oneSize ≠ 2 ^ 31 ∧ (decoderIn oneSize [true]).bsi.continues [true]) ∧
    ([false, false, false] <+: hufBits exampleSizes (assignCodes exampleSizes) 0x62 ∧
      (decoderIn exampleSizes [false, false, false]).bsi.inBits.drop
        (decoderIn exampleSizes [false, false, false]).bsi.rcnt.toNat = [false, false, false]) :=
  ⟨⟨⟨rfl, rfl⟩, decoder_valid.1, by decide +kernel, by unfold Bsi.continues; decide +kernel⟩, by decide +kernel,
    ⟨by decide +kernel, by unfold Bsi.continues; decide +kernel⟩, by decide +kernel, by decide +kernel⟩

/-- The header of R201 is that of the one-symbol table. -/
theorem header_oneSize : headerBits oneSize = oneSymbolBits.take 266 := by decide +kernel

/-- A build refused, and one that gives the one-symbol table, with room for its header and without. -/
theorem witness_HuffmanUpdateInstallsAndAnnounces :
    ¬ Live (after .hfeDispose State.reset) .hfe ∧
    (Live (withFreq []) .hfe ∧ buildLengths (withFreq []).hcb.freq = none) ∧
    (Live (withFreq [(0x41, 7)]) .hfe ∧ buildLengths (withFreq [(0x41, 7)]).hcb.freq = some oneSize ∧
      Fits (withCap 266) (headerBits oneSize) ∧ ¬ Fits (withCap 265) (headerBits oneSize)) := by
  unfold Live Fits
  rw [header_oneSize]
  decide +kernel

theorem witness_ReadLengthsInvertsTheHeader :
    Live (withIn (headerBits oneSize)) .hfd ∧ (withIn (headerBits oneSize)).bsi.continues (headerBits oneSize) ∧
    lengthsValid oneSize = true ∧ lengthsValid (tabulate 256 fun _ => 0) = false := by
  unfold Live Bsi.continues
  rw [header_oneSize]
  decide +kernel

/-- A running length of 32 after 31 and of -1 after 255 lengths, nine zeros for a delta, and IN ending after four bits of the
first length, before a delta and inside one. -/
theorem witness_ReadLengthsInvertsTheHeader_faults :
    (Live State.reset .hfd ∧ ¬ (withIn (List.replicate 4 true)).bsi.canRead 5) ∧
    (31 < (([31] : List Nat).getLastD 0 : Int) + 1 ∧
      (withIn (headerStart [31] ++ egCode 1 true)).bsi.continues (headerStart [31] ++ egCode 1 true)) ∧
    ((List.replicate 255 0).length ≤ 255 ∧ ((List.replicate 255 0).getLastD 0 : Int) + -1 < 0 ∧
      (withIn (headerStart (List.replicate 255 0) ++ egCode (-1) true)).bsi.continues
        (headerStart (List.replicate 255 0) ++ egCode (-1) true)) ∧
    (withIn (headerStart [0] ++ List.replicate 9 false)).bsi.continues (headerStart [0] ++ List.replicate 9 false) ∧
    ([] <+: egCode 0 true ∧ [] ≠ egCode 0 true ∧ [false, true] <+: egCode 1 true ∧ [false, true] ≠ egCode 1 true ∧
      (withIn (headerStart [0] ++ [false, true])).bsi.inBits.length < 2 ^ 64 ∧
      (withIn (headerStart [0] ++ [false, true])).bsi.inBits.drop 0 = headerStart [0] ++ [false, true]) := by
  unfold Live Bsi.canRead Bsi.continues
  decide +kernel

theorem witness_HuffmanBlockEncodeWritesHeaderAndCodes :
    Live State.reset .hfe ∧ 0 < (4 : Word).toNat ∧ (4 : Word).toNat ≤ State.reset.hfe.block.toNat ∧
    (4 : Word).toNat ≤ 2 ^ 20 ∧ (65532 : Word).toNat + (4 : Word).toNat ≤ State.reset.cfg.bufSize :=
  ⟨reset_live _, by decide, by decide, by decide, by decide⟩

theorem witness_HuffmanBlockDecodeStoresTheSymbols :
    Live (withIn oneSymbolBits) .hfd ∧ [0x41, 0x41, 0x41, 0x41].length = (4 : Word).toNat ∧ 0 < (4 : Word).toNat ∧
    (4 : Word).toNat ≤ (withIn oneSymbolBits).hfd.block.toNat ∧
    (0 : Word).toNat + (4 : Word).toNat ≤ (withIn oneSymbolBits).cfg.bufSize ∧ lengthsValid oneSize = true ∧
    (∀ v ∈ [(0x41 : Byte), 0x41, 0x41, 0x41], symGet oneSize v ≠ 0) ∧
    (withIn oneSymbolBits).bsi.continues
      (headerBits oneSize ++ [0x41, 0x41, 0x41, 0x41].flatMap (hufBits oneSize (assignCodes oneSize))) := by
  unfold Live Bsi.continues
  rw [header_oneSize]
  decide +kernel

/-- Blocks of two symbols on either side. -/
def twoBlocks (s : State) : State :=
  { s with hfe := { s.hfe with block := 2 }, hfd := { s.hfd with block := 2 } }

theorem witness_HuffmanBulkGoesBlockByBlock :
    Live (twoBlocks State.reset) .hfe ∧ Live (twoBlocks State.reset) .hfd ∧ 1 ≤ (twoBlocks State.reset).hfe.block.toNat ∧
    (twoBlocks State.reset).hfe.block.toNat < (3 : Word).toNat ∧ (twoBlocks State.reset).hfd.block.toNat < (3 : Word).toNat ∧
    (65533 : Word).toNat + (3 : Word).toNat ≤ (twoBlocks State.reset).cfg.bufSize :=
  ⟨⟨rfl, rfl⟩, ⟨rfl, rfl⟩, by decide, by decide, by decide, by decide⟩

theorem reset_cum (i : Nat) (h : i ≤ 257) : Aft.reset.cum i = i := by
  have hb : i / 2 ^ 4 < 17 := by omega
  have hd : i < 258 := by omega
  simp only [Aft.cum, Aft.reset, Nat.shiftRight_eq_div_pow, Vector.getElem?_eq_getElem, hb, hd, tabulate_getElem,
    Option.getD_some, BitVec.toNat_ofNat]
  omega

theorem reset_aft : Aft.reset.Inv := by
  refine ⟨by decide +kernel, by decide +kernel, fun i h => ?_, by decide +kernel⟩
  rw [reset_cum i (by omega), reset_cum (i + 1) (by omega)]
  omega

theorem reset_rcCoder : RcCoder.reset.Inv :=
  ⟨by decide +kernel, by decide +kernel, by decide +kernel, by decide +kernel, reset_aft⟩

theorem witness_FrequencyTableCountsAndFinds :
    Aft.reset.Inv ∧ 255 < 256 ∧ Aft.reset.total < 2 ^ 32 - 1 ∧ 256 < Aft.reset.total :=
  ⟨reset_aft, by decide, by decide +kernel, by decide +kernel⟩

theorem witness_RangeEncodeNarrowsToTheSymbol :
    Live State.reset .rce ∧ State.reset.rce.coder.Inv ∧ State.reset.rce.coder.aft.total < 2 ^ 32 - 1 ∧
    State.reset.bsi.room 56 = 56 ∧ State.reset.rce.coder.aft.total + (3 : Word).toNat ≤ 2 ^ 32 - 1 ∧
    (65533 : Word).toNat + (3 : Word).toNat ≤ State.reset.cfg.bufSize ∧
    State.reset.bsi.room (56 * (3 : Word).toNat) = 56 * (3 : Word).toNat :=
  ⟨reset_live _, reset_rcCoder, by decide +kernel, by decide, by decide +kernel, by decide, by decide⟩

/-- RCD with the window of R262 loaded. -/
def rcdLoaded (code : Quad) : State :=
  { withIn (List.replicate 56 false) with
    rcd := { coder := .reset, code := code, ustat := { dead := false, fcode := 0, disposed := false, primed := true } } }

theorem witness_RangeDecodeDeliversTheSlot :
    Live (rcdLoaded 0x4101BCF900D9A2) .rcd ∧ (rcdLoaded 0x4101BCF900D9A2).rcd.coder.Inv ∧
    (rcdLoaded 0x4101BCF900D9A2).rcd.coder.aft.total < 2 ^ 32 - 1 ∧
    (rcdLoaded 0x4101BCF900D9A2).rcd.ustat.primed = true ∧ (rcdLoaded 0x4101BCF900D9A2).rcd.code.toNat < 2 ^ 56 ∧
    (rcdLoaded 0x4101BCF900D9A2).bsi.canRead 56 ∧ (rcdLoaded 0x4101BCF900D9A2).bsi.inBits.length < 2 ^ 64 ∧
    (rcdLoaded 0x4101BCF900D9A2).rcd.coder.aft.cum 0x41 ≤ (rcdLoaded 0x4101BCF900D9A2).rcd.count ∧
    (rcdLoaded 0x4101BCF900D9A2).rcd.count < (rcdLoaded 0x4101BCF900D9A2).rcd.coder.aft.cum (0x41 + 1) ∧
    (65535 : Word).toNat + 1 ≤ (rcdLoaded 0x4101BCF900D9A2).cfg.bufSize :=
  ⟨⟨rfl, rfl⟩, reset_rcCoder, by decide +kernel, rfl, by decide, by unfold Bsi.canRead; decide +kernel, by decide +kernel,
    by decide +kernel, by decide +kernel, by decide⟩

/-- A frequency table at the counter limit. -/
def fullAft : Aft := { Aft.reset with base := Aft.reset.base.set 16 0xFFFFFFFE }

theorem witness_RangeDecodeRefusalsAndFaults :
    (Live (rcdLoaded 0xFFFFFFFFFFFFFF) .rcd ∧
      (rcdLoaded 0xFFFFFFFFFFFFFF).rcd.coder.aft.total ≤ (rcdLoaded 0xFFFFFFFFFFFFFF).rcd.count) ∧
    ((rcdLoaded 0xFF00FF00FF00FF).rcd.coder.aft.cum 256 ≤ (rcdLoaded 0xFF00FF00FF00FF).rcd.count ∧
      (rcdLoaded 0xFF00FF00FF00FF).rcd.count < (rcdLoaded 0xFF00FF00FF00FF).rcd.coder.aft.total) ∧
    2 ^ 32 - 1 ≤ fullAft.total ∧ (1 : Word) ≠ 0 :=
  ⟨⟨⟨rfl, rfl⟩, by decide +kernel⟩, by decide +kernel, by decide +kernel, by decide⟩

/-- RCD with a window in slot 0, whose top byte is settled at once, and 7 bits of IN left. -/
def rcdShort : State := { rcdLoaded 0 with bsi := (withIn (List.replicate 7 true)).bsi }

theorem witness_RangeDecodeRefusalsAndFaults_shift :
    Live rcdShort .rcd ∧ rcdShort.rcd.coder.Inv ∧ rcdShort.rcd.coder.aft.total < 2 ^ 32 - 1 ∧
    rcdShort.rcd.ustat.primed = true ∧ rcdShort.rcd.code.toNat < 2 ^ 56 ∧ rcdShort.bsi.inBits.length < 2 ^ 64 ∧
    rcdShort.rcd.coder.aft.cum 0 ≤ rcdShort.rcd.count ∧ rcdShort.rcd.count < rcdShort.rcd.coder.aft.cum 1 ∧
    rcAfter (rcdShort.rcd.coder.slotPart 0) (rcdShort.bsi.left / 8) = some (0, 0xFF00FF00FF00) ∧
    rcDue (0, 0xFF00FF00FF00) = some (0, 0xFF00FF00FF00) :=
  ⟨⟨rfl, rfl⟩, reset_rcCoder, by decide +kernel, rfl, by decide, by decide, by decide +kernel, by decide +kernel,
    by decide +kernel, by decide⟩

theorem witness_DecodersPrimeAtTheFirstDecode :
    (Live (withIn (List.replicate 56 false)) .rcd ∧ Live (withIn (List.replicate 56 false)) .cmd) ∧
    (withIn (List.replicate 56 false)).rcd.ustat.primed = false ∧
    (withIn (List.replicate 56 false)).rcd.coder.aft.total < 2 ^ 32 - 1 ∧
    (withIn (List.replicate 56 false)).bsi.canRead 56 ∧ ¬ (withIn (List.replicate 55 false)).bsi.canRead 56 ∧
    (withIn (List.replicate 32 false)).bsi.canRead 32 ∧ ¬ (withIn (List.replicate 31 false)).bsi.canRead 32 := by
  unfold Live Bsi.canRead
  decide +kernel

/-- CMD with the window of R310 loaded. -/
def cmdLoaded : State :=
  { withIn (List.replicate 256 false) with
    cmd := { State.reset.cmd with
      current := 0xBD5B6A3B, ustat := { dead := false, fcode := 0, disposed := false, primed := true } } }

theorem witness_ArithmeticCodersStayInLockstep :
    ((rcdLoaded 0x4101BCF900D9A2).rcd.coder = (rcdLoaded 0x4101BCF900D9A2).rce.coder ∧
      (∃ t, exec .rcdDecbyte (rcdLoaded 0x4101BCF900D9A2) = .next t ∧ t.rsp = { flt := 0, r := (0x41 : Byte).setWidth 64 }) ∧
      ∃ t, exec (.rceEncbyte 0x41) (rcdLoaded 0x4101BCF900D9A2) = .next t ∧ t.rsp = { flt := 0, r := 1 }) ∧
    (cmdLoaded.cmd.coder = cmdLoaded.cme.coder ∧
      (∃ t, exec .cmdDecbyte cmdLoaded = .next t ∧ t.rsp = { flt := 0, r := (0x41 : Byte).setWidth 64 }) ∧
      ∃ t, exec (.cmeEncbyte 0x41) cmdLoaded = .next t ∧ t.rsp = { flt := 0, r := 1 }) :=
  ⟨⟨rfl, ⟨_, rfl, by decide +kernel⟩, _, rfl, by decide +kernel⟩, rfl, ⟨_, rfl, by decide +kernel⟩, _, rfl,
    by decide +kernel⟩

theorem reset_cmCoder : State.reset.cme.coder.Inv ∧ State.reset.cme.coder.p.Idle := by
  unfold CmCoder.Inv Predictor.Idle
  decide +kernel

theorem witness_UpdateTrainsAndRollsTheContext : State.reset.cme.coder.p.Idle := reset_cmCoder.2

theorem witness_ContextMixingEncodeCodesEightBits :
    State.reset.cme.coder.low.toNat < State.reset.cme.coder.high.toNat ∧ Live State.reset .cme ∧
    State.reset.cme.coder.Inv ∧ State.reset.cme.coder.p.Idle ∧ State.reset.bsi.room 256 = 256 ∧
    (65533 : Word).toNat + (3 : Word).toNat ≤ State.reset.cfg.bufSize ∧
    State.reset.bsi.room (256 * (3 : Word).toNat) = 256 * (3 : Word).toNat :=
  ⟨by decide +kernel, reset_live _, reset_cmCoder.1, reset_cmCoder.2, by decide, by decide, by decide⟩

theorem witness_ContextMixingDecodeDeliversSymbols :
    (Live cmdLoaded .cmd ∧ cmdLoaded.cmd.coder.Inv ∧ cmdLoaded.cmd.coder.p.Idle ∧ cmdLoaded.cmd.ustat.primed = true ∧
      cmdLoaded.bsi.canRead 256 ∧ cmdLoaded.bsi.inBits.length < 2 ^ 64) ∧
    (Live (withIn (List.replicate 288 false)) .cmd ∧ (0 : Word).toNat + (1 : Word).toNat ≤ 65536 ∧
      (withIn (List.replicate 288 false)).bsi.canRead (32 + 256 * (1 : Word).toNat) ∧ (1 : Word) ≠ 0) ∧
    Instr.cmdDecbyte.unit? = some .cmd ∧ ∃ t, exec .cmdDecbyte State.reset = .next t :=
  ⟨⟨⟨rfl, rfl⟩, reset_cmCoder.1, reset_cmCoder.2, rfl, by unfold Bsi.canRead; decide +kernel, by decide +kernel⟩,
    ⟨⟨rfl, rfl⟩, by decide, by unfold Bsi.canRead; decide +kernel, by decide⟩, rfl, _, rfl⟩

/-- CMD with an interval across a byte boundary, a window at its low end, and 7 bits of IN left. -/
def cmdShort : State :=
  { withIn (List.replicate 7 true) with
    cmd := { cmdLoaded.cmd with
      coder := { cmdLoaded.cmd.coder with low := 0x00FFFFF0, high := 0x0100000F }, current := 0x00FFFFF0 } }

/-- The first bit of that symbol is a 1, whose part of the interval is one number: a byte is due. -/
theorem witness_ContextMixingDecodeDeliversSymbols_shift :
    ∃ (bits inp out : List Bool) (y z : CmCoder) (w : Nat), Live cmdShort .cmd ∧ cmdShort.cmd.coder.Inv ∧
      cmdShort.cmd.coder.p.Idle ∧ cmdShort.cmd.ustat.primed = true ∧ cmdShort.bsi.inBits.length < 2 ^ 64 ∧
      bits.length < 8 ∧ inp.length + out.length ≤ cmdShort.bsi.left ∧
      cmdShort.bsi.left < inp.length + out.length + 8 ∧ inp = cmdShort.bsi.ahead inp.length ∧
      CmReads cmdShort.cfg.stateTable cmdShort.cmd.coder cmdShort.cmd.current.toNat bits inp y w ∧
      CmShifted (y.bitPart (y.selected w)) z out ∧ z.p = y.p.update cmdShort.cfg.stateTable (y.selected w) ∧ z.due :=
  ⟨[], [], [], cmdShort.cmd.coder,
    { low := 0x00FFFFF0, high := 0x00FFFFF0, p := cmdShort.cmd.coder.p.update cmdShort.cfg.stateTable true }, 0x00FFFFF0,
    ⟨rfl, rfl⟩, by unfold CmCoder.Inv; decide, reset_cmCoder.2, rfl, by decide, by decide, by decide, by decide, rfl,
    ⟨rfl, by decide, rfl⟩, by unfold CmShifted; decide +kernel, by rw [show cmdShort.cmd.coder.selected 0x00FFFFF0 = true by
      decide +kernel], by unfold CmCoder.due; decide⟩

theorem witness_ExpGolombRoundTrip :
    ∃ t d, exec (.egeEncode 0 2) State.reset = .next t ∧ t.rsp = { flt := 0, r := (2 : Word).setWidth 64 } ∧
      Live State.reset .ege ∧ (0 : Word).toNat + (2 : Word).toNat ≤ State.reset.cfg.bufSize ∧
      Live d .egd ∧ d.egd.signedMode = State.reset.ege.signedMode ∧ (0 : Word).toNat + (2 : Word).toNat ≤ d.cfg.bufSize ∧
      d.bsi.inClosed = false ∧ d.bsi.rcnt = 0 ∧ d.bsi.inBits = t.bsi.out.drop State.reset.bsi.out.length :=
  ⟨_, withIn [true, true], rfl, by decide +kernel, reset_live _, by decide, ⟨rfl, rfl⟩, rfl, by decide, rfl, rfl,
    by decide +kernel⟩

theorem witness_HuffmanRoundTrip :
    ∃ t d, exec (.hfeEncode 0 4) (withBuf [0x41, 0x41, 0x41, 0x41]) = .next t ∧
      t.rsp = { flt := 0, r := (4 : Word).setWidth 64 } ∧ Live (withBuf [0x41, 0x41, 0x41, 0x41]) .hfe ∧
      BlockInv (withBuf [0x41, 0x41, 0x41, 0x41]) ∧ Live d .hfd ∧ d.hfd.block = 65536 ∧
      (0 : Word).toNat + (4 : Word).toNat ≤ d.cfg.bufSize ∧ d.bsi.inClosed = false ∧ d.bsi.rcnt = 0 ∧
      d.bsi.inBits = t.bsi.out.drop 0 := by
  refine ⟨oneSymbolBlock, withIn oneSymbolBits, rfl, by decide +kernel, ⟨rfl, rfl⟩, by unfold BlockInv; decide +kernel,
    ⟨rfl, rfl⟩, rfl, by decide, rfl, rfl, ?_⟩
  exact test_hfe_encode_example.2.symm

/-- The stream of R262. -/
def rangeStream : List Bool := bitsMsb 0x4101BCF900D9A29900 72

theorem witness_RangeCoderRoundTrip :
    ∃ t t' d, exec (.rceEncode 0 3) (withBuf [0x41, 0x42, 0x43]) = .next t ∧
      t.rsp = { flt := 0, r := (3 : Word).setWidth 64 } ∧ exec .rceDispose t = .next t' ∧ t'.rsp = { flt := 0, r := 0 } ∧
      Live (withBuf [0x41, 0x42, 0x43]) .rce ∧ (withBuf [0x41, 0x42, 0x43]).rce.coder.Inv ∧ (3 : Word) ≠ 0 ∧
      Live d .rcd ∧ d.rcd.coder = (withBuf [0x41, 0x42, 0x43]).rce.coder ∧ d.rcd.ustat.primed = false ∧
      (0 : Word).toNat + (3 : Word).toNat ≤ d.cfg.bufSize ∧ d.bsi.inClosed = false ∧ d.bsi.rcnt = 0 ∧
      d.bsi.inBits = t'.bsi.out.drop 0 :=
  ⟨_, _, withIn rangeStream, rfl, by decide +kernel, rfl, by decide +kernel, ⟨rfl, rfl⟩, reset_rcCoder, by decide,
    ⟨rfl, rfl⟩, rfl, rfl, by decide, rfl, rfl, by decide +kernel⟩

theorem witness_ContextMixingRoundTrip :
    ∃ t t' d, exec (.cmeEncode 0 1) (withBuf [0x41]) = .next t ∧
      t.rsp = { flt := 0, r := (1 : Word).setWidth 64 } ∧ exec .cmeDispose t = .next t' ∧ t'.rsp = { flt := 0, r := 0 } ∧
      Live (withBuf [0x41]) .cme ∧ (withBuf [0x41]).cme.coder.Inv ∧ (withBuf [0x41]).cme.coder.p.Idle ∧ (1 : Word) ≠ 0 ∧
      Live d .cmd ∧ d.cmd.coder = (withBuf [0x41]).cme.coder ∧ d.cfg.stateTable = (withBuf [0x41]).cfg.stateTable ∧
      d.cmd.ustat.primed = false ∧ (0 : Word).toNat + (1 : Word).toNat ≤ d.cfg.bufSize ∧ d.bsi.inClosed = false ∧
      d.bsi.rcnt = 0 ∧ d.bsi.inBits = t'.bsi.out.drop 0 :=
  ⟨_, _, withIn (bitsMsb 0xBD5B6A3B 32), rfl, by decide +kernel, rfl, by decide +kernel, ⟨rfl, rfl⟩, reset_cmCoder.1,
    reset_cmCoder.2, by decide, ⟨rfl, rfl⟩, rfl, rfl, rfl, by decide, rfl, rfl, by decide +kernel⟩

theorem witness_ShortWritesKillTheEncoder :
    (Instr.egeEncbyte 3).unit? = some .ege ∧ UnitId.ege.isEncoder = true ∧ (Instr.egeEncbyte 3).isCoding = true ∧
    ∃ t, exec (.egeEncbyte 3) (withCap 2) = .next t ∧ t.rsp.flt = 0 ∧ t.rsp.r = 0 :=
  ⟨rfl, rfl, rfl, _, rfl, by decide +kernel, by decide +kernel⟩

theorem witness_CommandsLeaveOtherStateAlone :
    Instr.egdDecode 4 3 ≠ .sysReset ∧ (∃ t, exec (.egdDecode 4 3) State.reset = .next t) ∧
    (Instr.egdDecode 4 3).unit? ≠ some .ege ∧ (Instr.egdDecode 4 3).touchesHcb = false ∧
    (Instr.egdDecode 4 3).stores? = some (4, 3) ∧ (7 < (4 : Word).toNat ∨ (4 : Word).toNat + (3 : Word).toNat ≤ 7) ∧
    (Instr.egeEncode 4 3).stores? = none :=
  ⟨by decide, ⟨_, rfl⟩, by decide, rfl, rfl, by decide, rfl⟩

theorem witness_ResetMeetsTheInvariants : LaunchOk Launch.standard := by unfold LaunchOk; decide +kernel

/-- Reset meets the invariants the four step statements start from, and a step from it answers. -/
theorem witness_StepKeepsStreamsStatusAndResponses :
    BufInv State.reset ∧ StatusInv State.reset ∧ ResponseInv State.reset ∧ InInv State.reset ∧ BlockInv State.reset ∧
    State.reset.bsi.wcnt = BitVec.ofNat 64 State.reset.bsi.out.length ∧
    ∃ s', step (State.reset.withFetchWord 72 0x010000000500000003) = .next s' :=
  ⟨by unfold BufInv; decide +kernel, by unfold StatusInv UStat.consistent; decide +kernel,
    by unfold ResponseInv; decide +kernel, by unfold InInv; decide +kernel, by unfold BlockInv; decide +kernel, rfl, _, rfl⟩

/-- The state with the code of R186 in all three pairs of tables, and a command presented. -/
def exampleTables : State :=
  { State.reset.withFetchWord 72 0x320000000000000000 with
    hcb := { freq := exampleFreq, sizes := exampleSizes, codes := assignCodes exampleSizes }
    hfe := { State.reset.hfe with sizes := exampleSizes, codes := assignCodes exampleSizes }
    hfd := { State.reset.hfd with sizes := exampleSizes, codes := assignCodes exampleSizes } }

theorem witness_StepKeepsTheHuffmanTablesValid : TablesInv exampleTables ∧ ∃ s', step exampleTables = .next s' :=
  have h : lengthsValid exampleSizes = true := by decide +kernel
  ⟨⟨⟨h, rfl⟩, ⟨h, rfl⟩, h, rfl⟩, _, rfl⟩

theorem witness_StepKeepsTheRangeCoderInvariant : RcInv State.reset :=
  ⟨fun _ => reset_rcCoder, fun _ => ⟨reset_rcCoder, by decide⟩⟩

theorem witness_StepKeepsTheContextMixingInvariant : CmInv State.reset := ⟨fun _ => reset_cmCoder, fun _ => reset_cmCoder⟩

end Sys2Proof.Tests
end

/-! SUPPORT. What a procedure keeps however it ends, and which stops it can end with: a rule per way of building a
procedure, and one lemma per procedure of the model about the bit stream it moves. -/

namespace Sys2Proof.Machine

/-! ## How the streams move -/

/-- The streams only move forward: bits are added to OUT as far as OUT_CAP lets them and WCNT counts them, and RCNT
rises within IN (10_state.md R27, R30). -/
structure Bsi.Forward (b b' : Bsi) : Prop where
  inBits : b'.inBits = b.inBits
  outCap : b'.outCap = b.outCap
  out : ∃ l, b'.out = b.out ++ l ∧ b'.wcnt = b.wcnt + BitVec.ofNat 64 l.length
  cap : ∀ cap, b.outCap = some cap → b.out.length ≤ cap → b'.out.length ≤ cap
  rcnt : b.inBits.length < 2 ^ 64 → b.rcnt.toNat ≤ b.inBits.length →
    b.rcnt.toNat ≤ b'.rcnt.toNat ∧ b'.rcnt.toNat ≤ b.inBits.length

/-- What an encoder does to the streams: the input channel stays (40_bit_stream.md R120). -/
structure Bsi.Writes (b b' : Bsi) : Prop extends Bsi.Forward b b' where
  rcnt_eq : b'.rcnt = b.rcnt
  inClosed_eq : b'.inClosed = b.inClosed

/-- What a decoder does to the streams: the output channel stays (40_bit_stream.md R120). -/
structure Bsi.Reads (b b' : Bsi) : Prop extends Bsi.Forward b b' where
  out_eq : b'.out = b.out
  wcnt_eq : b'.wcnt = b.wcnt
  outClosed_eq : b'.outClosed = b.outClosed

theorem Bsi.Forward.refl (b : Bsi) : b.Forward b where
  inBits := rfl
  outCap := rfl
  out := ⟨[], by simp⟩
  cap _ _ h := h
  rcnt _ h := ⟨le_refl _, h⟩

theorem Bsi.Forward.trans {a b c : Bsi} (h : a.Forward b) (k : b.Forward c) : a.Forward c where
  inBits := k.inBits.trans h.inBits
  outCap := k.outCap.trans h.outCap
  out := by
    obtain ⟨l, hl, hw⟩ := h.out
    obtain ⟨m, hm, hv⟩ := k.out
    refine ⟨l ++ m, by rw [hm, hl, List.append_assoc], ?_⟩
    rw [hv, hw, List.length_append, BitVec.ofNat_add, BitVec.add_assoc]
  cap n hn hb := k.cap n (h.outCap.trans hn) (h.cap n hn hb)
  rcnt hlen hb := by
    obtain ⟨hle, hin⟩ := h.rcnt hlen hb
    rw [← h.inBits] at hlen hin ⊢
    obtain ⟨kle, kin⟩ := k.rcnt hlen hin
    exact ⟨hle.trans kle, kin⟩

theorem Bsi.Writes.refl (b : Bsi) : b.Writes b := ⟨.refl b, rfl, rfl⟩

theorem Bsi.Writes.trans {a b c : Bsi} (h : a.Writes b) (k : b.Writes c) : a.Writes c :=
  ⟨h.toForward.trans k.toForward, k.rcnt_eq.trans h.rcnt_eq, k.inClosed_eq.trans h.inClosed_eq⟩

theorem Bsi.Reads.refl (b : Bsi) : b.Reads b := ⟨.refl b, rfl, rfl, rfl⟩

theorem Bsi.Reads.trans {a b c : Bsi} (h : a.Reads b) (k : b.Reads c) : a.Reads c :=
  ⟨h.toForward.trans k.toForward, k.out_eq.trans h.out_eq, k.wcnt_eq.trans h.wcnt_eq,
    k.outClosed_eq.trans h.outClosed_eq⟩

/-- There is never more room than up to OUT_CAP (40_bit_stream.md R121). -/
theorem room_le_cap (b : Bsi) (n cap : Nat) (hc : b.outCap = some cap) (h : b.out.length ≤ cap) :
    b.out.length + b.room n ≤ cap := by
  unfold Bsi.room
  rw [hc]
  split
  · exact h
  · dsimp only
    omega

/-- Adding to OUT a list that there is room for is writing. -/
theorem Bsi.writes_append (b : Bsi) (l : List Bool) (n : Nat) (hl : l.length ≤ b.room n) : b.Writes (b.append l) where
  inBits := rfl
  outCap := rfl
  out := ⟨l, rfl, rfl⟩
  cap c hc h := by
    have := room_le_cap b n c hc h
    rw [Bsi.append_out, List.length_append]
    omega
  rcnt _ h := ⟨le_refl _, h⟩
  rcnt_eq := rfl
  inClosed_eq := rfl

/-- Moving RCNT over bits that are there is reading. -/
theorem Bsi.reads_advance (b : Bsi) (n : Nat) (hn : b.rcnt.toNat + n ≤ b.inBits.length) : b.Reads (b.advance n) where
  inBits := rfl
  outCap := rfl
  out := ⟨[], by simp⟩
  cap _ _ h := h
  rcnt hlen _ := by
    have : (b.advance n).rcnt.toNat = b.rcnt.toNat + n := by
      rw [Bsi.advance_rcnt, BitVec.toNat_add, BitVec.toNat_ofNat]
      omega
    omega
  out_eq := rfl
  wcnt_eq := rfl
  outClosed_eq := rfl

theorem writeBits_writes (v n : Nat) (b : Bsi) : b.Writes (writeBits v n b).2 := by
  rw [writeBits_eq]
  exact b.writes_append _ n (by simp)

/-! ## Procedures that keep a fact -/

/-- However a procedure ends, the state reached meets `Q`, and a stop is one of `E`. -/
def Run.Meets {σ α : Type} (x : Run σ α) (Q : σ → Prop) (E : Stop → Prop) : Prop :=
  match x with
  | .ok _ s => Q s
  | .stop r s => Q s ∧ E r

/-- A procedure keeps `Q`, and stops only by `E`. -/
def Keeps {σ α : Type} (Q : σ → Prop) (E : Stop → Prop) (proc : σ → Run σ α) : Prop := ∀ t, Q t → (proc t).Meets Q E

theorem meets_ok {σ α : Type} {Q : σ → Prop} {E : Stop → Prop} {a : α} {s : σ} (h : Q s) : (Run.ok a s).Meets Q E := h

theorem meets_stop {σ α : Type} {Q : σ → Prop} {E : Stop → Prop} {r : Stop} {s : σ} (h : Q s) (hr : E r) :
    (Run.stop r s : Run σ α).Meets Q E := ⟨h, hr⟩

theorem Run.Meets.of_ok {σ α : Type} {Q : σ → Prop} {E : Stop → Prop} {x : Run σ α} {a : α} {s : σ} (h : x.Meets Q E)
    (e : x = .ok a s) : Q s := by
  subst e
  exact h

theorem Run.Meets.of_stop {σ α : Type} {Q : σ → Prop} {E : Stop → Prop} {x : Run σ α} {r : Stop} {s : σ}
    (h : x.Meets Q E) (e : x = .stop r s) : Q s ∧ E r := by
  subst e
  exact h

/-- Weakening of what a procedure meets. -/
theorem Run.Meets.mono {σ α : Type} {Q Q' : σ → Prop} {E : Stop → Prop} {x : Run σ α} (h : x.Meets Q E)
    (hQ : ∀ t, Q t → Q' t) : x.Meets Q' E := by
  cases x with
  | ok a t => exact hQ t h
  | stop r t => exact ⟨hQ t h.1, h.2⟩

/-- A sequence keeps what both of its parts keep. -/
theorem Run.Meets.andThen {σ α β : Type} {Q : σ → Prop} {E : Stop → Prop} {x : Run σ α} {f : α → σ → Run σ β}
    (h : x.Meets Q E) (hf : ∀ a, Keeps Q E (f a)) : (x.andThen f).Meets Q E := by
  cases x with
  | ok a t => exact hf a t h
  | stop r t => exact h

/-- A procedure on a part of the state, seen as one on the whole. -/
theorem Run.Meets.within {σ τ α : Type} {Q : σ → Prop} {Q' : τ → Prop} {E : Stop → Prop} {x : Run σ α} {f : σ → τ}
    (h : x.Meets Q E) (hf : ∀ t, Q t → Q' (f t)) : (x.within f).Meets Q' E := by
  cases x with
  | ok a t => exact hf t h
  | stop r t => exact ⟨hf t h.1, h.2⟩

/-! ## The loops of the bulk commands -/

/-- The loop of a bulk encode keeps what the coding of a symbol keeps. -/
theorem encodeLoop_keeps {σ : Type} {Q : σ → Prop} {E : Stop → Prop} {enc : Byte → σ → Run σ Unit}
    (henc : ∀ v, Keeps Q E (enc v)) (buf : List Host.Cell) (k a n : Nat) (t : σ) (ht : Q t) :
    Q (encodeLoop enc buf k a n t).2.2 ∧ ∀ r ∈ (encodeLoop enc buf k a n t).2.1, E r := by
  induction k generalizing a n t with
  | zero => exact ⟨ht, by simp [encodeLoop]⟩
  | succ k ih =>
    have h := henc (memRead buf a) t ht
    unfold encodeLoop
    split
    · rename_i u e
      exact ih (a + 1) (n + 1) u (h.of_ok e)
    · rename_i r u e
      obtain ⟨hQ, hE⟩ := h.of_stop e
      exact ⟨hQ, by simpa using hE⟩

/-- BUF `m'` is BUF `m` with bytes stored in a range of addresses, or nowhere (20_memory.md R70, R71). -/
structure StoresIn (range : Option (Word × Word)) (size : Nat) (m m' : List Host.Cell) : Prop where
  canonical : Memory.wf m = true → Memory.wf m' = true
  bounded : (∀ c ∈ m, c.1 < size) → ∀ c ∈ m', c.1 < size
  outside : ∀ a, (∀ o l, range = some (o, l) → a < o.toNat ∨ o.toNat + l.toNat ≤ a) → memRead m' a = memRead m a

theorem StoresIn.refl (range : Option (Word × Word)) (size : Nat) (m : List Host.Cell) : StoresIn range size m m :=
  ⟨id, id, fun _ _ => rfl⟩

theorem StoresIn.trans {range : Option (Word × Word)} {size : Nat} {m₁ m₂ m₃ : List Host.Cell}
    (h : StoresIn range size m₁ m₂) (k : StoresIn range size m₂ m₃) : StoresIn range size m₁ m₃ :=
  ⟨k.canonical ∘ h.canonical, k.bounded ∘ h.bounded, fun a ha => (k.outside a ha).trans (h.outside a ha)⟩

/-- Storing one byte inside the range. -/
theorem storesIn_memWrite (o l : Word) (size : Nat) (m : List Host.Cell) (a : Nat) (v : Byte)
    (ho : o.toNat ≤ a) (ha : a < o.toNat + l.toNat) (hs : o.toNat + l.toNat ≤ size) :
    StoresIn (some (o, l)) size m (memWrite m a v) where
  canonical := memWrite_wf m a v
  bounded hm c hc := by
    rcases memWrite_addresses m a v c hc with h | h
    · omega
    · exact hm c h
  outside b hb := by
    have : b ≠ a := by
      have := hb o l rfl
      omega
    simp [this]

/-- The loop of a bulk decode keeps what the decoding of a symbol keeps, and stores in its range. -/
theorem decodeLoop_keeps {σ : Type} {Q : σ → Prop} {E : Stop → Prop} {dec : σ → Run σ Byte} (hdec : Keeps Q E dec)
    (o l : Word) (size : Nat) (m : List Host.Cell) (hs : o.toNat + l.toNat ≤ size) (k a : Nat) (ho : o.toNat ≤ a)
    (ha : a + k ≤ o.toNat + l.toNat) :
    Keeps (fun t => Q t.1 ∧ StoresIn (some (o, l)) size m t.2) E (decodeLoop dec k a) := by
  induction k generalizing a with
  | zero => exact fun t ht => ht
  | succ k ih =>
    intro t ht
    obtain ⟨hQ, hm⟩ := ht
    have h := hdec t.1 hQ
    unfold decodeLoop
    split
    · rename_i v u e
      exact ih (a + 1) (by omega) (by omega) _
        ⟨h.of_ok e, hm.trans (storesIn_memWrite o l size t.2 a v ho (by omega) hs)⟩
    · rename_i r u e
      obtain ⟨hu, hr⟩ := h.of_stop e
      exact ⟨⟨hu, hm⟩, hr⟩

/-! ## Procedures of the bit streams -/

theorem writeAll_keeps {E : Stop → Prop} (hE : E .shortWrite) (b₀ : Bsi) (v n : Nat) :
    Keeps b₀.Writes E (writeAll v n) := by
  intro b hb
  have h := hb.trans (writeBits_writes v n b)
  unfold writeAll
  dsimp only
  split
  · exact meets_ok h
  · exact meets_stop h hE

theorem readBit_keeps {E : Stop → Prop} (hE : E .endOfStream) (b₀ : Bsi) : Keeps b₀.Reads E readBit := by
  intro b hb
  rw [readBit_eq]
  split
  · rename_i h
    obtain ⟨_, hlt⟩ := h
    exact meets_ok (hb.trans (b.reads_advance 1 hlt))
  · exact meets_stop hb hE

theorem readBits_keeps {E : Stop → Prop} (hE : E .endOfStream) (b₀ : Bsi) (n : Nat) :
    Keeps b₀.Reads E (readBits n) := by
  intro b hb
  by_cases hn : n = 0
  · subst hn
    exact meets_ok hb
  · rw [readBits_pos n b hn]
    split
    · rename_i h
      obtain ⟨_, hle⟩ := h
      rw [readLoop_bsi]
      exact meets_ok (hb.trans (b.reads_advance n hle))
    · exact meets_stop hb hE

/-! ## Exp-Golomb -/

theorem egEncode_keeps {E : Stop → Prop} (hE : E .shortWrite) (b₀ : Bsi) (x : Int) (signed : Bool) :
    Keeps b₀.Writes E (egEncode x signed) := by
  intro b hb
  unfold egEncode
  dsimp only
  split
  · exact writeAll_keeps hE b₀ _ _ b hb
  · exact writeAll_keeps hE b₀ _ _ b hb

section
variable {E : Stop → Prop} (hS : E .endOfStream) (hI : E .invalidStream) (b₀ : Bsi)
include hS hI

theorem egZeros_keeps (k : Nat) : Keeps b₀.Reads E (egZeros k) := by
  induction k with
  | zero =>
    refine fun b hb => (readBit_keeps hS b₀ b hb).andThen fun x b hb => ?_
    cases x with
    | true => exact meets_ok hb
    | false => exact meets_stop hb hI
  | succ k ih =>
    refine fun b hb => (readBit_keeps hS b₀ b hb).andThen fun x b hb => ?_
    cases x with
    | true => exact meets_ok hb
    | false => exact (ih b hb).andThen fun n b hb => meets_ok hb

theorem egFinish_keeps (signed : Bool) (mag : Nat) : Keeps b₀.Reads E (egFinish signed mag) := by
  intro b hb
  unfold egFinish
  split
  · split
    · exact meets_ok hb
    · refine (readBit_keeps hS b₀ b hb).andThen fun neg b hb => ?_
      exact iteInduction (motive := fun x => Run.Meets x b₀.Reads E) (fun _ => meets_stop hb hI) fun _ => meets_ok hb
  · split
    · exact meets_stop hb hI
    · exact meets_ok hb

theorem egDecode_keeps (signed : Bool) : Keeps b₀.Reads E (egDecode signed) := fun b hb =>
  (egZeros_keeps hS hI b₀ _ b hb).andThen fun len b hb =>
    (readBits_keeps hS b₀ len b hb).andThen fun _ => egFinish_keeps hS hI b₀ signed _

theorem egdSymbol_keeps (signed : Bool) : Keeps b₀.Reads E (egdSymbol signed) := fun b hb =>
  (egDecode_keeps hS hI b₀ signed b hb).andThen fun _ _ hb => meets_ok hb

end

/-! ## Range coder and context-mixing coder -/

/-- A renormalisation keeps what its shifts keep of the stream side. -/
theorem rcRenorm_keeps {σ : Type} {Q : σ → Prop} {E : Stop → Prop} {shift : RcCoder → σ → Run σ Unit}
    (hs : ∀ x, Keeps Q E (shift x)) (fuel : Nat) : Keeps (fun t => Q t.2) E (rcRenorm shift fuel) := by
  induction fuel with
  | zero => exact fun t ht => ht
  | succ fuel ih =>
    intro t ht
    unfold rcRenorm
    split
    · exact meets_ok ht
    · rename_i x _
      have h := hs x t.2 ht
      split
      · rename_i r u e
        exact h.of_stop e
      · rename_i u e
        exact ih (x.shifted, u) (h.of_ok e)

theorem cmRenorm_keeps {σ : Type} {Q : σ → Prop} {E : Stop → Prop} {shift : CmCoder → σ → Run σ Unit}
    (hs : ∀ x, Keeps Q E (shift x)) (fuel : Nat) : Keeps (fun t => Q t.2) E (cmRenorm shift fuel) := by
  induction fuel with
  | zero => exact fun t ht => ht
  | succ fuel ih =>
    intro t ht
    unfold cmRenorm
    split
    · have h := hs t.1 t.2 ht
      split
      · rename_i r u e
        exact h.of_stop e
      · rename_i u e
        exact ih (t.1.shifted, u) (h.of_ok e)
    · exact meets_ok ht

theorem rcEmit_keeps {E : Stop → Prop} (hW : E .shortWrite) (b₀ : Bsi) (x : RcCoder) : Keeps b₀.Writes E (rcEmit x) :=
  writeAll_keeps hW b₀ _ _

theorem cmEmit_keeps {E : Stop → Prop} (hW : E .shortWrite) (b₀ : Bsi) (x : CmCoder) : Keeps b₀.Writes E (cmEmit x) :=
  writeAll_keeps hW b₀ _ _

theorem rcEncodeSymbol_keeps {E : Stop → Prop} (hW : E .shortWrite) (hR : E .refused) (b₀ : Bsi) (v : Byte) :
    Keeps (fun t => b₀.Writes t.2) E (rcEncodeSymbol v) := by
  intro t ht
  unfold rcEncodeSymbol
  split
  · exact meets_stop ht hR
  · have h := rcRenorm_keeps (fun x => rcEmit_keeps hW b₀ x) rcPasses (t.1.narrow v.toNat, t.2) ht
    exact h.andThen fun _ _ hu => meets_ok hu

theorem cmEncodeBits_keeps {E : Stop → Prop} (hW : E .shortWrite) (b₀ : Bsi) (tbl : Vector StateEntry 256) (v : Byte)
    (k : Nat) : Keeps (fun t => b₀.Writes t.2) E (cmEncodeBits tbl v k) := by
  induction k with
  | zero => exact fun t ht => ht
  | succ k ih =>
    intro t ht
    have h := cmRenorm_keeps (fun x => cmEmit_keeps hW b₀ x) cmShifts (t.1.resolve tbl (v.getLsbD k), t.2) ht
    exact h.andThen fun _ => ih

theorem rcConsume_keeps {E : Stop → Prop} (hS : E .endOfStream) (b₀ : Bsi) (x : RcCoder) :
    Keeps (fun t => b₀.Reads t.2) E (rcConsume x) := by
  intro t ht
  have h := readBits_keeps hS b₀ 8 t.2 ht
  unfold rcConsume
  split
  · rename_i v b e
    exact h.of_ok e
  · rename_i r b e
    exact h.of_stop e

theorem cmConsume_keeps {E : Stop → Prop} (hS : E .endOfStream) (b₀ : Bsi) (x : CmCoder) :
    Keeps (fun t => b₀.Reads t.2) E (cmConsume x) := by
  intro t ht
  have h := readBits_keeps hS b₀ 8 t.2 ht
  unfold cmConsume
  split
  · rename_i v b e
    exact h.of_ok e
  · rename_i r b e
    exact h.of_stop e

/-- A status word is as before but for PRIMED (10_state.md R24). -/
def UStat.PrimedFrom (v v' : UStat) : Prop := v' = v ∨ v' = v.prime

theorem UStat.PrimedFrom.prime {v v' : UStat} (h : v.PrimedFrom v') : v.PrimedFrom v'.prime := by
  rcases h with rfl | rfl
  · exact .inr rfl
  · exact .inr rfl

/-- What the procedures of RCD and CMD keep: the unit's status word but for PRIMED, and the output channel. -/
def PrimingKept {δ : Type} (ustat : δ → UStat) (t₀ t : δ × Bsi) : Prop :=
  (ustat t₀.1).PrimedFrom (ustat t.1) ∧ t₀.2.Reads t.2

theorem rcPrime_keeps {E : Stop → Prop} (hS : E .endOfStream) (t₀ : RcdSide) :
    Keeps (PrimingKept Rcd.ustat t₀) E rcPrime := by
  intro t ht
  obtain ⟨hu, hb⟩ := ht
  have h := readBits_keeps hS t₀.2 Config.rcFlushBits t.2 hb
  unfold rcPrime
  split
  · exact meets_ok ⟨hu, hb⟩
  · split
    · rename_i v b e
      exact meets_ok ⟨hu.prime, h.of_ok e⟩
    · rename_i r b e
      obtain ⟨hb, hr⟩ := h.of_stop e
      exact meets_stop ⟨hu, hb⟩ hr

theorem cmPrime_keeps {E : Stop → Prop} (hS : E .endOfStream) (t₀ : CmdSide) :
    Keeps (PrimingKept Cmd.ustat t₀) E cmPrime := by
  intro t ht
  obtain ⟨hu, hb⟩ := ht
  have h := readBits_keeps hS t₀.2 Config.cmPrimeBits t.2 hb
  unfold cmPrime
  split
  · exact meets_ok ⟨hu, hb⟩
  · split
    · rename_i v b e
      exact meets_ok ⟨hu.prime, h.of_ok e⟩
    · rename_i r b e
      obtain ⟨hb, hr⟩ := h.of_stop e
      exact meets_stop ⟨hu, hb⟩ hr

/-- The window selects a slot, or raises EndOfStream or InvalidStream (44_range_coder.md R240). -/
theorem slot_error {d : Rcd} {r : Stop} (h : d.slot = .error r) : r = .endOfStream ∨ r = .invalidStream := by
  unfold Rcd.slot at h
  dsimp only at h
  split at h
  · cases h
    exact .inr rfl
  · split at h
    · cases h
      exact .inr rfl
    · split at h
      · cases h
        exact .inl rfl
      · cases h

theorem rcDecodeSymbol_keeps {E : Stop → Prop} (hS : E .endOfStream) (hI : E .invalidStream) (hR : E .refused)
    (t₀ : RcdSide) : Keeps (PrimingKept Rcd.ustat t₀) E rcDecodeSymbol := by
  intro t ht
  unfold rcDecodeSymbol
  split
  · exact meets_stop ht hR
  · refine (rcPrime_keeps hS t₀ t ht).andThen fun _ t ht => ?_
    unfold rcDecodePrimed
    split
    · rename_i r e
      rcases slot_error e with rfl | rfl
      · exact meets_stop ht hS
      · exact meets_stop ht hI
    · rename_i v _
      obtain ⟨hu, hb⟩ := ht
      have h := rcRenorm_keeps (rcConsume_keeps hS t₀.2) rcPasses (t.1.coder.narrow v, t.1.code, t.2) hb
      have hback := h.within (Q' := PrimingKept Rcd.ustat t₀) (f := t.1.putBack) fun _ hb => ⟨hu, hb⟩
      exact hback.andThen fun _ _ hu => meets_ok hu

theorem cmDecodeBit_keeps {E : Stop → Prop} (hS : E .endOfStream) (tbl : Vector StateEntry 256) (t₀ : CmdSide) :
    Keeps (PrimingKept Cmd.ustat t₀) E (cmDecodeBit tbl) := by
  intro t ht
  obtain ⟨hu, hb⟩ := ht
  have h := cmRenorm_keeps (cmConsume_keeps hS t₀.2) cmShifts
    (t.1.coder.resolve tbl t.1.bit, t.1.current, t.2) hb
  have hback := h.within (Q' := PrimingKept Cmd.ustat t₀) (f := t.1.putBack) fun _ hb => ⟨hu, hb⟩
  exact hback.andThen fun _ _ hu => meets_ok hu

theorem cmDecodeBits_keeps {E : Stop → Prop} (hS : E .endOfStream) (tbl : Vector StateEntry 256) (t₀ : CmdSide)
    (k v : Nat) : Keeps (PrimingKept Cmd.ustat t₀) E (cmDecodeBits tbl k v) := by
  induction k generalizing v with
  | zero => exact fun t ht => ht
  | succ k ih => exact fun t ht => (cmDecodeBit_keeps hS tbl t₀ t ht).andThen fun _ => ih _

theorem cmDecodeSymbol_keeps {E : Stop → Prop} (hS : E .endOfStream) (tbl : Vector StateEntry 256) (t₀ : CmdSide) :
    Keeps (PrimingKept Cmd.ustat t₀) E (cmDecodeSymbol tbl) := fun t ht =>
  (cmPrime_keeps hS t₀ t ht).andThen fun _ t ht =>
    (cmDecodeBits_keeps hS tbl t₀ 8 0 t ht).andThen fun _ _ hu => meets_ok hu

end Sys2Proof.Machine

/-! SUPPORT. What the Huffman code builder answers is a code: the leaves of the tree are the present symbols, its Kraft
sum is full, and so the length table passes `LengthsValid` (42_huffman_code_builder.md R172, R173, R176, R177). -/

namespace Sys2Proof.Machine

/-! ## The tree -/

/-- The symbols at the leaves of a tree, from left to right. -/
def HTree.symbols : HTree → List Nat
  | .leaf s => [s]
  | .node l r => l.symbols ++ r.symbols

/-- The depths are listed leaf by leaf. -/
theorem depths_map_fst (t : HTree) (d : Nat) : (t.depths d).map Prod.fst = t.symbols := by
  induction t generalizing d with
  | leaf s => rfl
  | node l r ihl ihr => simp [HTree.depths, HTree.symbols, ihl, ihr]

theorem depths_ne_nil (t : HTree) (d : Nat) : t.depths d ≠ [] := by
  induction t generalizing d with
  | leaf s => simp [HTree.depths]
  | node l r ihl _ => simp [HTree.depths, ihl]

theorem le_depth (t : HTree) (d : Nat) : ∀ p ∈ t.depths d, d ≤ p.2 := by
  induction t generalizing d with
  | leaf s => simp [HTree.depths]
  | node l r ihl ihr =>
    intro p hp
    rcases List.mem_append.mp hp with hp | hp
    · exact Nat.le_of_succ_le (ihl (d + 1) p hp)
    · exact Nat.le_of_succ_le (ihr (d + 1) p hp)

/-- In a tree of more than one leaf no leaf is the root. -/
theorem one_le_depth (t : HTree) (ht : 1 < t.symbols.length) : ∀ p ∈ t.depths 0, 1 ≤ p.2 := by
  cases t with
  | leaf s => simp [HTree.symbols] at ht
  | node l r =>
    intro p hp
    rcases List.mem_append.mp hp with hp | hp
    · exact le_depth l 1 p hp
    · exact le_depth r 1 p hp

/-- The Kraft sum of a tree is full: its leaves share the weight of its root (42_huffman_code_builder.md R176). -/
theorem kraft_depths (t : HTree) (d : Nat) (h : ∀ p ∈ t.depths d, p.2 ≤ 31) :
    ((t.depths d).map fun p => 2 ^ (31 - p.2)).sum = 2 ^ (31 - d) := by
  induction t generalizing d with
  | leaf s => simp [HTree.depths]
  | node l r ihl ihr =>
    have hl := ihl (d + 1) fun p hp => h p (List.mem_append_left _ hp)
    have hr := ihr (d + 1) fun p hp => h p (List.mem_append_right _ hp)
    have hd : d + 1 ≤ 31 := by
      obtain ⟨p, hp⟩ := List.exists_mem_of_ne_nil _ (depths_ne_nil l (d + 1))
      exact (le_depth l (d + 1) p hp).trans (h p (List.mem_append_left _ hp))
    have hpow : 31 - d = (31 - (d + 1)) + 1 := by omega
    rw [HTree.depths, List.map_append, List.sum_append, hl, hr, hpow, Nat.pow_succ]
    omega

/-! ## The merges -/

/-- The symbols at the leaves of pending nodes. -/
def pendingSymbols (q : List Pending) : List Nat := q.flatMap fun p => p.2.symbols

/-- `PopMin` takes one node out of the two queues (42_huffman_code_builder.md R172). -/
theorem popMin_perm {q1 q2 r1 r2 : List Pending} {a : Pending} (h : popMin q1 q2 = some (a, r1, r2)) :
    (q1 ++ q2).Perm (a :: (r1 ++ r2)) := by
  unfold popMin at h
  split at h
  · cases h
  · cases h
    exact .refl _
  · cases h
    exact .refl _
  · split at h
    · cases h
      exact .refl _
    · cases h
      exact List.perm_middle

/-- `PopMin` finds no node only where both queues are empty. -/
theorem popMin_none {q1 q2 : List Pending} (h : popMin q1 q2 = none) : q1 ++ q2 = [] := by
  unfold popMin at h
  split at h
  · rfl
  · cases h
  · cases h
  · split at h <;> cases h

/-- The leaves of the merged tree are the leaves of the nodes that were pending. -/
theorem mergeNodes_symbols {fuel : Nat} {q1 q2 : List Pending} {t : HTree} (h : mergeNodes fuel q1 q2 = some t) :
    t.symbols.Perm (pendingSymbols (q1 ++ q2)) := by
  induction fuel generalizing q1 q2 with
  | zero => cases h
  | succ fuel ih =>
    unfold mergeNodes at h
    split at h
    · cases h
    · rename_i a r1 r2 ha
      have pa := (popMin_perm ha).flatMap_right fun p => p.2.symbols
      split at h
      · rename_i hb
        cases h
        rw [popMin_none hb] at pa
        simpa [pendingSymbols] using pa.symm
      · rename_i b t1 t2 hb
        have pb := (popMin_perm hb).flatMap_right fun p => p.2.symbols
        rw [List.perm_iff_count] at pa pb ⊢
        intro x
        have hx := (ih h).count_eq x
        have hax := pa x
        have hbx := pb x
        simp only [pendingSymbols, List.flatMap_append, List.flatMap_cons, List.flatMap_nil, HTree.symbols,
          List.count_append, List.append_nil] at hx hax hbx ⊢
        omega

/-! ## The present symbols and their lengths -/

/-- The leaves stand for different symbols (42_huffman_code_builder.md R171). -/
theorem presentLeaves_nodup (freq : Vector Word 256) : ((presentLeaves freq).map Prod.snd).Nodup :=
  (((List.perm_insertionSort leafBefore _).map Prod.snd).nodup_iff).mpr
    ((List.nodup_zipIdx_map_snd _).sublist (List.filter_sublist.map _))

theorem presentLeaves_lt (freq : Vector Word 256) : ∀ s ∈ (presentLeaves freq).map Prod.snd, s < 256 := by
  intro s hs
  obtain ⟨p, hp, rfl⟩ := List.mem_map.mp hs
  have hm := (List.mem_filter.mp ((List.mem_insertionSort leafBefore).mp hp)).1
  simpa using List.snd_lt_of_mem_zipIdx hm

/-- The lengths before the height test: none, the length 1 of a single symbol, or the depths in a tree of all present
symbols (42_huffman_code_builder.md R172, R173). -/
theorem leafLengths_cases (leaves : List (Nat × Nat)) :
    leafLengths leaves = [] ∨ (∃ p, leaves = [p] ∧ leafLengths leaves = [(p.2, 1)]) ∨
    ∃ t : HTree, t.symbols.Perm (leaves.map Prod.snd) ∧ 1 < t.symbols.length ∧ leafLengths leaves = t.depths 0 := by
  unfold leafLengths
  split
  · exact .inl rfl
  · exact .inr (.inl ⟨_, rfl, rfl⟩)
  · rename_i ps hnil hone
    split
    · rename_i t ht
      have perm : t.symbols.Perm (leaves.map Prod.snd) := by
        have h := mergeNodes_symbols ht
        simpa [pendingSymbols, List.flatMap_map, HTree.symbols, ← List.map_eq_flatMap] using h
      refine .inr (.inr ⟨t, perm, ?_, rfl⟩)
      rw [perm.length_eq, List.length_map]
      match leaves, hnil, hone with
      | [], hnil, _ => exact absurd rfl hnil
      | [p], _, hone => exact absurd rfl (hone p)
      | _ :: _ :: _, _, _ => simp
    · exact .inl rfl

theorem listedFor_of_mem {l : List (Nat × Nat)} (hl : (l.map Prod.fst).Nodup) : ∀ p ∈ l, listedFor l p.1 = p.2 := by
  induction l with
  | nil => simp
  | cons q l ih =>
    rw [List.map_cons, List.nodup_cons] at hl
    obtain ⟨hq, hl⟩ := hl
    intro p hp
    rcases List.mem_cons.mp hp with rfl | hp
    · rw [listedFor, List.lookup, beq_self_eq_true]
      rfl
    · have : (p.1 == q.1) = false := by
        rw [beq_eq_false_iff_ne]
        exact fun e => hq (e ▸ List.mem_map_of_mem hp)
      rw [← ih hl p hp]
      simp [listedFor, List.lookup, this]

theorem listedFor_of_not_mem {l : List (Nat × Nat)} {s : Nat} (h : s ∉ l.map Prod.fst) : listedFor l s = 0 := by
  have : l.lookup s = none := by
    rw [List.lookup_eq_none_iff]
    intro p hp
    rw [bne_iff_ne]
    exact fun e => h (e ▸ List.mem_map_of_mem hp)
  simp [listedFor, this]

/-- The length table that lists the given lengths, every other symbol having none. -/
def sizesOf (lens : List (Nat × Nat)) : Vector (BitVec 5) 256 := tabulate 256 fun s => BitVec.ofNat 5 (listedFor lens s)

/-- Lengths of 1 to 31 for different symbols (42_huffman_code_builder.md R174). -/
structure LengthList (lens : List (Nat × Nat)) : Prop where
  nodup : (lens.map Prod.fst).Nodup
  symbol_lt : ∀ s ∈ lens.map Prod.fst, s < 256
  pos : ∀ p ∈ lens, 1 ≤ p.2
  le : ∀ p ∈ lens, p.2 ≤ 31

/-- The entries of a length table that are not 0 are the lengths listed. -/
theorem sizesOf_coded {lens : List (Nat × Nat)} (h : LengthList lens) :
    ((sizesOf lens).toList.filter fun z => decide (z ≠ 0)).Perm (lens.map fun p => BitVec.ofNat 5 p.2) := by
  have hzero : ∀ s, BitVec.ofNat 5 (listedFor lens s) ≠ 0 ↔ s ∈ lens.map Prod.fst := by
    intro s
    constructor
    · intro hs
      by_contra hn
      exact hs (by rw [listedFor_of_not_mem hn]; rfl)
    · intro hs
      obtain ⟨p, hp, rfl⟩ := List.mem_map.mp hs
      have hpos := h.pos p hp
      have hle := h.le p hp
      rw [listedFor_of_mem h.nodup p hp]
      intro e
      have := congrArg BitVec.toNat e
      simp at this
      omega
  have hkeys : ((List.range 256).filter fun s => decide (s ∈ lens.map Prod.fst)).Perm (lens.map Prod.fst) := by
    rw [List.perm_ext_iff_of_nodup (List.nodup_range.filter _) h.nodup]
    intro s
    have := h.symbol_lt s
    simp only [List.mem_filter, List.mem_range, decide_eq_true_eq]
    tauto
  have hlist : (sizesOf lens).toList = (List.range 256).map fun s => BitVec.ofNat 5 (listedFor lens s) := rfl
  have hfun : (fun z : BitVec 5 => decide (z ≠ 0)) ∘ (fun s => BitVec.ofNat 5 (listedFor lens s)) =
      fun s => decide (s ∈ lens.map Prod.fst) := funext fun s => decide_eq_decide.mpr (hzero s)
  rw [hlist, List.filter_map, hfun]
  refine (hkeys.map _).trans (.of_eq ?_)
  rw [List.map_map]
  exact List.map_congr_left fun p hp => by rw [Function.comp_apply, listedFor_of_mem h.nodup p hp]

theorem codedCount_sizesOf {lens : List (Nat × Nat)} (h : LengthList lens) :
    codedCount (sizesOf lens) = lens.length := by
  rw [codedCount, List.countP_eq_length_filter, (sizesOf_coded h).length_eq, List.length_map]

theorem kraftSum_sizesOf {lens : List (Nat × Nat)} (h : LengthList lens) :
    kraftSum (sizesOf lens) = (lens.map fun p => 2 ^ (31 - p.2)).sum := by
  rw [kraftSum, ((sizesOf_coded h).map _).sum_eq, List.map_map]
  refine congrArg List.sum (List.map_congr_left fun p hp => ?_)
  have := h.le p hp
  rw [Function.comp_apply, BitVec.toNat_ofNat, Nat.mod_eq_of_lt (by omega)]

/-- A single symbol with the length 1 is a valid table (42_huffman_code_builder.md R173, R177). -/
theorem lengthsValid_one {s : Nat} (h : LengthList [(s, 1)]) : lengthsValid (sizesOf [(s, 1)]) = true := by
  rw [lengthsValid, if_pos (show codedCount (sizesOf [(s, 1)]) = 1 from codedCount_sizesOf h)]
  refine List.all_eq_true.mpr fun z hz => decide_eq_true ?_
  by_cases h0 : z = 0
  · exact .inl h0
  · have hmem := (sizesOf_coded h).mem_iff.mp (List.mem_filter.mpr ⟨hz, decide_eq_true h0⟩)
    exact .inr (List.mem_singleton.mp hmem)

/-- The depths in a tree of more than one leaf are a valid table (42_huffman_code_builder.md R177). -/
theorem lengthsValid_depths {t : HTree} (ht : 1 < t.symbols.length) (h : LengthList (t.depths 0)) :
    lengthsValid (sizesOf (t.depths 0)) = true := by
  have hlen : (t.depths 0).length = t.symbols.length := by rw [← depths_map_fst t 0, List.length_map]
  rw [lengthsValid, if_neg (by rw [codedCount_sizesOf h]; omega), kraftSum_sizesOf h, kraft_depths t 0 h.le]
  rfl

/-- A build that is not refused answers a valid length table (42_huffman_code_builder.md R172, R173, R174, R177). -/
theorem buildLengths_valid {freq : Vector Word 256} {z : Vector (BitVec 5) 256} (h : buildLengths freq = some z) :
    lengthsValid z = true := by
  unfold buildLengths at h
  dsimp only at h
  split at h
  · cases h
  rename_i hok
  obtain ⟨hne, hle⟩ : leafLengths (presentLeaves freq) ≠ [] ∧ ∀ p ∈ leafLengths (presentLeaves freq), p.2 ≤ 31 := by
    simpa [Config.hufMaxLen] using hok
  cases h
  have hnodup := presentLeaves_nodup freq
  have hlt := presentLeaves_lt freq
  rcases leafLengths_cases (presentLeaves freq) with e | ⟨p, hp, e⟩ | ⟨t, perm, ht, e⟩
  · exact absurd e hne
  · rw [hp] at hlt
    rw [e] at hle ⊢
    exact lengthsValid_one ⟨by simp, by simpa using hlt, by simp, hle⟩
  · rw [e] at hle ⊢
    refine lengthsValid_depths ht ⟨?_, ?_, one_le_depth t ht, hle⟩
    · rw [depths_map_fst]
      exact perm.nodup_iff.mpr hnodup
    · rw [depths_map_fst]
      exact fun s hs => hlt s (perm.mem_iff.mp hs)

/-! ## The flat code -/

/-- The flat lengths are a valid table: 256 symbols of 8 bits (10_state.md R33). -/
theorem lengthsValid_flatSizes : lengthsValid flatSizes = true := by decide +kernel

/-- The code order of the flat lengths is the symbol order. -/
theorem codedSymbols_flatSizes : codedSymbols flatSizes = (List.range' 0 256).map fun s => (8, s) := by
  have hlist : ((flatSizes.toList.map BitVec.toNat).zipIdx.filter fun p => p.1 ≠ 0) =
      (List.range' 0 256).map fun s => (8, s) := by decide +kernel
  rw [codedSymbols, hlist]
  refine List.Pairwise.insertionSort_eq ?_
  rw [List.pairwise_map]
  exact (List.pairwise_lt_range' (s := 0) (n := 256)).imp fun h => .inr ⟨rfl, h.le⟩

/-- Codes of equal lengths count up (42_huffman_code_builder.md R175). -/
theorem assignLoop_equal (len n code : Nat) :
    assignLoop ((List.range' code n).map fun s => (len, s)) code len = (List.range' code n).map fun s => (s, s) := by
  induction n generalizing code with
  | zero => rfl
  | succ n ih => simp [List.range'_succ, assignLoop, ih]

/-- The flat codes are the canonical codes of the flat lengths (10_state.md R33). -/
theorem flatCodes_eq : flatCodes = assignCodes flatSizes := by
  have hloop : assignLoop (codedSymbols flatSizes) 0 8 = (List.range' 0 256).map fun s => (s, s) := by
    rw [codedSymbols_flatSizes, assignLoop_equal]
  have hhead : ((codedSymbols flatSizes).head?.map Prod.fst).getD 0 = 8 := by
    rw [codedSymbols_flatSizes]
    rfl
  have hnodup : (((List.range' 0 256).map fun s => (s, s)).map Prod.fst).Nodup := by
    rw [List.map_map]
    exact (List.nodup_range' (s := 0) (n := 256)).map fun _ _ h => h
  apply Vector.ext
  intro s hs
  have hlisted := listedFor_of_mem hnodup (s, s) (List.mem_map.mpr ⟨s, by simpa using hs, rfl⟩)
  rw [assignCodes, hhead, hloop, flatCodes, tabulate_getElem, tabulate_getElem, hlisted]
end Sys2Proof.Machine

/-! SUPPORT. What a command may change: the relation `Changes`, met by each update a command is made of, by each
skeleton of 47_system_commands.md, and so by every command but SYS_RESET. -/

namespace Sys2Proof.Machine

/-! ## Status words -/

/-- The causes a unit can die of (60_exceptions.md R342, R344). -/
def deathCauses : UnitId → List (BitVec 3)
  | .ege | .hfe => [6]
  | .egd | .hfd | .rcd => [1, 2]
  | .rce | .cme => [1, 6]
  | .cmd => [1]

/-- A status word its unit can have (10_state.md R24). -/
def UStat.Sound (u : UnitId) (v : UStat) : Prop :=
  v.consistent (deathCauses u) ∧ (u ≠ .rcd → u ≠ .cmd → v.primed = false)

/-- The invariant of the status words, unit by unit. -/
theorem statusInv_iff (s : State) : StatusInv s ↔ ∀ u, (s.ustat u).Sound u := by
  constructor
  · rintro ⟨ege, egd, hfe, hfd, rce, rcd, cme, cmd, ege', egd', hfe', hfd', rce', cme'⟩ u
    cases u with
    | ege => exact ⟨ege, fun _ _ => ege'⟩
    | egd => exact ⟨egd, fun _ _ => egd'⟩
    | hfe => exact ⟨hfe, fun _ _ => hfe'⟩
    | hfd => exact ⟨hfd, fun _ _ => hfd'⟩
    | rce => exact ⟨rce, fun _ _ => rce'⟩
    | rcd => exact ⟨rcd, fun h _ => absurd rfl h⟩
    | cme => exact ⟨cme, fun _ _ => cme'⟩
    | cmd => exact ⟨cmd, fun _ h => absurd rfl h⟩
  · intro h
    have primed (u : UnitId) (hr : u ≠ .rcd) (hc : u ≠ .cmd) : (s.ustat u).primed = false := (h u).2 hr hc
    exact ⟨(h .ege).1, (h .egd).1, (h .hfe).1, (h .hfd).1, (h .rce).1, (h .rcd).1, (h .cme).1, (h .cmd).1,
      primed .ege nofun nofun, primed .egd nofun nofun, primed .hfe nofun nofun, primed .hfd nofun nofun,
      primed .rce nofun nofun, primed .cme nofun nofun⟩

theorem sound_reset (u : UnitId) : UStat.reset.Sound u := ⟨rfl, fun _ _ => rfl⟩

theorem UStat.Sound.dispose {u : UnitId} {v : UStat} (h : v.Sound u) : v.dispose.Sound u := h

theorem UStat.Sound.die {u : UnitId} {v : UStat} (h : v.Sound u) {c : FaultCode} (hc : c.code ∈ deathCauses u) :
    (v.die c).Sound u := ⟨hc, h.2⟩

theorem UStat.Sound.primedFrom {u : UnitId} {v v' : UStat} (h : v.Sound u) (hu : u = .rcd ∨ u = .cmd)
    (hv : v.PrimedFrom v') : v'.Sound u := by
  rcases hv with rfl | rfl
  · exact h
  · exact ⟨h.1, fun hr hc => (hu.elim hr hc).elim⟩

/-- The stops a procedure of a unit can end with: those that kill do so of a cause of that unit. -/
abbrev Stop.OfUnit (u : UnitId) : Stop → Prop
  | .endOfStream => FaultCode.endOfStream.code ∈ deathCauses u
  | .invalidStream => FaultCode.invalidStream.code ∈ deathCauses u
  | .shortWrite => FaultCode.writeFail.code ∈ deathCauses u
  | .refused | .noCode => True

/-! ## What a command may change -/

/-- A unit's own state is as before (10_state.md R20). -/
def State.SameUnit (s t : State) : UnitId → Prop
  | .ege => t.ege = s.ege
  | .egd => t.egd = s.egd
  | .hfe => t.hfe = s.hfe
  | .hfd => t.hfd = s.hfd
  | .rce => t.rce = s.rce
  | .rcd => t.rcd = s.rcd
  | .cme => t.cme = s.cme
  | .cmd => t.cmd = s.cmd

theorem State.SameUnit.trans {r s t : State} {w : UnitId} (h : r.SameUnit s w) (k : s.SameUnit t w) :
    r.SameUnit t w := by
  cases w <;> exact Eq.trans k h

/-- What a command of unit `u` (of none: BSI, HCB or the system) that stores to BUF in `range` alone, and changes HCB
only where `hcb` says so, may do to the state. What an update does not touch meets each clause by computation. -/
structure Changes (u : Option UnitId) (hcb : Bool) (range : Option (Word × Word)) (s t : State) : Prop where
  units : ∀ w, u ≠ some w → s.SameUnit t w := by
    intro w hw; cases w <;> first | exact absurd rfl hw | rfl
  hcb : hcb = false → t.hcb = s.hcb := by intros; rfl
  cfg : t.cfg = s.cfg := by rfl
  pending : t.pending = s.pending := by rfl
  stream : s.bsi.Forward t.bsi := by exact .refl _
  encoder : ∀ w, u = some w → w.isEncoder = true → s.bsi.Writes t.bsi := by exact fun _ _ _ => .refl _
  decoder : ∀ w, u = some w → w.isEncoder = false → s.bsi.Reads t.bsi := by exact fun _ _ _ => .refl _
  buf : StoresIn range s.cfg.bufSize s.buf t.buf := by exact .refl _ _ _
  status : ∀ w, u = some w → (s.ustat w).Sound w → (t.ustat w).Sound w := by exact fun _ _ h => h
  response : ResponseInv s → ResponseInv t := by exact id
  block : BlockInv s → BlockInv t := by exact id
  tables : TablesInv s → TablesInv t := by exact id

section
variable {u : Option UnitId} {hcb : Bool} {range : Option (Word × Word)}

theorem Changes.refl (s : State) : Changes u hcb range s s := {}

theorem Changes.trans {r s t : State} (h : Changes u hcb range r s) (k : Changes u hcb range s t) :
    Changes u hcb range r t where
  units w hw := (h.units w hw).trans (k.units w hw)
  hcb hb := (k.hcb hb).trans (h.hcb hb)
  cfg := k.cfg.trans h.cfg
  pending := k.pending.trans h.pending
  stream := h.stream.trans k.stream
  encoder w hu hw := (h.encoder w hu hw).trans (k.encoder w hu hw)
  decoder w hu hw := (h.decoder w hu hw).trans (k.decoder w hu hw)
  buf := h.buf.trans (h.cfg ▸ k.buf)
  status w hu hw := k.status w hu (h.status w hu hw)
  response hs := k.response (h.response hs)
  block hs := k.block (h.block hs)
  tables hs := k.tables (h.tables hs)

/-! ## The updates commands are made of -/

/-- A response in one of the two shapes of 30_encoding.md R97. -/
theorem changes_respond (s : State) (r : Quad) (c : FaultCode) (hc : c ≠ .writeFail) (hr : c ≠ .none → r = allOnes) :
    Changes u hcb range s (s.respond r c) where
  response hs := by
    obtain ⟨_, hlast, _⟩ := hs
    by_cases hn : c = .none
    · subst hn
      exact ⟨Nat.zero_le 5, hlast, fun h => absurd rfl h⟩
    · have hcode : c.code.toNat ≤ 5 := by
        cases c with
        | writeFail => exact absurd rfl hc
        | none | endOfStream | invalidStream | invalidArgument | illegalCommand | unitDead => decide
      have hl : (s.respond r c).lastFlt = c.code := if_neg hn
      exact ⟨hcode, hl ▸ hcode, fun _ => ⟨hr hn, hl⟩⟩

theorem changes_answer (s : State) (n : Nat) : Changes u hcb range s (s.answer n) :=
  changes_respond s _ .none nofun fun h => absurd rfl h

theorem changes_refuse (s : State) (c : FaultCode) (hc : c ≠ .writeFail) : Changes u hcb range s (s.refuse c) :=
  changes_respond s _ c hc fun _ => rfl

/-- The store of a bulk decode. -/
theorem changes_buf (s : State) (m : List Host.Cell) (hm : StoresIn range s.cfg.bufSize s.buf m) :
    Changes u hcb range s { s with buf := m } where
  buf := hm

/-- The stream after the write of an encoder. -/
theorem changes_writes {w : UnitId} (hw : w.isEncoder = true) (s : State) {b : Bsi} (hb : s.bsi.Writes b) :
    Changes (some w) hcb range s { s with bsi := b } where
  stream := hb.toForward
  encoder _ _ _ := hb
  decoder v hv hd := by
    cases hv
    exact absurd (hw.symm.trans hd) nofun

/-- The stream after the read of a decoder. -/
theorem changes_reads {w : UnitId} (hw : w.isEncoder = false) (s : State) {b : Bsi} (hb : s.bsi.Reads b) :
    Changes (some w) hcb range s { s with bsi := b } where
  stream := hb.toForward
  decoder _ _ _ := hb
  encoder v hv he := by
    cases hv
    exact absurd (hw.symm.trans he) nofun

/-- The stream after a command of BSI. -/
theorem changes_stream (s : State) {b : Bsi} (hb : s.bsi.Forward b) : Changes none hcb range s { s with bsi := b } where
  stream := hb
  encoder := nofun
  decoder := nofun

end

section
variable {u : UnitId} {hcb : Bool} {range : Option (Word × Word)}

/-- A unit's status word set to one the unit can have. -/
theorem changes_setUstat (s : State) (u : UnitId) (v : UStat) (hv : (s.ustat u).Sound u → v.Sound u) :
    Changes (some u) hcb range s (s.setUstat u v) where
  units w hw := by cases u <;> cases w <;> first | exact absurd rfl hw | rfl
  hcb _ := s.setUstat_hcb u v
  cfg := s.setUstat_cfg u v
  pending := s.setUstat_pending u v
  stream := s.setUstat_bsi u v ▸ .refl _
  encoder _ _ _ := s.setUstat_bsi u v ▸ .refl _
  decoder _ _ _ := s.setUstat_bsi u v ▸ .refl _
  buf := s.setUstat_buf u v ▸ .refl _ _ _
  status w hw hs := by
    cases hw
    rw [State.ustat_setUstat_self]
    exact hv hs
  response hs := by cases u <;> exact hs
  block hs := by cases u <;> exact hs
  tables hs := by cases u <;> exact hs

/-! ## How a command ends -/

theorem changes_die (s : State) {c : FaultCode} (hc : c.code ∈ deathCauses u) :
    Changes (some u) hcb range s (s.setUstat u ((s.ustat u).die c)) :=
  changes_setUstat s u _ fun h => h.die hc

theorem changes_raise (s : State) {c : FaultCode} (hc : c.code ∈ deathCauses u) (hw : c ≠ .writeFail) :
    Changes (some u) hcb range s (s.raise u c) :=
  (changes_die s hc).trans (changes_refuse _ c hw)

theorem changes_endBy (s : State) {r : Stop} (hr : r.OfUnit u) : Changes (some u) hcb range s (s.endBy u r) := by
  cases r with
  | endOfStream => exact changes_raise s hr nofun
  | invalidStream => exact changes_raise s hr nofun
  | shortWrite => exact (changes_die s hr).trans (changes_answer _ 0)
  | refused => exact changes_refuse s _ nofun
  | noCode => exact changes_answer s 0

theorem changes_endEncode (s : State) (n : Nat) {r : Option Stop} (hr : ∀ x ∈ r, x.OfUnit u) :
    Changes (some u) hcb range s (s.endEncode u n r) := by
  cases r with
  | none => exact changes_answer s n
  | some x =>
    have hx := hr x rfl
    cases x with
    | shortWrite => exact (changes_die s hx).trans (changes_answer _ n)
    | endOfStream | invalidStream | refused | noCode => exact changes_endBy s hx

/-! ## The skeletons (47_system_commands.md R330 to R337) -/

/-- The gate (47_system_commands.md R331). -/
theorem changes_gated (s : State) {body : State → State} (h : Changes (some u) hcb range s (body s)) :
    Changes (some u) hcb range s (s.gated u body) := by
  rcases gated_cases s u body with ⟨_, e⟩ | ⟨_, e⟩
  · rw [e]
    exact h
  · rw [e]
    exact changes_refuse s _ nofun

/-- The bounds test (47_system_commands.md R333). -/
theorem changes_bounded (s : State) (o l : Word) {body : State → State}
    (h : o.toNat + l.toNat ≤ s.cfg.bufSize → Changes (some u) hcb range s (body s)) :
    Changes (some u) hcb range s (s.bounded o l body) := by
  rcases bounded_cases s o l body with ⟨hb, e⟩ | ⟨_, e⟩
  · rw [e]
    exact h hb
  · rw [e]
    exact changes_refuse s _ nofun

section
variable {σ : Type} {part : Part σ} {Q : σ → Prop} (s : State)
  (hput : ∀ m t, Q t → Changes (some u) hcb range { s with buf := m } (part.put t { s with buf := m }))
include hput

/-- A single-symbol command changes what its procedure does (47_system_commands.md R330). -/
theorem changes_single {α : Type} {proc : σ → Run σ α} (hget : Q (part.get s)) (hproc : Keeps Q (Stop.OfUnit u) proc)
    {done : α → State → State} (hdone : ∀ a t, Changes (some u) hcb range t (done a t)) :
    Changes (some u) hcb range s (s.single u part proc done) := by
  have h := hproc (part.get s) hget
  rcases single_cases s u part proc done with ⟨_, e⟩ | ⟨_, a, t, hp, e⟩ | ⟨_, r, t, hp, e⟩
  · rw [e]
    exact changes_refuse s _ nofun
  · rw [e]
    exact (hput s.buf t (h.of_ok hp)).trans (hdone a _)
  · rw [e]
    obtain ⟨ht, hr⟩ := h.of_stop hp
    exact (hput s.buf t ht).trans (changes_endBy _ hr)

/-- What the loop of a bulk encode leaves, put back and answered (47_system_commands.md R333). -/
theorem changes_encoded {e : Nat × Option Stop × σ} (h : Q e.2.2 ∧ ∀ r ∈ e.2.1, r.OfUnit u) :
    Changes (some u) hcb range s ((part.put e.2.2 s).endEncode u e.1 e.2.1) := by
  obtain ⟨ht, hr⟩ := h
  exact (hput s.buf _ ht).trans (changes_endEncode _ _ hr)

/-- What the loop of a bulk decode leaves, put back and answered (47_system_commands.md R333). -/
theorem changes_decoded {x : Run (σ × List Host.Cell) Unit} (l : Word)
    (h : x.Meets (fun t => Q t.1 ∧ StoresIn range s.cfg.bufSize s.buf t.2) (Stop.OfUnit u)) :
    Changes (some u) hcb range s (s.endDecode u part l x) := by
  cases x with
  | ok a t =>
    obtain ⟨ht, hm⟩ := h
    exact ((changes_buf s t.2 hm).trans (hput t.2 t.1 ht)).trans (changes_answer _ _)
  | stop r t =>
    obtain ⟨⟨ht, hm⟩, hr⟩ := h
    exact ((changes_buf s t.2 hm).trans (hput t.2 t.1 ht)).trans (changes_endBy _ hr)

/-- `BulkEncode` (47_system_commands.md R333). -/
theorem changes_bulkEncode {enc : Byte → σ → Run σ Unit} (hget : Q (part.get s))
    (henc : ∀ v, Keeps Q (Stop.OfUnit u) (enc v)) (o l : Word) :
    Changes (some u) hcb range s (s.bulkEncode u part enc o l) :=
  changes_gated s (changes_bounded s o l fun _ =>
    changes_encoded s hput (encodeLoop_keeps henc s.buf l.toNat o.toNat 0 _ hget))

end

/-- `BulkDecode` (47_system_commands.md R333). -/
theorem changes_bulkDecode {σ : Type} {part : Part σ} {Q : σ → Prop} (s : State) {o l : Word}
    (hput : ∀ m t, Q t → Changes (some u) hcb (some (o, l)) { s with buf := m } (part.put t { s with buf := m }))
    {dec : σ → Run σ Byte} (hget : Q (part.get s)) (hdec : Keeps Q (Stop.OfUnit u) dec) :
    Changes (some u) hcb (some (o, l)) s (s.bulkDecode u part dec o l) :=
  changes_gated s (changes_bounded s o l fun hb =>
    changes_decoded s hput l (decodeLoop_keeps hdec o l _ s.buf hb l.toNat o.toNat (le_refl _) (le_refl _) _
      ⟨hget, .refl _ _ _⟩))

/-- `Dispose`: a flush that falls short raises EndOfStream (47_system_commands.md R334). -/
theorem changes_disposeUnit {Q : Bsi → Prop} (s : State) {flush : Bsi → Run Bsi Unit}
    (hput : ∀ (s' : State) b, s'.bsi = s.bsi → Q b → Changes (some u) hcb range s' { s' with bsi := b })
    (hflush : (flush s.bsi).Meets Q fun _ => FaultCode.endOfStream.code ∈ deathCauses u) :
    Changes (some u) hcb range s (s.disposeUnit u flush) := by
  have hdisposed : Changes (some u) hcb range s (s.setUstat u (s.ustat u).dispose) :=
    changes_setUstat s u _ UStat.Sound.dispose
  have hbsi := s.setUstat_bsi u (s.ustat u).dispose
  unfold State.disposeUnit
  dsimp only
  split
  · exact changes_answer s 0
  · split
    · exact hdisposed.trans (changes_answer _ 0)
    · rw [← hbsi] at hflush
      split
      · rename_i a b e
        exact (hdisposed.trans (hput _ b hbsi (hflush.of_ok e))).trans (changes_answer _ 0)
      · rename_i r b e
        obtain ⟨hb, hc⟩ := hflush.of_stop e
        exact (hdisposed.trans (hput _ b hbsi hb)).trans (changes_raise _ hc nofun)

/-- The disposal of a unit with nothing to flush. -/
theorem changes_dispose_noFlush (s : State) (u : UnitId) : Changes (some u) hcb range s (s.disposeUnit u noFlush) :=
  changes_disposeUnit (Q := fun b => b = s.bsi) s (fun s' b hs hb => by rw [hb, ← hs]; exact .refl s') (meets_ok rfl)

/-- The disposal of an encoder that flushes the bits of `low`. -/
theorem changes_dispose_flush (s : State) (u : UnitId) (hu : u.isEncoder = true)
    (hc : FaultCode.endOfStream.code ∈ deathCauses u) (v n : Nat) :
    Changes (some u) hcb range s (s.disposeUnit u (writeAll v n)) :=
  changes_disposeUnit (Q := s.bsi.Writes) s (fun s' _ hs hb => changes_writes hu s' (hs ▸ hb))
    (writeAll_keeps hc s.bsi v n s.bsi (.refl _))

/-- `Init` (47_system_commands.md R335). -/
theorem changes_initUnit (s : State) {install : State → State} (h : Changes (some u) hcb range s (install s)) :
    Changes (some u) hcb range s (s.initUnit u install) :=
  (h.trans (changes_setUstat _ u .reset fun _ => sound_reset u)).trans (changes_answer _ 0)

end

/-! ## The sides of the units -/

section
variable {hcb : Bool} {range : Option (Word × Word)} (s : State)

theorem changes_putRce (t : RceSide) (h : s.bsi.Writes t.2) : Changes (some .rce) hcb range s (rcePart.put t s) where
  stream := h.toForward
  encoder _ _ _ := h
  decoder := nofun

theorem changes_putCme (t : CmeSide) (h : s.bsi.Writes t.2) : Changes (some .cme) hcb range s (cmePart.put t s) where
  stream := h.toForward
  encoder _ _ _ := h
  decoder := nofun

theorem changes_putRcd (t : RcdSide) (h : PrimingKept Rcd.ustat (rcdPart.get s) t) :
    Changes (some .rcd) hcb range s (rcdPart.put t s) where
  stream := h.2.toForward
  encoder := nofun
  decoder _ _ _ := h.2
  status w hu hw := by
    cases hu
    exact hw.primedFrom (.inl rfl) h.1

theorem changes_putCmd (t : CmdSide) (h : PrimingKept Cmd.ustat (cmdPart.get s) t) :
    Changes (some .cmd) hcb range s (cmdPart.put t s) where
  stream := h.2.toForward
  encoder := nofun
  decoder _ _ _ := h.2
  status w hu hw := by
    cases hu
    exact hw.primedFrom (.inr rfl) h.1

end

end Sys2Proof.Machine

/-! SUPPORT. The Huffman units: what their procedures keep of the tables, the block size and the streams. -/

namespace Sys2Proof.Machine

/-- A valid length table with its canonical codes (42_huffman_code_builder.md R176, R177). -/
def CodeValid (sizes : Vector (BitVec 5) 256) (codes : Vector Word 256) : Prop :=
  lengthsValid sizes = true ∧ codes = assignCodes sizes

/-- The invariant of the tables, pair by pair. -/
theorem tablesInv_iff (s : State) :
    TablesInv s ↔ CodeValid s.hcb.sizes s.hcb.codes ∧ CodeValid s.hfe.sizes s.hfe.codes ∧
      CodeValid s.hfd.sizes s.hfd.codes := Iff.rfl

theorem codeValid_flat : CodeValid flatSizes flatCodes := ⟨lengthsValid_flatSizes, flatCodes_eq⟩

/-! ## HFE -/

/-- What the procedures of HFE keep: the block size, the status word, the input channel, and that the tables are
valid. -/
structure HfeKept (t₀ t : HfeSide) : Prop where
  block : t.2.1.block = t₀.2.1.block
  ustat : t.2.1.ustat = t₀.2.1.ustat
  writes : t₀.2.2.Writes t.2.2
  hcbValid : CodeValid t₀.1.sizes t₀.1.codes → CodeValid t.1.sizes t.1.codes
  hfeValid : CodeValid t₀.2.1.sizes t₀.2.1.codes → CodeValid t.2.1.sizes t.2.1.codes

theorem HfeKept.refl (t : HfeSide) : HfeKept t t := ⟨rfl, rfl, .refl _, id, id⟩

/-- What HFE keeps with HCB as it was: a symbol is coded with the tables in force (43_huffman_codec.md R191). -/
def HfeCoded (t₀ t : HfeSide) : Prop := HfeKept t₀ t ∧ t.1 = t₀.1

section
variable {E : Stop → Prop} (hW : E .shortWrite)
include hW

theorem hfEncodeSymbol_keeps_side (hN : E .noCode) (b₀ : Bsi) (c : Hcb) (u : HufUnit) (v : Byte) :
    Keeps (fun t => t.1 = c ∧ t.2.1 = u ∧ b₀.Writes t.2.2) E (hfEncodeSymbol v) := by
  rintro ⟨c', u', b⟩ ⟨hc, hu, hb⟩
  unfold hfEncodeSymbol
  dsimp only
  split
  · exact meets_stop ⟨hc, hu, hb⟩ hN
  · exact (writeAll_keeps hW b₀ _ _ b hb).within fun _ hb => ⟨hc, hu, hb⟩

theorem hfEncodeSymbol_keeps (hN : E .noCode) (t₀ : HfeSide) (v : Byte) :
    Keeps (HfeKept t₀) E (hfEncodeSymbol v) := by
  intro t h
  refine (hfEncodeSymbol_keeps_side hW hN t₀.2.2 t.1 t.2.1 v t ⟨rfl, rfl, h.writes⟩).mono ?_
  rintro ⟨c, u, b⟩ ⟨rfl, rfl, hb⟩
  exact { h with writes := hb }

theorem hfEncodeSymbol_codes (hN : E .noCode) (t₀ : HfeSide) (v : Byte) :
    Keeps (HfeCoded t₀) E (hfEncodeSymbol v) := by
  rintro t ⟨h, hc⟩
  refine (hfEncodeSymbol_keeps_side hW hN t₀.2.2 t.1 t.2.1 v t ⟨rfl, rfl, h.writes⟩).mono ?_
  rintro ⟨c, u, b⟩ ⟨rfl, rfl, hb⟩
  exact ⟨{ h with writes := hb }, hc⟩

theorem writeDeltas_keeps (b₀ : Bsi) (prev : Nat) (l : List Nat) : Keeps b₀.Writes E (writeDeltas prev l) := by
  induction l generalizing prev with
  | nil => exact fun b hb => hb
  | cons z rest ih => exact fun b hb => (egEncode_keeps hW b₀ _ true b hb).andThen fun _ => ih z

theorem hfWriteHeader_keeps (b₀ : Bsi) (z : Vector (BitVec 5) 256) : Keeps b₀.Writes E (hfWriteHeader z) :=
  fun b hb => (writeAll_keeps hW b₀ _ _ b hb).andThen fun _ => writeDeltas_keeps hW b₀ _ _

/-- `HfUpdate` installs a valid table, whether or not its header is written in full (43_huffman_codec.md R193). -/
theorem hfUpdate_keeps (hR : E .refused) (t₀ : HfeSide) : Keeps (HfeKept t₀) E hfUpdate := by
  intro t h
  unfold hfUpdate
  split
  · exact meets_stop h hR
  · rename_i z hz
    have valid : CodeValid z (assignCodes z) := ⟨buildLengths_valid hz, rfl⟩
    exact (hfWriteHeader_keeps hW t₀.2.2 z t.2.2 h.writes).within fun b hb =>
      ⟨h.block, h.ustat, hb, fun _ => valid, fun _ => valid⟩

/-- The loop of HFE_ENCODE (43_huffman_codec.md R196). -/
theorem hfEncodeBlocks_keeps (hN : E .noCode) (hR : E .refused) (t₀ : HfeSide) (buf : List Host.Cell)
    (fuel rem a n : Nat) (t : HfeSide) (h : HfeKept t₀ t) :
    HfeKept t₀ (hfEncodeBlocks buf fuel rem a n t).2.2 ∧ ∀ r ∈ (hfEncodeBlocks buf fuel rem a n t).2.1, E r := by
  induction fuel generalizing rem a n t with
  | zero => exact ⟨h, by simp [hfEncodeBlocks]⟩
  | succ fuel ih =>
    unfold hfEncodeBlocks
    split
    · exact ⟨h, by simp⟩
    · have hupdate := hfUpdate_keeps hW hR t₀
        ({ t.1 with freq := blockCounts buf a (min t.2.1.block.toNat rem) }, t.2) { h with }
      dsimp only
      split
      · rename_i r u e
        obtain ⟨hu, hr⟩ := hupdate.of_stop e
        exact ⟨hu, by simpa using hr⟩
      · rename_i u e
        have hcoded := encodeLoop_keeps (hfEncodeSymbol_keeps hW hN t₀) buf (min t.2.1.block.toNat rem) a n u
          (hupdate.of_ok e)
        split
        · rename_i m r w e
          rw [e] at hcoded
          exact hcoded
        · rename_i m w e
          rw [e] at hcoded
          obtain ⟨hw, _⟩ := hcoded
          exact ih _ _ _ w hw

end

theorem changes_putHfe {range : Option (Word × Word)} (s : State) (t : HfeSide) (h : HfeKept (hfePart.get s) t) :
    Changes (some .hfe) true range s (hfePart.put t s) where
  hcb := nofun
  stream := h.writes.toForward
  encoder _ _ _ := h.writes
  decoder := nofun
  status w hu hw := by
    cases hu
    exact (congrArg (UStat.Sound .hfe) h.ustat).mpr hw
  block hs := ⟨h.block ▸ hs.1, hs.2⟩
  tables hs := ⟨h.hcbValid hs.1, h.hfeValid hs.2.1, hs.2.2⟩

/-- Where HFE's procedure leaves HCB as it was, so does the command. -/
theorem changes_putHfe_coded {hcb : Bool} {range : Option (Word × Word)} (s : State) (t : HfeSide)
    (h : HfeCoded (hfePart.get s) t) : Changes (some .hfe) hcb range s (hfePart.put t s) :=
  { changes_putHfe s t h.1 with hcb := fun _ => h.2 }

/-! ## HFD -/

/-- What the procedures of HFD keep: the block size, the status word, the output channel, and that the tables are
valid. -/
structure HfdKept (t₀ t : HfdSide) : Prop where
  block : t.1.block = t₀.1.block
  ustat : t.1.ustat = t₀.1.ustat
  reads : t₀.2.Reads t.2
  valid : CodeValid t₀.1.sizes t₀.1.codes → CodeValid t.1.sizes t.1.codes

theorem HfdKept.refl (t : HfdSide) : HfdKept t t := ⟨rfl, rfl, .refl _, id⟩

section
variable {E : Stop → Prop} (hS : E .endOfStream) (hI : E .invalidStream)
include hS hI

theorem readDeltas_keeps (b₀ : Bsi) (k prev : Nat) : Keeps b₀.Reads E (readDeltas k prev) := by
  induction k generalizing prev with
  | zero => exact fun b hb => hb
  | succ k ih =>
    refine fun b hb => (egDecode_keeps hS hI b₀ true b hb).andThen fun d b hb => ?_
    dsimp only
    split
    · exact meets_stop hb hI
    · exact (ih _ b hb).andThen fun _ _ hb => meets_ok hb

theorem readHeader_keeps (b₀ : Bsi) : Keeps b₀.Reads E readHeader := fun b hb =>
  (readBits_keeps hS b₀ _ b hb).andThen fun z0 b hb =>
    (readDeltas_keeps hS hI b₀ 255 z0 b hb).andThen fun _ _ hb => meets_ok hb

/-- `HfReadLengths` installs a table only where it is valid (43_huffman_codec.md R194). -/
theorem hfReadLengths_keeps (t₀ : HfdSide) : Keeps (HfdKept t₀) E hfReadLengths := by
  intro t h
  have hread := (readHeader_keeps hS hI t₀.2 t.2 h.reads).within (f := fun b => (t.1, b)) (Q' := HfdKept t₀)
    fun _ hb => { h with reads := hb }
  refine hread.andThen fun z t h => ?_
  split
  · rename_i hz
    exact meets_ok { h with valid := fun _ => ⟨hz, rfl⟩ }
  · exact meets_stop h hI

theorem hfWalk_keeps (b₀ : Bsi) (l : List (Nat × Nat)) (fuel len c : Nat) : Keeps b₀.Reads E (hfWalk l fuel len c) := by
  induction fuel generalizing len c with
  | zero => exact fun b hb => meets_stop hb hI
  | succ fuel ih =>
    refine fun b hb => (readBit_keeps hS b₀ b hb).andThen fun x b hb => ?_
    dsimp only
    split
    · exact meets_ok hb
    · split
      · exact ih _ _ b hb
      · exact meets_stop hb hI

theorem hfDecodeSymbol_keeps (t₀ : HfdSide) : Keeps (HfdKept t₀) E hfDecodeSymbol := fun t h =>
  (hfWalk_keeps hS hI t₀.2 _ _ 0 0 t.2 h.reads).within fun _ hb => { h with reads := hb }

/-- The loop of HFD_DECODE stores in its range (43_huffman_codec.md R197). -/
theorem hfDecodeBlocks_keeps (t₀ : HfdSide) (o l : Word) (size : Nat) (m : List Host.Cell)
    (hs : o.toNat + l.toNat ≤ size) (fuel rem a : Nat) (ho : o.toNat ≤ a) (ha : a + rem ≤ o.toNat + l.toNat) :
    Keeps (fun t => HfdKept t₀ t.1 ∧ StoresIn (some (o, l)) size m t.2) E (hfDecodeBlocks fuel rem a) := by
  induction fuel generalizing rem a with
  | zero => exact fun t ht => ht
  | succ fuel ih =>
    rintro t ⟨h, hm⟩
    unfold hfDecodeBlocks
    split
    · exact meets_ok ⟨h, hm⟩
    · have hk : min t.1.1.block.toNat rem ≤ rem := Nat.min_le_right _ _
      have hread := (hfReadLengths_keeps hS hI t₀ t.1 h).within (f := fun u => (u, t.2))
        (Q' := fun t => HfdKept t₀ t.1 ∧ StoresIn (some (o, l)) size m t.2) fun u hu => ⟨hu, hm⟩
      exact hread.andThen fun _ t ht =>
        (decodeLoop_keeps (hfDecodeSymbol_keeps hS hI t₀) o l size m hs _ a ho (by omega) t ht).andThen fun _ =>
          ih _ _ (by omega) (by omega)

end

theorem changes_putHfd {hcb : Bool} {range : Option (Word × Word)} (s : State) (t : HfdSide)
    (h : HfdKept (hfdPart.get s) t) : Changes (some .hfd) hcb range s (hfdPart.put t s) where
  stream := h.reads.toForward
  encoder := nofun
  decoder _ _ _ := h.reads
  status w hu hw := by
    cases hu
    exact (congrArg (UStat.Sound .hfd) h.ustat).mpr hw
  block hs := ⟨hs.1, h.block ▸ hs.2⟩
  tables hs := ⟨hs.1, hs.2.1, h.valid hs.2.2⟩

end Sys2Proof.Machine

/-! SUPPORT. Every command but SYS_RESET answers a next state and changes only what `Changes` allows its unit; every
step keeps what such changes, a host write and a reset keep. -/

namespace Sys2Proof.Machine

/-! ## The commands of BSI and HCB -/

section
variable {hcb : Bool} {range : Option (Word × Word)} (s : State)

theorem changes_answerRead {x : Run Bsi Nat} (h : x.Meets s.bsi.Reads fun _ => True) :
    Changes none hcb range s (s.answerRead x) := by
  cases x with
  | ok v b => exact (changes_stream s h.toForward).trans (changes_answer _ v)
  | stop r b => exact (changes_stream s h.1.toForward).trans (changes_refuse _ _ nofun)

theorem execBsClose_changes (ch : BitVec 1) : ∃ t, execBsClose ch s = .next t ∧ Changes none hcb range s t := by
  have hin : s.bsi.Forward { s.bsi with inClosed := true } := { Bsi.Forward.refl s.bsi with }
  have hout : s.bsi.Forward { s.bsi with outClosed := true } := { Bsi.Forward.refl s.bsi with }
  refine ⟨_, rfl, ?_⟩
  cases bitOf ch with
  | true => exact (changes_stream s hin).trans (changes_answer _ 0)
  | false => exact (changes_stream s hout).trans (changes_answer _ 0)

theorem changes_refuseIf {u : Option UnitId} (c : Bool) {t : State} (h : c = false → Changes u hcb range s t) :
    Changes u hcb range s (if c then s.refuse .invalidArgument else t) := by
  cases c with
  | true => exact changes_refuse s _ nofun
  | false => exact h rfl

/-- New frequencies leave the lengths and codes in force. -/
theorem changes_freq (freq : Vector Word 256) :
    Changes none true range s { s with hcb := { s.hcb with freq := freq } } where
  hcb := nofun

/-- A build that is not refused installs a valid table (42_huffman_code_builder.md R182). -/
theorem changes_build {z : Vector (BitVec 5) 256} (hz : buildLengths s.hcb.freq = some z) :
    Changes none true range s { s with hcb := { s.hcb with sizes := z, codes := assignCodes z } } where
  hcb := nofun
  tables hs := ⟨⟨buildLengths_valid hz, rfl⟩, hs.2⟩

theorem execHcbBuild_changes : ∃ t, execHcbBuild s = .next t ∧ Changes none true range s t := by
  refine ⟨_, rfl, ?_⟩
  split
  · exact changes_refuse s _ nofun
  · rename_i z hz
    exact (changes_build s hz).trans (changes_answer _ _)

/-! ## The INIT commands -/

/-- A legal block size lies between 1 and HUF_BLOCK_MAX (43_huffman_codec.md R203). -/
theorem block_legal {a : Word} (h : blockIllegal a = false) : 1 ≤ a.toNat ∧ a.toNat ≤ 2 ^ 20 := by
  have hint : ¬ (a.toInt ≤ 0 ∨ a.toInt > (1048576 : Int)) := of_decide_eq_false h
  have hlt := a.isLt
  rw [BitVec.toInt_eq_toNat_cond] at hint
  split at hint <;> omega

theorem changes_hfeInit (a : Word) (h : blockIllegal a = false) :
    Changes (some .hfe) hcb range s { s with hfe := .fresh a } where
  status w hu _ := by
    cases hu
    exact sound_reset _
  block hs := ⟨block_legal h, hs.2⟩
  tables hs := ⟨hs.1, codeValid_flat, hs.2.2⟩

theorem changes_hfdInit (a : Word) (h : blockIllegal a = false) :
    Changes (some .hfd) hcb range s { s with hfd := .fresh a } where
  status w hu _ := by
    cases hu
    exact sound_reset _
  block hs := ⟨hs.1, block_legal h⟩
  tables hs := ⟨hs.1, hs.2.1, codeValid_flat⟩

theorem changes_egeMode (signed : Bool) :
    Changes (some .ege) hcb range s { s with ege := { s.ege with signedMode := signed } } := {}

theorem changes_egdMode (signed : Bool) :
    Changes (some .egd) hcb range s { s with egd := { s.egd with signedMode := signed } } := {}

theorem changes_rceReset : Changes (some .rce) hcb range s { s with rce := .reset } where
  status w hu _ := by
    cases hu
    exact sound_reset _

theorem changes_rcdReset : Changes (some .rcd) hcb range s { s with rcd := .reset } where
  status w hu _ := by
    cases hu
    exact sound_reset _

theorem changes_cmeReset : Changes (some .cme) hcb range s { s with cme := .reset s.cfg.stateTable } where
  status w hu _ := by
    cases hu
    exact sound_reset _

theorem changes_cmdReset : Changes (some .cmd) hcb range s { s with cmd := .reset s.cfg.stateTable } where
  status w hu _ := by
    cases hu
    exact sound_reset _

end

/-! ## Every command -/

/-- Every command but SYS_RESET answers a next state, and changes only what its unit may. -/
theorem exec_changes (i : Instr) (hi : i ≠ .sysReset) (s : State) :
    ∃ t, exec i s = .next t ∧ Changes i.unit? i.touchesHcb i.stores? s t := by
  cases i with
  | bsWrbit bit =>
    exact ⟨_, rfl, (changes_stream s (writeBits_writes _ _ _).toForward).trans (changes_answer _ _)⟩
  | bsWrbits value nbits =>
    exact ⟨_, rfl, changes_refuseIf s _ fun _ =>
      (changes_stream s (writeBits_writes _ _ _).toForward).trans (changes_answer _ _)⟩
  | bsRdbit =>
    exact ⟨_, rfl, changes_answerRead s
      ((readBit_keeps trivial s.bsi s.bsi (.refl _)).andThen fun _ _ hb => meets_ok hb)⟩
  | bsRdbits nbits =>
    exact ⟨_, rfl, changes_refuseIf s _ fun _ =>
      changes_answerRead s (readBits_keeps trivial s.bsi _ s.bsi (.refl _))⟩
  | bsClose ch => exact execBsClose_changes s ch
  | hcbSetfreq idx value => exact ⟨_, rfl, (changes_freq s _).trans (changes_answer _ 0)⟩
  | hcbClrfreq => exact ⟨_, rfl, (changes_freq s _).trans (changes_answer _ 0)⟩
  | hcbBuild => exact execHcbBuild_changes s
  | bsFlush | bsHasmore | hcbGetsize | hcbGetcode | hcbGetfreq => exact ⟨_, rfl, changes_answer s _⟩
  | bsWritten | bsRead | sysStatus => exact ⟨_, rfl, changes_respond s _ .none nofun fun h => absurd rfl h⟩
  | egeStatus | egdStatus | hfeStatus | hfdStatus | rceStatus | rcdStatus | cmeStatus | cmdStatus =>
    exact ⟨_, rfl, changes_respond s _ .none nofun fun h => absurd rfl h⟩
  | egeGetbs | egdGetbs | hfeGetbs | hfdGetbs | rceGetbs | rcdGetbs | cmeGetbs | cmdGetbs =>
    exact ⟨_, rfl, changes_answer s _⟩
  | egeDispose | egdDispose | hfeDispose | hfdDispose | rcdDispose | cmdDispose =>
    exact ⟨_, rfl, changes_dispose_noFlush s _⟩
  | rceDispose => exact ⟨_, rfl, changes_dispose_flush s .rce rfl (by decide) _ _⟩
  | cmeDispose => exact ⟨_, rfl, changes_dispose_flush s .cme rfl (by decide) _ _⟩
  | egeInit mode => exact ⟨_, rfl, changes_refuseIf s _ fun _ => changes_initUnit s (changes_egeMode s _)⟩
  | egdInit mode => exact ⟨_, rfl, changes_refuseIf s _ fun _ => changes_initUnit s (changes_egdMode s _)⟩
  | hfeInit a => exact ⟨_, rfl, changes_refuseIf s _ fun h => changes_initUnit s (changes_hfeInit s a h)⟩
  | hfdInit a => exact ⟨_, rfl, changes_refuseIf s _ fun h => changes_initUnit s (changes_hfdInit s a h)⟩
  | rceInit => exact ⟨_, rfl, changes_initUnit s (changes_rceReset s)⟩
  | rcdInit => exact ⟨_, rfl, changes_initUnit s (changes_rcdReset s)⟩
  | cmeInit => exact ⟨_, rfl, changes_initUnit s (changes_cmeReset s)⟩
  | cmdInit => exact ⟨_, rfl, changes_initUnit s (changes_cmdReset s)⟩
  | egeEncbyte v =>
    exact ⟨_, rfl, changes_single s (fun m _ => changes_writes rfl { s with buf := m }) (.refl _)
      (egEncode_keeps (by decide) s.bsi _ _) fun _ _ => changes_answer _ 1⟩
  | egeEncode o l =>
    exact ⟨_, rfl, changes_bulkEncode s (fun m _ => changes_writes rfl { s with buf := m }) (.refl _)
      (fun _ => egEncode_keeps (by decide) s.bsi _ _) o l⟩
  | egdDecbyte =>
    exact ⟨_, rfl, changes_single s (fun m _ => changes_reads rfl { s with buf := m }) (.refl _)
      (egdSymbol_keeps (by decide) (by decide) s.bsi _) fun _ _ => changes_answer _ _⟩
  | egdDecode o l =>
    exact ⟨_, rfl, changes_bulkDecode s (fun m _ => changes_reads rfl { s with buf := m }) (.refl _)
      (egdSymbol_keeps (by decide) (by decide) s.bsi _)⟩
  | hfeEncbyte v =>
    exact ⟨_, rfl, changes_single s (fun m => changes_putHfe_coded { s with buf := m }) ⟨.refl _, rfl⟩
      (hfEncodeSymbol_codes (by decide) trivial _ v) fun _ _ => changes_answer _ 1⟩
  | hfeUpdate =>
    exact ⟨_, rfl, changes_single s (fun m => changes_putHfe { s with buf := m }) (.refl _)
      (hfUpdate_keeps (by decide) trivial _) fun _ _ => changes_answer _ 1⟩
  | hfeEncode o l =>
    exact ⟨_, rfl, changes_gated s (changes_bounded s o l fun _ =>
      changes_encoded s (fun m => changes_putHfe { s with buf := m })
        (hfEncodeBlocks_keeps (by decide) trivial trivial _ _ _ _ _ _ _ (.refl _)))⟩
  | hfdDecbyte =>
    exact ⟨_, rfl, changes_single s (fun m => changes_putHfd { s with buf := m }) (.refl _)
      (hfDecodeSymbol_keeps (by decide) (by decide) _) fun _ _ => changes_answer _ _⟩
  | hfdReadlen =>
    exact ⟨_, rfl, changes_single s (fun m => changes_putHfd { s with buf := m }) (.refl _)
      (hfReadLengths_keeps (by decide) (by decide) _) fun _ _ => changes_answer _ _⟩
  | hfdDecode o l =>
    exact ⟨_, rfl, changes_gated s (changes_bounded s o l fun hb =>
      changes_decoded s (fun m => changes_putHfd { s with buf := m }) l
        (hfDecodeBlocks_keeps (by decide) (by decide) _ o l _ s.buf hb _ _ _ (le_refl _) (le_refl _) _
          ⟨.refl _, .refl _ _ _⟩))⟩
  | rceEncbyte v =>
    exact ⟨_, rfl, changes_single s (fun m => changes_putRce { s with buf := m }) (.refl _)
      (rcEncodeSymbol_keeps (by decide) trivial s.bsi v) fun _ _ => changes_answer _ 1⟩
  | rceEncode o l =>
    exact ⟨_, rfl, changes_bulkEncode s (fun m => changes_putRce { s with buf := m }) (.refl _)
      (rcEncodeSymbol_keeps (by decide) trivial s.bsi) o l⟩
  | rcdDecbyte =>
    exact ⟨_, rfl, changes_single s (fun m => changes_putRcd { s with buf := m }) ⟨.inl rfl, .refl _⟩
      (rcDecodeSymbol_keeps (by decide) (by decide) trivial _) fun _ _ => changes_answer _ _⟩
  | rcdDecode o l =>
    exact ⟨_, rfl, changes_bulkDecode s (fun m => changes_putRcd { s with buf := m }) ⟨.inl rfl, .refl _⟩
      (rcDecodeSymbol_keeps (by decide) (by decide) trivial _)⟩
  | cmeEncbyte v =>
    exact ⟨_, rfl, changes_single s (fun m => changes_putCme { s with buf := m }) (.refl _)
      (cmEncodeBits_keeps (by decide) s.bsi _ v 8) fun _ _ => changes_answer _ 1⟩
  | cmeEncode o l =>
    exact ⟨_, rfl, changes_bulkEncode s (fun m => changes_putCme { s with buf := m }) (.refl _)
      (fun v => cmEncodeBits_keeps (by decide) s.bsi _ v 8) o l⟩
  | cmdDecbyte =>
    exact ⟨_, rfl, changes_single s (fun m => changes_putCmd { s with buf := m }) ⟨.inl rfl, .refl _⟩
      (cmDecodeSymbol_keeps (by decide) _ _) fun _ _ => changes_answer _ _⟩
  | cmdDecode o l =>
    exact ⟨_, rfl, changes_bulkDecode s (fun m => changes_putCmd { s with buf := m }) ⟨.inl rfl, .refl _⟩
      (cmDecodeSymbol_keeps (by decide) _ _)⟩
  | sysReset => exact absurd rfl hi

/-! ## Every step -/

/-- The changes of a command that answered with a given state. -/
theorem changes_of_exec {i : Instr} {s t : State} (hi : i ≠ .sysReset) (h : exec i s = .next t) :
    Changes i.unit? i.touchesHcb i.stores? s t := by
  obtain ⟨t', ht, hc⟩ := exec_changes i hi s
  rw [ht] at h
  cases h
  exact hc

/-- A fact that the changes of a command and a reset keep holds after every command. -/
theorem exec_keeps {I : State → Prop} (hchange : ∀ u hcb range s t, Changes u hcb range s t → I s → I t)
    (hreset : ∀ s, I s → I s.hardReset) (i : Instr) (s t : State) (hs : I s) (h : exec i s = .next t) : I t := by
  by_cases hi : i = .sysReset
  · subst hi
    cases h
    exact hchange none false none _ _ (changes_answer _ 0) (hreset s hs)
  · exact hchange _ _ _ s t (changes_of_exec hi h) hs

/-- A fact that the changes of a command, a host write, a reset and the taking of a host action keep holds after every
step. -/
theorem step_keeps {I : State → Prop} (htake : ∀ s l, I s → I { s with pending := l })
    (hchange : ∀ u hcb range s t, Changes u hcb range s t → I s → I t)
    (hwrite : ∀ s a v, a < s.cfg.bufSize → I s → I { s with buf := memWrite s.buf a v })
    (hreset : ∀ s, I s → I s.hardReset) (s s' : State) (hs : I s) (h : step s = .next s') : I s' := by
  unfold step at h
  split at h
  · cases h
    exact hs
  · rename_i a rest _
    have hs := htake s rest hs
    cases a with
    | command w =>
      cases hw : decode w with
      | ok i => exact exec_keeps hchange hreset i _ s' hs ((present_ok hw _).symm.trans h)
      | error e =>
        have h := (present_error hw _).symm.trans h
        cases h
        exact hchange none false none _ _ (changes_refuse _ _ nofun) hs
    | writeBuf addr v =>
      unfold State.take State.hostWrite at h
      dsimp only at h
      split at h
      · rename_i ha
        cases h
        exact hwrite { s with pending := rest } addr v ha hs
      · cases h
    | resetInput =>
      cases h
      exact hreset _ hs

end Sys2Proof.Machine

/-! SUPPORT. The statements of 10_state.md: what every step keeps, and what a command leaves alone. -/

namespace Sys2Proof.Machine

/-! ## Streams, status words, responses and block sizes -/

/-- The status word of a unit whose own state is as before. -/
theorem State.SameUnit.ustat_eq {s t : State} {w : UnitId} (h : s.SameUnit t w) : t.ustat w = s.ustat w := by
  cases w with
  | ege => exact congrArg EgUnit.ustat h
  | egd => exact congrArg EgUnit.ustat h
  | hfe => exact congrArg HufUnit.ustat h
  | hfd => exact congrArg HufUnit.ustat h
  | rce => exact congrArg Rce.ustat h
  | rcd => exact congrArg Rcd.ustat h
  | cme => exact congrArg Cme.ustat h
  | cmd => exact congrArg Cmd.ustat h

section
variable {u : Option UnitId} {hcb : Bool} {range : Option (Word × Word)} {s t : State}

theorem Changes.bufInv (c : Changes u hcb range s t) (hs : BufInv s) : BufInv t := by
  obtain ⟨hwf, hin⟩ := hs
  refine ⟨c.buf.canonical hwf, ?_⟩
  rw [c.cfg]
  exact c.buf.bounded hin

theorem Changes.statusInv (c : Changes u hcb range s t) (hs : StatusInv s) : StatusInv t := by
  rw [statusInv_iff] at hs ⊢
  intro w
  by_cases hw : u = some w
  · exact c.status w hw (hs w)
  · rw [(c.units w hw).ustat_eq]
    exact hs w

theorem Changes.outInv (c : Changes u hcb range s t) (hs : OutInv s) : OutInv t := by
  obtain ⟨hw, hcap⟩ := hs
  obtain ⟨l, hl, hv⟩ := c.stream.out
  constructor
  · rw [hv, hw, hl, List.length_append, BitVec.ofNat_add]
  · rw [c.stream.outCap]
    exact fun cap h => c.stream.cap cap h (hcap cap h)

theorem Changes.inInv (c : Changes u hcb range s t) (hs : InInv s) : InInv t := by
  obtain ⟨hlen, hin⟩ := hs
  unfold InInv
  rw [c.stream.inBits]
  exact ⟨hlen, (c.stream.rcnt hlen hin).2⟩

theorem Changes.baseInv (c : Changes u hcb range s t) (hs : BaseInv s) : BaseInv t := by
  obtain ⟨hbuf, hstatus, hresponse, hout, hin, hblock⟩ := hs
  exact ⟨c.bufInv hbuf, c.statusInv hstatus, c.response hresponse, c.outInv hout, c.inInv hin, c.block hblock⟩

end

/-- A host write inside BUF_SIZE keeps BUF canonical and inside it (20_memory.md R77, R86). -/
theorem bufInv_hostWrite (s : State) (a : Nat) (v : Byte) (ha : a < s.cfg.bufSize) (hs : BufInv s) :
    BufInv { s with buf := memWrite s.buf a v } := by
  obtain ⟨hwf, hin⟩ := hs
  refine ⟨memWrite_wf _ _ _ hwf, fun c hc => ?_⟩
  rcases memWrite_addresses _ _ _ _ hc with h | h
  · exact h ▸ ha
  · exact hin c h

/-- Reset keeps BUF and IN, and gives the rest its reset values (70_reset_and_hazards.md R370, R372). -/
theorem baseInv_hardReset (s : State) (hs : BaseInv s) : BaseInv s.hardReset := by
  obtain ⟨hbuf, _, _, _, ⟨hlen, _⟩, _⟩ := hs
  have hblock : 1 ≤ (65536#32).toNat ∧ (65536#32).toNat ≤ 2 ^ 20 := by decide
  refine ⟨hbuf, (statusInv_iff _).mpr fun u => ?_, ⟨Nat.zero_le _, Nat.zero_le _, fun h => absurd rfl h⟩,
    ⟨rfl, fun _ _ => Nat.zero_le _⟩, ⟨hlen, Nat.zero_le _⟩, hblock, hblock⟩
  cases u <;> exact sound_reset _

/-- Reset gives the three pairs of tables the flat code (10_state.md R33 to R35). -/
theorem tablesInv_hardReset (s : State) : TablesInv s.hardReset :=
  (tablesInv_iff _).mpr ⟨codeValid_flat, codeValid_flat, codeValid_flat⟩

end Sys2Proof.Machine

namespace Sys2Proof

open Machine

/-- Settles O56: the parts of the invariant are clauses of what a command may change, or follow from them; a host write
and a reset keep each part. -/
theorem stepKeepsStreamsStatusAndResponses : Obligations.StepKeepsStreamsStatusAndResponses :=
  step_keeps (fun _ _ hs => hs) (fun _ _ _ _ _ c => c.baseInv)
    (fun s a v ha ⟨hbuf, hrest⟩ => ⟨bufInv_hostWrite s a v ha hbuf, hrest⟩) baseInv_hardReset

/-- Settles O57: a table is replaced only by a built one, whose Kraft sum is full, by a header's that passed
`LengthsValid`, or by the flat one. -/
theorem stepKeepsTheHuffmanTablesValid : Obligations.StepKeepsTheHuffmanTablesValid :=
  step_keeps (fun _ _ hs => hs) (fun _ _ _ _ _ c => c.tables) (fun _ _ _ _ hs => hs) fun s _ => tablesInv_hardReset s

/-- Settles O20, from the stream clauses of what a command may change. -/
theorem streamsOnlyMoveForward : Obligations.StreamsOnlyMoveForward := by
  rintro i s t hi ⟨hlen, hin⟩ h
  have c := changes_of_exec hi h
  obtain ⟨l, hl, _⟩ := c.stream.out
  obtain ⟨hrise, hend⟩ := c.stream.rcnt hlen hin
  refine ⟨⟨l, hl.symm⟩, hrise, c.stream.inBits ▸ hend, fun u hu he => ?_, fun u hu hd => ?_⟩
  · have hw := c.encoder u hu he
    exact ⟨hw.rcnt_eq, hw.inClosed_eq⟩
  · have hr := c.decoder u hu hd
    exact ⟨hr.out_eq, hr.wcnt_eq, hr.outClosed_eq⟩

/-- Settles O54, from the frame clauses of what a command may change; SYS_RESET keeps BUF whole. -/
theorem commandsLeaveOtherStateAlone : Obligations.CommandsLeaveOtherStateAlone := by
  constructor
  · intro i s t hi h
    have c := changes_of_exec hi h
    exact ⟨c.units .ege, c.units .egd, c.units .hfe, c.units .hfd, c.units .rce, c.units .rcd, c.units .cme,
      c.units .cmd, c.hcb, c.cfg, c.stream.inBits, c.stream.outCap, c.pending⟩
  · intro i s t h a ha
    by_cases hi : i = .sysReset
    · subst hi
      cases h
      rfl
    · refine (changes_of_exec hi h).buf.outside a fun o l hol => ?_
      rw [hol] at ha
      exact ha

end Sys2Proof

/-! SUPPORT. The values of 70_reset_and_hazards.md R371 in the state after a reset. The predictor's come from one `Predict`
on the reset tables, which every lookup meets at the centre bin (45_cm_predictor.md R283). -/

namespace Sys2Proof.Machine

/-! ## The tables of the predictor -/

/-- The reset entry of a bin of an APM's context: the identity curve at that bin (10_state.md R42). -/
theorem apmReset_bin (c j : Nat) (hj : j < 33) :
    (apmReset (c * 33 + j)).toNat = squash (((j : Int) - 16) * 128) * 16 := by
  have hbin : (c * 33 + j) % Config.cmApmBins = j := by
    unfold Config.cmApmBins
    omega
  have hpoint : (j : Int) * 128 - 2048 = ((j : Int) - 16) * 128 := by omega
  have hsquash : ∀ j : Nat, j < 33 → squash (((j : Int) - 16) * 128) ≤ 4095 := by decide
  have := hsquash j hj
  unfold apmReset
  rw [hbin, hpoint, BitVec.toNat_ofNat, Nat.mod_eq_of_lt (by omega)]

/-- The even probability meets the centre bin of its context exactly, and an identity curve answers it unchanged
(45_cm_predictor.md R277, 10_state.md R42). -/
theorem Apm.get_initial_even {iw : Nat} (cx : Nat) :
    (Apm.initial : Apm iw).get 2048 cx = (2048, { t := [], idx := BitVec.ofNat iw (cx * 33 + 16) }) := by
  have hstretch : stretch 2048 = 0 := by decide
  have hbin : 16 + cx * Config.cmApmBins = cx * 33 + 16 := Nat.add_comm _ _
  have hcentre : ((Apm.initial : Apm iw).entry (cx * 33 + 16)).toNat = 32768 := apmReset_bin cx 16 (by decide)
  have hlisted : (Apm.initial : Apm iw).t = [] := rfl
  simp [Apm.get, hstretch, hbin, hcentre, hlisted]

/-- The reset value of a StateMap entry fits its 16 bits (10_state.md R41). -/
theorem smReset_toNat (e : StateEntry) : (smReset e).toNat = 65536 * (e.n1 + 1) / (e.n0 + e.n1 + 2) := by
  have hlt : 65536 * (e.n1 + 1) / (e.n0 + e.n1 + 2) < 2 ^ 16 := (Nat.div_lt_iff_lt_mul (by omega)).mpr (by omega)
  rw [smReset, BitVec.toNat_ofNat, Nat.mod_eq_of_lt hlt]

/-- A state with equal counts stands for the even probability. -/
theorem smReset_even (e : StateEntry) (h : e.n0 = e.n1) : (smReset e).toNat = 32768 := by
  rw [smReset_toNat, h]
  exact Nat.div_eq_of_eq_mul_left (by omega) (by omega)

/-- The first prediction, where state 0 records equal counts: the chain hands the even probability on, and each map is
looked up at the centre bin of its reset context (45_cm_predictor.md R280, R283). -/
theorem predict_initial (tbl : Vector StateEntry 256) (h : (symGet tbl 0).n0 = (symGet tbl 0).n1) :
    (Predictor.initial tbl).predict = { Predictor.initial tbl with
      smIdx := 0
      apm2 := { t := [], idx := 8497 }
      apm3 := { t := [], idx := 49 }
      apm5 := { t := [], idx := 49 }
      apm4 := { t := [], idx := 49 }
      pred := 2048 } := by
  have hstate : symGet (Predictor.initial tbl).states (Predictor.initial tbl).c0 = 0 := symGet_tabulate _ _
  have heven : (symGet (Predictor.initial tbl).sm 0#8).toNat = 32768 := by
    rw [← smReset_even _ h]
    exact congrArg BitVec.toNat (symGet_tabulate _ 0)
  have hkey2 : (Predictor.initial tbl).key2 = 257 := by
    simp [Predictor.key2, Predictor.mflag, Predictor.c1, Predictor.initial]
  have hkey3 : (Predictor.initial tbl).key3 = 1 := by simp [Predictor.key3, Predictor.initial]
  have hkey5 : (Predictor.initial tbl).key5 = 1 := by simp [Predictor.key5, Predictor.initial]
  have hkey4 : (Predictor.initial tbl).key4 = 1 := by simp [Predictor.key4, Predictor.initial]
  have hmaps : (Predictor.initial tbl).apm2 = .initial ∧ (Predictor.initial tbl).apm3 = .initial ∧
      (Predictor.initial tbl).apm5 = .initial ∧ (Predictor.initial tbl).apm4 = .initial := ⟨rfl, rfl, rfl, rfl⟩
  obtain ⟨h2, h3, h5, h4⟩ := hmaps
  simp [Predictor.predict, hstate, heven, hkey2, hkey3, hkey5, hkey4, h2, h3, h5, h4, Apm.get_initial_even]

/-- What reset leaves in a predictor: `Predict` writes index registers and the prediction, and no table (45_cm_predictor.md
R280, R283). -/
theorem resetValues_predictor (tbl : Vector StateEntry 256) : (Predictor.reset tbl).ResetValues tbl where
  states b := symGet_tabulate _ b
  context := ⟨rfl, rfl, rfl, rfl, rfl⟩
  sm b := by
    have hsm : symGet (Predictor.reset tbl).sm b = smReset (symGet tbl b) := by
      refine (symGet_tabulate _ b).trans ?_
      rw [BitVec.ofNat_toNat, BitVec.setWidth_eq]
    rw [hsm, smReset_toNat]
  apm2 c j _ hj := apmReset_bin c j hj
  apm3 c j _ hj := apmReset_bin c j hj
  apm5 c j _ hj := apmReset_bin c j hj
  apm4 c j _ hj := apmReset_bin c j hj
  computed h := by
    rw [Predictor.reset, predict_initial tbl h]
    exact ⟨rfl, rfl, rfl, rfl, rfl, rfl⟩

/-! ## The other tables -/

/-- The flat tables hold the flat code (10_state.md R33). -/
theorem flatCode_flat : FlatCode flatSizes flatCodes := by
  intro b
  refine ⟨symGet_tabulate _ b, (symGet_tabulate _ b).trans ?_⟩
  rw [← BitVec.toNat_setWidth_of_le (by decide : 8 ≤ 32), BitVec.ofNat_toNat, BitVec.setWidth_eq]

/-- What reset leaves in a range coder (10_state.md R37, R38). -/
theorem resetValues_rcCoder : RcCoder.reset.ResetValues := by
  refine ⟨rfl, rfl, fun j hj => ?_, fun i hi => ?_⟩
  · simp only [RcCoder.reset, Aft.reset, tabulate_getElem, BitVec.toNat_ofNat]
    omega
  · simp only [RcCoder.reset, Aft.reset, tabulate_getElem, BitVec.toNat_ofNat]
    omega

/-! ## The whole state -/

/-- Every launch starts from the reset values (70_reset_and_hazards.md R371). -/
theorem resetValues_resetWith (l : Launch) : ResetValues (State.resetWith l) where
  rsp := rfl
  lastFlt := rfl
  ustat u := by cases u <;> rfl
  streams := ⟨rfl, rfl, rfl, rfl, rfl⟩
  modes := ⟨rfl, rfl⟩
  freq b := symGet_tabulate _ b
  codes := ⟨flatCode_flat, flatCode_flat, flatCode_flat⟩
  blocks := ⟨rfl, rfl⟩
  rangeCoders := ⟨resetValues_rcCoder, resetValues_rcCoder, rfl⟩
  intervals := ⟨rfl, rfl, rfl, rfl, rfl⟩
  predictors := ⟨resetValues_predictor _, resetValues_predictor _⟩

/-- The reset values say nothing of the host's actions. -/
theorem ResetValues.withPending {s : State} (h : ResetValues s) (l : List HostAction) :
    ResetValues { s with pending := l } := { h with }

/-- The hardware reset leaves the reset values (70_reset_and_hazards.md R370, R371). -/
theorem resetValues_hardReset (s : State) : ResetValues s.hardReset :=
  (resetValues_resetWith _).withPending s.pending

end Sys2Proof.Machine

/-! SUPPORT. The step by the first host action pending, and the bulk commands by their admission (20_memory.md). -/

namespace Sys2Proof.Machine

/-! ## Steps -/

/-- A step with an action pending takes it. -/
theorem step_of_pending {s : State} {a : HostAction} {rest : List HostAction} (h : s.pending = a :: rest) :
    step s = { s with pending := rest }.take a := by
  unfold step
  rw [h]

/-- A step with no action pending holds the state (60_exceptions.md R357). -/
theorem step_idle {s : State} (h : s.pending = []) : step s = .next s := by
  unfold step
  rw [h]

/-- A table word is presented as it is (log entry 10). -/
theorem step_withFetchWord (s : State) (nbits w : Nat) :
    step (s.withFetchWord nbits w) = s.present (tableWord nbits w) := rfl

/-- What a table word decodes to is what its command word decodes to (log entry 10). -/
theorem decode_tableWord {nbits w : Nat} {i : Instr} (h : decodeTableWord nbits w = some i) :
    decode (tableWord nbits w) = .ok i := by
  unfold decodeTableWord at h
  unfold tableWord
  split at h
  · cases h
    assumption
  · cases h

/-- A host write to a byte that exists stores it (20_memory.md R77, R86). -/
theorem hostWrite_present {s : State} {a : Nat} (h : a < s.cfg.bufSize) (v : Byte) :
    s.hostWrite a v = .next { s with buf := memWrite s.buf a v } := if_pos h

/-- A host write to a byte that does not exist is the model's fault (20_memory.md R77; log entry 5). -/
theorem hostWrite_absent {s : State} {a : Nat} (h : s.cfg.bufSize ≤ a) (v : Byte) :
    s.hostWrite a v = .fault .absentBufAddress := if_neg (Nat.not_lt.mpr h)

/-- One byte written is one byte stored (20_memory.md R71, R72). -/
theorem stored_memWrite (m : List Host.Cell) (a : Nat) (v : Byte) : Stored m (memWrite m a v) a [v] := by
  intro x
  rw [memRead_memWrite]
  by_cases h : x = a
  · subst h
    simp
  · have hout : ¬ (a ≤ x ∧ x < a + [v].length) := by
      rw [List.length_singleton]
      omega
    rw [if_neg h, if_neg hout]

/-! ## The bulk commands -/

/-- A range outside BUF is refused (20_memory.md R71, 47_system_commands.md R333). -/
theorem bounded_outside {s : State} {o l : Word} (h : s.cfg.bufSize < o.toNat + l.toNat) (body : State → State) :
    s.bounded o l body = s.refuse .invalidArgument := by
  rcases bounded_cases s o l body with ⟨hin, _⟩ | ⟨_, e⟩
  · omega
  · exact e

/-- A range inside BUF is admitted (20_memory.md R71, 47_system_commands.md R333). -/
theorem bounded_inside {s : State} {o l : Word} (h : o.toNat + l.toNat ≤ s.cfg.bufSize) (body : State → State) :
    s.bounded o l body = body s := by
  rcases bounded_cases s o l body with ⟨_, e⟩ | ⟨hout, _⟩
  · exact e
  · omega

/-- Every bulk command is the gate of its unit, the bounds test of its range, and a body; at LENGTH 0 the body's loop makes
no pass, so its unit and BUF are put back as they were and 0 is answered (47_system_commands.md R333,
43_huffman_codec.md R196, R197). -/
theorem exec_bulk {i : Instr} {u : UnitId} {o l : Word} (hu : i.unit? = some u) (hb : i.bulk? = some (o, l)) (s : State) :
    ∃ body, exec i s = .next (s.gated u fun s => s.bounded o l body) ∧ (l = 0 → body s = s.answer 0) := by
  cases i with
  | egeEncode o l | hfeEncode o l | rceEncode o l | cmeEncode o l
  | egdDecode o l | hfdDecode o l | rcdDecode o l | cmdDecode o l =>
    cases hu
    cases hb
    refine ⟨_, rfl, ?_⟩
    rintro rfl
    rfl
  | _ => cases hb

end Sys2Proof.Machine

namespace Sys2Proof

open Machine

/-- Settles O11: a live unit passes the gate of every bulk command, and its range then meets the bounds test. -/
theorem bulkCommandsRefuseRangesOutsideBuf : Obligations.BulkCommandsRefuseRangesOutsideBuf := by
  intro i u o l s hu hb hlive
  obtain ⟨body, hexec, hzero⟩ := exec_bulk hu hb s
  rw [hexec, gated_live hlive]
  refine ⟨fun hout => ?_, fun hl ho => ?_⟩
  · rw [bounded_outside hout, ← failed_eq s .invalidArgument (by decide)]
    rfl
  · have hin : o.toNat + l.toNat ≤ s.cfg.bufSize := by
      rw [hl]
      exact ho
    rw [bounded_inside hin, hzero hl, answered_eq]

/-- Settles O5, by what a step does with a command word and what a word that decodes runs. -/
theorem stepRunsThePresentedCommand : Obligations.StepRunsThePresentedCommand := by
  refine ⟨fun s w rest i hpending hdecode => ?_, fun s nbits w i hdecode => ?_⟩
  · exact (step_of_pending hpending).trans (present_ok hdecode _)
  · rw [step_withFetchWord, present_ok (decode_tableWord hdecode)]

/-- Settles O6, action by action; the reset input is the hardware reset. -/
theorem stepTakesHostWritesResetAndIdle : Obligations.StepTakesHostWritesResetAndIdle := by
  refine ⟨fun s rest a v hpending ha => ?_, fun s rest a v hpending ha => ?_, fun s rest hpending => ?_,
    fun s hpending => step_idle hpending⟩
  · exact ⟨memWrite s.buf a v,
      (step_of_pending hpending).trans (hostWrite_present (s := { s with pending := rest }) ha v), stored_memWrite _ _ _⟩
  · exact (step_of_pending hpending).trans (hostWrite_absent (s := { s with pending := rest }) ha v)
  · exact ⟨_, step_of_pending hpending, resetValues_hardReset _, rfl⟩

end Sys2Proof

/-! SUPPORT. The decoder and the encoder of a command word field by field: the opcode alone selects the command, and the
command carries the operand bits its rule names (30_encoding.md R90, R93 to R95). -/

namespace Sys2Proof

open Machine

/-- A narrow operand field, widened to a word, is the operand under the mask of its bits (30_encoding.md R91). -/
theorem setWidth_narrow {w : Nat} (a m : Word) (hm : ∀ i, i < 32 → m.getLsbD i = decide (i < w)) :
    (a.setWidth w).setWidth 32 = a &&& m := by
  apply BitVec.eq_of_getLsbD_eq
  intro i hi
  rw [BitVec.getLsbD_setWidth, BitVec.getLsbD_setWidth, BitVec.getLsbD_and, hm i hi, decide_eq_true hi, Bool.true_and,
    Bool.and_comm]

/-- A narrow operand field does not see the bits outside its mask (30_encoding.md R95). -/
theorem setWidth_masked {w : Nat} (a m : Word) (hm : ∀ i, i < w → m.getLsbD i = true) :
    (a &&& m).setWidth w = a.setWidth w := by
  apply BitVec.eq_of_getLsbD_eq
  intro i hi
  rw [BitVec.getLsbD_setWidth, BitVec.getLsbD_setWidth, BitVec.getLsbD_and, hm i hi, Bool.and_true]

/-- The same command with the operand fields of two other words (10_state.md R22). -/
def Instr.withOperands (i : Instr) (a b : Word) : Instr :=
  match i with
  | .bsWrbit _ => .bsWrbit (a.setWidth 1)
  | .bsWrbits _ _ => .bsWrbits a b
  | .bsRdbits _ => .bsRdbits b
  | .bsClose _ => .bsClose (a.setWidth 1)
  | .egeEncbyte _ => .egeEncbyte (a.setWidth 8)
  | .egeEncode _ _ => .egeEncode a b
  | .egeInit _ => .egeInit a
  | .egdDecode _ _ => .egdDecode a b
  | .egdInit _ => .egdInit a
  | .hcbSetfreq _ _ => .hcbSetfreq (a.setWidth 8) b
  | .hcbGetsize _ => .hcbGetsize (a.setWidth 8)
  | .hcbGetcode _ => .hcbGetcode (a.setWidth 8)
  | .hcbGetfreq _ => .hcbGetfreq (a.setWidth 8)
  | .hfeEncbyte _ => .hfeEncbyte (a.setWidth 8)
  | .hfeEncode _ _ => .hfeEncode a b
  | .hfeInit _ => .hfeInit a
  | .hfdDecode _ _ => .hfdDecode a b
  | .hfdInit _ => .hfdInit a
  | .rceEncbyte _ => .rceEncbyte (a.setWidth 8)
  | .rceEncode _ _ => .rceEncode a b
  | .rcdDecode _ _ => .rcdDecode a b
  | .cmeEncbyte _ => .cmeEncbyte (a.setWidth 8)
  | .cmeEncode _ _ => .cmeEncode a b
  | .cmdDecode _ _ => .cmdDecode a b
  | i => i

/-- The opcode of a command selects it, whatever the operands are (30_encoding.md R93). -/
theorem decodeFields_opcode (i : Instr) (a b : Word) :
    decodeFields (encodeFields i).1 a b = .ok (i.withOperands a b) := by
  cases i <;> rfl

/-- The operands of a command's own encoding give it back (30_encoding.md R90). -/
theorem withOperands_encodeFields (i : Instr) : i.withOperands (encodeFields i).2.1 (encodeFields i).2.2 = i := by
  cases i <;> simp [Instr.withOperands, encodeFields]

/-- The operand bits a command's rule does not name are not read (30_encoding.md R95). -/
theorem withOperands_masked (i : Instr) (a b : Word) :
    i.withOperands (a &&& i.namedBits.1) (b &&& i.namedBits.2) = i.withOperands a b := by
  have bit : (a &&& 1).setWidth 1 = a.setWidth 1 := setWidth_masked a 1 (by decide)
  have byte : (a &&& 0xFF).setWidth 8 = a.setWidth 8 := setWidth_masked a 0xFF (by decide)
  cases i <;> simp only [Instr.withOperands, Instr.namedBits, bit, byte, BitVec.and_allOnes]

/-- A command's encoding carries exactly the bits its rule names (30_encoding.md R91). -/
theorem encodeFields_withOperands (i : Instr) (a b : Word) :
    encodeFields (i.withOperands a b) = ((encodeFields i).1, a &&& i.namedBits.1, b &&& i.namedBits.2) := by
  have bit : (a.setWidth 1).setWidth 32 = a &&& 1 := setWidth_narrow a 1 (by decide)
  have byte : (a.setWidth 8).setWidth 32 = a &&& 0xFF := setWidth_narrow a 0xFF (by decide)
  have none (x : Word) : x &&& 0 = 0 := BitVec.and_zero
  cases i <;> simp only [Instr.withOperands, encodeFields, Instr.namedBits, bit, byte, none, BitVec.and_allOnes]

/-- The opcode of a decoded command is the one it was decoded from: no opcode executes as another (30_encoding.md R94). -/
theorem opcode_of_decodeFields {o : Byte} {a b : Word} {i : Instr} (h : decodeFields o a b = .ok i) :
    (encodeFields i).1 = o := by
  unfold decodeFields at h
  split at h <;> cases h <;> exact (BitVec.eq_of_toNat_eq ‹_›).symm

/-- What a word decodes to, by the encoding of the command: the opcode is the word's, and the operands are the word's under
the masks of the named bits (30_encoding.md R90, R91, R95). -/
theorem decode_eq_ok_iff (w : CmdWord) (i : Instr) :
    decode w = .ok i ↔ encodeFields i = (w.opc, w.opA &&& i.namedBits.1, w.opB &&& i.namedBits.2) := by
  constructor
  · intro h
    have hopc : (encodeFields i).1 = w.opc := opcode_of_decodeFields h
    have hi : i.withOperands w.opA w.opB = i := by
      rw [decode, ← hopc, decodeFields_opcode] at h
      exact Except.ok.inj h
    rw [← hopc, ← encodeFields_withOperands, hi]
  · intro h
    have hopc : w.opc = (encodeFields i).1 := (congrArg Prod.fst h).symm
    have hself := withOperands_encodeFields i
    rw [h, withOperands_masked] at hself
    rw [decode, hopc, decodeFields_opcode, hself]

/-! ## The map of opcodes (30_encoding.md R93, R94) -/

/-- No command has a reserved opcode. -/
theorem reservedOpcode_encodeFields (i : Instr) : reservedOpcode (encodeFields i).1.toNat = false := by
  cases i <;> rfl

/-- Every opcode that is not reserved is that of a command. -/
theorem exists_of_not_reserved : ∀ o : Byte, reservedOpcode o.toNat = false → ∃ i, (encodeFields i).1 = o := by
  have table : ∀ o : Byte, reservedOpcode o.toNat = false → (decodeFields o 0 0).toBool = true := by decide +kernel
  intro o ho
  cases h : decodeFields o 0 0 with
  | ok i => exact ⟨i, opcode_of_decodeFields h⟩
  | error e =>
    have := table o ho
    rw [h] at this
    cases this

/-- A word with a reserved opcode is no command. -/
theorem decode_reserved {w : CmdWord} (h : reservedOpcode w.opc.toNat = true) : ∃ e, decode w = .error e := by
  cases hw : decode w with
  | error e => exact ⟨e, rfl⟩
  | ok i =>
    have hopc : (encodeFields i).1 = w.opc := opcode_of_decodeFields hw
    rw [← hopc, reservedOpcode_encodeFields] at h
    cases h

/-- A word with any other opcode is a command. -/
theorem decode_not_reserved {w : CmdWord} (h : reservedOpcode w.opc.toNat = false) : ∃ i, decode w = .ok i := by
  obtain ⟨j, hj⟩ := exists_of_not_reserved w.opc h
  refine ⟨j.withOperands w.opA w.opB, ?_⟩
  rw [decode, ← hj, decodeFields_opcode]

/-- Settles O1: the fields of the encoded word are the command's, and these decode to it. -/
theorem decodeInvertsEncode : Obligations.DecodeInvertsEncode := by
  intro i
  rw [decode, opc_encode, opA_encode, opB_encode, decodeFields_opcode, withOperands_encodeFields]

/-- Settles O2: two words that agree in the opcode and in the named bits decode alike. -/
theorem decodeReadsOpcodeAndNamedOperandBits : Obligations.DecodeReadsOpcodeAndNamedOperandBits := by
  intro w i h
  rw [decode_eq_ok_iff] at h
  refine ⟨?_, fun w' hopc hA hB => ?_⟩
  · rw [opc_encode, opA_encode, opB_encode, h]
    exact ⟨rfl, rfl, rfl⟩
  · rw [decode_eq_ok_iff, h, hopc, hA, hB]

/-- Settles O3, word by word. -/
theorem wordsFromTheEncodingTableDecode : Obligations.WordsFromTheEncodingTableDecode := by
  unfold Obligations.WordsFromTheEncodingTableDecode
  refine ⟨?_, ?_, ?_, ?_, ?_, ?_, ?_, ?_, ?_, ?_, ?_, ?_⟩ <;> rfl

/-- Settles O4: a reserved opcode is that of no command, and every other opcode is. -/
theorem reservedOpcodesAnswerIllegalCommand : Obligations.ReservedOpcodesAnswerIllegalCommand := by
  refine ⟨fun s w h => ?_, fun w h => ?_, fun o hlo hhi => ?_⟩
  · obtain ⟨e, he⟩ := decode_reserved h
    rw [present_error he, State.illegalCommand, ← failed_eq s .illegalCommand (by decide)]
    rfl
  · obtain ⟨i, hi⟩ := decode_not_reserved h
    refine ⟨i, hi, ?_, fun s => present_ok hi s⟩
    rw [opc_encode]
    exact opcode_of_decodeFields hi
  · simp [reservedOpcode, hlo, hhi]

end Sys2Proof

/-! SUPPORT. The two shapes of a response (30_encoding.md R97): met by each way a command ends, by each skeleton of
47_system_commands.md, and so by every command. -/

namespace Sys2Proof.Machine

/-- A response of one of the two shapes, where LASTFLT was `last` before: a success leaves it, and a failure carries
2^64 - 1 and a code of 1 to 5 and records the code (30_encoding.md R92, R97, 60_exceptions.md R341). -/
def Answers (last : BitVec 3) (t : State) : Prop :=
  (t.rsp.flt = 0 ∧ t.lastFlt = last) ∨
    (t.rsp.flt ≠ 0 ∧ t.rsp.flt.toNat ≤ 5 ∧ t.rsp.r = BitVec.allOnes 64 ∧ t.lastFlt = t.rsp.flt)

/-! ## How a command ends -/

theorem answers_success (s : State) (r : Quad) : Answers s.lastFlt (s.respond r .none) := .inl ⟨rfl, rfl⟩

theorem answers_answer (s : State) (n : Nat) : Answers s.lastFlt (s.answer n) := answers_success s _

/-- A refusal has the second shape, whatever LASTFLT was (60_exceptions.md R345). -/
theorem answers_refuse (last : BitVec 3) (s : State) (c : FaultCode) (hn : c ≠ .none) (hw : c ≠ .writeFail) :
    Answers last (s.refuse c) := by
  have hzero : c.code ≠ 0 := by
    cases c with
    | none => exact absurd rfl hn
    | _ => decide
  have hfive : c.code.toNat ≤ 5 := by
    cases c with
    | writeFail => exact absurd rfl hw
    | _ => decide
  exact .inr ⟨hzero, hfive, rfl, if_neg hn⟩

theorem answers_raise (last : BitVec 3) (s : State) (u : UnitId) (c : FaultCode) (hn : c ≠ .none) (hw : c ≠ .writeFail) :
    Answers last (s.raise u c) := answers_refuse last _ c hn hw

/-- A short write is no failure of the command: it answers a number (60_exceptions.md R344). -/
theorem answers_wrFail (s : State) (u : UnitId) (n : Nat) : Answers s.lastFlt ((s.wrFail u).answer n) := by
  have h := answers_answer (s.wrFail u) n
  rwa [State.wrFail, State.setUstat_lastFlt] at h

theorem answers_endBy (s : State) (u : UnitId) (r : Stop) : Answers s.lastFlt (s.endBy u r) := by
  cases r with
  | endOfStream | invalidStream => exact answers_raise _ s u _ nofun nofun
  | shortWrite => exact answers_wrFail s u 0
  | refused => exact answers_refuse _ s _ nofun nofun
  | noCode => exact answers_answer s 0

theorem answers_endEncode (s : State) (u : UnitId) (n : Nat) (r : Option Stop) :
    Answers s.lastFlt (s.endEncode u n r) := by
  cases r with
  | none => exact answers_answer s n
  | some r =>
    cases r with
    | shortWrite => exact answers_wrFail s u n
    | endOfStream | invalidStream | refused | noCode => exact answers_endBy s u _

theorem answers_refuseIf (s : State) (c : Bool) {t : State} (h : Answers s.lastFlt t) :
    Answers s.lastFlt (if c then s.refuse .invalidArgument else t) := by
  cases c with
  | true => exact answers_refuse _ s _ nofun nofun
  | false => exact h

theorem answers_answerRead (s : State) (x : Run Bsi Nat) : Answers s.lastFlt (s.answerRead x) := by
  cases x with
  | ok v b => exact answers_answer _ v
  | stop r b => exact answers_refuse _ _ _ nofun nofun

/-! ## The skeletons (47_system_commands.md R330 to R337) -/

theorem answers_gated (s : State) (u : UnitId) {body : State → State} (h : Answers s.lastFlt (body s)) :
    Answers s.lastFlt (s.gated u body) := by
  rcases gated_cases s u body with ⟨_, e⟩ | ⟨_, e⟩
  · exact e ▸ h
  · exact e ▸ answers_refuse _ s _ nofun nofun

theorem answers_bounded (s : State) (o l : Word) {body : State → State} (h : Answers s.lastFlt (body s)) :
    Answers s.lastFlt (s.bounded o l body) := by
  rcases bounded_cases s o l body with ⟨_, e⟩ | ⟨_, e⟩
  · exact e ▸ h
  · exact e ▸ answers_refuse _ s _ nofun nofun

section
variable {σ : Type} {part : Part σ} (hput : ∀ t s, (part.put t s).lastFlt = s.lastFlt) (s : State) (u : UnitId)
include hput

theorem answers_single {α : Type} (proc : σ → Run σ α) (result : α → Nat) :
    Answers s.lastFlt (s.single u part proc fun a t => t.answer (result a)) := by
  rcases single_cases s u part proc fun a t => t.answer (result a) with ⟨_, e⟩ | ⟨_, a, t, _, e⟩ | ⟨_, r, t, _, e⟩
  · exact e ▸ answers_refuse _ s _ nofun nofun
  · exact e ▸ hput t s ▸ answers_answer _ _
  · exact e ▸ hput t s ▸ answers_endBy _ u r

theorem answers_encoded (e : Nat × Option Stop × σ) : Answers s.lastFlt ((part.put e.2.2 s).endEncode u e.1 e.2.1) :=
  hput e.2.2 s ▸ answers_endEncode _ u e.1 e.2.1

theorem answers_decoded (l : Word) (x : Run (σ × List Host.Cell) Unit) : Answers s.lastFlt (s.endDecode u part l x) := by
  cases x with
  | ok a t => exact hput t.1 { s with buf := t.2 } ▸ answers_answer _ _
  | stop r t => exact hput t.1 { s with buf := t.2 } ▸ answers_endBy _ u r

theorem answers_bulkEncode (enc : Byte → σ → Run σ Unit) (o l : Word) :
    Answers s.lastFlt (s.bulkEncode u part enc o l) :=
  answers_gated s u (answers_bounded s o l (answers_encoded hput s u _))

theorem answers_bulkDecode (dec : σ → Run σ Byte) (o l : Word) : Answers s.lastFlt (s.bulkDecode u part dec o l) :=
  answers_gated s u (answers_bounded s o l (answers_decoded hput s u l _))

end

theorem answers_disposeUnit (s : State) (u : UnitId) (flush : Bsi → Run Bsi Unit) :
    Answers s.lastFlt (s.disposeUnit u flush) := by
  have hlast := s.setUstat_lastFlt u (s.ustat u).dispose
  unfold State.disposeUnit
  dsimp only
  split
  · exact answers_answer s 0
  · split
    · exact hlast ▸ answers_answer _ 0
    · split
      · exact hlast ▸ answers_answer { s.setUstat u (s.ustat u).dispose with bsi := _ } 0
      · exact answers_raise _ _ u _ nofun nofun

theorem answers_initUnit (s : State) (u : UnitId) {install : State → State}
    (h : (install s).lastFlt = s.lastFlt) : Answers s.lastFlt (s.initUnit u install) := by
  have hlast := (install s).setUstat_lastFlt u .reset
  exact (hlast.trans h) ▸ answers_answer _ 0

/-! ## Every command -/

/-- Every command but SYS_RESET answers in one of the two shapes. -/
theorem exec_answers (i : Instr) (hi : i ≠ .sysReset) (s : State) : ∃ t, exec i s = .next t ∧ Answers s.lastFlt t := by
  cases i with
  | bsWrbit | bsFlush | bsHasmore => exact ⟨_, rfl, answers_answer _ _⟩
  | bsWrbits => exact ⟨_, rfl, answers_refuseIf s _ (answers_answer _ _)⟩
  | bsRdbit => exact ⟨_, rfl, answers_answerRead s _⟩
  | bsRdbits => exact ⟨_, rfl, answers_refuseIf s _ (answers_answerRead s _)⟩
  | bsClose ch =>
    refine ⟨_, rfl, ?_⟩
    cases bitOf ch <;> exact answers_answer _ 0
  | hcbSetfreq | hcbClrfreq | hcbGetsize | hcbGetcode | hcbGetfreq => exact ⟨_, rfl, answers_answer _ _⟩
  | hcbBuild =>
    refine ⟨_, rfl, ?_⟩
    split
    · exact answers_refuse _ s _ nofun nofun
    · exact answers_answer _ _
  | bsWritten | bsRead | sysStatus => exact ⟨_, rfl, answers_success s _⟩
  | egeStatus | egdStatus | hfeStatus | hfdStatus | rceStatus | rcdStatus | cmeStatus | cmdStatus =>
    exact ⟨_, rfl, answers_success s _⟩
  | egeGetbs | egdGetbs | hfeGetbs | hfdGetbs | rceGetbs | rcdGetbs | cmeGetbs | cmdGetbs =>
    exact ⟨_, rfl, answers_answer s _⟩
  | egeDispose | egdDispose | hfeDispose | hfdDispose | rceDispose | rcdDispose | cmeDispose | cmdDispose =>
    exact ⟨_, rfl, answers_disposeUnit s _ _⟩
  | egeInit | egdInit | hfeInit | hfdInit => exact ⟨_, rfl, answers_refuseIf s _ (answers_initUnit s _ rfl)⟩
  | rceInit | rcdInit | cmeInit | cmdInit => exact ⟨_, rfl, answers_initUnit s _ rfl⟩
  | egeEncbyte | hfeEncbyte | hfeUpdate | rceEncbyte | cmeEncbyte =>
    exact ⟨_, rfl, answers_single (fun _ _ => rfl) s _ _ fun _ => 1⟩
  | egdDecbyte | hfdDecbyte | rcdDecbyte | cmdDecbyte =>
    exact ⟨_, rfl, answers_single (fun _ _ => rfl) s _ _ BitVec.toNat⟩
  | hfdReadlen => exact ⟨_, rfl, answers_single (fun _ _ => rfl) s _ _ id⟩
  | egeEncode o l | rceEncode o l | cmeEncode o l => exact ⟨_, rfl, answers_bulkEncode (fun _ _ => rfl) s _ _ o l⟩
  | egdDecode o l | rcdDecode o l | cmdDecode o l => exact ⟨_, rfl, answers_bulkDecode (fun _ _ => rfl) s _ _ o l⟩
  | hfeEncode o l =>
    exact ⟨_, rfl, answers_gated s _ (answers_bounded s o l (answers_encoded (part := hfePart) (fun _ _ => rfl) s _ _))⟩
  | hfdDecode o l =>
    exact ⟨_, rfl, answers_gated s _ (answers_bounded s o l (answers_decoded (part := hfdPart) (fun _ _ => rfl) s _ l _))⟩
  | sysReset => exact absurd rfl hi

end Sys2Proof.Machine

namespace Sys2Proof

open Machine

/-- Settles O9: SYS_RESET answers 0 with LASTFLT reset, and every other command in one of the two shapes. -/
theorem everyCommandAnswersInOneOfTwoShapes : Obligations.EveryCommandAnswersInOneOfTwoShapes := by
  intro i s
  by_cases hi : i = .sysReset
  · subst hi
    exact ⟨_, rfl, .inl ⟨rfl, rfl⟩⟩
  · rw [if_neg hi]
    exact exec_answers i hi s

end Sys2Proof

/-! SUPPORT. Reading what IN continues with: bit by bit, number by number, and the Exp-Golomb code of an integer
(40_bit_stream.md R122, R123; 41_exp_golomb.md R146, R147). -/

namespace Sys2Proof.Machine

/-! ## The read position -/

@[simp] theorem Bsi.advance_zero (b : Bsi) : b.advance 0 = b := by simp [Bsi.advance]

@[simp] theorem Bsi.advance_advance (b : Bsi) (m n : Nat) : (b.advance m).advance n = b.advance (m + n) := by
  simp only [Bsi.advance, BitVec.ofNat_add, BitVec.add_assoc]

/-- RCNT counts the bits consumed as long as it does not wrap (10_state.md R27). -/
theorem Bsi.advance_toNat {b : Bsi} {n : Nat} (h : b.rcnt.toNat + n < 2 ^ 64) :
    (b.advance n).rcnt.toNat = b.rcnt.toNat + n := by
  rw [Bsi.advance_rcnt, BitVec.toNat_add, BitVec.toNat_ofNat]
  omega

/-- IN ends with the given bits, the next bit to read being the first of them. -/
def Bsi.endsIn (b : Bsi) (l : List Bool) : Prop :=
  b.inClosed = false ∧ b.inBits.length < 2 ^ 64 ∧ b.inBits.drop b.rcnt.toNat = l

/-- IN continues with a list and, once it is consumed, with the list behind it. -/
theorem Bsi.continues_append {b : Bsi} {l m : List Bool} (h : b.continues (l ++ m)) :
    b.continues l ∧ (b.advance l.length).continues m := by
  obtain ⟨hopen, ⟨r, hr⟩, hlen⟩ := h
  rw [List.length_append] at hlen
  have hpos : (b.advance l.length).rcnt.toNat = b.rcnt.toNat + l.length := Bsi.advance_toNat (by omega)
  refine ⟨⟨hopen, ⟨m ++ r, by rw [← hr, List.append_assoc]⟩, by omega⟩, hopen, ⟨r, ?_⟩, by omega⟩
  rw [hpos, Bsi.advance_inBits, ← List.drop_drop, ← hr, List.append_assoc, List.drop_left]

/-- IN that ends in two lists continues with the first and, once it is consumed, ends in the second. -/
theorem Bsi.endsIn_append {b : Bsi} {l m : List Bool} (h : b.endsIn (l ++ m)) :
    b.continues l ∧ (b.advance l.length).endsIn m := by
  obtain ⟨hopen, hlen, hdrop⟩ := h
  have htotal : b.inBits.length - b.rcnt.toNat = l.length + m.length := by
    rw [← List.length_append, ← hdrop, List.length_drop]
  have hend : b.rcnt.toNat + l.length < 2 ^ 64 := by
    have := b.rcnt.isLt
    omega
  refine ⟨⟨hopen, ⟨m, hdrop.symm⟩, hend⟩, hopen, hlen, ?_⟩
  rw [Bsi.advance_toNat hend, Bsi.advance_inBits, ← List.drop_drop, hdrop, List.drop_left]

/-- The bits IN ends in are as many as can still be read. -/
theorem Bsi.endsIn_length {b : Bsi} {l : List Bool} (h : b.endsIn l) : l.length = b.inBits.length - b.rcnt.toNat := by
  obtain ⟨_, _, rfl⟩ := h
  rw [List.length_drop]

/-! ## `ReadBit` and `ReadBits` -/

theorem readBit_continues {b : Bsi} {x : Bool} {l : List Bool} (h : b.continues (x :: l)) :
    readBit b = .ok x (b.advance 1) := by
  obtain ⟨hopen, ⟨r, hr⟩, _⟩ := h
  have hget : b.inBits[b.rcnt.toNat]? = some x := by
    rw [← List.head?_drop, ← hr]
    rfl
  obtain ⟨hlt, _⟩ := List.getElem?_eq_some_iff.mp hget
  rw [readBit_eq, if_pos ⟨hopen, hlt⟩, List.getD_eq_getElem?_getD, hget]
  rfl

theorem readBit_end {b : Bsi} (h : b.endsIn []) : readBit b = .stop .endOfStream b := by
  have hlen := Bsi.endsIn_length h
  rw [List.length_nil] at hlen
  rw [readBit_eq, if_neg fun hbit => by omega]

/-- The loop of `ReadBits` reads the low bits of a number, the most significant first (40_bit_stream.md R123). -/
theorem readLoop_continues {b : Bsi} (a v n : Nat) (h : b.continues (bitsMsb v n)) :
    (readLoop a n b).1 = a * 2 ^ n + v % 2 ^ n := by
  induction n generalizing a b with
  | zero => simp [readLoop, Nat.mod_one]
  | succ n ih =>
    have hbit := readBit_continues h
    rw [readBit_eq] at hbit
    split at hbit
    · injection hbit with hget _
      have hrest : (b.advance 1).continues (bitsMsb v n) :=
        (Bsi.continues_append (l := [v.testBit n]) h).2
      rw [readLoop, hget]
      exact (ih (2 * a + (v.testBit n).toNat) hrest).trans (by
        rw [Nat.mod_pow_succ, Nat.toNat_testBit, Nat.pow_succ]
        ring)
    · cases hbit

/-- `ReadBits` reads the number whose low bits IN continues with (40_bit_stream.md R123). -/
theorem readBits_continues {b : Bsi} {v n : Nat} (h : b.continues (bitsMsb v n)) :
    readBits n b = .ok (v % 2 ^ n) (b.advance n) := by
  by_cases hn : n = 0
  · subst hn
    rw [Nat.pow_zero, Nat.mod_one, Bsi.advance_zero]
    rfl
  · obtain ⟨hopen, hprefix, _⟩ := id h
    have hlen := hprefix.length_le
    rw [bitsMsb_length, List.length_drop] at hlen
    rw [readBits_pos n b hn, if_pos ⟨hopen, by omega⟩, readLoop_continues 0 v n h, readLoop_bsi, Nat.zero_mul,
      Nat.zero_add]

/-- `ReadBits` with too few bits left consumes none (40_bit_stream.md R123). -/
theorem readBits_end {b : Bsi} {n : Nat} (hn : n ≠ 0) (h : ¬ b.canRead n) : readBits n b = .stop .endOfStream b := by
  exact (readBits_pos n b hn).trans (if_neg h)

/-! ## The Exp-Golomb code -/

/-- The bits of a code before its sign: L zeros, a 1, the L low bits of m (30_encoding.md R101). -/
def egMagnitude (x : Int) : List Bool :=
  List.replicate (Nat.log2 (x.natAbs + 1)) false ++ true :: bitsMsb (x.natAbs + 1) (Nat.log2 (x.natAbs + 1))

/-- The sign of a code: one bit in signed mode, none for 0 (30_encoding.md R101). -/
def egSign (x : Int) (signed : Bool) : List Bool := if signed && decide (x ≠ 0) then [decide (x < 0)] else []

theorem egCode_eq (x : Int) (signed : Bool) : egCode x signed = egMagnitude x ++ egSign x signed := rfl

theorem egMagnitude_length (x : Int) : (egMagnitude x).length = 2 * Nat.log2 (x.natAbs + 1) + 1 := by
  rw [egMagnitude, List.length_append, List.length_replicate, List.length_cons, bitsMsb_length]
  omega

/-- A magnitude of at most 510 has at most EG_MAXZ leading zeros (41_exp_golomb.md R146). -/
theorem log2_le_egMaxZ {n : Nat} (h : n ≤ 510) : Nat.log2 (n + 1) ≤ Config.egMaxZ := by
  have : Nat.log2 (n + 1) < 9 := (Nat.log2_lt (by omega)).mpr (by omega)
  exact Nat.le_of_lt_succ this

/-- The zeros of a code and the 1 behind them (41_exp_golomb.md R146). -/
theorem egZeros_continues {b : Bsi} {n k : Nat} (hn : n ≤ k) (h : b.continues (List.replicate n false ++ [true])) :
    egZeros k b = .ok n (b.advance (n + 1)) := by
  induction n generalizing b k with
  | zero =>
    have hbit := readBit_continues h
    cases k <;> simp [egZeros, hbit, Run.andThen]
  | succ n ih =>
    obtain ⟨k, rfl⟩ : ∃ j, k = j + 1 := ⟨k - 1, by omega⟩
    rw [List.replicate_succ, List.cons_append] at h
    have hbit := readBit_continues h
    have hrest := ih (k := k) (by omega) (Bsi.continues_append (l := [false]) h).2
    rw [List.length_singleton] at hrest
    simp only [egZeros, hbit, Run.andThen, hrest, Bsi.advance_advance, Bool.false_eq_true, if_false]
    rw [Nat.add_comm 1]

/-- One zero more than allowed is InvalidStream (41_exp_golomb.md R146). -/
theorem egZeros_tooMany {b : Bsi} {k : Nat} (h : b.continues (List.replicate (k + 1) false)) :
    egZeros k b = .stop .invalidStream (b.advance (k + 1)) := by
  rw [List.replicate_succ] at h
  have hbit := readBit_continues h
  induction k generalizing b with
  | zero => simp [egZeros, hbit, Run.andThen]
  | succ k ih =>
    have hnext : (b.advance 1).continues (false :: List.replicate k false) :=
      (Bsi.continues_append (l := [false]) h).2
    have hrest := ih hnext (readBit_continues hnext)
    simp only [egZeros, hbit, Run.andThen, hrest, Bsi.advance_advance, Bool.false_eq_true, if_false]
    rw [Nat.add_comm 1]

/-- IN ending among the zeros of a code is EndOfStream, the zeros consumed (41_exp_golomb.md R146). -/
theorem egZeros_end {b : Bsi} {n k : Nat} (hn : n ≤ k) (h : b.endsIn (List.replicate n false)) :
    egZeros k b = .stop .endOfStream (b.advance n) := by
  induction n generalizing b k with
  | zero =>
    have hbit := readBit_end h
    cases k <;> simp [egZeros, hbit, Run.andThen]
  | succ n ih =>
    obtain ⟨k, rfl⟩ : ∃ j, k = j + 1 := ⟨k - 1, by omega⟩
    obtain ⟨hfirst, hnext⟩ := Bsi.endsIn_append (l := [false]) h
    have hbit := readBit_continues hfirst
    have hrest := ih (k := k) (by omega) hnext
    rw [List.length_singleton] at hrest
    simp only [egZeros, hbit, Run.andThen, hrest, Bsi.advance_advance, Bool.false_eq_true, if_false]
    rw [Nat.add_comm 1]

/-- The magnitude of a code, read up to its sign (41_exp_golomb.md R146, R147). -/
theorem egDecode_magnitude {b : Bsi} {x : Int} (hx : x.natAbs ≤ 510) (signed : Bool) (h : b.continues (egMagnitude x)) :
    egDecode signed b = egFinish signed x.natAbs (b.advance (egMagnitude x).length) := by
  rw [egMagnitude_length]
  unfold egMagnitude at h
  generalize hL : Nat.log2 (x.natAbs + 1) = L at h ⊢
  rw [List.append_cons] at h
  obtain ⟨hzeros, hlow⟩ := Bsi.continues_append h
  rw [List.length_append, List.length_replicate, List.length_singleton] at hlow
  have hmag : 2 ^ L - 1 + (x.natAbs + 1) % 2 ^ L = x.natAbs := by
    have hlo : 2 ^ L ≤ x.natAbs + 1 := (Nat.le_log2 (by omega)).mp (by omega)
    have hhi : x.natAbs + 1 < 2 ^ (L + 1) := (Nat.log2_lt (by omega)).mp (by omega)
    rw [Nat.pow_succ] at hhi
    rw [Nat.mod_eq_sub_mod hlo, Nat.mod_eq_of_lt (by omega)]
    omega
  have hmax : L ≤ Config.egMaxZ := hL ▸ log2_le_egMaxZ hx
  rw [egDecode, egZeros_continues hmax hzeros]
  simp only [Run.andThen]
  rw [readBits_continues hlow]
  dsimp only
  rw [hmag, Bsi.advance_advance, show L + 1 + L = 2 * L + 1 by omega]

/-- A signed code is consumed whole; a value outside -128 to 127 is InvalidStream (41_exp_golomb.md R147). -/
theorem egDecode_signed {b : Bsi} {x : Int} (hx : x.natAbs ≤ 510) (h : b.continues (egCode x true)) :
    egDecode true b = if x < -128 ∨ x > 127 then .stop .invalidStream (b.advance (egCode x true).length)
      else .ok x (b.advance (egCode x true).length) := by
  rw [egCode_eq] at h ⊢
  obtain ⟨hmag, hsign⟩ := Bsi.continues_append h
  rw [egDecode_magnitude hx true hmag, List.length_append, ← Bsi.advance_advance]
  by_cases h0 : x = 0
  · subst h0
    simp [egFinish, egSign]
  · have hs : egSign x true = [decide (x < 0)] := by simp [egSign, h0]
    rw [hs] at hsign ⊢
    have hvalue : (if decide (x < 0) = true then -(x.natAbs : Int) else x.natAbs) = x := by
      by_cases hneg : x < 0
      · simp only [hneg, decide_true, if_true]
        omega
      · simp only [hneg, decide_false, Bool.false_eq_true, if_false]
        omega
    rw [egFinish, if_pos rfl, if_neg (by omega), readBit_continues hsign]
    simp only [Run.andThen, hvalue, List.length_singleton]

/-- Nine zeros are no code (41_exp_golomb.md R146). -/
theorem egDecode_nineZeros {b : Bsi} (signed : Bool) (h : b.continues (List.replicate 9 false)) :
    egDecode signed b = .stop .invalidStream (b.advance 9) := by
  rw [egDecode, egZeros_tooMany (k := Config.egMaxZ) h]
  rfl

/-- IN ending inside a signed code is EndOfStream: single bits are consumed, an incomplete suffix is not
(41_exp_golomb.md R146, R147). -/
theorem egDecode_end {b : Bsi} {x : Int} {part : List Bool} (hx : x.natAbs ≤ 510) (hpart : part <+: egCode x true)
    (hne : part ≠ egCode x true) (h : b.endsIn part) :
    egDecode true b = .stop .endOfStream (b.advance (egEaten x part.length)) := by
  have hlt : part.length < (egCode x true).length := by
    rcases Nat.lt_or_ge part.length (egCode x true).length with hlt | hge
    · exact hlt
    · exact absurd (hpart.eq_of_length_le hge) hne
  have htake : part = (egCode x true).take part.length := List.prefix_iff_eq_take.mp hpart
  have hmax := log2_le_egMaxZ hx
  have hmaglen := egMagnitude_length x
  unfold egEaten
  generalize part.length = k at *
  generalize hL : Nat.log2 (x.natAbs + 1) = L at *
  have hmagnitude : egMagnitude x = List.replicate L false ++ true :: bitsMsb (x.natAbs + 1) L := by
    rw [egMagnitude, hL]
  rw [egCode_eq] at htake hlt
  dsimp only
  by_cases hzeros : k ≤ L
  · have : part = List.replicate k false := by
      rw [htake, List.take_append_of_le_length (by omega), hmagnitude, List.take_append_of_le_length (by simpa using hzeros),
        List.take_replicate, Nat.min_eq_left hzeros]
    rw [egDecode, egZeros_end (by omega) (this ▸ h), if_pos (by omega), Nat.min_eq_left (by omega)]
    rfl
  · by_cases hsuffix : k < 2 * L + 1
    · have : part = (List.replicate L false ++ [true]) ++ (bitsMsb (x.natAbs + 1) L).take (k - (L + 1)) := by
        rw [htake, List.take_append_of_le_length (by omega), hmagnitude, List.append_cons, List.take_append]
        rw [List.take_of_length_le (by simp; omega)]
        simp
      obtain ⟨hone, hrest⟩ := Bsi.endsIn_append (this ▸ h)
      rw [List.length_append, List.length_replicate, List.length_singleton] at hrest
      have hfew : ¬ (b.advance (L + 1)).canRead L := by
        have hlen := Bsi.endsIn_length hrest
        rw [List.length_take, bitsMsb_length] at hlen
        rintro ⟨_, hread⟩
        omega
      rw [egDecode, egZeros_continues hmax hone]
      simp only [Run.andThen]
      rw [readBits_end (by omega) hfew, if_pos hsuffix, Nat.min_eq_right (by omega)]
    · have hx0 : x ≠ 0 := by
        rintro rfl
        simp [egSign] at hlt
        omega
      have hk : k = 2 * L + 1 := by
        rw [List.length_append] at hlt
        have : (egSign x true).length ≤ 1 := by
          unfold egSign
          split <;> simp
        omega
      have : part = egMagnitude x ++ [] := by
        rw [htake, hk, ← hmaglen, List.take_left, List.append_nil]
      obtain ⟨hmag, hsign⟩ := Bsi.endsIn_append (this ▸ h)
      rw [egDecode_magnitude hx true hmag, hmaglen, if_neg hsuffix, hk, egFinish, if_pos rfl, if_neg (by omega),
        readBit_end (hmaglen ▸ hsign)]
      rfl

end Sys2Proof.Machine

/-! SUPPORT. Reading a Huffman block header: the lengths it sends, and the ways it goes wrong (43_huffman_codec.md R194). -/

namespace Sys2Proof.Machine

/-! ## The lengths of a header -/

/-- The deltas IN continues with are read; the header goes on behind them (43_huffman_codec.md R194). -/
theorem readDeltas_continues {b : Bsi} {lens : List Nat} {prev k : Nat} (hprev : prev ≤ 31) (hlens : ∀ n ∈ lens, n ≤ 31)
    (hk : lens.length ≤ k) (h : b.continues (deltaCodes prev lens)) :
    readDeltas k prev b =
      (readDeltas (k - lens.length) (lens.getLastD prev) (b.advance (deltaCodes prev lens).length)).andThen
        fun rest b => .ok (lens ++ rest) b := by
  induction lens generalizing b prev k with
  | nil =>
    simp only [deltaCodes, List.length_nil, Bsi.advance_zero, Nat.sub_zero, List.getLastD_nil, List.nil_append]
    cases readDeltas k prev b <;> rfl
  | cons z lens ih =>
    obtain ⟨k, rfl⟩ : ∃ j, k = j + 1 := ⟨k - 1, by rw [List.length_cons] at hk; omega⟩
    have hz : z ≤ 31 := hlens z List.mem_cons_self
    obtain ⟨hcode, hrest⟩ := Bsi.continues_append h
    have hdelta := egDecode_signed (by omega) hcode
    rw [if_neg (by omega)] at hdelta
    have hlen : (prev : Int) + ((z : Int) - prev) = z := by omega
    have hrange : ¬ ((z : Int) < 0 ∨ (z : Int) > (Config.hufMaxLen : Int)) := by
      rw [Config.hufMaxLen]
      omega
    have hnext := ih hz (fun n hn => hlens n (List.mem_cons_of_mem _ hn)) (Nat.le_of_succ_le_succ hk) hrest
    rw [Bsi.advance_advance] at hnext
    simp only [readDeltas, hdelta, Run.andThen, hlen, hrange, if_false, Int.toNat_natCast, hnext, deltaCodes,
      List.length_append, List.length_cons, Nat.add_sub_add_right, List.getLastD_cons]
    cases readDeltas (k - lens.length) (lens.getLastD z) _ <;> rfl

/-- The lengths a header's start sends are read; the header goes on behind them (43_huffman_codec.md R194). -/
theorem readHeader_continues {b : Bsi} {lens : List Nat} (hne : lens ≠ []) (hlens : ∀ n ∈ lens, n ≤ 31)
    (hk : lens.length ≤ 256) (h : b.continues (headerStart lens)) :
    readHeader b =
      (readDeltas (256 - lens.length) (lens.getLastD 0) (b.advance (headerStart lens).length)).andThen fun rest b =>
        .ok (tabulate 256 fun i => BitVec.ofNat 5 ((lens ++ rest).getD i 0)) b := by
  cases lens with
  | nil => exact absurd rfl hne
  | cons z lens =>
    have hz : z ≤ 31 := hlens z List.mem_cons_self
    obtain ⟨hfirst, hdeltas⟩ := Bsi.continues_append (l := bitsMsb z 5) (m := deltaCodes z lens) h
    have hread := readBits_continues hfirst
    rw [Nat.mod_eq_of_lt (by omega)] at hread
    rw [bitsMsb_length] at hdeltas
    rw [List.length_cons] at hk
    have hrest := readDeltas_continues (k := 255) hz (fun n hn => hlens n (List.mem_cons_of_mem _ hn)) (by omega) hdeltas
    have hlength : (headerStart (z :: lens)).length = 5 + (deltaCodes z lens).length := by
      rw [headerStart, List.length_append, bitsMsb_length]
      rfl
    rw [readHeader, show Config.hufLenBits = 5 from rfl, hread]
    simp only [Run.andThen]
    rw [hrest, Bsi.advance_advance, hlength, List.length_cons, List.getLastD_cons,
      show 256 - (lens.length + 1) = 255 - lens.length by omega]
    cases readDeltas (255 - lens.length) (lens.getLastD z) _ <;> rfl

/-- The header of a table is read back whole (43_huffman_codec.md R192, R194). -/
theorem readHeader_table {b : Bsi} {z : Vector (BitVec 5) 256} (h : b.continues (headerBits z)) :
    readHeader b = .ok z (b.advance (headerBits z).length) := by
  have hlength : (z.toList.map BitVec.toNat).length = 256 := by rw [List.length_map, Vector.length_toList]
  have hne : z.toList.map BitVec.toNat ≠ [] := List.ne_nil_of_length_pos (by omega)
  have hlens : ∀ n ∈ z.toList.map BitVec.toNat, n ≤ 31 := by
    intro n hn
    obtain ⟨v, _, rfl⟩ := List.mem_map.mp hn
    have := v.isLt
    omega
  rw [readHeader_continues hne hlens (by omega) h, hlength, Nat.sub_self]
  refine congrArg (Run.ok · _) (Vector.ext fun i hi => ?_)
  simp [hi]

/-- A header whose deltas stop stops with them (43_huffman_codec.md R194). -/
theorem readHeader_stop {b : Bsi} {lens : List Nat} {r : Stop} {n : Nat} (hne : lens ≠ []) (hlens : ∀ n ∈ lens, n ≤ 31)
    (hk : lens.length ≤ 255) (h : b.continues (headerStart lens))
    (hstop : ∀ k, readDeltas (k + 1) (lens.getLastD 0) (b.advance (headerStart lens).length) =
      .stop r ((b.advance (headerStart lens).length).advance n)) :
    readHeader b = .stop r (b.advance ((headerStart lens).length + n)) := by
  obtain ⟨k, hrest⟩ : ∃ k, 256 - lens.length = k + 1 := ⟨255 - lens.length, by omega⟩
  rw [readHeader_continues hne hlens (by omega) h, hrest, hstop, Bsi.advance_advance]
  rfl

/-- A delta that cannot be decoded ends the header (43_huffman_codec.md R194). -/
theorem readDeltas_stop {b b' : Bsi} {r : Stop} (h : egDecode true b = .stop r b') (k prev : Nat) :
    readDeltas (k + 1) prev b = .stop r b' := by
  rw [readDeltas, h]
  rfl

/-- A delta that leads outside 0 .. 31 is InvalidStream once its code is consumed (43_huffman_codec.md R194). -/
theorem readDeltas_outside {b : Bsi} {d : Int} {prev : Nat} (hd : d.natAbs ≤ 510)
    (hout : (prev : Int) + d < 0 ∨ 31 < (prev : Int) + d) (h : b.continues (egCode d true)) (k : Nat) :
    readDeltas (k + 1) prev b = .stop .invalidStream (b.advance (egCode d true).length) := by
  have hdelta := egDecode_signed hd h
  split at hdelta
  · exact readDeltas_stop hdelta k prev
  · simp only [readDeltas, hdelta, Run.andThen]
    exact if_pos hout

/-! ## `HFD_READLEN` -/

section
variable {s : State} (hlive : Live s .hfd)
include hlive

/-- A header read in full is installed if its lengths are valid, and InvalidStream if not (43_huffman_codec.md R194). -/
theorem execHfdReadlen_table {z : Vector (BitVec 5) 256} {b : Bsi} (h : readHeader s.bsi = .ok z b) :
    execHfdReadlen s = .next (if lengthsValid z then
        answered { s with bsi := b, hfd := { s.hfd with sizes := z, codes := assignCodes z } } (codedCount z)
      else failed (died { s with bsi := b } .hfd 2) 2) := by
  unfold execHfdReadlen State.single
  rw [gated_live hlive]
  cases hv : lengthsValid z <;> simp [hfdPart, hfReadLengths, h, Run.within, Run.andThen, hv, answered_eq, endBy_eq]

/-- A header that goes wrong kills the unit and leaves its tables (43_huffman_codec.md R194). -/
theorem execHfdReadlen_stop {r : Stop} {b : Bsi} (h : readHeader s.bsi = .stop r b) :
    execHfdReadlen s = .next ({ s with bsi := b }.endBy .hfd r) := by
  unfold execHfdReadlen State.single
  rw [gated_live hlive]
  simp [hfdPart, hfReadLengths, h, Run.within, Run.andThen]

end

end Sys2Proof.Machine

namespace Sys2Proof

open Machine

/-- Settles O34: the header is read length by length, and `HfReadLengths` installs what was read or stops with it. -/
theorem readLengthsInvertsTheHeader : Obligations.ReadLengthsInvertsTheHeader := by
  refine ⟨fun s z hlive h => ?_, fun s hlive h => ?_, fun s lens hlive hne hk hlens => ⟨?_, ?_, ?_⟩⟩
  · have hexec := execHfdReadlen_table hlive (readHeader_table h)
    have hcount : codedCount z = (z.toList.filter fun n => decide (n ≠ 0)).length := List.countP_eq_length_filter
    refine ⟨fun hv => ?_, fun hv => ?_⟩
    · rw [if_pos hv, hcount] at hexec
      exact hexec
    · rw [if_neg (by simp [hv])] at hexec
      exact hexec
  · have hread : readHeader s.bsi = .stop .endOfStream s.bsi := by
      rw [readHeader, readBits_end (n := Config.hufLenBits) (by decide) h]
      rfl
    exact execHfdReadlen_stop hlive hread
  · intro d hd hout h
    obtain ⟨hstart, hdelta⟩ := Bsi.continues_append h
    exact execHfdReadlen_stop hlive
      (readHeader_stop hne hlens hk hstart fun k => readDeltas_outside hd hout hdelta k)
  · intro h
    obtain ⟨hstart, hzeros⟩ := Bsi.continues_append h
    exact execHfdReadlen_stop hlive
      (readHeader_stop hne hlens hk hstart fun k => readDeltas_stop (egDecode_nineZeros true hzeros) k _)
  · intro d part hd hpart hcut hopen hlen hdrop
    obtain ⟨hstart, hend⟩ := Bsi.endsIn_append (b := s.bsi) ⟨hopen, hlen, hdrop⟩
    exact execHfdReadlen_stop hlive
      (readHeader_stop hne hlens hk hstart fun k => readDeltas_stop (egDecode_end hd hpart hcut hend) k _)

end Sys2Proof

/-! SUPPORT. Writing a list of bits: how the sink takes it, and the procedures of HFE as the lists they offer
(40_bit_stream.md R121; 41_exp_golomb.md R142; 43_huffman_codec.md R191, R192). -/

namespace Sys2Proof.Machine

/-! ## Offering bits to OUT -/

/-- OUT accepts the whole of a bit list: `Fits`, of the stream alone. -/
def Bsi.takes (b : Bsi) (l : List Bool) : Prop := b.room l.length = l.length

/-- The stream after a bit list is offered to OUT: `emitted`, of the stream alone. -/
def Bsi.offer (b : Bsi) (l : List Bool) : Bsi := b.append (l.take (b.room l.length))

theorem fits_iff (s : State) (l : List Bool) : Fits s l ↔ s.bsi.takes l := Iff.rfl

theorem emitted_eq (s : State) (l : List Bool) : emitted s l = { s with bsi := s.bsi.offer l } := rfl

theorem Bsi.append_append (b : Bsi) (l m : List Bool) : (b.append l).append m = b.append (l ++ m) := by
  simp only [Bsi.append, List.append_assoc, List.length_append, BitVec.ofNat_add, BitVec.add_assoc]

theorem Bsi.takes_nil (b : Bsi) : b.takes [] := Nat.le_zero.mp (room_le b 0)

/-- A list that fits is appended whole. -/
theorem Bsi.offer_of_takes {b : Bsi} {l : List Bool} (h : b.takes l) : b.offer l = b.append l := by
  rw [Bsi.offer, h, List.take_length]

/-- The room behind a list that fits is what is left of it (40_bit_stream.md R121). -/
theorem room_append {b : Bsi} {l : List Bool} (h : b.takes l) (n : Nat) :
    l.length + (b.append l).room n = b.room (l.length + n) := by
  unfold Bsi.takes Bsi.room at h
  unfold Bsi.room
  rw [Bsi.append_outClosed, Bsi.append_outCap, Bsi.append_out, List.length_append]
  cases hc : b.outClosed with
  | true =>
    rw [hc, if_pos rfl] at h
    simp [← h]
  | false =>
    rw [hc, if_neg nofun] at h
    rw [if_neg nofun, if_neg nofun]
    cases hcap : b.outCap with
    | none => rfl
    | some cap =>
      rw [hcap] at h
      dsimp only at h ⊢
      omega

/-- Where a list does not fit, there is no more room for a longer one (40_bit_stream.md R121). -/
theorem room_of_not_takes {b : Bsi} {l : List Bool} (h : ¬ b.takes l) (n : Nat) :
    b.room (l.length + n) = b.room l.length := by
  unfold Bsi.takes Bsi.room at h
  unfold Bsi.room
  cases hc : b.outClosed with
  | true => rfl
  | false =>
    rw [hc, if_neg nofun] at h
    rw [if_neg nofun, if_neg nofun]
    cases hcap : b.outCap with
    | none =>
      rw [hcap] at h
      exact absurd rfl h
    | some cap =>
      rw [hcap] at h
      dsimp only at h ⊢
      omega

/-- Two lists fit where the first does and the second fits behind it. -/
theorem Bsi.takes_append {b : Bsi} {l m : List Bool} (h : b.takes l) :
    (b.append l).takes m ↔ b.takes (l ++ m) := by
  have hroom := room_append h m.length
  unfold Bsi.takes at *
  rw [List.length_append]
  omega

theorem Bsi.offer_append {b : Bsi} {l : List Bool} (h : b.takes l) (m : List Bool) :
    (b.append l).offer m = b.offer (l ++ m) := by
  rw [Bsi.offer, Bsi.offer, Bsi.append_append, List.length_append, ← room_append h, List.take_append,
    List.take_of_length_le (Nat.le_add_right _ _), Nat.add_sub_cancel_left]

/-- A list that does not fit keeps what follows it out (40_bit_stream.md R121). -/
theorem Bsi.not_takes_append {b : Bsi} {l : List Bool} (h : ¬ b.takes l) (m : List Bool) : ¬ b.takes (l ++ m) := by
  have hroom := room_of_not_takes h m.length
  have hle := room_le b l.length
  unfold Bsi.takes at *
  rw [List.length_append, hroom]
  omega

theorem Bsi.offer_append_of_not_takes {b : Bsi} {l : List Bool} (h : ¬ b.takes l) (m : List Bool) :
    b.offer (l ++ m) = b.offer l := by
  rw [Bsi.offer, Bsi.offer, List.length_append, room_of_not_takes h, List.take_append_of_le_length (room_le b _)]

/-! ## Procedures that offer a list of bits -/

/-- A procedure writes a list of bits: it ends where the list fits, and with a short write where it does not; in both cases
the sink has what it takes of it (40_bit_stream.md R121, 60_exceptions.md R344). -/
structure Offers (proc : Bsi → Run Bsi Unit) (l : List Bool) : Prop where
  full : ∀ b, b.takes l → proc b = .ok () (b.append l)
  short : ∀ b, ¬ b.takes l → proc b = .stop .shortWrite (b.offer l)

theorem offers_nil : Offers (fun b => .ok () b) [] where
  full b _ := by simp [Bsi.append]
  short b h := absurd b.takes_nil h

theorem offers_writeAll (v n : Nat) : Offers (writeAll v n) (bitsMsb v n) where
  full b h := by
    unfold Bsi.takes at h
    rw [bitsMsb_length] at h
    rw [writeAll_eq, if_pos h]
  short b h := by
    unfold Bsi.takes at h
    rw [bitsMsb_length] at h
    rw [writeAll_eq, if_neg h, Bsi.offer, bitsMsb_length]

theorem Offers.andThen {p q : Bsi → Run Bsi Unit} {l m : List Bool} (hp : Offers p l) (hq : Offers q m) :
    Offers (fun b => (p b).andThen fun _ b => q b) (l ++ m) where
  full b h := by
    have hl : b.takes l := by
      by_contra hn
      exact Bsi.not_takes_append hn m h
    rw [hp.full b hl, ← Bsi.append_append]
    exact hq.full _ ((Bsi.takes_append hl).mpr h)
  short b h := by
    by_cases hl : b.takes l
    · rw [hp.full b hl, ← Bsi.offer_append hl]
      exact hq.short _ fun hm => h ((Bsi.takes_append hl).mp hm)
    · rw [hp.short b hl, Bsi.offer_append_of_not_takes hl]
      rfl

/-! ## The Exp-Golomb code and the header -/

/-- The bits of a number are its upper bits and then its lower ones. -/
theorem bitsMsb_add (v i j : Nat) : bitsMsb v (i + j) = bitsMsb (v >>> j) i ++ bitsMsb v j := by
  induction i with
  | zero => simp [bitsMsb]
  | succ i ih =>
    rw [Nat.succ_add, bitsMsb, ih, bitsMsb, Nat.testBit_shiftRight, Nat.add_comm j]
    rfl

theorem bitsMsb_one (n : Nat) : bitsMsb 1 (n + 1) = List.replicate n false ++ [true] := by
  induction n with
  | zero => rfl
  | succ n ih =>
    have hbit : Nat.testBit 1 (n + 1) = false := Nat.testBit_lt_two_pow (Nat.one_lt_two_pow (by omega))
    rw [bitsMsb, ih, hbit, List.replicate_succ, List.cons_append]

/-- A number in 2L + 1 bits is L zeros, a 1, and its L low bits, L + 1 being its own width (41_exp_golomb.md R142). -/
theorem bitsMsb_magnitude (m : Nat) (hm : m ≠ 0) :
    bitsMsb m (2 * Nat.log2 m + 1) = List.replicate (Nat.log2 m) false ++ true :: bitsMsb m (Nat.log2 m) := by
  have htop : m >>> Nat.log2 m = 1 := by
    rw [Nat.shiftRight_eq_div_pow]
    have hlo := Nat.log2_self_le hm
    have hhi := Nat.lt_log2_self (n := m)
    rw [Nat.pow_succ] at hhi
    exact Nat.div_eq_of_lt_le (by omega) (by omega)
  rw [show 2 * Nat.log2 m + 1 = (Nat.log2 m + 1) + Nat.log2 m by omega, bitsMsb_add, htop, bitsMsb_one,
    List.append_assoc, List.singleton_append]

/-- `EgEncode` writes the code of the integer (41_exp_golomb.md R142, 30_encoding.md R101). -/
theorem offers_egEncode (x : Int) (signed : Bool) : Offers (egEncode x signed) (egCode x signed) := by
  have hmag := bitsMsb_magnitude (x.natAbs + 1) (by omega)
  unfold egEncode egCode
  dsimp only
  by_cases hsign : (signed && decide (x ≠ 0)) = true
  · simp only [hsign, if_true]
    have hbit : bitsMsb (2 * (x.natAbs + 1) + if x < 0 then 1 else 0) 1 = [decide (x < 0)] := by
      by_cases hx : x < 0 <;> simp [bitsMsb, hx, Nat.testBit_zero]
    have hhalf : (2 * (x.natAbs + 1) + if x < 0 then 1 else 0) >>> 1 = x.natAbs + 1 := by
      rw [Nat.shiftRight_eq_div_pow]
      split <;> omega
    rw [← hmag, ← hbit, ← congrArg (bitsMsb · _) hhalf, ← bitsMsb_add]
    exact offers_writeAll _ _
  · simp only [hsign, Bool.false_eq_true, if_false, List.append_nil]
    rw [← hmag]
    exact offers_writeAll _ _

theorem offers_writeDeltas (prev : Nat) (lens : List Nat) : Offers (writeDeltas prev lens) (deltaCodes prev lens) := by
  induction lens generalizing prev with
  | nil => exact offers_nil
  | cons z lens ih => exact (offers_egEncode _ true).andThen (ih z)

/-- `HfWriteHeader` writes the header of the table (43_huffman_codec.md R192, 30_encoding.md R102). -/
theorem offers_hfWriteHeader (z : Vector (BitVec 5) 256) : Offers (hfWriteHeader z) (headerBits z) :=
  (offers_writeAll _ _).andThen (offers_writeDeltas _ _)

end Sys2Proof.Machine

/-! SUPPORT. When a build is not refused: the merges take the two lightest nodes, so a tree of height h weighs at least
Fibonacci number h + 2, and a total below the 34th Fibonacci number leaves no length above 31 (42_huffman_code_builder.md
R172, R174). -/

namespace Sys2Proof.Machine

/-! ## The height of a tree -/

/-- The height of a tree: the depth of its deepest leaf. -/
def HTree.height : HTree → Nat
  | .leaf _ => 0
  | .node l r => max l.height r.height + 1

theorem depth_le_height (t : HTree) (d : Nat) : ∀ p ∈ t.depths d, p.2 ≤ d + t.height := by
  induction t generalizing d with
  | leaf s => simp [HTree.depths, HTree.height]
  | node l r ihl ihr =>
    intro p hp
    rw [HTree.height]
    rcases List.mem_append.mp hp with hp | hp
    · have := ihl (d + 1) p hp
      omega
    · have := ihr (d + 1) p hp
      omega

/-! ## The two queues -/

/-- No pending node is lighter than the second-heaviest child of another could be: in Fibonacci numbers of the heights. -/
def Pending.Apart (x y : Pending) : Prop :=
  Nat.fib (x.2.height + 1) ≤ y.1 ∧ Nat.fib (y.2.height + 1) ≤ x.1

theorem Pending.Apart.symm {x y : Pending} (h : x.Apart y) : y.Apart x := And.symm h

/-- What holds of the two queues between merges (42_huffman_code_builder.md R172): both go by weight, a node of height h
weighs at least Fibonacci number h + 2, any other at least Fibonacci number h + 1, and no merged node weighs more than the
next two picks together. -/
structure Merging (q1 q2 : List Pending) : Prop where
  leaves : q1.Pairwise fun x y => x.1 ≤ y.1
  merged : q2.Pairwise fun x y => x.1 ≤ y.1
  heavy : ∀ p ∈ q1 ++ q2, Nat.fib (p.2.height + 2) ≤ p.1
  apart : (q1 ++ q2).Pairwise Pending.Apart
  recent : ∀ z ∈ q2, (q1 ++ q2).Pairwise fun x y => z.1 ≤ x.1 + y.1

/-- `PopMin` takes the head of one queue and leaves the other (42_huffman_code_builder.md R172). -/
theorem popMin_cases {q1 q2 r1 r2 : List Pending} {a : Pending} (h : popMin q1 q2 = some (a, r1, r2)) :
    (q1 = a :: r1 ∧ q2 = r2 ∧ ∀ y ∈ q2.head?, a.1 ≤ y.1) ∨ (q2 = a :: r2 ∧ q1 = r1 ∧ ∀ y ∈ q1.head?, a.1 ≤ y.1) := by
  unfold popMin at h
  split at h
  · cases h
  · cases h
    exact .inl ⟨rfl, rfl, nofun⟩
  · cases h
    exact .inr ⟨rfl, rfl, nofun⟩
  · split at h
    · rename_i hle
      cases h
      exact .inl ⟨rfl, rfl, by simpa using hle⟩
    · rename_i hlt
      cases h
      exact .inr ⟨rfl, rfl, by simpa using Nat.le_of_not_le hlt⟩

/-- The head of a queue is its lightest node. -/
theorem le_of_le_head {q : List Pending} {w : Nat} (hq : q.Pairwise fun x y => x.1 ≤ y.1) (h : ∀ y ∈ q.head?, w ≤ y.1) :
    ∀ y ∈ q, w ≤ y.1 := by
  cases q with
  | nil => exact nofun
  | cons x q =>
    have hx : w ≤ x.1 := h x rfl
    intro y hy
    rcases List.mem_cons.mp hy with rfl | hy
    · exact hx
    · exact hx.trans ((List.pairwise_cons.mp hq).1 y hy)

/-- `PopMin` takes the lightest node of two queues that go by weight. -/
theorem popMin_least {q1 q2 r1 r2 : List Pending} {a : Pending} (h1 : q1.Pairwise fun x y => x.1 ≤ y.1)
    (h2 : q2.Pairwise fun x y => x.1 ≤ y.1) (h : popMin q1 q2 = some (a, r1, r2)) :
    (∀ y ∈ r1 ++ r2, a.1 ≤ y.1) ∧ r1.Sublist q1 ∧ r2.Sublist q2 := by
  rcases popMin_cases h with ⟨rfl, rfl, hhead⟩ | ⟨rfl, rfl, hhead⟩
  · refine ⟨fun y hy => ?_, List.sublist_cons_self a r1, .refl _⟩
    rcases List.mem_append.mp hy with hy | hy
    · exact (List.pairwise_cons.mp h1).1 y hy
    · exact le_of_le_head h2 hhead y hy
  · refine ⟨fun y hy => ?_, .refl _, List.sublist_cons_self a r2⟩
    rcases List.mem_append.mp hy with hy | hy
    · exact le_of_le_head h1 hhead y hy
    · exact (List.pairwise_cons.mp h2).1 y hy

/-- The node made of two picks. -/
def mergedNode (a b : Pending) : Pending := (a.1 + b.1, .node a.2 b.2)

/-- A node made of two picks weighs at least the next Fibonacci number: the taller pick by its height, the other by being
apart from it. -/
theorem fib_le_mergedNode {a b : Pending} (ha : Nat.fib (a.2.height + 2) ≤ a.1) (hb : Nat.fib (b.2.height + 2) ≤ b.1)
    (h : a.Apart b) : Nat.fib ((mergedNode a b).2.height + 2) ≤ (mergedNode a b).1 := by
  obtain ⟨hab, hba⟩ := h
  have hfib (n : Nat) : Nat.fib (n + 1 + 2) = Nat.fib (n + 1) + Nat.fib (n + 2) := Nat.fib_add_two
  show Nat.fib (max a.2.height b.2.height + 1 + 2) ≤ a.1 + b.1
  rcases Nat.le_total b.2.height a.2.height with hle | hle
  · rw [Nat.max_eq_left hle, hfib]
    omega
  · rw [Nat.max_eq_right hle, hfib]
    omega

/-- What a merge leaves pending: all but the two picks, and at the end the node made of them. -/
theorem Merging.next {q1 q2 r1 r2 t1 t2 : List Pending} {a b : Pending} (h : Merging q1 q2)
    (ha : popMin q1 q2 = some (a, r1, r2)) (hb : popMin r1 r2 = some (b, t1, t2)) :
    (q1 ++ q2).Perm (a :: b :: (t1 ++ t2)) ∧ Merging t1 (t2 ++ [mergedNode a b]) := by
  have hperm : (q1 ++ q2).Perm (a :: b :: (t1 ++ t2)) := (popMin_perm ha).trans ((popMin_perm hb).cons a)
  obtain ⟨hamin, hr1, hr2⟩ := popMin_least h.leaves h.merged ha
  obtain ⟨hbmin, ht1, ht2⟩ := popMin_least (h.leaves.sublist hr1) (h.merged.sublist hr2) hb
  have hrest : ∀ y ∈ t1 ++ t2, a.1 ≤ y.1 := fun y hy => hamin y ((ht1.append ht2).subset hy)
  have hheavy : ∀ p ∈ a :: b :: (t1 ++ t2), Nat.fib (p.2.height + 2) ≤ p.1 := fun p hp => h.heavy p (hperm.mem_iff.mpr hp)
  have hapart : (a :: b :: (t1 ++ t2)).Pairwise Pending.Apart := h.apart.perm hperm Pending.Apart.symm
  have hrecent : ∀ z ∈ t2, (a :: b :: (t1 ++ t2)).Pairwise fun x y => z.1 ≤ x.1 + y.1 := fun z hz =>
    (h.recent z (hr2.subset (ht2.subset hz))).perm hperm fun hxy => by omega
  rw [List.pairwise_cons, List.pairwise_cons] at hapart
  obtain ⟨haapart, hbapart, htapart⟩ := hapart
  have hpicks : ∀ z ∈ t2, z.1 ≤ (mergedNode a b).1 := fun z hz =>
    (List.pairwise_cons.mp (hrecent z hz)).1 b List.mem_cons_self
  have hnew := fib_le_mergedNode (hheavy a List.mem_cons_self) (hheavy b (List.mem_cons_of_mem a List.mem_cons_self))
    (haapart b List.mem_cons_self)
  refine ⟨hperm, h.leaves.sublist (ht1.trans hr1), ?_, ?_, ?_, ?_⟩
  · rw [List.pairwise_append]
    exact ⟨h.merged.sublist (ht2.trans hr2), List.pairwise_singleton _ _, by simpa using hpicks⟩
  · rw [← List.append_assoc]
    intro p hp
    rcases List.mem_append.mp hp with hp | hp
    · exact hheavy p (List.mem_cons_of_mem a (List.mem_cons_of_mem b hp))
    · rw [List.mem_singleton.mp hp]
      exact hnew
  · rw [← List.append_assoc, List.pairwise_append]
    refine ⟨htapart, List.pairwise_singleton _ _, fun y hy x hx => ?_⟩
    rw [List.mem_singleton.mp hx]
    have hya := hrest y hy
    have hyb := hbmin y hy
    have hfa := hheavy a List.mem_cons_self
    have hfb := hheavy b (List.mem_cons_of_mem a List.mem_cons_self)
    have hfy := (haapart y (List.mem_cons_of_mem b hy)).2
    refine ⟨hfy.trans (Nat.le_add_right _ _), ?_⟩
    show Nat.fib (max a.2.height b.2.height + 1 + 1) ≤ y.1
    rcases Nat.le_total b.2.height a.2.height with hle | hle
    · rw [Nat.max_eq_left hle]
      exact hfa.trans hya
    · rw [Nat.max_eq_right hle]
      exact hfb.trans hyb
  · rw [← List.append_assoc]
    intro z hz
    rw [List.pairwise_append]
    rcases List.mem_append.mp hz with hz | hz
    · have hold := hrecent z hz
      rw [List.pairwise_cons, List.pairwise_cons] at hold
      obtain ⟨_, _, hold⟩ := hold
      refine ⟨hold, List.pairwise_singleton _ _, fun y _ x hx => ?_⟩
      rw [List.mem_singleton.mp hx]
      exact (hpicks z hz).trans (Nat.le_add_left _ _)
    · rw [List.mem_singleton.mp hz]
      refine ⟨List.pairwise_of_forall_mem_list fun x hx y hy => Nat.add_le_add (hrest x hx) (hbmin y hy),
        List.pairwise_singleton _ _, fun y _ x hx => ?_⟩
      rw [List.mem_singleton.mp hx]
      exact Nat.le_add_left _ _

/-- The tree of a build weighs at least the Fibonacci number of its height (42_huffman_code_builder.md R174). -/
theorem fib_height_le {fuel : Nat} {q1 q2 : List Pending} {t : HTree} (hq : Merging q1 q2)
    (h : mergeNodes fuel q1 q2 = some t) : Nat.fib (t.height + 2) ≤ ((q1 ++ q2).map Prod.fst).sum := by
  induction fuel generalizing q1 q2 with
  | zero => cases h
  | succ fuel ih =>
    unfold mergeNodes at h
    split at h
    · cases h
    · rename_i a r1 r2 ha
      split at h
      · rename_i hb
        cases h
        have hperm := popMin_perm ha
        rw [popMin_none hb] at hperm
        rw [(hperm.map _).sum_eq]
        simpa using hq.heavy a (hperm.mem_iff.mpr List.mem_cons_self)
      · rename_i b t1 t2 hb
        obtain ⟨hperm, hnext⟩ := hq.next ha hb
        refine (ih hnext h).trans (Nat.le_of_eq ?_)
        rw [(hperm.map _).sum_eq]
        simp [mergedNode]
        omega

/-- The merges end with one node (42_huffman_code_builder.md R172). -/
theorem mergeNodes_isSome {fuel : Nat} {q1 q2 : List Pending} (hpos : 0 < (q1 ++ q2).length)
    (hfuel : (q1 ++ q2).length ≤ fuel) : ∃ t, mergeNodes fuel q1 q2 = some t := by
  induction fuel generalizing q1 q2 with
  | zero => omega
  | succ fuel ih =>
    unfold mergeNodes
    split
    · rename_i ha
      rw [popMin_none ha] at hpos
      exact absurd hpos (Nat.lt_irrefl 0)
    · rename_i a r1 r2 ha
      split
      · exact ⟨_, rfl⟩
      · rename_i b t1 t2 hb
        have hlen := ((popMin_perm ha).trans ((popMin_perm hb).cons a)).length_eq
        simp only [List.length_append, List.length_cons] at hlen hfuel
        refine ih ?_ ?_ <;> simp only [List.length_append, List.length_singleton] <;> omega

/-! ## The build -/

/-- The present symbols have a frequency of at least 1, and go by it (42_huffman_code_builder.md R171). -/
theorem presentLeaves_sorted (freq : Vector Word 256) : (presentLeaves freq).Pairwise fun x y => x.1 ≤ y.1 := by
  have : Std.Total leafBefore := ⟨fun x y => by unfold leafBefore; omega⟩
  have : IsTrans (Nat × Nat) leafBefore := ⟨fun x y z hxy hyz => by unfold leafBefore at *; omega⟩
  exact (List.pairwise_insertionSort leafBefore _).imp fun h => by unfold leafBefore at h; omega

theorem mem_presentLeaves (freq : Vector Word 256) (p : Nat × Nat) :
    p ∈ presentLeaves freq ↔ p ∈ (freq.toList.map BitVec.toNat).zipIdx ∧ p.1 ≠ 0 := by
  rw [presentLeaves, List.mem_insertionSort, List.mem_filter, decide_eq_true_eq]

/-- The weights of the leaves are the frequencies. -/
theorem presentLeaves_sum (freq : Vector Word 256) :
    ((presentLeaves freq).map Prod.fst).sum = (freq.toList.map BitVec.toNat).sum := by
  have hzeros (l : List (Nat × Nat)) : ((l.filter fun p => p.1 ≠ 0).map Prod.fst).sum = (l.map Prod.fst).sum := by
    induction l with
    | nil => rfl
    | cons p l ih => by_cases hp : p.1 = 0 <;> simp_all
  rw [presentLeaves, ((List.perm_insertionSort leafBefore _).map Prod.fst).sum_eq, hzeros, List.zipIdx_map_fst]

/-- The leaves of a build before its first merge. -/
theorem merging_presentLeaves (freq : Vector Word 256) :
    Merging ((presentLeaves freq).map fun p => (p.1, .leaf p.2)) [] := by
  have hpos : ∀ q ∈ (presentLeaves freq).map fun p => ((p.1, .leaf p.2) : Pending), q.2.height = 0 ∧ 1 ≤ q.1 := by
    intro q hq
    obtain ⟨p, hp, rfl⟩ := List.mem_map.mp hq
    exact ⟨rfl, Nat.one_le_iff_ne_zero.mpr ((mem_presentLeaves freq p).mp hp).2⟩
  refine ⟨?_, .nil, ?_, ?_, nofun⟩
  · rw [List.pairwise_map]
    exact presentLeaves_sorted freq
  · rw [List.append_nil]
    intro q hq
    obtain ⟨hheight, hone⟩ := hpos q hq
    rw [hheight]
    exact hone
  · rw [List.append_nil]
    refine List.pairwise_of_forall_mem_list fun x hx y hy => ?_
    obtain ⟨hx0, hx1⟩ := hpos x hx
    obtain ⟨hy0, hy1⟩ := hpos y hy
    exact ⟨by rw [hx0]; exact hy1, by rw [hy0]; exact hx1⟩

/-- More than one present symbol get the depths in a tree no higher than 31 where the total frequency is below the 34th
Fibonacci number (42_huffman_code_builder.md R172, R174). -/
theorem leafLengths_tree {freq : Vector Word 256} (hmany : 1 < (presentLeaves freq).length)
    (htotal : (freq.toList.map BitVec.toNat).sum < Nat.fib 34) :
    ∃ t : HTree, leafLengths (presentLeaves freq) = t.depths 0 ∧ t.height ≤ 31 := by
  have hmerging := merging_presentLeaves freq
  rw [← presentLeaves_sum] at htotal
  generalize presentLeaves freq = leaves at *
  obtain ⟨t, ht⟩ := mergeNodes_isSome (fuel := leaves.length) (q1 := leaves.map fun p => (p.1, .leaf p.2)) (q2 := [])
    (by simp; omega) (by simp)
  have hfib := fib_height_le hmerging ht
  have hsum : ((leaves.map fun p : Nat × Nat => ((p.1, .leaf p.2) : Pending)) ++ []).map Prod.fst =
      leaves.map Prod.fst := by simp
  rw [hsum] at hfib
  refine ⟨t, ?_, ?_⟩
  · match leaves, hmany, ht with
    | p :: q :: leaves, _, ht => simp only [leafLengths, ht]
  · by_contra hhigh
    have hmono : Nat.fib 34 ≤ Nat.fib (t.height + 2) := Nat.fib_mono (by omega)
    omega

/-- The lengths before the height test, where a symbol is present and the total frequency is below the 34th Fibonacci
number: those of the present symbols, each from 1 to 31 (42_huffman_code_builder.md R172, R173, R174). -/
theorem leafLengths_presentLeaves {freq : Vector Word 256} (hne : presentLeaves freq ≠ [])
    (htotal : (freq.toList.map BitVec.toNat).sum < Nat.fib 34) :
    LengthList (leafLengths (presentLeaves freq)) ∧
      ((leafLengths (presentLeaves freq)).map Prod.fst).Perm ((presentLeaves freq).map Prod.snd) := by
  have hnodup := presentLeaves_nodup freq
  have hlt := presentLeaves_lt freq
  by_cases hone : ∃ p, presentLeaves freq = [p]
  · obtain ⟨p, hp⟩ := hone
    rw [hp] at hlt ⊢
    exact ⟨⟨by simp [leafLengths], by simpa [leafLengths] using hlt, by simp [leafLengths], by simp [leafLengths]⟩, .refl _⟩
  · have hmany : 1 < (presentLeaves freq).length := by
      have hpos := List.length_pos_of_ne_nil hne
      have hnot : (presentLeaves freq).length ≠ 1 := fun h => hone (List.length_eq_one_iff.mp h)
      omega
    obtain ⟨t, ht, hheight⟩ := leafLengths_tree hmany htotal
    rcases leafLengths_cases (presentLeaves freq) with e | ⟨p, hp, _⟩ | ⟨t', hperm, hsize, e⟩
    · exact absurd (ht.symm.trans e) (depths_ne_nil t 0)
    · exact absurd ⟨p, hp⟩ hone
    · have hsymbols : (leafLengths (presentLeaves freq)).map Prod.fst = t'.symbols := by rw [e, depths_map_fst]
      refine ⟨⟨?_, ?_, ?_, ?_⟩, hsymbols ▸ hperm⟩
      · rw [hsymbols]
        exact hperm.nodup_iff.mpr hnodup
      · rw [hsymbols]
        exact fun s hs => hlt s (hperm.mem_iff.mp hs)
      · rw [e]
        exact one_le_depth t' hsize
      · rw [ht]
        exact fun p hp => (depth_le_height t 0 p hp).trans (by omega)

/-- A symbol with a frequency is present. -/
theorem mem_presentLeaves_of_freq {freq : Vector Word 256} {v : Byte} (hv : symGet freq v ≠ 0) :
    v.toNat ∈ (presentLeaves freq).map Prod.snd := by
  refine List.mem_map.mpr ⟨((symGet freq v).toNat, v.toNat), (mem_presentLeaves freq _).mpr ⟨?_, ?_⟩, rfl⟩
  · rw [List.mem_zipIdx_iff_getElem?]
    simp [symGet, v.isLt]
  · exact fun h => hv (BitVec.eq_of_toNat_eq h)

/-- A listed symbol has a length. -/
theorem symGet_sizesOf_ne_zero {lens : List (Nat × Nat)} (h : LengthList lens) {v : Byte}
    (hv : v.toNat ∈ lens.map Prod.fst) : symGet (sizesOf lens) v ≠ 0 := by
  obtain ⟨p, hp, hpv⟩ := List.mem_map.mp hv
  have hpos := h.pos p hp
  have hle := h.le p hp
  rw [sizesOf, symGet_tabulate, ← hpv, listedFor_of_mem h.nodup p hp]
  intro hzero
  have := congrArg BitVec.toNat hzero
  simp at this
  omega

/-- A build is not refused where a symbol is present and the total frequency is below the 34th Fibonacci number; every
present symbol then has a code (42_huffman_code_builder.md R172, R173, R174). -/
theorem buildLengths_isSome {freq : Vector Word 256} {u : Byte} (hu : symGet freq u ≠ 0)
    (htotal : (freq.toList.map BitVec.toNat).sum < Nat.fib 34) :
    ∃ z, buildLengths freq = some z ∧ ∀ v, symGet freq v ≠ 0 → symGet z v ≠ 0 := by
  have hne : presentLeaves freq ≠ [] := by
    intro hnil
    have := mem_presentLeaves_of_freq hu
    rw [hnil] at this
    cases this
  obtain ⟨hlens, hperm⟩ := leafLengths_presentLeaves hne htotal
  have hlensne : leafLengths (presentLeaves freq) ≠ [] := by
    intro hnil
    have := hperm.mem_iff.mpr (mem_presentLeaves_of_freq hu)
    rw [hnil] at this
    cases this
  have hbuild : buildLengths freq = some (sizesOf (leafLengths (presentLeaves freq))) := by
    refine if_neg ?_
    simpa [Config.hufMaxLen, hlensne] using hlens.le
  exact ⟨_, hbuild, fun v hv => symGet_sizesOf_ne_zero hlens (hperm.mem_iff.mpr (mem_presentLeaves_of_freq hv))⟩

end Sys2Proof.Machine

/-! SUPPORT. One block of HFE_ENCODE: its counts can always be coded, and its header and codes are written one after the
other (43_huffman_codec.md R191, R193, R196). -/

namespace Sys2Proof.Machine

/-! ## The counts of a block -/

/-- The counts of all bytes in a list add up to its length. -/
theorem sum_count_bytes (block : List Byte) :
    ((List.range 256).map fun s => block.count (BitVec.ofNat 8 s)).sum = block.length := by
  have hsum : ∑ s ∈ Finset.range 256, block.count (BitVec.ofNat 8 s) = block.length := by
    induction block with
    | nil => exact Finset.sum_eq_zero fun _ _ => rfl
    | cons v block ih =>
      have hone : ∑ s ∈ Finset.range 256, (if v == BitVec.ofNat 8 s then 1 else 0) = 1 := by
        rw [Finset.sum_eq_single_of_mem v.toNat (Finset.mem_range.mpr v.isLt)]
        · simp
        · intro s hs hne
          refine if_neg fun h => hne ?_
          rw [beq_iff_eq.mp h, BitVec.toNat_ofNat, Nat.mod_eq_of_lt (Finset.mem_range.mp hs)]
      simp only [List.count_cons, Finset.sum_add_distrib, ih, hone, List.length_cons]
  exact hsum

theorem bufBytes_length (m : List Host.Cell) (a k : Nat) : (bufBytes m a k).length = k := by simp [bufBytes]

theorem bufBytes_succ (m : List Host.Cell) (a k : Nat) :
    bufBytes m a (k + 1) = memRead m a :: bufBytes m (a + 1) k := by
  simp only [bufBytes, List.range_succ_eq_map, List.map_cons, List.map_map, Nat.add_zero]
  refine congrArg _ (List.map_congr_left fun i _ => ?_)
  rw [Function.comp_apply, Nat.succ_eq_add_one, Nat.add_comm i, Nat.add_assoc]

section
variable (m : List Host.Cell) (a k : Nat) (hk : k ≤ 2 ^ 20)
include hk

/-- FREQ holds the counts of the block's bytes (43_huffman_codec.md R196). -/
theorem symGet_blockCounts (v : Byte) : (symGet (blockCounts m a k) v).toNat = (bufBytes m a k).count v := by
  have hle := List.count_le_length (a := v) (l := bufBytes m a k)
  rw [bufBytes_length] at hle
  have hcounts : symGet (blockCounts m a k) v = BitVec.ofNat 32 ((bufBytes m a k).count v) := by
    rw [blockCounts, symGet_tabulate, BitVec.ofNat_toNat, BitVec.setWidth_eq]
    rfl
  rw [hcounts, BitVec.toNat_ofNat, Nat.mod_eq_of_lt (by omega)]

theorem blockCounts_sum : ((blockCounts m a k).toList.map BitVec.toNat).sum = k := by
  have hlist : (blockCounts m a k).toList.map BitVec.toNat =
      (List.range 256).map fun s => (bufBytes m a k).count (BitVec.ofNat 8 s) := by
    have htable : (blockCounts m a k).toList =
        (List.range 256).map fun s => BitVec.ofNat 32 ((bufBytes m a k).count (BitVec.ofNat 8 s)) := rfl
    rw [htable, List.map_map]
    refine List.map_congr_left fun s _ => ?_
    have hle := List.count_le_length (a := BitVec.ofNat 8 s) (l := bufBytes m a k)
    rw [bufBytes_length] at hle
    rw [Function.comp_apply, BitVec.toNat_ofNat, Nat.mod_eq_of_lt (by omega)]
  rw [hlist, sum_count_bytes, bufBytes_length]

/-- The code of a block of 1 to 2^20 symbols can be built, and every symbol of the block is coded
(42_huffman_code_builder.md R174, 43_huffman_codec.md R196). -/
theorem buildLengths_blockCounts (hpos : 0 < k) :
    ∃ z, buildLengths (blockCounts m a k) = some z ∧ ∀ v ∈ bufBytes m a k, symGet z v ≠ 0 := by
  have hpresent : ∀ v ∈ bufBytes m a k, symGet (blockCounts m a k) v ≠ 0 := by
    intro v hv hzero
    have hcount := symGet_blockCounts m a k hk v
    rw [hzero] at hcount
    exact (List.count_pos_iff.mpr hv).ne hcount
  obtain ⟨u, hu⟩ := List.exists_mem_of_length_pos (l := bufBytes m a k) (by rwa [bufBytes_length])
  have htotal : ((blockCounts m a k).toList.map BitVec.toNat).sum < Nat.fib 34 := by
    rw [blockCounts_sum m a k hk]
    exact hk.trans_lt (by decide)
  obtain ⟨z, hz, hcoded⟩ := buildLengths_isSome (hpresent u hu) htotal
  exact ⟨z, hz, fun v hv => hcoded v (hpresent v hv)⟩

end

/-! ## The codes of a block -/

section
variable {u : HufUnit} (c : Hcb) {b : Bsi}

theorem hfEncodeSymbol_full {v : Byte} (hv : symGet u.sizes v ≠ 0) (h : b.takes (hufBits u.sizes u.codes v)) :
    hfEncodeSymbol v (c, u, b) = .ok () (c, u, b.append (hufBits u.sizes u.codes v)) := by
  have hn : (symGet u.sizes v).toNat ≠ 0 := fun hzero => hv (BitVec.eq_of_toNat_eq hzero)
  unfold hfEncodeSymbol
  dsimp only
  rw [if_neg hn, (offers_writeAll _ _).full b h]
  rfl

theorem hfEncodeSymbol_short {v : Byte} (hv : symGet u.sizes v ≠ 0) (h : ¬ b.takes (hufBits u.sizes u.codes v)) :
    hfEncodeSymbol v (c, u, b) = .stop .shortWrite (c, u, b.offer (hufBits u.sizes u.codes v)) := by
  have hn : (symGet u.sizes v).toNat ≠ 0 := fun hzero => hv (BitVec.eq_of_toNat_eq hzero)
  unfold hfEncodeSymbol
  dsimp only
  rw [if_neg hn, (offers_writeAll _ _).short b h]
  rfl

/-- The codes of the `k` symbols from an address on (30_encoding.md R104). -/
def blockCodes (u : HufUnit) (m : List Host.Cell) (a k : Nat) : List Bool :=
  (bufBytes m a k).flatMap (hufBits u.sizes u.codes)

theorem blockCodes_succ (m : List Host.Cell) (a k : Nat) :
    blockCodes u m a (k + 1) = hufBits u.sizes u.codes (memRead m a) ++ blockCodes u m (a + 1) k := by
  rw [blockCodes, bufBytes_succ, List.flatMap_cons]
  rfl

/-- The symbols of a block are coded in full where their codes fit (43_huffman_codec.md R196). -/
theorem encodeLoop_full {m : List Host.Cell} {a k : Nat} (n : Nat) (hcoded : ∀ v ∈ bufBytes m a k, symGet u.sizes v ≠ 0)
    (h : b.takes (blockCodes u m a k)) :
    encodeLoop hfEncodeSymbol m k a n (c, u, b) = (n + k, none, c, u, b.append (blockCodes u m a k)) := by
  induction k generalizing a n b with
  | zero => simp [encodeLoop, blockCodes, bufBytes, Bsi.append]
  | succ k ih =>
    rw [bufBytes_succ, List.forall_mem_cons] at hcoded
    obtain ⟨hv, hcoded⟩ := hcoded
    rw [blockCodes_succ] at h ⊢
    have hfirst : b.takes (hufBits u.sizes u.codes (memRead m a)) := by
      by_contra hn
      exact Bsi.not_takes_append hn _ h
    have hrest := ih (n + 1) hcoded ((Bsi.takes_append hfirst).mpr h)
    rw [encodeLoop, hfEncodeSymbol_full c hv hfirst]
    dsimp only
    rw [hrest, Bsi.append_append, Nat.add_right_comm, Nat.add_assoc]

/-- Where the codes of a block do not fit, the loop ends with the first symbol whose code does not
(43_huffman_codec.md R196, R201). -/
theorem encodeLoop_short {m : List Host.Cell} {a k : Nat} (n : Nat) (hcoded : ∀ v ∈ bufBytes m a k, symGet u.sizes v ≠ 0)
    (h : ¬ b.takes (blockCodes u m a k)) :
    ∃ j, j < k ∧ b.takes (blockCodes u m a j) ∧ ¬ b.takes (blockCodes u m a (j + 1)) ∧
      encodeLoop hfEncodeSymbol m k a n (c, u, b) = (n + j, some .shortWrite, c, u, b.offer (blockCodes u m a k)) := by
  induction k generalizing a n b with
  | zero => exact absurd b.takes_nil h
  | succ k ih =>
    rw [bufBytes_succ, List.forall_mem_cons] at hcoded
    obtain ⟨hv, hcoded⟩ := hcoded
    rw [blockCodes_succ] at h
    by_cases hfirst : b.takes (hufBits u.sizes u.codes (memRead m a))
    · obtain ⟨j, hj, hfits, hshort, hloop⟩ := ih (n + 1) hcoded fun hn => h ((Bsi.takes_append hfirst).mp hn)
      refine ⟨j + 1, by omega, ?_, ?_, ?_⟩
      · rw [blockCodes_succ]
        exact (Bsi.takes_append hfirst).mp hfits
      · rw [blockCodes_succ]
        exact fun hn => hshort ((Bsi.takes_append hfirst).mpr hn)
      · rw [encodeLoop, hfEncodeSymbol_full c hv hfirst]
        dsimp only
        rw [hloop, Bsi.offer_append hfirst, ← blockCodes_succ, Nat.add_right_comm, Nat.add_assoc]
    · refine ⟨0, by omega, b.takes_nil, ?_, ?_⟩
      · rw [blockCodes_succ]
        exact Bsi.not_takes_append hfirst _
      · rw [encodeLoop, hfEncodeSymbol_short c hv hfirst, blockCodes_succ, Bsi.offer_append_of_not_takes hfirst]
        rfl

end

/-! ## One block -/

/-- The bits of a block up to its `k`-th symbol: the header of its table, then the codes (30_encoding.md R104). -/
def blockBits (z : Vector (BitVec 5) 256) (m : List Host.Cell) (a k : Nat) : List Bool :=
  headerBits z ++ (bufBytes m a k).flatMap (hufBits z (assignCodes z))

section
variable {t : HfeSide} {m : List Host.Cell} {a k : Nat} {z : Vector (BitVec 5) 256}

/-- HFE's side with the code of a block installed, before its bits are written (43_huffman_codec.md R193, R196). -/
def HfeSide.installed (t : HfeSide) (m : List Host.Cell) (a k : Nat) (z : Vector (BitVec 5) 256) (b : Bsi) : HfeSide :=
  ({ freq := blockCounts m a k, sizes := z, codes := assignCodes z }, { t.2.1 with sizes := z, codes := assignCodes z }, b)

theorem hfUpdate_full (hz : buildLengths (blockCounts m a k) = some z) (h : t.2.2.takes (headerBits z)) :
    hfUpdate ({ t.1 with freq := blockCounts m a k }, t.2) =
      .ok () (HfeSide.installed t m a k z (t.2.2.append (headerBits z))) := by
  unfold hfUpdate
  simp only [hz, (offers_hfWriteHeader z).full _ h]
  rfl

theorem hfUpdate_short (hz : buildLengths (blockCounts m a k) = some z) (h : ¬ t.2.2.takes (headerBits z)) :
    hfUpdate ({ t.1 with freq := blockCounts m a k }, t.2) =
      .stop .shortWrite (HfeSide.installed t m a k z (t.2.2.offer (headerBits z))) := by
  unfold hfUpdate
  simp only [hz, (offers_hfWriteHeader z).short _ h]
  rfl

/-- No symbol left ends the loop over the blocks (43_huffman_codec.md R196). -/
theorem hfEncodeBlocks_done (fuel a n : Nat) (t : HfeSide) : hfEncodeBlocks m fuel 0 a n t = (n, none, t) := by
  cases fuel <;> rfl

section
variable (hpos : 0 < k) (hblock : k ≤ t.2.1.block.toNat)
include hpos hblock

/-- A block whose code is announced goes on to its symbols (43_huffman_codec.md R196). -/
theorem hfEncodeBlocks_ok {t' : HfeSide} (h : hfUpdate ({ t.1 with freq := blockCounts m a k }, t.2) = .ok () t') :
    hfEncodeBlocks m k k a 0 t = encodeLoop hfEncodeSymbol m k a 0 t' := by
  obtain ⟨fuel, hfuel⟩ : ∃ fuel, k = fuel + 1 := ⟨k - 1, by omega⟩
  have hmin : min t.2.1.block.toNat k = k := Nat.min_eq_right hblock
  have hunfold : hfEncodeBlocks m (fuel + 1) k a 0 t = encodeLoop hfEncodeSymbol m k a 0 t' := by
    unfold hfEncodeBlocks
    rw [if_neg (by omega)]
    simp only [hmin, h, Nat.sub_self, hfEncodeBlocks_done]
    split
    · rename_i e
      exact e.symm
    · rename_i e
      exact e.symm
  rw [← hfuel] at hunfold
  exact hunfold

/-- A block whose code is not announced in full ends the loop (43_huffman_codec.md R196). -/
theorem hfEncodeBlocks_stop {t' : HfeSide} {r : Stop}
    (h : hfUpdate ({ t.1 with freq := blockCounts m a k }, t.2) = .stop r t') :
    hfEncodeBlocks m k k a 0 t = (0, some r, t') := by
  obtain ⟨fuel, hfuel⟩ : ∃ fuel, k = fuel + 1 := ⟨k - 1, by omega⟩
  have hmin : min t.2.1.block.toNat k = k := Nat.min_eq_right hblock
  have hunfold : hfEncodeBlocks m (fuel + 1) k a 0 t = (0, some r, t') := by
    unfold hfEncodeBlocks
    rw [if_neg (by omega)]
    simp only [hmin, h]
  rw [← hfuel] at hunfold
  exact hunfold

variable (hz : buildLengths (blockCounts m a k) = some z) (hcoded : ∀ v ∈ bufBytes m a k, symGet z v ≠ 0)
include hz hcoded

/-- One block that fits: the table is installed, the header and the codes are written (43_huffman_codec.md R196). -/
theorem hfEncodeBlocks_full (h : t.2.2.takes (blockBits z m a k)) :
    hfEncodeBlocks m k k a 0 t = (k, none, t.installed m a k z (t.2.2.append (blockBits z m a k))) := by
  have hheader : t.2.2.takes (headerBits z) := by
    by_contra hn
    exact Bsi.not_takes_append hn _ h
  have hloop := encodeLoop_full (u := { t.2.1 with sizes := z, codes := assignCodes z })
    { freq := blockCounts m a k, sizes := z, codes := assignCodes z } 0 hcoded ((Bsi.takes_append hheader).mpr h)
  rw [Bsi.append_append, Nat.zero_add] at hloop
  exact (hfEncodeBlocks_ok hpos hblock (hfUpdate_full hz hheader)).trans hloop

/-- One block that does not fit ends in its header, or with the first symbol whose code does not fit
(43_huffman_codec.md R196, R201). -/
theorem hfEncodeBlocks_short (h : ¬ t.2.2.takes (blockBits z m a k)) :
    ∃ n, n < k ∧ (n = 0 ∨ t.2.2.takes (blockBits z m a n)) ∧ ¬ t.2.2.takes (blockBits z m a (n + 1)) ∧
      hfEncodeBlocks m k k a 0 t =
        (n, some .shortWrite, t.installed m a k z (t.2.2.offer (blockBits z m a k))) := by
  by_cases hheader : t.2.2.takes (headerBits z)
  · obtain ⟨n, hn, hfits, hshort, hloop⟩ := encodeLoop_short (u := { t.2.1 with sizes := z, codes := assignCodes z })
      { freq := blockCounts m a k, sizes := z, codes := assignCodes z } 0 hcoded
      fun hall => h ((Bsi.takes_append hheader).mp hall)
    rw [Bsi.offer_append hheader, Nat.zero_add] at hloop
    exact ⟨n, hn, .inr ((Bsi.takes_append hheader).mp hfits), fun hall => hshort ((Bsi.takes_append hheader).mpr hall),
      (hfEncodeBlocks_ok hpos hblock (hfUpdate_full hz hheader)).trans hloop⟩
  · refine ⟨0, hpos, .inl rfl, Bsi.not_takes_append hheader _, ?_⟩
    rw [blockBits, Bsi.offer_append_of_not_takes hheader]
    exact hfEncodeBlocks_stop hpos hblock (hfUpdate_short hz hheader)

end

end

end Sys2Proof.Machine

namespace Sys2Proof

open Machine

/-- Settles O35: the block's counts can be coded, and its header and codes fit or are cut short. -/
theorem huffmanBlockEncodeWritesHeaderAndCodes : Obligations.HuffmanBlockEncodeWritesHeaderAndCodes := by
  intro s o l hlive hpos hblock hmax hin
  obtain ⟨z, hz, hcoded⟩ := buildLengths_blockCounts s.buf o.toNat l.toNat hmax hpos
  have hexec : exec (.hfeEncode o l) s = .next
      (let e := hfEncodeBlocks s.buf l.toNat l.toNat o.toNat 0 (hfePart.get s)
       (hfePart.put e.2.2 s).endEncode .hfe e.1 e.2.1) := by
    show Host.Outcome.next (s.gated .hfe fun s => s.bounded o l fun s => _) = _
    rw [gated_live hlive, bounded_inside hin]
  refine ⟨blockCounts s.buf o.toNat l.toNat, z, symGet_blockCounts s.buf o.toNat l.toNat hmax, hz, fun h => ?_, fun h => ?_⟩
  · rw [fits_iff] at h
    rw [hexec, hfEncodeBlocks_full (t := hfePart.get s) hpos hblock hz hcoded h, emitted_eq, Bsi.offer_of_takes h]
    rfl
  · rw [fits_iff] at h
    obtain ⟨n, hn, hfits, hshort, hloop⟩ := hfEncodeBlocks_short (t := hfePart.get s) hpos hblock hz hcoded h
    refine ⟨n, hn, hfits, hshort, ?_⟩
    rw [hexec, hloop]
    rfl

end Sys2Proof

/-! SUPPORT. The canonical codes of a valid length table: the code of a symbol, scaled to 31 bits, starts where the codes
before it end, so that no symbol's slot meets another's (42_huffman_code_builder.md R175, R176). -/

namespace Sys2Proof.Machine

/-! ## The loop of `AssignCodes` -/

/-- The share of the code space of 2^31 that a code of a length takes (42_huffman_code_builder.md R176). -/
def codeShare (len : Nat) : Nat := 2 ^ (31 - len)

theorem codeShare_pos (len : Nat) : 0 < codeShare len := Nat.two_pow_pos _

theorem codeShare_dvd {l l' : Nat} (h : l ≤ l') : codeShare l' ∣ codeShare l := Nat.pow_dvd_pow 2 (by omega)

/-- A length is a shift of another. -/
theorem codeShare_eq {l l' : Nat} (h : l ≤ l') (h31 : l' ≤ 31) : codeShare l = 2 ^ (l' - l) * codeShare l' := by
  rw [codeShare, codeShare, ← Nat.pow_add]
  congr 1
  omega

/-- One pass of the loop, whether or not the length drops (42_huffman_code_builder.md R175). -/
theorem assignLoop_cons {l s code len : Nat} (rest : List (Nat × Nat)) (h : l ≤ len) :
    assignLoop ((l, s) :: rest) code len =
      (s, code >>> (len - l)) :: assignLoop rest (code >>> (len - l) + 1) l := by
  rw [assignLoop]
  split
  · rfl
  · have : l = len := by omega
    simp [this]

/-- A coded symbol with its code: ((length, symbol), (symbol, code)). -/
abbrev CodeEntry := (Nat × Nat) × (Nat × Nat)

/-- Where the code of an entry starts in the code space. -/
def CodeEntry.start (e : CodeEntry) : Nat := e.2.2 * codeShare e.1.1

/-- Where the code of an entry ends in the code space. -/
def CodeEntry.stop (e : CodeEntry) : Nat := (e.2.2 + 1) * codeShare e.1.1

/-- The codes of symbols by falling length follow each other in the code space, from the current code to the end of their
shares, where every share divides that end (42_huffman_code_builder.md R175, R176). -/
theorem assignLoop_slots {L : List (Nat × Nat)} {code len total : Nat} (hlen : len ≤ 31)
    (hsorted : L.Pairwise fun x y => y.1 ≤ x.1) (hle : ∀ x ∈ L, x.1 ≤ len)
    (htotal : code * codeShare len + (L.map fun x => codeShare x.1).sum = total)
    (hdvd : ∀ x ∈ L, codeShare x.1 ∣ total) :
    (assignLoop L code len).map Prod.fst = L.map Prod.snd ∧
    (∀ e ∈ L.zip (assignLoop L code len), e.1.2 = e.2.1 ∧ code * codeShare len ≤ CodeEntry.start e ∧
      CodeEntry.stop e ≤ total) ∧
    (L.zip (assignLoop L code len)).Pairwise fun e f => CodeEntry.stop e ≤ CodeEntry.start f := by
  induction L generalizing code len with
  | nil => simp [assignLoop]
  | cons x L ih =>
    obtain ⟨l, s⟩ := x
    rw [List.pairwise_cons] at hsorted
    obtain ⟨hfall, hsorted⟩ := hsorted
    have hl : l ≤ len := hle (l, s) List.mem_cons_self
    rw [List.map_cons, List.sum_cons] at htotal
    dsimp only at htotal hfall
    have hshares : codeShare l ∣ (L.map fun x => codeShare x.1).sum := by
      refine List.dvd_sum fun n hn => ?_
      obtain ⟨x, hx, rfl⟩ := List.mem_map.mp hn
      exact codeShare_dvd (hfall x hx)
    have hstart : codeShare l ∣ code * codeShare len := by
      have hwhole : codeShare l ∣ code * codeShare len + (codeShare l + (L.map fun x => codeShare x.1).sum) :=
        htotal ▸ hdvd (l, s) List.mem_cons_self
      exact (Nat.dvd_add_left ((Nat.dvd_refl _).add hshares)).mp hwhole
    have hcode : code >>> (len - l) * codeShare l = code * codeShare len := by
      rw [codeShare_eq hl hlen] at hstart ⊢
      rw [Nat.mul_dvd_mul_iff_right (codeShare_pos len)] at hstart
      rw [Nat.shiftRight_eq_div_pow, ← Nat.mul_assoc, Nat.div_mul_cancel hstart]
    have hnext : (code >>> (len - l) + 1) * codeShare l + (L.map fun x => codeShare x.1).sum = total := by
      rw [Nat.add_mul, hcode, Nat.one_mul]
      omega
    obtain ⟨hfst, hslots, hpair⟩ := ih (by omega) hsorted (fun y hy => hfall y hy) hnext
      fun y hy => hdvd y (List.mem_cons_of_mem _ hy)
    rw [assignLoop_cons L hl]
    refine ⟨by rw [List.map_cons, List.map_cons, hfst], ?_, ?_⟩
    · rw [List.zip_cons_cons, List.forall_mem_cons]
      refine ⟨⟨rfl, Nat.le_of_eq hcode.symm, ?_⟩, fun e he => ?_⟩
      · show (code >>> (len - l) + 1) * codeShare l ≤ total
        omega
      · obtain ⟨hsym, hlo, hhi⟩ := hslots e he
        refine ⟨hsym, ?_, hhi⟩
        rw [Nat.add_mul, hcode] at hlo
        omega
    · rw [List.zip_cons_cons, List.pairwise_cons]
      exact ⟨fun e he => (hslots e he).2.1, hpair⟩

/-! ## The coded symbols of a table -/

theorem mem_codedSymbols (z : Vector (BitVec 5) 256) (p : Nat × Nat) :
    p ∈ codedSymbols z ↔ p ∈ (z.toList.map BitVec.toNat).zipIdx ∧ p.1 ≠ 0 := by
  rw [codedSymbols, List.mem_insertionSort, List.mem_filter, decide_eq_true_eq]

/-- A coded symbol is listed with its length. -/
theorem mem_codedSymbols_of_coded {z : Vector (BitVec 5) 256} {v : Byte} (hv : symGet z v ≠ 0) :
    ((symGet z v).toNat, v.toNat) ∈ codedSymbols z := by
  refine (mem_codedSymbols z _).mpr ⟨?_, fun h => hv (BitVec.eq_of_toNat_eq h)⟩
  rw [List.mem_zipIdx_iff_getElem?]
  simp [symGet, v.isLt]

theorem codedSymbols_le (z : Vector (BitVec 5) 256) : ∀ p ∈ codedSymbols z, p.1 ≤ 31 := by
  intro p hp
  have hmem := List.fst_mem_of_mem_zipIdx ((mem_codedSymbols z p).mp hp).1
  obtain ⟨n, _, hn⟩ := List.mem_map.mp hmem
  have := n.isLt
  omega

/-- Coded symbols go by falling length (42_huffman_code_builder.md R175). -/
theorem codedSymbols_sorted (z : Vector (BitVec 5) 256) : (codedSymbols z).Pairwise fun x y => y.1 ≤ x.1 := by
  have : Std.Total codeBefore := ⟨fun x y => by unfold codeBefore; omega⟩
  have : IsTrans (Nat × Nat) codeBefore := ⟨fun x y z hxy hyz => by unfold codeBefore at *; omega⟩
  exact (List.pairwise_insertionSort codeBefore _).imp fun h => by unfold codeBefore at h; omega

theorem codedSymbols_nodup (z : Vector (BitVec 5) 256) : ((codedSymbols z).map Prod.snd).Nodup :=
  (((List.perm_insertionSort codeBefore _).map Prod.snd).nodup_iff).mpr
    ((List.nodup_zipIdx_map_snd _).sublist (List.filter_sublist.map _))

/-- The lengths of the coded symbols are the entries of the table that are not 0. -/
theorem codedSymbols_lengths (z : Vector (BitVec 5) 256) :
    ((codedSymbols z).map Prod.fst).Perm ((z.toList.filter fun n => decide (n ≠ 0)).map BitVec.toNat) := by
  have hzero : (fun n : Nat => decide (n ≠ 0)) ∘ BitVec.toNat = fun n : BitVec 5 => decide (n ≠ 0) :=
    funext fun n => decide_eq_decide.mpr (not_congr ⟨fun h => BitVec.eq_of_toNat_eq h, fun h => h ▸ rfl⟩)
  refine ((List.perm_insertionSort codeBefore _).map Prod.fst).trans (.of_eq ?_)
  have hfilter : ((z.toList.map BitVec.toNat).zipIdx.filter fun p => p.1 ≠ 0).map Prod.fst =
      ((z.toList.map BitVec.toNat).zipIdx.map Prod.fst).filter fun n => n ≠ 0 := by
    rw [List.filter_map]
    rfl
  rw [hfilter, List.zipIdx_map_fst, List.filter_map, hzero]

/-- The shares of the coded symbols are the Kraft sum (42_huffman_code_builder.md R176). -/
theorem codedSymbols_shares (z : Vector (BitVec 5) 256) :
    ((codedSymbols z).map fun x => codeShare x.1).sum = kraftSum z := by
  have h := ((codedSymbols_lengths z).map codeShare).sum_eq
  rw [List.map_map, List.map_map] at h
  exact h

/-- In a valid table every share divides the sum of the shares, and that is at most 2^31 (42_huffman_code_builder.md
R177). -/
theorem kraftSum_of_valid {z : Vector (BitVec 5) 256} (h : lengthsValid z = true) :
    kraftSum z ≤ 2 ^ 31 ∧ ∀ x ∈ codedSymbols z, codeShare x.1 ∣ kraftSum z := by
  unfold lengthsValid at h
  split at h
  · rename_i hone
    have hlength : (codedSymbols z).length = 1 := by
      rw [← List.length_map (f := Prod.fst), (codedSymbols_lengths z).length_eq, List.length_map,
        ← List.countP_eq_length_filter]
      exact hone
    obtain ⟨x, hx⟩ := List.length_eq_one_iff.mp hlength
    rw [← codedSymbols_shares, hx]
    simp only [List.map_cons, List.map_nil, List.sum_singleton, List.mem_singleton, forall_eq, dvd_refl, and_true]
    exact Nat.pow_le_pow_right (by decide) (by omega)
  · have hfull : kraftSum z = 2 ^ 31 := of_decide_eq_true h
    rw [hfull]
    exact ⟨le_refl _, fun x _ => Nat.pow_dvd_pow 2 (by omega)⟩

/-! ## The slots of the symbols -/

/-- The codes of a table take disjoint slots of the code space (42_huffman_code_builder.md R176). -/
structure CodeSlots (sizes : Vector (BitVec 5) 256) (codes : Vector Word 256) : Prop where
  within : ∀ v : Byte, symGet sizes v ≠ 0 →
    ((symGet codes v).toNat + 1) * codeShare (symGet sizes v).toNat ≤ 2 ^ 31
  disjoint : ∀ v w : Byte, v ≠ w → symGet sizes v ≠ 0 → symGet sizes w ≠ 0 →
    ((symGet codes v).toNat + 1) * codeShare (symGet sizes v).toNat ≤
        (symGet codes w).toNat * codeShare (symGet sizes w).toNat ∨
      ((symGet codes w).toNat + 1) * codeShare (symGet sizes w).toNat ≤
        (symGet codes v).toNat * codeShare (symGet sizes v).toNat

/-- The coded symbols of a table with their canonical codes, in code order (42_huffman_code_builder.md R175). -/
def codeEntries (z : Vector (BitVec 5) 256) : List CodeEntry :=
  (codedSymbols z).zip (assignLoop (codedSymbols z) 0 (((codedSymbols z).head?.map Prod.fst).getD 0))

/-- In a valid table the entries follow each other in the code space, within the sum of the shares. -/
theorem codeEntries_slots {z : Vector (BitVec 5) 256} (hz : lengthsValid z = true) :
    (assignLoop (codedSymbols z) 0 (((codedSymbols z).head?.map Prod.fst).getD 0)).map Prod.fst =
        (codedSymbols z).map Prod.snd ∧
      (∀ e ∈ codeEntries z, e.1.2 = e.2.1 ∧ CodeEntry.stop e ≤ 2 ^ 31) ∧
      (codeEntries z).Pairwise fun e f => CodeEntry.stop e ≤ CodeEntry.start f := by
  obtain ⟨hsum, hdvd⟩ := kraftSum_of_valid hz
  have hsorted := codedSymbols_sorted z
  have hhead : ((codedSymbols z).head?.map Prod.fst).getD 0 ≤ 31 ∧
      ∀ x ∈ codedSymbols z, x.1 ≤ ((codedSymbols z).head?.map Prod.fst).getD 0 := by
    have hle := codedSymbols_le z
    cases h : codedSymbols z with
    | nil => exact ⟨by decide, nofun⟩
    | cons p L =>
      rw [h] at hsorted hle
      rw [List.pairwise_cons] at hsorted
      exact ⟨hle p List.mem_cons_self, List.forall_mem_cons.mpr ⟨le_refl _, hsorted.1⟩⟩
  obtain ⟨hlen, hle⟩ := hhead
  obtain ⟨hfst, hslots, hpair⟩ := assignLoop_slots (code := 0) hlen hsorted hle
    (by rw [Nat.zero_mul, Nat.zero_add, codedSymbols_shares]) hdvd
  refine ⟨hfst, fun e he => ?_, hpair⟩
  obtain ⟨hsym, _, hstop⟩ := hslots e he
  exact ⟨hsym, hstop.trans hsum⟩

/-- Every coded symbol has its entry (42_huffman_code_builder.md R175). -/
theorem exists_codeEntry {z : Vector (BitVec 5) 256} (hz : lengthsValid z = true) {v : Byte} (hv : symGet z v ≠ 0) :
    ∃ e ∈ codeEntries z, e.1 = ((symGet z v).toNat, v.toNat) ∧ e.2.2 = (symGet (assignCodes z) v).toNat := by
  obtain ⟨hfst, hslots, _⟩ := codeEntries_slots hz
  have hlength := congrArg List.length hfst
  rw [List.length_map, List.length_map] at hlength
  have hmem := mem_codedSymbols_of_coded hv
  rw [← List.map_fst_zip hlength.ge] at hmem
  obtain ⟨e, he, hev⟩ := List.mem_map.mp hmem
  obtain ⟨hsym, hstop⟩ := hslots e he
  have hnodup := codedSymbols_nodup z
  rw [← hfst] at hnodup
  have hlisted := listedFor_of_mem hnodup e.2 (List.of_mem_zip he).2
  rw [← hsym, hev] at hlisted
  have hsmall : e.2.2 < 2 ^ 32 := by
    have hpos := codeShare_pos e.1.1
    have hle : e.2.2 + 1 ≤ (e.2.2 + 1) * codeShare e.1.1 := Nat.le_mul_of_pos_right _ hpos
    have hbound : (e.2.2 + 1) * codeShare e.1.1 ≤ 2 ^ 31 := hstop
    omega
  refine ⟨e, he, hev, ?_⟩
  rw [assignCodes, symGet_tabulate, hlisted, BitVec.toNat_ofNat, Nat.mod_eq_of_lt hsmall]

/-- The canonical codes of a valid table take disjoint slots (42_huffman_code_builder.md R175, R176). -/
theorem codeSlots_assignCodes {z : Vector (BitVec 5) 256} (hz : lengthsValid z = true) : CodeSlots z (assignCodes z) := by
  obtain ⟨_, hslots, hpair⟩ := codeEntries_slots hz
  constructor
  · intro v hv
    obtain ⟨e, he, hev, hcode⟩ := exists_codeEntry hz hv
    have hstop := (hslots e he).2
    rwa [CodeEntry.stop, hev, hcode] at hstop
  · intro v w hne hv hw
    obtain ⟨e, he, hev, hcode⟩ := exists_codeEntry hz hv
    obtain ⟨f, hf, hfw, hcode'⟩ := exists_codeEntry hz hw
    have hef : e ≠ f := by
      rintro rfl
      have hsame := hev.symm.trans hfw
      exact hne (BitVec.eq_of_toNat_eq (congrArg Prod.snd hsame))
    have : Std.Symm fun e f : CodeEntry => e.stop ≤ f.start ∨ f.stop ≤ e.start := ⟨fun _ _ h => h.symm⟩
    have hdisjoint := (hpair.imp (S := fun e f => e.stop ≤ f.start ∨ f.stop ≤ e.start) .inl).forall he hf hef
    rwa [CodeEntry.stop, CodeEntry.stop, CodeEntry.start, CodeEntry.start, hev, hfw, hcode, hcode'] at hdisjoint

/-- No code is the start of another symbol's (42_huffman_code_builder.md R176). -/
theorem CodeSlots.eq_of_prefix {sizes : Vector (BitVec 5) 256} {codes : Vector Word 256} (h : CodeSlots sizes codes)
    {v w : Byte} (hv : symGet sizes v ≠ 0) (hw : symGet sizes w ≠ 0)
    (hle : (symGet sizes w).toNat ≤ (symGet sizes v).toNat)
    (hprefix : (symGet codes w).toNat = (symGet codes v).toNat >>> ((symGet sizes v).toNat - (symGet sizes w).toNat)) :
    w = v := by
  by_contra hne
  have hv31 := (symGet sizes v).isLt
  have hshare := codeShare_eq hle (by omega)
  have hdisjoint := h.disjoint v w (Ne.symm hne) hv hw
  generalize (symGet sizes v).toNat - (symGet sizes w).toNat = d at *
  have hlo : (symGet codes w).toNat * 2 ^ d ≤ (symGet codes v).toNat := by
    rw [hprefix, Nat.shiftRight_eq_div_pow]
    exact Nat.div_mul_le_self _ _
  have hhi : (symGet codes v).toNat + 1 ≤ ((symGet codes w).toNat + 1) * 2 ^ d := by
    rw [hprefix, Nat.shiftRight_eq_div_pow, Nat.mul_comm]
    exact Nat.lt_mul_div_succ _ (Nat.two_pow_pos d)
  have hlo' := Nat.mul_le_mul_right (codeShare (symGet sizes v).toNat) hlo
  have hhi' := Nat.mul_le_mul_right (codeShare (symGet sizes v).toNat) hhi
  rw [Nat.mul_assoc, ← hshare] at hlo' hhi'
  have hpos := codeShare_pos (symGet sizes v).toNat
  rw [Nat.add_mul, Nat.one_mul] at hdisjoint hhi'
  omega

/-- Every code fits in its length (42_huffman_code_builder.md R175). -/
theorem CodeSlots.code_lt {sizes : Vector (BitVec 5) 256} {codes : Vector Word 256} (h : CodeSlots sizes codes) {v : Byte}
    (hv : symGet sizes v ≠ 0) : (symGet codes v).toNat < 2 ^ (symGet sizes v).toNat := by
  have hwithin := h.within v hv
  have hv31 := (symGet sizes v).isLt
  have hwhole : 2 ^ (symGet sizes v).toNat * codeShare (symGet sizes v).toNat = 2 ^ 31 := by
    rw [codeShare, ← Nat.pow_add, Nat.add_sub_cancel' (by omega)]
  rw [← hwhole] at hwithin
  exact Nat.le_of_mul_le_mul_right hwithin (codeShare_pos _)

/-! ## The walk of the decoder -/

/-- The bits of a number down to one place are those above it and the one there. -/
theorem two_mul_shiftRight_add (c k : Nat) : 2 * c >>> (k + 1) + (c.testBit k).toNat = c >>> k := by
  rw [Nat.toNat_testBit, Nat.shiftRight_succ, Nat.shiftRight_eq_div_pow]
  omega

section
variable (u : HufUnit)

theorem codeList_length : u.codeList.length = 256 := by
  rw [HufUnit.codeList, List.length_zip, List.length_map, List.length_map, Vector.length_toList, Vector.length_toList,
    Nat.min_self]

theorem lt_codeList_length (v : Byte) : v.toNat < u.codeList.length := by
  rw [codeList_length]
  exact v.isLt

/-- The entry of a symbol in the decoder's list. -/
theorem codeList_getElem (v : Byte) :
    u.codeList[v.toNat]'(lt_codeList_length u v) = ((symGet u.sizes v).toNat, (symGet u.codes v).toNat) := by
  simp only [HufUnit.codeList, List.getElem_zip, List.getElem_map, Vector.getElem_toList]
  rfl

/-- An index of the decoder's list is a symbol. -/
theorem codeList_getElem_index {i : Nat} (hi : i < u.codeList.length) : ∃ v : Byte, v.toNat = i ∧
    u.codeList[i] = ((symGet u.sizes v).toNat, (symGet u.codes v).toNat) := by
  have hi256 : i < 2 ^ 8 := by
    rw [codeList_length] at hi
    exact hi
  obtain ⟨v, rfl⟩ : ∃ v : Byte, v.toNat = i := ⟨BitVec.ofNat 8 i, by rw [BitVec.toNat_ofNat, Nat.mod_eq_of_lt hi256]⟩
  exact ⟨v, rfl, codeList_getElem u v⟩

end

section
variable {u : HufUnit} (h : CodeSlots u.sizes u.codes) {v : Byte} (hv : symGet u.sizes v ≠ 0)
include h hv

/-- A symbol whose entry is the first bits of another's code is that other one (42_huffman_code_builder.md R176). -/
theorem eq_of_entry {w : Byte} {n : Nat} (hn : 0 < n) (hle : n ≤ (symGet u.sizes v).toNat)
    (hsize : (symGet u.sizes w).toNat = n)
    (hcode : (symGet u.codes w).toNat = (symGet u.codes v).toNat >>> ((symGet u.sizes v).toNat - n)) : w = v := by
  subst hsize
  have hw : symGet u.sizes w ≠ 0 := fun hzero => hn.ne' (congrArg BitVec.toNat hzero)
  exact h.eq_of_prefix hv hw hle hcode

/-- The whole code of a symbol is found as that symbol (43_huffman_codec.md R195). -/
theorem findIdx_code :
    (u.codeList.findIdx? fun e => decide (e.1 = (symGet u.sizes v).toNat ∧ e.2 = (symGet u.codes v).toNat)) =
      some v.toNat := by
  rw [List.findIdx?_eq_some_iff_getElem]
  refine ⟨lt_codeList_length u v, ?_, fun j hj => ?_⟩
  · rw [codeList_getElem]
    simp
  · obtain ⟨w, rfl, hw⟩ := codeList_getElem_index u (i := j) (by rw [codeList_length]; omega)
    rw [hw, decide_eq_true_eq]
    rintro ⟨hsize, hcode⟩
    dsimp only at hsize hcode
    have hpos : 0 < (symGet u.sizes v).toNat := Nat.pos_of_ne_zero fun hzero => hv (BitVec.eq_of_toNat_eq hzero)
    obtain rfl := eq_of_entry h hv hpos (le_refl _) hsize (by rw [hcode, Nat.sub_self]; rfl)
    exact absurd hj (Nat.lt_irrefl _)

/-- The first bits of a code, but not all of it, are no symbol's code, and they lead on to the code's own symbol
(43_huffman_codec.md R195). -/
theorem findIdx_start {n : Nat} (hn : 0 < n) (hlt : n < (symGet u.sizes v).toNat) :
    (u.codeList.findIdx? fun e =>
      decide (e.1 = n ∧ e.2 = (symGet u.codes v).toNat >>> ((symGet u.sizes v).toNat - n))) = none ∧
    (u.codeList.any fun e =>
      decide (e.1 > n ∧ e.2 >>> (e.1 - n) = (symGet u.codes v).toNat >>> ((symGet u.sizes v).toNat - n))) = true := by
  refine ⟨List.findIdx?_eq_none_iff.mpr fun e he => decide_eq_false ?_, List.any_eq_true.mpr ?_⟩
  · rintro ⟨hsize, hcode⟩
    obtain ⟨i, hi, rfl⟩ := List.mem_iff_getElem.mp he
    obtain ⟨w, _, hw⟩ := codeList_getElem_index u hi
    rw [hw] at hsize hcode
    obtain rfl := eq_of_entry h hv hn hlt.le hsize hcode
    exact absurd hsize hlt.ne'
  · refine ⟨_, List.getElem_mem (lt_codeList_length u v), decide_eq_true ?_⟩
    rw [codeList_getElem u v]
    exact ⟨hlt, rfl⟩

/-- The walk reads the rest of a symbol's code bit by bit and ends with the symbol (43_huffman_codec.md R195). -/
theorem hfWalk_continues {k len fuel : Nat} {b : Bsi} (hk : len + (k + 1) = (symGet u.sizes v).toNat) (hfuel : k < fuel)
    (hb : b.continues (bitsMsb (symGet u.codes v).toNat (k + 1))) :
    hfWalk u.codeList fuel len ((symGet u.codes v).toNat >>> (k + 1)) b = .ok v (b.advance (k + 1)) := by
  induction k generalizing len fuel b with
  | zero =>
    obtain ⟨fuel, rfl⟩ : ∃ f, fuel = f + 1 := ⟨fuel - 1, by omega⟩
    have hfound := findIdx_code h hv
    simp only [hfWalk, readBit_continues hb, Run.andThen, two_mul_shiftRight_add, hk, Nat.shiftRight_zero, hfound,
      BitVec.ofNat_toNat, BitVec.setWidth_eq, Nat.zero_add]
  | succ k ih =>
    obtain ⟨fuel, rfl⟩ : ∃ f, fuel = f + 1 := ⟨fuel - 1, by omega⟩
    obtain ⟨hnone, hany⟩ := findIdx_start h hv (n := len + 1) (by omega) (by omega)
    have hrest := ih (len := len + 1) (fuel := fuel) (by omega) (by omega)
      (Bsi.continues_append (l := [(symGet u.codes v).toNat.testBit (k + 1)]) hb).2
    rw [show (symGet u.sizes v).toNat - (len + 1) = k + 1 by omega] at hnone hany
    rw [List.length_singleton, Bsi.advance_advance] at hrest
    simp only [hfWalk, readBit_continues hb, Run.andThen, two_mul_shiftRight_add, hnone, hany, if_true, hrest]
    rw [Nat.add_comm 1]

end

/-! ## Symbols and blocks -/

/-- `HfDecodeSymbol` delivers the symbol whose code IN continues with, and consumes the code (43_huffman_codec.md R195). -/
theorem hfDecodeSymbol_continues {u : HufUnit} (h : CodeSlots u.sizes u.codes) {v : Byte} (hv : symGet u.sizes v ≠ 0)
    {b : Bsi} (hb : b.continues (hufBits u.sizes u.codes v)) :
    hfDecodeSymbol (u, b) = .ok v (u, b.advance (hufBits u.sizes u.codes v).length) := by
  have hlt := h.code_lt hv
  have h31 := (symGet u.sizes v).isLt
  have hpos : (symGet u.sizes v).toNat ≠ 0 := fun hzero => hv (BitVec.eq_of_toNat_eq hzero)
  obtain ⟨k, hk⟩ : ∃ k, (symGet u.sizes v).toNat = k + 1 := ⟨(symGet u.sizes v).toNat - 1, by omega⟩
  unfold hufBits at hb ⊢
  rw [hk] at hb hlt
  have hstart : (symGet u.codes v).toNat >>> (k + 1) = 0 := by
    rw [Nat.shiftRight_eq_div_pow, Nat.div_eq_of_lt hlt]
  have hwalk := hfWalk_continues h hv (len := 0) (fuel := Config.hufMaxLen) (by omega) (by unfold Config.hufMaxLen; omega) hb
  rw [hstart] at hwalk
  rw [hfDecodeSymbol, hwalk, bitsMsb_length, hk]
  rfl

/-- A byte stored and a list stored behind it are the list with the byte in front. -/
theorem Stored.cons {m m' : List Host.Cell} {a : Nat} {v : Byte} {vs : List Byte}
    (h : Stored (memWrite m a v) m' (a + 1) vs) : Stored m m' a (v :: vs) := by
  intro x
  rw [h x, memRead_memWrite, List.length_cons]
  rcases Nat.lt_trichotomy x a with hlt | rfl | hgt
  · rw [if_neg (by omega), if_neg (by omega), if_neg (by omega)]
  · rw [if_neg (by omega), if_pos rfl, if_pos (by omega), Nat.sub_self]
    rfl
  · obtain ⟨i, rfl⟩ : ∃ i, x = a + 1 + i := ⟨x - (a + 1), by omega⟩
    have hi : a + 1 + i - a = i + 1 := by omega
    rw [hi, List.getD_cons_succ, Nat.add_sub_cancel_left]
    by_cases hin : i < vs.length
    · rw [if_pos (by omega), if_pos (by omega)]
    · rw [if_neg (by omega), if_neg (by omega), if_neg (by omega)]

/-- The loop of HFD_DECODE stores the symbols whose codes IN continues with (43_huffman_codec.md R197). -/
theorem decodeLoop_continues {u : HufUnit} (h : CodeSlots u.sizes u.codes) {vs : List Byte}
    (hvs : ∀ v ∈ vs, symGet u.sizes v ≠ 0) (a : Nat) {b : Bsi} (m : List Host.Cell)
    (hb : b.continues (vs.flatMap (hufBits u.sizes u.codes))) :
    ∃ m', decodeLoop hfDecodeSymbol vs.length a ((u, b), m) =
        .ok () ((u, b.advance (vs.flatMap (hufBits u.sizes u.codes)).length), m') ∧ Stored m m' a vs := by
  induction vs generalizing a b m with
  | nil =>
    refine ⟨m, ?_, fun x => (if_neg ?_).symm⟩
    · simp [decodeLoop]
    · rw [List.length_nil]
      omega
  | cons v vs ih =>
    rw [List.forall_mem_cons] at hvs
    obtain ⟨hv, hvs⟩ := hvs
    rw [List.flatMap_cons] at hb
    obtain ⟨hfirst, hrest⟩ := Bsi.continues_append hb
    obtain ⟨m', hloop, hstored⟩ := ih hvs (a + 1) (memWrite m a v) hrest
    refine ⟨m', ?_, hstored.cons⟩
    rw [List.length_cons, decodeLoop, hfDecodeSymbol_continues h hv hfirst]
    dsimp only
    rw [hloop, Bsi.advance_advance, List.flatMap_cons, List.length_append]

/-- `HfReadLengths` installs the valid table whose header IN continues with (43_huffman_codec.md R194). -/
theorem hfReadLengths_continues {u : HufUnit} {b : Bsi} {z : Vector (BitVec 5) 256} (hz : lengthsValid z = true)
    (hb : b.continues (headerBits z)) :
    hfReadLengths (u, b) =
      .ok (codedCount z) ({ u with sizes := z, codes := assignCodes z }, b.advance (headerBits z).length) := by
  simp only [hfReadLengths, readHeader_table hb, Run.within, Run.andThen, hz, if_true]

/-- One block: the header, then its symbols (43_huffman_codec.md R197). -/
theorem hfDecodeBlocks_continues {u : HufUnit} {b : Bsi} {z : Vector (BitVec 5) 256} {vs : List Byte}
    (hz : lengthsValid z = true) (hpos : 0 < vs.length) (hblock : vs.length ≤ u.block.toNat)
    (hvs : ∀ v ∈ vs, symGet z v ≠ 0) (a : Nat) (m : List Host.Cell)
    (hb : b.continues (headerBits z ++ vs.flatMap (hufBits z (assignCodes z)))) :
    ∃ m', hfDecodeBlocks vs.length vs.length a ((u, b), m) = .ok () (({ u with sizes := z, codes := assignCodes z },
        b.advance (headerBits z ++ vs.flatMap (hufBits z (assignCodes z))).length), m') ∧ Stored m m' a vs := by
  obtain ⟨hheader, hcodes⟩ := Bsi.continues_append hb
  obtain ⟨m', hloop, hstored⟩ := decodeLoop_continues (u := { u with sizes := z, codes := assignCodes z })
    (codeSlots_assignCodes hz) hvs a m hcodes
  refine ⟨m', ?_, hstored⟩
  have hdone (fuel a : Nat) (t : HfdSide × List Host.Cell) : hfDecodeBlocks fuel 0 a t = .ok () t := by
    cases fuel <;> rfl
  have hunfold (fuel : Nat) : hfDecodeBlocks (fuel + 1) vs.length a ((u, b), m) =
      .ok () (({ u with sizes := z, codes := assignCodes z },
        b.advance (headerBits z ++ vs.flatMap (hufBits z (assignCodes z))).length), m') := by
    rw [hfDecodeBlocks, if_neg hpos.ne']
    simp only [Nat.min_eq_right hblock, hfReadLengths_continues hz hheader, Run.within, Run.andThen, hloop, Nat.sub_self,
      hdone, Bsi.advance_advance, List.length_append]
  have hone := hunfold (vs.length - 1)
  rwa [Nat.sub_add_cancel hpos] at hone

end Sys2Proof.Machine

namespace Sys2Proof

open Machine

/-- Settles O36: the header installs the table, and each code is walked to its symbol. -/
theorem huffmanBlockDecodeStoresTheSymbols : Obligations.HuffmanBlockDecodeStoresTheSymbols := by
  intro s o l z vs hlive hlen hpos hblock hin hz hvs bits hb
  rw [← hlen] at hpos hblock
  obtain ⟨m, hblocks, hstored⟩ := hfDecodeBlocks_continues (u := s.hfd) hz hpos hblock hvs o.toNat s.buf hb
  refine ⟨m, ?_, hstored⟩
  have hexec : exec (.hfdDecode o l) s = .next (s.endDecode .hfd hfdPart l
      (hfDecodeBlocks l.toNat l.toNat o.toNat (hfdPart.get s, s.buf))) := by
    show Host.Outcome.next (s.gated .hfd fun s => s.bounded o l fun s => _) = _
    rw [gated_live hlive, bounded_inside hin]
  rw [hexec, ← hlen]
  show Host.Outcome.next (s.endDecode .hfd hfdPart l (hfDecodeBlocks vs.length vs.length o.toNat ((s.hfd, s.bsi), s.buf))) = _
  rw [hblocks, hlen]
  rfl

end Sys2Proof

/-! SUPPORT. The nine commands of BSI: the direct writes and reads by the streams they leave, and the byte view of OUT
bit by bit (40_bit_stream.md R121 to R133). -/

namespace Sys2Proof

/-- A word with a command's opcode is that command, on the word's own operands (30_encoding.md R93). -/
theorem decode_of_opc {w : CmdWord} (i : Instr) (h : w.opc = (encodeFields i).1) :
    decode w = .ok (i.withOperands w.opA w.opB) := by
  rw [decode, h, decodeFields_opcode]

end Sys2Proof

namespace Sys2Proof.Machine

/-! ## Numbers and their bits -/

/-- One more bit doubles the number before it (00_scope.md R13). -/
theorem bitsValue_concat (l : List Bool) (x : Bool) : bitsValue (l ++ [x]) = 2 * bitsValue l + x.toNat := by
  simp [bitsValue]

/-- The first bit of a list is the most significant of its number (00_scope.md R13). -/
theorem testBit_bitsValue (l : List Bool) {i : Nat} (hi : i < l.length) :
    (bitsValue l).testBit (l.length - 1 - i) = l.getD i false := by
  induction l using List.reverseRecOn with
  | nil => cases hi
  | append_singleton l x ih =>
    rw [bitsValue_concat, List.length_append, List.length_singleton, Nat.add_sub_cancel]
    rw [List.length_append, List.length_singleton] at hi
    by_cases hlast : i = l.length
    · subst hlast
      cases x <;> simp [Nat.testBit_zero]
    · have hlow : i < l.length := by omega
      have hhalf : (2 * bitsValue l + x.toNat) / 2 = bitsValue l := by
        cases x <;> simp only [Bool.toNat_false, Bool.toNat_true] <;> omega
      rw [List.getD_append _ _ _ _ hlow, ← ih hlow, show l.length - i = l.length - 1 - i + 1 by omega, Nat.testBit_succ,
        hhalf]

/-! ## Direct writes -/

/-- A direct write leaves what the list it offers does, and answers its room (40_bit_stream.md R121, R124, R125). -/
theorem answer_writeBits (s : State) (v n : Nat) :
    { s with bsi := (writeBits v n s.bsi).2 }.answer (writeBits v n s.bsi).1 =
      answered (emitted s (bitsMsb v n)) (s.bsi.room n) := by
  rw [writeBits_eq, emitted, bitsMsb_length]
  rfl

/-- NBITS outside 1 to 32 is refused (40_bit_stream.md R125, R127). -/
theorem nbits_refused {n : Word} (h : n.toNat = 0 ∨ 32 < n.toNat) (s t : State) :
    (if nbitsIllegal n then s.refuse .invalidArgument else t) = failed s 3 :=
  (if_pos (decide_eq_true h)).trans (failed_eq s .invalidArgument (by decide)).symm

/-- NBITS from 1 to 32 is admitted (40_bit_stream.md R125, R127). -/
theorem nbits_admitted {n : Word} (hlo : 1 ≤ n.toNat) (hhi : n.toNat ≤ 32) (s t : State) :
    (if nbitsIllegal n then s.refuse .invalidArgument else t) = t := by
  have hlegal : ¬ (n.toNat = 0 ∨ n.toNat > 32) := by omega
  exact if_neg fun h => hlegal (of_decide_eq_true h)

/-! ## Direct reads -/

/-- The next bits of IN are the first one and those behind it (40_bit_stream.md R122). -/
theorem Bsi.ahead_succ (b : Bsi) (n : Nat) :
    b.ahead (n + 1) = b.inBits.getD b.rcnt.toNat false :: (b.advance 1).ahead n := by
  rw [Bsi.ahead, List.range_succ_eq_map, List.map_cons, List.map_map, BitVec.add_zero]
  refine congrArg _ (List.map_congr_left fun i _ => ?_)
  rw [Function.comp_apply, Nat.succ_eq_one_add, BitVec.ofNat_add, ← BitVec.add_assoc]
  rfl

/-- The number of the next bit alone. -/
theorem bitsValue_ahead_one (b : Bsi) : bitsValue (b.ahead 1) = (b.inBits.getD b.rcnt.toNat false).toNat := by
  rw [Bsi.ahead_succ]
  exact Nat.zero_add _

/-- The loop of `ReadBits` puts the next bits of IN behind the value it starts with (40_bit_stream.md R123). -/
theorem readLoop_eq_foldl (v n : Nat) (b : Bsi) :
    (readLoop v n b).1 = (b.ahead n).foldl (fun v x => 2 * v + x.toNat) v := by
  induction n generalizing v b with
  | zero => rfl
  | succ n ih => exact (ih _ (b.advance 1)).trans (by rw [Bsi.ahead_succ, List.foldl_cons])

/-- `ReadBit` where a bit can be read (40_bit_stream.md R122). -/
theorem readBit_canRead {b : Bsi} (h : b.canRead 1) : readBit b = .ok (b.inBits.getD b.rcnt.toNat false) (b.advance 1) :=
  (readBit_eq b).trans (if_pos h)

/-- `ReadBit` where none can (40_bit_stream.md R122). -/
theorem readBit_cannotRead {b : Bsi} (h : ¬ b.canRead 1) : readBit b = .stop .endOfStream b :=
  (readBit_eq b).trans (if_neg h)

/-- A closed input channel lets nothing be read (40_bit_stream.md R122, R123). -/
theorem not_canRead_of_closed {b : Bsi} (h : b.inClosed = true) (n : Nat) : ¬ b.canRead n := by
  rintro ⟨hopen, _⟩
  rw [h] at hopen
  cases hopen

/-- `ReadBits` reads the number of the next bits of IN (40_bit_stream.md R123). -/
theorem readBits_canRead {b : Bsi} {n : Nat} (hn : n ≠ 0) (h : b.canRead n) :
    readBits n b = .ok (bitsValue (b.ahead n)) (b.advance n) := by
  refine (readBits_pos n b hn).trans ((if_pos h).trans ?_)
  rw [readLoop_bsi, readLoop_eq_foldl]
  rfl

/-- A direct read that fails is a refusal and leaves the stream (40_bit_stream.md R126, R127). -/
theorem answerRead_end (s : State) : s.answerRead (.stop .endOfStream s.bsi) = failed s 1 :=
  (failed_eq s .endOfStream (by decide)).symm

/-- A bit is left exactly where one can be read (40_bit_stream.md R132). -/
theorem hasMore_iff (b : Bsi) : b.hasMore = true ↔ b.canRead 1 := by
  simp [Bsi.hasMore, Bsi.canRead]

/-! ## The byte view -/

@[simp] theorem packBytes_length (k : Nat) (l : List Bool) : (packBytes k l).length = k := by
  induction k generalizing l with
  | zero => rfl
  | succ k ih => rw [packBytes, List.length_cons, ih]

/-- Bit 7 - i of byte j is bit 8j + i of the list (40_bit_stream.md R133). -/
theorem getLsbD_packBytes {k j i : Nat} {l : List Bool} (hl : 8 * k ≤ l.length) (hj : j < k) (hi : i < 8) :
    ((packBytes k l).getD j 0).getLsbD (7 - i) = l.getD (8 * j + i) false := by
  induction k generalizing j l with
  | zero => cases hj
  | succ k ih =>
    cases j with
    | zero =>
      have hlen : (l.take 8).length = 8 := by
        rw [List.length_take]
        omega
      have hbit := testBit_bitsValue (l.take 8) (i := i) (by omega)
      rw [hlen] at hbit
      rw [packBytes, List.getD_cons_zero, BitVec.getLsbD_ofNat, hbit, decide_eq_true (show 7 - i < 8 by omega)]
      simp [List.getD_eq_getElem?_getD, hi]
    | succ j =>
      have hrest : 8 * k ≤ (l.drop 8).length := by
        rw [List.length_drop]
        omega
      rw [packBytes, List.getD_cons_succ, ih hrest (by omega), List.getD_eq_getElem?_getD, List.getElem?_drop,
        List.getD_eq_getElem?_getD, show 8 + (8 * j + i) = 8 * (j + 1) + i by omega]

/-- Zero bits behind a list read as what is past its end. -/
theorem getD_append_zeros (l : List Bool) (n i : Nat) :
    (l ++ List.replicate n false).getD i false = l.getD i false := by
  rcases Nat.lt_or_ge i l.length with h | h
  · exact List.getD_append _ _ _ _ h
  · rw [List.getD_append_right _ _ _ _ h, List.getD_eq_default _ _ h, List.getD_eq_getElem?_getD, List.getElem?_replicate]
    split <;> rfl

/-- The byte view is the whole bytes of OUT, once it is closed of OUT filled to a whole byte (40_bit_stream.md R133). -/
theorem outBytes_eq (b : Bsi) : ∃ k pad, b.outBytes = packBytes k (b.out ++ List.replicate pad false) ∧
    8 * k ≤ b.out.length + pad ∧ k = if b.outClosed then (b.out.length + 7) / 8 else b.out.length / 8 := by
  unfold Bsi.outBytes
  dsimp only
  by_cases hpad : b.outClosed = true ∧ b.out.length % 8 ≠ 0
  · obtain ⟨hclosed, hpart⟩ := hpad
    refine ⟨_, _, if_pos (by simp [hclosed, hpart]), by omega, ?_⟩
    rw [if_pos hclosed]
    omega
  · refine ⟨b.out.length / 8, 0, (if_neg (by simpa using hpad)).trans (by simp), by omega, ?_⟩
    split
    · rename_i hclosed
      have : ¬ b.out.length % 8 ≠ 0 := fun h => hpad ⟨hclosed, h⟩
      omega
    · rfl

end Sys2Proof.Machine

namespace Sys2Proof

open Machine

/-- Settles O15: a direct write is one `WriteBits`, which offers the bits of its value to OUT. -/
theorem directWritesAppendWhatTheSinkTakes : Obligations.DirectWritesAppendWhatTheSinkTakes := by
  refine ⟨fun w => decode_of_opc (.bsWrbit 0), fun w => decode_of_opc (.bsWrbits 0 0), fun s bit => ?_,
    fun s value nbits hbad => ?_, fun s value nbits hlo hhi => ?_⟩
  · exact congrArg _ (answer_writeBits s bit.toNat 1)
  · exact congrArg _ (nbits_refused hbad s _)
  · exact congrArg _ ((nbits_admitted hlo hhi s _).trans (answer_writeBits s value.toNat nbits.toNat))

/-- Settles O16: a direct read is one `ReadBit` or `ReadBits`, which reads the bits ahead or stops. -/
theorem directReadsTakeAllOrNone : Obligations.DirectReadsTakeAllOrNone := by
  have hread {s : State} {nbits : Word} (hlo : 1 ≤ nbits.toNat) (hhi : nbits.toNat ≤ 32) :
      exec (.bsRdbits nbits) s = .next (s.answerRead (readBits nbits.toNat s.bsi)) :=
    congrArg _ (nbits_admitted hlo hhi s _)
  have hbit (s : State) : exec .bsRdbit s = .next (s.answerRead ((readBit s.bsi).andThen fun x b => .ok x.toNat b)) := rfl
  refine ⟨fun w => decode_of_opc .bsRdbit, fun w => decode_of_opc (.bsRdbits 0), fun s h => ?_, fun s h => ?_,
    fun s nbits hbad => ?_, fun s nbits hlo hhi h => ?_, fun s nbits hlo hhi h => ?_⟩
  · rw [hbit, readBit_canRead h, bitsValue_ahead_one]
    rfl
  · rw [hbit, readBit_cannotRead h]
    exact congrArg _ (answerRead_end s)
  · exact congrArg _ (nbits_refused hbad s _)
  · rw [hread hlo hhi, readBits_canRead (by omega) h]
    rfl
  · rw [hread hlo hhi, readBits_end (by omega) h, answerRead_end]

/-- Settles O17, command by command. -/
theorem flushAndQueriesChangeNoStream : Obligations.FlushAndQueriesChangeNoStream := by
  have hanswer (s : State) (q : Quad) : s.respond q .none = answered s q.toNat := by
    rw [answered_eq, State.answer, BitVec.ofNat_toNat, BitVec.setWidth_eq]
  have hmore (s : State) : exec .bsHasmore s = .next (answered s s.bsi.hasMore.toNat) := rfl
  refine ⟨fun w => ⟨decode_of_opc .bsFlush, decode_of_opc .bsWritten, decode_of_opc .bsRead, decode_of_opc .bsHasmore⟩,
    fun s => ⟨rfl, congrArg _ (hanswer s _), congrArg _ (hanswer s _), fun h => ?_, fun h => ?_⟩⟩
  · rw [hmore, (hasMore_iff s.bsi).mpr h]
    rfl
  · rw [hmore, Bool.eq_false_iff.mpr fun hm => h ((hasMore_iff s.bsi).mp hm)]
    rfl

/-- Settles O19: the byte view packs OUT, filled with zero bits that read as what is past its end. -/
theorem byteViewPacksAndPads : Obligations.ByteViewPacksAndPads := by
  intro b
  obtain ⟨k, pad, hview, hlen, hk⟩ := outBytes_eq b
  rw [hview, packBytes_length]
  refine ⟨hk, fun j i hj hi => ?_⟩
  rw [getLsbD_packBytes (by simpa using hlen) hj hi, getD_append_zeros]

end Sys2Proof

/-! SUPPORT. The faults of `EGD_DECBYTE`: what a stopped decode leaves, and where IN ends inside a code
(41_exp_golomb.md R146, R147, R156). -/

namespace Sys2Proof.Machine

/-- A part of two lists put together that is not the whole of them is an incomplete part of the first, or the first and an
incomplete part of the second. -/
theorem prefix_append_cases {α : Type} {part l m : List α} (h : part <+: l ++ m) (hne : part ≠ l ++ m) :
    (part <+: l ∧ part ≠ l) ∨ ∃ rest, part = l ++ rest ∧ rest <+: m ∧ rest ≠ m := by
  by_cases hl : l <+: part
  · obtain ⟨rest, rfl⟩ := hl
    exact .inr ⟨rest, rfl, (List.prefix_append_right_inj l).mp h, fun e => hne (e ▸ rfl)⟩
  · rcases List.prefix_or_prefix_of_prefix h (List.prefix_append l m) with hpart | hpart
    · exact .inl ⟨hpart, fun e => hl (e ▸ List.prefix_rfl)⟩
    · exact absurd hpart hl

/-- An incomplete part is shorter. -/
theorem length_lt_of_prefix_of_ne {α : Type} {part l : List α} (h : part <+: l) (hne : part ≠ l) :
    part.length < l.length :=
  Nat.lt_of_le_of_ne h.length_le fun e => hne (h.eq_of_length e)

/-! ## `EgDecode` at the end of IN -/

/-- A closed input channel ends a code before its first bit (40_bit_stream.md R122). -/
theorem egDecode_closed {b : Bsi} (signed : Bool) (h : b.inClosed = true) :
    egDecode signed b = .stop .endOfStream b := by
  have hbit : readBit b = .stop .endOfStream b := readBit_cannotRead (not_canRead_of_closed h 1)
  simp [egDecode, Config.egMaxZ, egZeros, hbit, Run.andThen]

/-- IN ending inside the magnitude of a code is EndOfStream in either mode: the zeros and the 1 are consumed as far as they
are there, an incomplete suffix is not (41_exp_golomb.md R146). -/
theorem egDecode_endInMagnitude {b : Bsi} {x : Int} {part : List Bool} (hx : x.natAbs ≤ 510) (signed : Bool)
    (hpart : part <+: egMagnitude x) (hne : part ≠ egMagnitude x) (h : b.endsIn part) :
    egDecode signed b = .stop .endOfStream (b.advance (egEaten x part.length)) := by
  have hmax := log2_le_egMaxZ hx
  have hshort := length_lt_of_prefix_of_ne hpart hne
  rw [egMagnitude_length] at hshort
  rw [egEaten, if_pos hshort]
  unfold egMagnitude at hpart hne
  generalize Nat.log2 (x.natAbs + 1) = L at *
  rw [List.append_cons] at hpart hne
  rcases prefix_append_cases hpart hne with ⟨hzeros, hmissing⟩ | ⟨rest, rfl, hsuffix, hcut⟩
  · have hcount : part.length ≤ L ∧ part = List.replicate part.length false :=
      List.prefix_replicate_iff.mp ((List.prefix_concat_iff.mp hzeros).resolve_left hmissing)
    obtain ⟨hle, hall⟩ := hcount
    rw [egDecode, egZeros_end (hle.trans hmax) (hall ▸ h), Nat.min_eq_left (by omega)]
    rfl
  · obtain ⟨hone, hrest⟩ := Bsi.endsIn_append h
    have hfew := length_lt_of_prefix_of_ne hsuffix hcut
    rw [bitsMsb_length] at hfew
    rw [List.length_append, List.length_replicate, List.length_singleton] at hrest
    have hend : readBits L (b.advance (L + 1)) = .stop .endOfStream (b.advance (L + 1)) :=
      readBits_end (by omega) fun hread => by
        have hlen := Bsi.endsIn_length hrest
        have := hread.2
        omega
    rw [egDecode, egZeros_continues hmax hone]
    simp only [Run.andThen, hend]
    rw [List.length_append, List.length_append, List.length_replicate, List.length_singleton, Nat.min_eq_right (by omega)]

/-- An unsigned magnitude above 255 is InvalidStream, its code consumed (41_exp_golomb.md R146). -/
theorem egDecode_unsigned_outside {b : Bsi} {m : Nat} (hlo : 255 < m) (hhi : m ≤ 510) (h : b.continues (egCode m false)) :
    egDecode false b = .stop .invalidStream (b.advance 17) := by
  have hlog : Nat.log2 (m + 1) = 8 := (Nat.log2_eq_iff (by omega)).mpr ⟨by omega, by omega⟩
  have hcode : egCode m false = egMagnitude m := List.append_nil _
  rw [egDecode_magnitude (by simpa using hhi) false (hcode ▸ h), egMagnitude_length, Int.natAbs_natCast, hlog, egFinish,
    if_neg nofun, if_pos hlo]

/-! ## Symbols -/

/-- The integer of a symbol in either mode has at most eight leading zeros (41_exp_golomb.md R141). -/
theorem egValue_natAbs_le (signed : Bool) (v : Byte) : (egValue v signed).natAbs ≤ 510 := by
  have hlt := v.isLt
  have hlo := BitVec.le_toInt v
  have hhi := BitVec.toInt_lt (x := v)
  cases signed with
  | false =>
    show (v.toNat : Int).natAbs ≤ 510
    omega
  | true =>
    show v.toInt.natAbs ≤ 510
    omega

/-- IN ending inside the code of a symbol is EndOfStream (41_exp_golomb.md R146, R147). -/
theorem egDecode_endInSymbol {b : Bsi} (signed : Bool) (v : Byte) {part : List Bool}
    (hpart : part <+: egSymbolCode signed v) (hne : part ≠ egSymbolCode signed v) (h : b.endsIn part) :
    egDecode signed b = .stop .endOfStream (b.advance (egEaten (egValue v signed) part.length)) := by
  have hx := egValue_natAbs_le signed v
  cases signed with
  | true => exact egDecode_end hx hpart hne h
  | false =>
    have hcode : egSymbolCode false v = egMagnitude (egValue v false) := List.append_nil _
    exact egDecode_endInMagnitude hx false (hcode ▸ hpart) (hcode ▸ hne) h

/-- A decode that stops kills the unit, at the stream it has reached (41_exp_golomb.md R156, 60_exceptions.md R343). -/
theorem exec_egdDecbyte_stop {s : State} (hlive : Live s .egd) {signed : Bool} (hmode : s.egd.signedMode = signed) {r : Stop}
    {b : Bsi} (h : egDecode signed s.bsi = .stop r b) :
    exec .egdDecbyte s = .next ({ s with bsi := b }.endBy .egd r) := by
  show execEgdDecbyte s = _
  unfold execEgdDecbyte State.single
  rw [gated_live hlive]
  simp [bsiPart, egdSymbol, hmode, h, Run.andThen]

end Sys2Proof.Machine

namespace Sys2Proof

open Machine

/-- Settles O23: each fault is a stop of `EgDecode`, at the ninth zero, at a value out of range, or where IN ends. -/
theorem expGolombDecodeFaults : Obligations.ExpGolombDecodeFaults := by
  refine ⟨fun s hlive => ⟨fun h => ?_, fun m hmode hlo hhi h => ?_, fun x hmode hout hx h => ?_⟩,
    fun s v hlive hlen => ⟨fun hclosed => ?_, fun hopen hpart hne => ?_⟩⟩
  · rw [exec_egdDecbyte_stop hlive rfl (egDecode_nineZeros _ h), endBy_eq]
  · rw [exec_egdDecbyte_stop hlive hmode (egDecode_unsigned_outside hlo hhi h), endBy_eq]
  · rw [exec_egdDecbyte_stop hlive hmode ((egDecode_signed hx h).trans (if_pos hout)), endBy_eq]
  · rw [exec_egdDecbyte_stop hlive rfl (egDecode_closed _ hclosed), endBy_eq]
  · rw [exec_egdDecbyte_stop hlive rfl (egDecode_endInSymbol _ v hpart hne ⟨hopen, hlen, rfl⟩), endBy_eq]
    rfl

end Sys2Proof

/-! SUPPORT. What lasts: a fact of the bit streams that writing, reading and closing each keep holds after every command
but SYS_RESET. `Bsi.Writes` and `Bsi.Reads` say nothing of the channel a unit moves its bits on, so the procedures are gone
through once more, for every such fact at once (40_bit_stream.md R121 to R123, R129). -/

namespace Sys2Proof.Machine

/-- A fact of the bit streams that writing, reading and closing each keep. -/
structure Bsi.Lasting (Q : Bsi → Prop) : Prop where
  append : ∀ b l, Q b → Q (b.append l)
  advance : ∀ b n, Q b → Q (b.advance n)
  closeOut : ∀ b, Q b → Q { b with outClosed := true }
  closeIn : ∀ b, Q b → Q { b with inClosed := true }

/-- However a procedure ends, it keeps a fact. -/
abbrev Lasts {σ α : Type} (Q : σ → Prop) (proc : σ → Run σ α) : Prop := Keeps Q (fun _ => True) proc

/-! ## Ways of building a procedure -/

section
variable {σ τ α β : Type} {Q : σ → Prop} {Q' : τ → Prop}

theorem lasts_ok (a : α) : Lasts Q (.ok a) := fun _ h => h

theorem lasts_stop (r : Stop) : Lasts Q (.stop r : σ → Run σ α) := fun _ h => ⟨h, trivial⟩

theorem Keeps.andThen {p : σ → Run σ α} {f : α → σ → Run σ β} (hp : Lasts Q p) (hf : ∀ a, Lasts Q (f a)) :
    Lasts Q fun t => (p t).andThen f := fun t h => (hp t h).andThen hf

theorem lasts_ite {c : Prop} [Decidable c] {p q : σ → Run σ α} (hp : Lasts Q p) (hq : Lasts Q q) :
    Lasts Q fun t => if c then p t else q t := by
  intro t h
  dsimp only
  split
  · exact hp t h
  · exact hq t h

end

/-! ## The procedures of the units -/

section
variable {Q : Bsi → Prop} (hQ : Bsi.Lasting Q)
include hQ

theorem writeAll_lasts (v n : Nat) : Lasts Q (writeAll v n) := by
  intro b h
  rw [writeAll_eq]
  split
  · exact meets_ok (hQ.append b _ h)
  · exact meets_stop (hQ.append b _ h) trivial

theorem readBit_lasts : Lasts Q readBit := by
  intro b h
  rw [readBit_eq]
  split
  · exact meets_ok (hQ.advance b 1 h)
  · exact meets_stop h trivial

theorem readBits_lasts (n : Nat) : Lasts Q (readBits n) := by
  intro b h
  by_cases hn : n = 0
  · subst hn
    exact meets_ok h
  · rw [readBits_pos n b hn]
    split
    · rw [readLoop_bsi]
      exact meets_ok (hQ.advance b n h)
    · exact meets_stop h trivial

/-! ### Exp-Golomb -/

theorem egEncode_lasts (x : Int) (signed : Bool) : Lasts Q (egEncode x signed) := by
  intro b h
  unfold egEncode
  dsimp only
  split
  · exact writeAll_lasts hQ _ _ b h
  · exact writeAll_lasts hQ _ _ b h

theorem egZeros_lasts (k : Nat) : Lasts Q (egZeros k) := by
  induction k with
  | zero =>
    refine (readBit_lasts hQ).andThen fun x => ?_
    cases x with
    | true => exact lasts_ok 0
    | false => exact lasts_stop _
  | succ k ih =>
    refine (readBit_lasts hQ).andThen fun x => ?_
    cases x with
    | true => exact lasts_ok 0
    | false => exact ih.andThen fun n => lasts_ok _

theorem egFinish_lasts (signed : Bool) (mag : Nat) : Lasts Q (egFinish signed mag) :=
  lasts_ite
    (lasts_ite (lasts_ok 0) ((readBit_lasts hQ).andThen fun _ => lasts_ite (lasts_stop _) (lasts_ok _)))
    (lasts_ite (lasts_stop _) (lasts_ok _))

theorem egDecode_lasts (signed : Bool) : Lasts Q (egDecode signed) :=
  (egZeros_lasts hQ _).andThen fun len => (readBits_lasts hQ len).andThen fun _ => egFinish_lasts hQ signed _

theorem egdSymbol_lasts (signed : Bool) : Lasts Q (egdSymbol signed) :=
  (egDecode_lasts hQ signed).andThen fun _ => lasts_ok _

/-! ### Range coder -/

theorem rcEncodeSymbol_lasts (v : Byte) : Lasts (fun t => Q t.2) (rcEncodeSymbol v) := by
  intro t h
  unfold rcEncodeSymbol
  split
  · exact meets_stop h trivial
  · have hrenorm := rcRenorm_keeps (shift := rcEmit) (fun _ => writeAll_lasts hQ _ _) rcPasses (t.1.narrow v.toNat, t.2) h
    exact hrenorm.andThen fun _ _ h => meets_ok h

theorem rcConsume_lasts (x : RcCoder) : Lasts (fun t => Q t.2) (rcConsume x) := by
  intro t h
  have hread := readBits_lasts hQ 8 t.2 h
  unfold rcConsume
  split
  · rename_i v b e
    exact hread.of_ok e
  · rename_i r b e
    exact hread.of_stop e

theorem rcPrime_lasts : Lasts (fun t => Q t.2) rcPrime := by
  intro t h
  have hread := readBits_lasts hQ Config.rcFlushBits t.2 h
  unfold rcPrime
  split
  · exact meets_ok h
  · split
    · rename_i v b e
      exact hread.of_ok e
    · rename_i r b e
      exact hread.of_stop e

theorem rcDecodePrimed_lasts : Lasts (fun t => Q t.2) rcDecodePrimed := by
  intro t h
  unfold rcDecodePrimed
  split
  · exact meets_stop h trivial
  · rename_i v _
    have hrenorm := rcRenorm_keeps (rcConsume_lasts hQ) rcPasses (t.1.coder.narrow v, t.1.code, t.2) h
    have hback := hrenorm.within (f := t.1.putBack) (Q' := fun t => Q t.2) fun _ h => h
    exact hback.andThen fun _ _ h => meets_ok h

theorem rcDecodeSymbol_lasts : Lasts (fun t => Q t.2) rcDecodeSymbol := by
  intro t h
  unfold rcDecodeSymbol
  split
  · exact meets_stop h trivial
  · exact (rcPrime_lasts hQ t h).andThen fun _ => rcDecodePrimed_lasts hQ

/-! ### Context-mixing coder -/

theorem cmEncodeBits_lasts (tbl : Vector StateEntry 256) (v : Byte) (k : Nat) :
    Lasts (fun t => Q t.2) (cmEncodeBits tbl v k) := by
  induction k with
  | zero => exact lasts_ok ()
  | succ k ih =>
    intro t h
    have hrenorm := cmRenorm_keeps (shift := cmEmit) (fun _ => writeAll_lasts hQ _ _) cmShifts
      (t.1.resolve tbl (v.getLsbD k), t.2) h
    exact hrenorm.andThen fun _ => ih

theorem cmConsume_lasts (x : CmCoder) : Lasts (fun t => Q t.2) (cmConsume x) := by
  intro t h
  have hread := readBits_lasts hQ 8 t.2 h
  unfold cmConsume
  split
  · rename_i v b e
    exact hread.of_ok e
  · rename_i r b e
    exact hread.of_stop e

theorem cmPrime_lasts : Lasts (fun t => Q t.2) cmPrime := by
  intro t h
  have hread := readBits_lasts hQ Config.cmPrimeBits t.2 h
  unfold cmPrime
  split
  · exact meets_ok h
  · split
    · rename_i v b e
      exact hread.of_ok e
    · rename_i r b e
      exact hread.of_stop e

theorem cmDecodeBit_lasts (tbl : Vector StateEntry 256) : Lasts (fun t => Q t.2) (cmDecodeBit tbl) := by
  intro t h
  have hrenorm := cmRenorm_keeps (cmConsume_lasts hQ) cmShifts (t.1.coder.resolve tbl t.1.bit, t.1.current, t.2) h
  have hback := hrenorm.within (f := t.1.putBack) (Q' := fun t => Q t.2) fun _ h => h
  exact hback.andThen fun _ => lasts_ok _

theorem cmDecodeBits_lasts (tbl : Vector StateEntry 256) (k v : Nat) :
    Lasts (fun t => Q t.2) (cmDecodeBits tbl k v) := by
  induction k generalizing v with
  | zero => exact lasts_ok v
  | succ k ih => exact (cmDecodeBit_lasts hQ tbl).andThen fun _ => ih _

theorem cmDecodeSymbol_lasts (tbl : Vector StateEntry 256) : Lasts (fun t => Q t.2) (cmDecodeSymbol tbl) :=
  (cmPrime_lasts hQ).andThen fun _ => (cmDecodeBits_lasts hQ tbl 8 0).andThen fun _ => lasts_ok _

/-! ### Huffman -/

theorem hfEncodeSymbol_lasts (v : Byte) : Lasts (fun t => Q t.2.2) (hfEncodeSymbol v) := by
  intro t h
  unfold hfEncodeSymbol
  dsimp only
  split
  · exact meets_stop h trivial
  · exact (writeAll_lasts hQ _ _ t.2.2 h).within fun _ h => h

theorem writeDeltas_lasts (prev : Nat) (l : List Nat) : Lasts Q (writeDeltas prev l) := by
  induction l generalizing prev with
  | nil => exact lasts_ok ()
  | cons z rest ih => exact (egEncode_lasts hQ _ true).andThen fun _ => ih z

theorem hfUpdate_lasts : Lasts (fun t => Q t.2.2) hfUpdate := by
  intro t h
  unfold hfUpdate
  split
  · exact meets_stop h trivial
  · have hheader (z : Vector (BitVec 5) 256) : Lasts Q (hfWriteHeader z) :=
      (writeAll_lasts hQ _ _).andThen fun _ => writeDeltas_lasts hQ _ _
    exact (hheader _ t.2.2 h).within fun _ h => h

theorem hfEncodeBlocks_lasts (buf : List Host.Cell) (fuel rem a n : Nat) (t : HfeSide) (h : Q t.2.2) :
    Q (hfEncodeBlocks buf fuel rem a n t).2.2.2.2 := by
  induction fuel generalizing rem a n t with
  | zero => exact h
  | succ fuel ih =>
    unfold hfEncodeBlocks
    split
    · exact h
    · have hupdate := hfUpdate_lasts hQ
        ({ t.1 with freq := blockCounts buf a (min t.2.1.block.toNat rem) }, t.2) h
      dsimp only
      split
      · rename_i r u e
        exact (hupdate.of_stop e).1
      · rename_i u e
        have hcoded := encodeLoop_keeps (hfEncodeSymbol_lasts hQ) buf (min t.2.1.block.toNat rem) a n u
          (hupdate.of_ok e)
        split
        · rename_i m r w e
          rw [e] at hcoded
          exact hcoded.1
        · rename_i m w e
          rw [e] at hcoded
          exact ih _ _ _ w hcoded.1

theorem readDeltas_lasts (k prev : Nat) : Lasts Q (readDeltas k prev) := by
  induction k generalizing prev with
  | zero => exact lasts_ok []
  | succ k ih =>
    exact (egDecode_lasts hQ true).andThen fun _ => lasts_ite (lasts_stop _) ((ih _).andThen fun _ => lasts_ok _)

theorem readHeader_lasts : Lasts Q readHeader :=
  (readBits_lasts hQ _).andThen fun z0 => (readDeltas_lasts hQ 255 z0).andThen fun _ => lasts_ok _

theorem hfReadLengths_lasts : Lasts (fun t => Q t.2) hfReadLengths := by
  intro t h
  refine ((readHeader_lasts hQ t.2 h).within (f := fun b => (t.1, b)) (Q' := fun t => Q t.2) fun _ h => h).andThen
    fun z t h => ?_
  split
  · exact meets_ok h
  · exact meets_stop h trivial

theorem hfWalk_lasts (l : List (Nat × Nat)) (fuel len c : Nat) : Lasts Q (hfWalk l fuel len c) := by
  induction fuel generalizing len c with
  | zero => exact lasts_stop _
  | succ fuel ih =>
    refine (readBit_lasts hQ).andThen fun x b h => ?_
    dsimp only
    split
    · exact meets_ok h
    · exact lasts_ite (ih _ _) (lasts_stop _) b h

theorem hfDecodeSymbol_lasts : Lasts (fun t => Q t.2) hfDecodeSymbol := fun t h =>
  (hfWalk_lasts hQ _ _ 0 0 t.2 h).within fun _ h => h

end

/-- The loop of a bulk decode keeps what the decoding of a symbol keeps, wherever it stores. -/
theorem decodeLoop_lasts {σ : Type} {Q : σ → Prop} {dec : σ → Run σ Byte} (hdec : Lasts Q dec) (k a : Nat) :
    Lasts (fun t => Q t.1) (decodeLoop dec k a) := by
  induction k generalizing a with
  | zero => exact lasts_ok ()
  | succ k ih =>
    intro t h
    have hfirst := hdec t.1 h
    unfold decodeLoop
    split
    · rename_i v u e
      exact ih (a + 1) _ (hfirst.of_ok e)
    · rename_i r u e
      exact hfirst.of_stop e

theorem hfDecodeBlocks_lasts {Q : Bsi → Prop} (hQ : Bsi.Lasting Q) (fuel rem a : Nat) :
    Lasts (fun t => Q t.1.2) (hfDecodeBlocks fuel rem a) := by
  induction fuel generalizing rem a with
  | zero => exact lasts_ok ()
  | succ fuel ih =>
    intro t h
    unfold hfDecodeBlocks
    split
    · exact meets_ok h
    · have hread := (hfReadLengths_lasts hQ t.1 h).within (f := fun u => (u, t.2)) (Q' := fun t => Q t.1.2) fun _ h => h
      exact hread.andThen fun _ t h =>
        (decodeLoop_lasts (hfDecodeSymbol_lasts hQ) _ a t h).andThen fun _ => ih _ _

/-! ## How a command ends -/

@[simp] theorem State.endBy_bsi (s : State) (u : UnitId) (r : Stop) : (s.endBy u r).bsi = s.bsi := by
  cases r <;> simp [State.endBy, State.raise, State.wrFail]

@[simp] theorem State.endEncode_bsi (s : State) (u : UnitId) (n : Nat) (r : Option Stop) :
    (s.endEncode u n r).bsi = s.bsi := by
  unfold State.endEncode
  split <;> simp [State.wrFail]

/-! ## The skeletons (47_system_commands.md R330 to R337) -/

section
variable {Q : Bsi → Prop} {s : State} {u : UnitId}

theorem gated_lasts {body : State → State} (h : Q s.bsi) (hbody : Q (body s).bsi) : Q (s.gated u body).bsi := by
  rcases gated_cases s u body with ⟨_, e⟩ | ⟨_, e⟩
  · exact e ▸ hbody
  · exact e ▸ h

theorem bounded_lasts {body : State → State} {o l : Word} (h : Q s.bsi) (hbody : Q (body s).bsi) :
    Q (s.bounded o l body).bsi := by
  rcases bounded_cases s o l body with ⟨_, e⟩ | ⟨_, e⟩
  · exact e ▸ hbody
  · exact e ▸ h

section
variable {σ : Type} {part : Part σ} {stream : σ → Bsi} (hput : ∀ t s, (part.put t s).bsi = stream t)
include hput

theorem single_lasts {α : Type} {proc : σ → Run σ α} {done : α → State → State} (hget : Q (stream (part.get s)))
    (h : Q s.bsi) (hproc : Lasts (fun t => Q (stream t)) proc) (hdone : ∀ a t, (done a t).bsi = t.bsi) :
    Q (s.single u part proc done).bsi := by
  have hrun := hproc (part.get s) hget
  rcases single_cases s u part proc done with ⟨_, e⟩ | ⟨_, a, t, hp, e⟩ | ⟨_, r, t, hp, e⟩
  · exact e ▸ h
  · rw [e, hdone, hput]
    exact hrun.of_ok hp
  · rw [e, State.endBy_bsi, hput]
    exact (hrun.of_stop hp).1

theorem endDecode_lasts {x : Run (σ × List Host.Cell) Unit} (l : Word)
    (hx : x.Meets (fun t => Q (stream t.1)) fun _ => True) : Q (s.endDecode u part l x).bsi := by
  cases x with
  | ok a t =>
    rw [State.endDecode, State.answer_bsi, hput]
    exact hx
  | stop r t =>
    rw [State.endDecode, State.endBy_bsi, hput]
    exact hx.1

theorem bulkEncode_lasts {enc : Byte → σ → Run σ Unit} (o l : Word) (hget : Q (stream (part.get s))) (h : Q s.bsi)
    (henc : ∀ v, Lasts (fun t => Q (stream t)) (enc v)) : Q (s.bulkEncode u part enc o l).bsi := by
  refine gated_lasts h (bounded_lasts h ?_)
  rw [State.endEncode_bsi, hput]
  exact (encodeLoop_keeps henc s.buf l.toNat o.toNat 0 _ hget).1

theorem bulkDecode_lasts {dec : σ → Run σ Byte} (o l : Word) (hget : Q (stream (part.get s))) (h : Q s.bsi)
    (hdec : Lasts (fun t => Q (stream t)) dec) : Q (s.bulkDecode u part dec o l).bsi :=
  gated_lasts h (bounded_lasts h (endDecode_lasts hput l (decodeLoop_lasts hdec _ _ _ hget)))

end

theorem disposeUnit_lasts {flush : Bsi → Run Bsi Unit} (h : Q s.bsi) (hflush : Lasts Q flush) :
    Q (s.disposeUnit u flush).bsi := by
  unfold State.disposeUnit
  dsimp only
  split
  · exact h
  · split
    · rw [State.answer_bsi, State.setUstat_bsi]
      exact h
    · have hrun := hflush s.bsi h
      rw [State.setUstat_bsi]
      split
      · rename_i a b e
        exact hrun.of_ok e
      · rename_i r b e
        rw [State.raise, State.refuse_bsi, State.setUstat_bsi]
        exact (hrun.of_stop e).1

theorem initUnit_lasts {install : State → State} (h : Q (install s).bsi) : Q (s.initUnit u install).bsi := by
  rw [State.initUnit, State.answer_bsi, State.setUstat_bsi]
  exact h

theorem answerRead_lasts {x : Run Bsi Nat} (hx : x.Meets Q fun _ => True) : Q (s.answerRead x).bsi := by
  cases x with
  | ok v b => exact hx
  | stop r b => exact hx.1

theorem refuseIf_lasts (c : Bool) {t : State} (h : Q s.bsi) (ht : Q t.bsi) :
    Q (if c then s.refuse .invalidArgument else t).bsi := by
  cases c with
  | true => exact h
  | false => exact ht

end

/-! ## Every command -/

section
variable {Q : Bsi → Prop} (hQ : Bsi.Lasting Q)
include hQ

theorem execBsClose_lasts (ch : BitVec 1) (s : State) (h : Q s.bsi) : ∃ t, execBsClose ch s = .next t ∧ Q t.bsi := by
  refine ⟨_, rfl, ?_⟩
  rw [State.answer_bsi]
  split
  · exact hQ.closeIn _ h
  · exact hQ.closeOut _ h

theorem answer_writeBits_lasts (v n : Nat) (s : State) (h : Q s.bsi) :
    Q ({ s with bsi := (writeBits v n s.bsi).2 }.answer (writeBits v n s.bsi).1).bsi := by
  rw [answer_writeBits]
  exact hQ.append _ _ h

/-- A fact of the streams that writing, reading and closing keep holds after every command but SYS_RESET. -/
theorem exec_lasts (i : Instr) (hi : i ≠ .sysReset) (s : State) (h : Q s.bsi) : ∃ t, exec i s = .next t ∧ Q t.bsi := by
  cases i with
  | sysReset => exact absurd rfl hi
  | bsWrbit bit => exact ⟨_, rfl, answer_writeBits_lasts hQ _ _ s h⟩
  | bsWrbits value nbits => exact ⟨_, rfl, refuseIf_lasts _ h (answer_writeBits_lasts hQ _ _ s h)⟩
  | bsRdbit => exact ⟨_, rfl, answerRead_lasts ((readBit_lasts hQ s.bsi h).andThen fun _ => lasts_ok _)⟩
  | bsRdbits nbits => exact ⟨_, rfl, refuseIf_lasts _ h (answerRead_lasts (readBits_lasts hQ _ s.bsi h))⟩
  | bsClose ch => exact execBsClose_lasts hQ ch s h
  | bsFlush | bsWritten | bsRead | bsHasmore | hcbSetfreq | hcbClrfreq | hcbGetsize | hcbGetcode | hcbGetfreq
  | sysStatus | egeStatus | egdStatus | hfeStatus | hfdStatus | rceStatus | rcdStatus | cmeStatus | cmdStatus
  | egeGetbs | egdGetbs | hfeGetbs | hfdGetbs | rceGetbs | rcdGetbs | cmeGetbs | cmdGetbs => exact ⟨_, rfl, h⟩
  | hcbBuild =>
    refine ⟨_, rfl, ?_⟩
    split
    · exact h
    · exact h
  | egeInit | egdInit | hfeInit | hfdInit => exact ⟨_, rfl, refuseIf_lasts _ h (initUnit_lasts h)⟩
  | rceInit | rcdInit | cmeInit | cmdInit => exact ⟨_, rfl, initUnit_lasts h⟩
  | egeDispose | egdDispose | hfeDispose | hfdDispose | rcdDispose | cmdDispose =>
    exact ⟨_, rfl, disposeUnit_lasts h (lasts_ok ())⟩
  | rceDispose | cmeDispose => exact ⟨_, rfl, disposeUnit_lasts h (writeAll_lasts hQ _ _)⟩
  | egeEncbyte v => exact ⟨_, rfl, single_lasts (fun _ _ => rfl) h h (egEncode_lasts hQ _ _) fun _ _ => rfl⟩
  | egdDecbyte => exact ⟨_, rfl, single_lasts (fun _ _ => rfl) h h (egdSymbol_lasts hQ _) fun _ _ => rfl⟩
  | hfeEncbyte v => exact ⟨_, rfl, single_lasts (fun _ _ => rfl) h h (hfEncodeSymbol_lasts hQ v) fun _ _ => rfl⟩
  | hfeUpdate => exact ⟨_, rfl, single_lasts (fun _ _ => rfl) h h (hfUpdate_lasts hQ) fun _ _ => rfl⟩
  | hfdDecbyte => exact ⟨_, rfl, single_lasts (fun _ _ => rfl) h h (hfDecodeSymbol_lasts hQ) fun _ _ => rfl⟩
  | hfdReadlen => exact ⟨_, rfl, single_lasts (fun _ _ => rfl) h h (hfReadLengths_lasts hQ) fun _ _ => rfl⟩
  | rceEncbyte v => exact ⟨_, rfl, single_lasts (fun _ _ => rfl) h h (rcEncodeSymbol_lasts hQ v) fun _ _ => rfl⟩
  | rcdDecbyte => exact ⟨_, rfl, single_lasts (fun _ _ => rfl) h h (rcDecodeSymbol_lasts hQ) fun _ _ => rfl⟩
  | cmeEncbyte v => exact ⟨_, rfl, single_lasts (fun _ _ => rfl) h h (cmEncodeBits_lasts hQ _ v 8) fun _ _ => rfl⟩
  | cmdDecbyte => exact ⟨_, rfl, single_lasts (fun _ _ => rfl) h h (cmDecodeSymbol_lasts hQ _) fun _ _ => rfl⟩
  | egeEncode o l => exact ⟨_, rfl, bulkEncode_lasts (fun _ _ => rfl) o l h h fun _ => egEncode_lasts hQ _ _⟩
  | rceEncode o l => exact ⟨_, rfl, bulkEncode_lasts (fun _ _ => rfl) o l h h (rcEncodeSymbol_lasts hQ)⟩
  | cmeEncode o l => exact ⟨_, rfl, bulkEncode_lasts (fun _ _ => rfl) o l h h fun v => cmEncodeBits_lasts hQ _ v 8⟩
  | egdDecode o l => exact ⟨_, rfl, bulkDecode_lasts (fun _ _ => rfl) o l h h (egdSymbol_lasts hQ _)⟩
  | rcdDecode o l => exact ⟨_, rfl, bulkDecode_lasts (fun _ _ => rfl) o l h h (rcDecodeSymbol_lasts hQ)⟩
  | cmdDecode o l => exact ⟨_, rfl, bulkDecode_lasts (fun _ _ => rfl) o l h h (cmDecodeSymbol_lasts hQ _)⟩
  | hfeEncode o l =>
    refine ⟨_, rfl, gated_lasts h (bounded_lasts h ?_)⟩
    rw [State.endEncode_bsi]
    exact hfEncodeBlocks_lasts hQ _ _ _ _ _ (hfePart.get s) h
  | hfdDecode o l =>
    exact ⟨_, rfl, gated_lasts h (bounded_lasts h
      (endDecode_lasts (fun _ _ => rfl) l (hfDecodeBlocks_lasts hQ _ _ _ (hfdPart.get s, s.buf) h)))⟩

theorem lasts_of_exec {i : Instr} (hi : i ≠ .sysReset) {s t : State} (hexec : exec i s = .next t) (h : Q s.bsi) :
    Q t.bsi := by
  obtain ⟨t', ht, hlast⟩ := exec_lasts hQ i hi s h
  rw [ht] at hexec
  cases hexec
  exact hlast

end

/-! ## Closed channels -/

theorem outClosed_lasting : Bsi.Lasting fun b => b.outClosed = true where
  append _ _ h := h
  advance _ _ h := h
  closeOut _ _ := rfl
  closeIn _ h := h

theorem inClosed_lasting : Bsi.Lasting fun b => b.inClosed = true where
  append _ _ h := h
  advance _ _ h := h
  closeOut _ h := h
  closeIn _ _ := rfl

/-- A closed output channel takes nothing (40_bit_stream.md R121, R129). -/
theorem writeBits_closed {b : Bsi} (h : b.outClosed = true) (v n : Nat) : writeBits v n b = (0, b) := by
  have hroom : b.room n = 0 := if_pos h
  rw [writeBits_eq, hroom]
  simp [Bsi.append]

end Sys2Proof.Machine

namespace Sys2Proof

open Machine

/-- Settles O18: nothing is taken from or given to a closed channel, and being closed lasts. -/
theorem closeStopsTheChannelForGood : Obligations.CloseStopsTheChannelForGood := by
  refine ⟨fun w => decode_of_opc (.bsClose 0), fun s => ⟨rfl, rfl⟩, fun s v n h => writeBits_closed h v n,
    fun s n h hn => ⟨?_, ?_, ?_⟩, fun i s t hi hexec => ⟨fun h => ?_, fun h => ?_⟩⟩
  · exact readBit_cannotRead (not_canRead_of_closed h 1)
  · exact readBits_end (by omega) (not_canRead_of_closed h n)
  · obtain ⟨_, hqueries⟩ := flushAndQueriesChangeNoStream
    obtain ⟨_, _, _, _, hnone⟩ := hqueries s
    exact hnone (not_canRead_of_closed h 1)
  · exact lasts_of_exec outClosed_lasting hi hexec h
  · exact lasts_of_exec inClosed_lasting hi hexec h

end Sys2Proof

/-! SUPPORT. The INIT commands: when their operand is refused, and the unit they leave otherwise (41_exp_golomb.md R153, R159;
43_huffman_codec.md R203, R213; 47_system_commands.md R335). -/

namespace Sys2Proof.Machine

/-! ## The operand checks -/

/-- A mode is refused above 1: its bits 31:1 are then not all 0 (41_exp_golomb.md R153, R159). -/
theorem modeIllegal_iff (a : Word) : modeIllegal a = true ↔ 2 ≤ a.toNat := by
  rw [modeIllegal, decide_eq_true_eq, Nat.shiftRight_eq_div_pow]
  omega

/-- The bit 0 of a legal mode tells 1 from 0 (41_exp_golomb.md R153, R159). -/
theorem modeBit_of_legal {a : Word} (h : a.toNat < 2) : modeBit a = (a == 1) := by
  obtain rfl | rfl : a = 0 ∨ a = 1 := by
    rcases Nat.lt_succ_iff_lt_or_eq.mp h with h0 | h1
    · exact .inl (BitVec.eq_of_toNat_eq (Nat.lt_one_iff.mp h0))
    · exact .inr (BitVec.eq_of_toNat_eq h1)
  · rfl
  · rfl

/-- A block size is refused where it is not positive or above HUF_BLOCK_MAX (43_huffman_codec.md R203, R213). -/
theorem blockIllegal_iff (a : Word) : blockIllegal a = true ↔ a.toInt ≤ 0 ∨ 2 ^ 20 < a.toInt := decide_eq_true_iff

/-- A command with an operand check answers InvalidArgument where the check refuses (60_exceptions.md R345). -/
theorem refuseIf_illegal {c : Bool} (h : c = true) (s t : State) :
    (if c then s.refuse .invalidArgument else t) = failed s 3 :=
  (if_pos h).trans (failed_eq s .invalidArgument (by decide)).symm

end Sys2Proof.Machine

namespace Sys2Proof

open Machine

/-- Settles O14: an illegal operand is refused, and a legal one installs the reset values with the setting. -/
theorem initGivesTheUnitOfANewInstance : Obligations.InitGivesTheUnitOfANewInstance := by
  refine ⟨⟨fun w => decode_of_opc (.egeInit 0), fun w => decode_of_opc (.egdInit 0), fun s a => ⟨fun hbad => ?_, fun hok => ?_⟩⟩,
    ⟨fun w => decode_of_opc (.hfeInit 0), fun w => decode_of_opc (.hfdInit 0), fun s a => ⟨fun hbad => ?_, fun hpos hmax => ?_⟩⟩,
    fun s => ⟨?_, ?_⟩⟩
  · have hill := (modeIllegal_iff a).mpr hbad
    exact ⟨congrArg _ (refuseIf_illegal hill s _), congrArg _ (refuseIf_illegal hill s _)⟩
  · have hleg : ¬ modeIllegal a = true := fun h => absurd ((modeIllegal_iff a).mp h) (by omega)
    rw [← modeBit_of_legal hok]
    exact ⟨congrArg _ (if_neg hleg), congrArg _ (if_neg hleg)⟩
  · have hill := (blockIllegal_iff a).mpr hbad
    exact ⟨congrArg _ (refuseIf_illegal hill s _), congrArg _ (refuseIf_illegal hill s _)⟩
  · have hleg : ¬ blockIllegal a = true := fun h => absurd ((blockIllegal_iff a).mp h) (by omega)
    exact ⟨.fresh a, flatCode_flat, rfl, rfl, congrArg _ (if_neg hleg), congrArg _ (if_neg hleg)⟩
  · exact ⟨.reset, resetValues_rcCoder, rfl, rfl⟩
  · exact ⟨.reset s.cfg.stateTable, rfl, rfl, resetValues_predictor _, rfl, rfl⟩

end Sys2Proof

/-! SUPPORT. The Exp-Golomb units: what EGE writes of a symbol and of a range of BUF, what EGD reads back, and the two
together (41_exp_golomb.md R150, R151, R156, R157; 43_huffman_codec.md R218). -/

namespace Sys2Proof.Machine

/-! ## Symbols -/

/-- EGE offers the code of the symbol to OUT (41_exp_golomb.md R150). -/
theorem offers_egeSymbol (signed : Bool) (v : Byte) : Offers (egeSymbol signed v) (egSymbolCode signed v) :=
  offers_egEncode _ _

/-- The integer a symbol stands for, taken as a symbol again, is the symbol (41_exp_golomb.md R141, R156). -/
theorem symbolOf_egValue (signed : Bool) (v : Byte) : symbolOf (egValue v signed) = v := by
  cases signed with
  | true => exact BitVec.ofInt_toInt
  | false =>
    show BitVec.ofInt 8 (v.toNat : Int) = v
    rw [BitVec.ofInt_natCast, BitVec.ofNat_toNat, BitVec.setWidth_eq]

/-- `EgDecode` delivers the integer of the symbol whose code IN continues with, and consumes the code
(41_exp_golomb.md R146, R147). -/
theorem egDecode_symbol {b : Bsi} {signed : Bool} {v : Byte} (h : b.continues (egSymbolCode signed v)) :
    egDecode signed b = .ok (egValue v signed) (b.advance (egSymbolCode signed v).length) := by
  have hx := egValue_natAbs_le signed v
  cases signed with
  | true =>
    have hlo := BitVec.le_toInt v
    have hhi := BitVec.toInt_lt (x := v)
    have hin : ¬ (v.toInt < -128 ∨ v.toInt > 127) := by omega
    exact (egDecode_signed hx h).trans (if_neg hin)
  | false =>
    have hcode : egSymbolCode false v = egMagnitude (egValue v false) := List.append_nil _
    have hmag : (egValue v false).natAbs = v.toNat := Int.natAbs_natCast _
    have hlt := v.isLt
    rw [hcode] at h ⊢
    rw [egDecode_magnitude hx false h, hmag, egFinish, if_neg nofun, if_neg (by omega)]
    rfl

/-- EGD delivers the symbol whose code IN continues with (41_exp_golomb.md R156). -/
theorem egdSymbol_continues {signed : Bool} (v : Byte) (b : Bsi) (h : b.continues (egSymbolCode signed v)) :
    egdSymbol signed b = .ok v (b.advance (egSymbolCode signed v).length) := by
  rw [egdSymbol, egDecode_symbol h]
  exact congrArg (Run.ok · _) (symbolOf_egValue signed v)

/-- A code of a symbol has at most 18 bits (41_exp_golomb.md R142). -/
theorem egSymbolCode_length_le (signed : Bool) (v : Byte) : (egSymbolCode signed v).length ≤ 18 := by
  have hlog : Nat.log2 ((egValue v signed).natAbs + 1) ≤ 8 := log2_le_egMaxZ (egValue_natAbs_le signed v)
  have hsign : (egSign (egValue v signed) signed).length ≤ 1 := by
    unfold egSign
    split <;> simp
  show (egMagnitude (egValue v signed) ++ egSign (egValue v signed) signed).length ≤ 18
  rw [List.length_append, egMagnitude_length]
  omega

/-! ## Single-symbol commands -/

section
variable {σ α : Type} {s : State} {u : UnitId} (hlive : Live s u) {part : Part σ} {proc : σ → Run σ α}
  (done : α → State → State)
include hlive

/-- A single-symbol command of a live unit whose procedure ends answers (47_system_commands.md R330). -/
theorem single_ok {a : α} {t : σ} (h : proc (part.get s) = .ok a t) :
    s.single u part proc done = done a (part.put t s) := by
  rw [State.single, gated_live hlive, h]

/-- A single-symbol command of a live unit whose procedure stops ends by the stop (47_system_commands.md R330). -/
theorem single_stop {r : Stop} {t : σ} (h : proc (part.get s) = .stop r t) :
    s.single u part proc done = (part.put t s).endBy u r := by
  rw [State.single, gated_live hlive, h]

end

/-! ## The loops of the bulk commands -/

section
variable {enc : Byte → Bsi → Run Bsi Unit} {code : Byte → List Bool} (henc : ∀ v, Offers (enc v) (code v))
  (m : List Host.Cell) {a k : Nat} (n : Nat) {b : Bsi}
include henc

/-- Where each symbol offers its code, the loop of a bulk encode writes the codes that fit (47_system_commands.md R333). -/
theorem encodeLoop_offers_full (h : b.takes ((bufBytes m a k).flatMap code)) :
    encodeLoop enc m k a n b = (n + k, none, b.append ((bufBytes m a k).flatMap code)) := by
  induction k generalizing a n b with
  | zero => simp [encodeLoop, bufBytes, Bsi.append]
  | succ k ih =>
    rw [bufBytes_succ, List.flatMap_cons] at h ⊢
    have hfirst : b.takes (code (memRead m a)) := by
      by_contra hn
      exact Bsi.not_takes_append hn _ h
    rw [encodeLoop, (henc _).full b hfirst]
    dsimp only
    rw [ih (n + 1) ((Bsi.takes_append hfirst).mpr h), Bsi.append_append, Nat.add_right_comm, Nat.add_assoc]

/-- Where the codes do not all fit, the loop of a bulk encode ends at the first symbol whose code does not
(47_system_commands.md R333, 60_exceptions.md R344). -/
theorem encodeLoop_offers_short (h : ¬ b.takes ((bufBytes m a k).flatMap code)) :
    ∃ j, j < k ∧ b.takes ((bufBytes m a j).flatMap code) ∧ ¬ b.takes ((bufBytes m a (j + 1)).flatMap code) ∧
      encodeLoop enc m k a n b = (n + j, some .shortWrite, b.offer ((bufBytes m a k).flatMap code)) := by
  induction k generalizing a n b with
  | zero => exact absurd b.takes_nil h
  | succ k ih =>
    simp only [bufBytes_succ m a, List.flatMap_cons] at h ⊢
    by_cases hfirst : b.takes (code (memRead m a))
    · obtain ⟨j, hj, hfits, hshort, hloop⟩ := ih (n + 1) fun hrest => h ((Bsi.takes_append hfirst).mp hrest)
      refine ⟨j + 1, Nat.succ_lt_succ hj, ?_, fun hn => hshort ((Bsi.takes_append hfirst).mpr hn), ?_⟩
      · rw [bufBytes_succ, List.flatMap_cons]
        exact (Bsi.takes_append hfirst).mp hfits
      · rw [encodeLoop, (henc _).full b hfirst]
        dsimp only
        rw [hloop, Bsi.offer_append hfirst, Nat.add_right_comm, Nat.add_assoc]
    · refine ⟨0, Nat.succ_pos k, b.takes_nil, Bsi.not_takes_append hfirst _, ?_⟩
      rw [encodeLoop, (henc _).short b hfirst, Bsi.offer_append_of_not_takes hfirst]
      rfl

end

/-- Where each symbol is read from its code, the loop of a bulk decode stores the symbols whose codes IN continues with
(47_system_commands.md R333). -/
theorem decodeLoop_symbols {dec : Bsi → Run Bsi Byte} {code : Byte → List Bool}
    (hdec : ∀ v b, b.continues (code v) → dec b = .ok v (b.advance (code v).length)) (vs : List Byte) (a : Nat) {b : Bsi}
    (m : List Host.Cell) (hb : b.continues (vs.flatMap code)) :
    ∃ m', decodeLoop dec vs.length a (b, m) = .ok () (b.advance (vs.flatMap code).length, m') ∧ Stored m m' a vs := by
  induction vs generalizing a b m with
  | nil =>
    refine ⟨m, by simp [decodeLoop], fun x => (if_neg ?_).symm⟩
    rw [List.length_nil]
    omega
  | cons v vs ih =>
    rw [List.flatMap_cons] at hb
    obtain ⟨hfirst, hrest⟩ := Bsi.continues_append hb
    obtain ⟨m', hloop, hstored⟩ := ih (a + 1) (memWrite m a v) hrest
    refine ⟨m', ?_, hstored.cons⟩
    rw [List.length_cons, decodeLoop, hdec v b hfirst]
    dsimp only
    rw [hloop, Bsi.advance_advance, List.flatMap_cons, List.length_append]

/-! ## The bulk commands -/

/-- The codes EGE writes for `k` bytes of BUF from an address on (41_exp_golomb.md R151). -/
def egBufCodes (s : State) (a k : Nat) : List Bool := (bufBytes s.buf a k).flatMap (egSymbolCode s.ege.signedMode)

section
variable {s : State} {o l : Word}

/-- EGE_ENCODE of a live EGE in a range of BUF ends as its loop does (47_system_commands.md R333). -/
theorem exec_egeEncode (hlive : Live s .ege) (hin : o.toNat + l.toNat ≤ s.cfg.bufSize) {n : Nat} {r : Option Stop} {b : Bsi}
    (h : encodeLoop (egeSymbol s.ege.signedMode) s.buf l.toNat o.toNat 0 s.bsi = (n, r, b)) :
    exec (.egeEncode o l) s = .next ({ s with bsi := b }.endEncode .ege n r) := by
  show Host.Outcome.next (s.bulkEncode .ege bsiPart (egeSymbol s.ege.signedMode) o l) = _
  rw [State.bulkEncode, gated_live hlive, bounded_inside hin]
  simp only [bsiPart, h]

/-- EGE_ENCODE of a range whose codes fit appends them and answers LENGTH (41_exp_golomb.md R151). -/
theorem exec_egeEncode_full (hlive : Live s .ege) (hin : o.toNat + l.toNat ≤ s.cfg.bufSize)
    (hfits : Fits s (egBufCodes s o.toNat l.toNat)) :
    exec (.egeEncode o l) s = .next (answered (emitted s (egBufCodes s o.toNat l.toNat)) l.toNat) := by
  have hloop := encodeLoop_offers_full (offers_egeSymbol s.ege.signedMode) s.buf 0 hfits
  rw [exec_egeEncode hlive hin hloop, Nat.zero_add, emitted_eq, Bsi.offer_of_takes hfits]
  rfl

/-- EGE_ENCODE of a range whose codes do not all fit answers how many did, dead of WriteFail (41_exp_golomb.md R151,
60_exceptions.md R344). -/
theorem exec_egeEncode_short (hlive : Live s .ege) (hin : o.toNat + l.toNat ≤ s.cfg.bufSize)
    (hcut : ¬ Fits s (egBufCodes s o.toNat l.toNat)) :
    ∃ n, n < l.toNat ∧ Fits s (egBufCodes s o.toNat n) ∧ ¬ Fits s (egBufCodes s o.toNat (n + 1)) ∧
      exec (.egeEncode o l) s = .next (answered (died (emitted s (egBufCodes s o.toNat l.toNat)) .ege 6) n) := by
  obtain ⟨n, hn, hfits, hnext, hloop⟩ := encodeLoop_offers_short (offers_egeSymbol s.ege.signedMode) s.buf 0 hcut
  refine ⟨n, hn, hfits, hnext, ?_⟩
  rw [exec_egeEncode hlive hin hloop, Nat.zero_add]
  rfl

/-- EGD_DECODE stores the symbols whose codes IN continues with, and answers LENGTH (41_exp_golomb.md R157). -/
theorem exec_egdDecode_symbols {vs : List Byte} (hlive : Live s .egd) (hin : o.toNat + l.toNat ≤ s.cfg.bufSize)
    (hlen : vs.length = l.toNat) (h : s.bsi.continues (vs.flatMap (egSymbolCode s.egd.signedMode))) :
    ∃ m, exec (.egdDecode o l) s = .next (answered
        { s with bsi := s.bsi.advance (vs.flatMap (egSymbolCode s.egd.signedMode)).length, buf := m } l.toNat) ∧
      Stored s.buf m o.toNat vs := by
  obtain ⟨m, hloop, hstored⟩ := decodeLoop_symbols egdSymbol_continues vs o.toNat s.buf h
  refine ⟨m, ?_, hstored⟩
  show Host.Outcome.next (s.bulkDecode .egd bsiPart (egdSymbol s.egd.signedMode) o l) = _
  rw [State.bulkDecode, gated_live hlive, bounded_inside hin, ← hlen]
  simp only [bsiPart, hloop]
  rw [hlen]
  rfl

/-! ## The round trip -/

/-- An EGE_ENCODE that answers LENGTH appended the codes of the whole range: one cut short answers less
(41_exp_golomb.md R151). -/
theorem egeEncode_out {t : State} (hlive : Live s .ege) (hin : o.toNat + l.toNat ≤ s.cfg.bufSize)
    (hexec : exec (.egeEncode o l) s = .next t) (hrsp : t.rsp = { flt := 0, r := l.setWidth 64 }) :
    t.bsi.out = s.bsi.out ++ egBufCodes s o.toNat l.toNat := by
  by_cases hfits : Fits s (egBufCodes s o.toNat l.toNat)
  · rw [exec_egeEncode_full hlive hin hfits, emitted_eq, Bsi.offer_of_takes hfits] at hexec
    cases hexec
    rfl
  · obtain ⟨n, hn, _, _, hshort⟩ := exec_egeEncode_short hlive hin hfits
    rw [hshort] at hexec
    cases hexec
    have hcount : (BitVec.ofNat 64 n).toNat = (l.setWidth 64).toNat := congrArg (fun p => p.r.toNat) hrsp
    have hl := l.isLt
    rw [BitVec.toNat_ofNat, BitVec.toNat_setWidth] at hcount
    omega

/-- The codes of as many symbols as a 32-bit LENGTH can give are no more bits than RCNT can count (10_state.md R27). -/
theorem egCodes_length_lt (signed : Bool) {vs : List Byte} (h : vs.length < 2 ^ 32) :
    (vs.flatMap (egSymbolCode signed)).length < 2 ^ 64 := by
  have hle : (vs.map fun v => (egSymbolCode signed v).length).sum ≤ vs.length * 18 := by
    rw [← List.length_map (as := vs) fun v => (egSymbolCode signed v).length]
    refine List.sum_le_card_nsmul _ 18 fun n hn => ?_
    obtain ⟨v, _, rfl⟩ := List.mem_map.mp hn
    exact egSymbolCode_length_le signed v
  rw [List.length_flatMap]
  omega

/-- An open IN read from its start continues with the whole of itself. -/
theorem Bsi.continues_inBits {b : Bsi} (hopen : b.inClosed = false) (hstart : b.rcnt = 0)
    (hlen : b.inBits.length < 2 ^ 64) : b.continues b.inBits := by
  have hpos : b.rcnt.toNat = 0 := congrArg BitVec.toNat hstart
  rw [Bsi.continues, hpos, Nat.zero_add]
  exact ⟨hopen, List.prefix_rfl, hlen⟩

/-- EGD_DECODE on an IN that is the codes of LENGTH symbols delivers them and consumes IN (41_exp_golomb.md R157). -/
theorem egdDecode_delivers {vs : List Byte} (hlive : Live s .egd) (hin : o.toNat + l.toNat ≤ s.cfg.bufSize)
    (hlen : vs.length = l.toNat) (hopen : s.bsi.inClosed = false) (hstart : s.bsi.rcnt = 0)
    (hbits : s.bsi.inBits = vs.flatMap (egSymbolCode s.egd.signedMode)) :
    ∃ e, exec (.egdDecode o l) s = .next e ∧ Delivered s e o l vs := by
  have hcount := egCodes_length_lt s.egd.signedMode (vs := vs) (hlen ▸ l.isLt)
  have hcontinues := Bsi.continues_inBits hopen hstart (hbits ▸ hcount)
  obtain ⟨m, hexec, hstored⟩ := exec_egdDecode_symbols hlive hin hlen (hbits ▸ hcontinues)
  refine ⟨_, hexec, congrArg (Response.mk 0) (BitVec.ofNat_toNat 64 l), hstored, ?_⟩
  show s.bsi.rcnt + BitVec.ofNat 64 _ = _
  rw [hstart, hbits]
  exact BitVec.zero_add _

end

end Sys2Proof.Machine

namespace Sys2Proof

open Machine

/-- Settles O21: the gate, and then the code offered to OUT. -/
theorem expGolombEncodeWritesTheCode : Obligations.ExpGolombEncodeWritesTheCode := by
  refine ⟨fun w => decode_of_opc (.egeEncbyte 0), fun s v => ⟨fun hdead => ?_, fun hlive hfits => ?_, fun hlive hshort => ?_⟩⟩
  · exact congrArg _ ((gated_shut hdead _).trans (failed_eq s .unitDead (by decide)).symm)
  · rw [fits_iff] at hfits
    rw [emitted_eq, Bsi.offer_of_takes hfits]
    exact congrArg _ (single_ok hlive (part := bsiPart) _ ((offers_egeSymbol _ v).full s.bsi hfits))
  · rw [emitted_eq]
    exact congrArg _ (single_stop hlive (part := bsiPart) _ ((offers_egeSymbol _ v).short s.bsi hshort))

/-- Settles O22: the symbol is read from its code. -/
theorem expGolombDecodeInvertsTheCode : Obligations.ExpGolombDecodeInvertsTheCode := fun s v hlive h =>
  congrArg _ (single_ok hlive (part := bsiPart) _ (egdSymbol_continues v s.bsi h))

/-- Settles O24: each symbol offers its code to OUT, and is read from it. -/
theorem expGolombBulkCommandsFollowTheCodes : Obligations.ExpGolombBulkCommandsFollowTheCodes :=
  ⟨fun _ _ _ hlive hin => ⟨exec_egeEncode_full hlive hin, exec_egeEncode_short hlive hin⟩,
    fun _ _ _ _ hlive hin hlen h => exec_egdDecode_symbols hlive hin hlen h⟩

/-- Settles O49: a full encode appended the codes of the symbols, and IN is those codes. -/
theorem expGolombRoundTrip : Obligations.ExpGolombRoundTrip := by
  intro s t d o l hlive hin hexec hrsp hdlive hmode hdin hopen hstart hbits
  refine egdDecode_delivers hdlive hdin (bufBytes_length _ _ _) hopen hstart ?_
  rw [hbits, hmode, egeEncode_out hlive hin hexec hrsp]
  exact List.drop_left

end Sys2Proof

/-! SUPPORT. Length tables as the statements name them: the Kraft sum over all symbols, the table a list of lengths makes,
and what `LengthsValid` accepts (42_huffman_code_builder.md R176, R177). -/

namespace Sys2Proof.Machine

/-! ## The entries of a table -/

theorem toNat_eq_zero_iff {n : Nat} (x : BitVec n) : x.toNat = 0 ↔ x = 0 :=
  ⟨fun h => BitVec.eq_of_toNat_eq (h.trans BitVec.toNat_zero.symm), fun h => h ▸ BitVec.toNat_zero⟩

theorem exists_byte_of_lt {s : Nat} (hs : s < 2 ^ 8) : ∃ v : Byte, v.toNat = s :=
  ⟨BitVec.ofNat 8 s, Nat.mod_eq_of_lt hs⟩

theorem symGet_ofNat {α : Type} (t : Vector α 256) {s : Nat} (hs : s < 256) : symGet t (BitVec.ofNat 8 s) = t[s] := by
  have hmod : (BitVec.ofNat 8 s).toNat = s := Nat.mod_eq_of_lt hs
  simp only [symGet, hmod]

/-- A table is the list of its entries by symbol. -/
theorem toList_eq_map_symGet {α : Type} (t : Vector α 256) :
    t.toList = (List.range 256).map fun s => symGet t (BitVec.ofNat 8 s) := by
  apply List.ext_getElem
  · simp
  · intro s hs _
    rw [Vector.length_toList] at hs
    rw [List.getElem_map, List.getElem_range, symGet_ofNat t hs, Vector.getElem_toList]

theorem mem_toList_iff {α : Type} (t : Vector α 256) (x : α) : x ∈ t.toList ↔ ∃ b : Byte, symGet t b = x := by
  rw [toList_eq_map_symGet, List.mem_map]
  constructor
  · rintro ⟨s, _, h⟩
    exact ⟨_, h⟩
  · rintro ⟨b, h⟩
    exact ⟨b.toNat, List.mem_range.mpr b.isLt, by rwa [BitVec.ofNat_toNat, BitVec.setWidth_eq]⟩

/-- Two tables with the same entries are the same. -/
theorem table_ext {α : Type} {t t' : Vector α 256} (h : ∀ b : Byte, symGet t b = symGet t' b) : t = t' :=
  Vector.ext fun s hs => by rw [← symGet_ofNat t hs, ← symGet_ofNat t' hs, h]

@[simp] theorem symGet_map {α β : Type} (t : Vector α 256) (f : α → β) (b : Byte) :
    symGet (t.map f) b = f (symGet t b) := by
  simp [symGet]

/-! ## The Kraft sum and `LengthsValid` -/

/-- The symbols without a length add nothing to the Kraft sum. -/
theorem kraftSum_eq_sum_all (z : Vector (BitVec 5) 256) :
    kraftSum z = (z.toList.map fun n => if n ≠ 0 then 2 ^ (31 - n.toNat) else 0).sum := by
  have hsplit := List.sum_map_ite (fun n : BitVec 5 => n ≠ 0) (fun n => 2 ^ (31 - n.toNat)) (fun _ => 0) z.toList
  rw [List.map_const', List.sum_replicate, smul_zero, add_zero] at hsplit
  exact hsplit.symm

/-- The Kraft sum over all symbols is that over the coded ones (42_huffman_code_builder.md R176). -/
theorem kraft_eq_kraftSum (z : Vector (BitVec 5) 256) : kraft z = kraftSum z := by
  rw [kraftSum_eq_sum_all, toList_eq_map_symGet, List.map_map, kraft]
  refine congrArg List.sum (List.map_congr_left fun s _ => ?_)
  have hzero := toNat_eq_zero_iff (symGet z (BitVec.ofNat 8 s))
  by_cases h : symGet z (BitVec.ofNat 8 s) = 0 <;> simp [hzero, h]

theorem codedCount_eq_length (z : Vector (BitVec 5) 256) :
    codedCount z = (z.toList.filter fun n => decide (n ≠ 0)).length := List.countP_eq_length_filter

/-- A table of one coded symbol lists one length. -/
theorem exists_length_of_codedCount_eq_one {z : Vector (BitVec 5) 256} (h : codedCount z = 1) :
    ∃ n : BitVec 5, n ≠ 0 ∧ kraftSum z = codeShare n.toNat ∧ ∀ b : Byte, symGet z b = 0 ∨ symGet z b = n := by
  rw [codedCount_eq_length] at h
  obtain ⟨n, hn⟩ := List.length_eq_one_iff.mp h
  have hmem (m : BitVec 5) : m ∈ z.toList ∧ m ≠ 0 ↔ m = n := by
    rw [← List.mem_singleton, ← hn, List.mem_filter, decide_eq_true_eq]
  refine ⟨n, ((hmem n).mpr rfl).2, by rw [kraftSum, hn]; simp [codeShare], fun b => ?_⟩
  by_cases hb : symGet z b = 0
  · exact .inl hb
  · exact .inr ((hmem _).mp ⟨(mem_toList_iff z _).mpr ⟨b, rfl⟩, hb⟩)

/-- A table with a full Kraft sum codes more than one symbol (42_huffman_code_builder.md R176). -/
theorem codedCount_ne_one_of_full {z : Vector (BitVec 5) 256} (h : kraftSum z = 2 ^ 31) : codedCount z ≠ 1 := by
  intro hone
  obtain ⟨n, hn, hsum, _⟩ := exists_length_of_codedCount_eq_one hone
  have hpos : n.toNat ≠ 0 := mt (toNat_eq_zero_iff n).mp hn
  have hpow := Nat.pow_right_injective (le_refl 2) (hsum.symm.trans h)
  omega

theorem lengthsValid_of_full {z : Vector (BitVec 5) 256} (h : kraftSum z = 2 ^ 31) : lengthsValid z = true := by
  rw [lengthsValid, if_neg (codedCount_ne_one_of_full h)]
  exact decide_eq_true h

/-- `LengthsValid` accepts a single length of 1, or a full tree (42_huffman_code_builder.md R177). -/
theorem lengthsValid_iff (z : Vector (BitVec 5) 256) :
    lengthsValid z = true ↔ if codedCount z = 1 then ∃ b : Byte, symGet z b = 1 else kraftSum z = 2 ^ 31 := by
  rw [lengthsValid]
  split
  · rename_i hone
    obtain ⟨n, hn, _, hall⟩ := exists_length_of_codedCount_eq_one hone
    simp only [List.all_eq_true, decide_eq_true_eq]
    constructor
    · intro hvalid
      obtain ⟨m, hm⟩ := List.countP_pos_iff.mp (show 0 < codedCount z by omega)
      obtain ⟨b, rfl⟩ := (mem_toList_iff z m).mp hm.1
      exact ⟨b, (hvalid _ hm.1).resolve_left (of_decide_eq_true hm.2)⟩
    · rintro ⟨b, hb⟩ m hm
      obtain ⟨c, rfl⟩ := (mem_toList_iff z m).mp hm
      have hn1 : n = 1 := ((hall b).resolve_left (by rw [hb]; decide)).symm.trans hb
      exact hn1 ▸ hall c
  · exact decide_eq_true_iff

/-- A valid table codes a symbol. -/
theorem codedCount_pos_of_valid {z : Vector (BitVec 5) 256} (h : lengthsValid z = true) : 0 < codedCount z := by
  rw [lengthsValid_iff] at h
  split at h
  · rename_i hone
    rw [hone]
    exact Nat.one_pos
  · by_contra hnone
    rw [codedCount_eq_length, List.length_pos_iff, not_not] at hnone
    rw [kraftSum, hnone] at h
    cases h

/-! ## The table of a list of lengths -/

/-- A listed symbol has its length in the table. -/
theorem symGet_sizesOf_of_mem {lens : List (Nat × Nat)} (h : LengthList lens) {v : Byte} {n : Nat}
    (hv : (v.toNat, n) ∈ lens) : (symGet (sizesOf lens) v).toNat = n := by
  have hle := h.le _ hv
  rw [sizesOf, symGet_tabulate, listedFor_of_mem h.nodup _ hv, BitVec.toNat_ofNat, Nat.mod_eq_of_lt]
  exact Nat.lt_succ_of_le hle

/-- The coded symbols of the table are those listed. -/
theorem symGet_sizesOf_ne_zero_iff {lens : List (Nat × Nat)} (h : LengthList lens) (v : Byte) :
    symGet (sizesOf lens) v ≠ 0 ↔ v.toNat ∈ lens.map Prod.fst := by
  refine ⟨fun hv => ?_, symGet_sizesOf_ne_zero h⟩
  by_contra hn
  exact hv (by rw [sizesOf, symGet_tabulate, listedFor_of_not_mem hn]; rfl)

/-- A bound on the listed lengths bounds every length of the table. -/
theorem symGet_sizesOf_le {lens : List (Nat × Nat)} (h : LengthList lens) {k : Nat} (hk : ∀ p ∈ lens, p.2 ≤ k)
    (v : Byte) : (symGet (sizesOf lens) v).toNat ≤ k := by
  by_cases hv : v.toNat ∈ lens.map Prod.fst
  · obtain ⟨⟨s, n⟩, hp, rfl⟩ := List.mem_map.mp hv
    rw [symGet_sizesOf_of_mem h hp]
    exact hk _ hp
  · rw [← symGet_sizesOf_ne_zero_iff h, not_not] at hv
    rw [hv]
    exact Nat.zero_le k

end Sys2Proof.Machine

/-! SUPPORT. What a build answers: the lengths it lists are those of the present symbols, it is refused exactly where there
is none or a length is above 31, and the state HCB_BUILD leaves (42_huffman_code_builder.md R172, R173, R174, R182). -/

namespace Sys2Proof.Machine

/-! ## The present symbols -/

/-- The leaves are the symbols with a frequency, with it (42_huffman_code_builder.md R171). -/
theorem mem_presentLeaves_iff (freq : Vector Word 256) (n : Nat) (v : Byte) :
    (n, v.toNat) ∈ presentLeaves freq ↔ n = (symGet freq v).toNat ∧ symGet freq v ≠ 0 := by
  have hentry : (freq.toList.map BitVec.toNat)[v.toNat]? = some (symGet freq v).toNat := by simp [symGet, v.isLt]
  rw [mem_presentLeaves, List.mem_zipIdx_iff_getElem?, hentry, Option.some_inj, ne_eq, ne_eq, ← toNat_eq_zero_iff]
  constructor
  · rintro ⟨rfl, h⟩
    exact ⟨rfl, h⟩
  · rintro ⟨rfl, h⟩
    exact ⟨rfl, h⟩

/-- Every leaf stands for a symbol. -/
theorem exists_symbol_of_leaf {freq : Vector Word 256} {p : Nat × Nat} (hp : p ∈ presentLeaves freq) :
    ∃ v : Byte, p = ((symGet freq v).toNat, v.toNat) ∧ symGet freq v ≠ 0 := by
  obtain ⟨n, s⟩ := p
  have hs : s < 2 ^ 8 := presentLeaves_lt freq s (List.mem_map_of_mem hp)
  obtain ⟨v, rfl⟩ := exists_byte_of_lt hs
  obtain ⟨rfl, hv⟩ := (mem_presentLeaves_iff freq n v).mp hp
  exact ⟨v, rfl, hv⟩

theorem mem_presentLeaves_symbols (freq : Vector Word 256) (v : Byte) :
    v.toNat ∈ (presentLeaves freq).map Prod.snd ↔ symGet freq v ≠ 0 := by
  refine ⟨fun h => ?_, mem_presentLeaves_of_freq⟩
  obtain ⟨⟨n, _⟩, hp, rfl⟩ := List.mem_map.mp h
  exact ((mem_presentLeaves_iff freq n v).mp hp).2

/-- There are as many leaves as frequencies that are not 0. -/
theorem presentLeaves_length (freq : Vector Word 256) :
    (presentLeaves freq).length = (freq.toList.filter fun f => decide (f ≠ 0)).length := by
  have hzero : (fun n : Nat => decide (n ≠ 0)) ∘ BitVec.toNat = fun f : Word => decide (f ≠ 0) :=
    funext fun f => decide_eq_decide.mpr (not_congr (toNat_eq_zero_iff f))
  have hfst : (fun p : Nat × Nat => decide (p.1 ≠ 0)) = (fun n : Nat => decide (n ≠ 0)) ∘ Prod.fst := rfl
  rw [presentLeaves, List.length_insertionSort, hfst, ← List.countP_eq_length_filter, ← List.countP_map,
    List.zipIdx_map_fst, List.countP_map, hzero, List.countP_eq_length_filter]

/-- There are at most 256 leaves. -/
theorem presentLeaves_length_le (freq : Vector Word 256) : (presentLeaves freq).length ≤ 256 := by
  rw [presentLeaves_length]
  exact (List.length_filter_le _ _).trans (Nat.le_of_eq Vector.length_toList)

/-- Where the present symbols are known, so are the leaves up to their order. -/
theorem presentLeaves_symbols_perm {freq : Vector Word 256} {l : List Byte} (hl : l.Nodup)
    (h : ∀ v : Byte, symGet freq v ≠ 0 ↔ v ∈ l) : ((presentLeaves freq).map Prod.snd).Perm (l.map BitVec.toNat) := by
  rw [List.perm_ext_iff_of_nodup (presentLeaves_nodup freq) (hl.map fun _ _ e => BitVec.eq_of_toNat_eq e)]
  intro s
  constructor
  · intro hs
    obtain ⟨p, hp, rfl⟩ := List.mem_map.mp hs
    obtain ⟨v, rfl, hv⟩ := exists_symbol_of_leaf hp
    exact List.mem_map_of_mem ((h v).mp hv)
  · intro hs
    obtain ⟨v, hv, rfl⟩ := List.mem_map.mp hs
    exact (mem_presentLeaves_symbols freq v).mpr ((h v).mpr hv)

/-! ## The lengths before the height test -/

/-- The leaves as the queue of pending nodes a build begins with (42_huffman_code_builder.md R172). -/
def leafNodes (leaves : List (Nat × Nat)) : List Pending := leaves.map fun p => (p.1, .leaf p.2)

/-- More than one leaf are merged into a tree, and the lengths are its depths (42_huffman_code_builder.md R172). -/
theorem leafLengths_many {leaves : List (Nat × Nat)} (hmany : 1 < leaves.length) :
    ∃ t, mergeNodes leaves.length (leafNodes leaves) [] = some t ∧ leafLengths leaves = t.depths 0 := by
  obtain ⟨t, ht⟩ := mergeNodes_isSome (fuel := leaves.length) (q1 := leafNodes leaves) (q2 := [])
    (by simp [leafNodes]; omega) (by simp [leafNodes])
  refine ⟨t, ht, ?_⟩
  match leaves, hmany, ht with
  | p :: q :: leaves, _, ht =>
    have ht' : mergeNodes (p :: q :: leaves).length ((p :: q :: leaves).map fun p => (p.1, .leaf p.2)) [] = some t := ht
    simp only [leafLengths, ht']

/-- No lengths are listed only where no symbol is present (42_huffman_code_builder.md R173). -/
theorem leafLengths_eq_nil_iff (leaves : List (Nat × Nat)) : leafLengths leaves = [] ↔ leaves = [] := by
  match leaves with
  | [] => exact iff_of_true rfl rfl
  | [p] => exact iff_of_false nofun nofun
  | p :: q :: leaves =>
    obtain ⟨t, _, e⟩ := leafLengths_many (leaves := p :: q :: leaves) (by simp)
    exact iff_of_false (e ▸ depths_ne_nil t 0) nofun

/-- Exactly the present symbols are listed (42_huffman_code_builder.md R172, R173). -/
theorem leafLengths_symbols (leaves : List (Nat × Nat)) :
    ((leafLengths leaves).map Prod.fst).Perm (leaves.map Prod.snd) := by
  rcases leafLengths_cases leaves with e | ⟨p, rfl, e⟩ | ⟨t, hperm, _, e⟩
  · rw [(leafLengths_eq_nil_iff leaves).mp e]
    rfl
  · rfl
  · rwa [e, depths_map_fst]

theorem leafLengths_length (leaves : List (Nat × Nat)) : (leafLengths leaves).length = leaves.length := by
  simpa using (leafLengths_symbols leaves).length_eq

theorem leafLengths_pos (leaves : List (Nat × Nat)) : ∀ p ∈ leafLengths leaves, 1 ≤ p.2 := by
  rcases leafLengths_cases leaves with e | ⟨p, _, e⟩ | ⟨t, _, hsize, e⟩
  · rw [e]
    exact nofun
  · rw [e]
    simp
  · rw [e]
    exact one_le_depth t hsize

/-- One or two present symbols get the length 1 (42_huffman_code_builder.md R173). -/
theorem leafLengths_few {leaves : List (Nat × Nat)} (h : leaves.length ≤ 2) : ∀ p ∈ leafLengths leaves, p.2 = 1 := by
  match leaves, h with
  | [], _ => exact nofun
  | [p], _ => simp [leafLengths]
  | [p, q], _ => simp [leafLengths, mergeNodes, popMin, HTree.depths]

/-- Where no length is above 31, the lengths of a build are a list of lengths (42_huffman_code_builder.md R174). -/
theorem lengthList_leafLengths {freq : Vector Word 256} (h : ∀ p ∈ leafLengths (presentLeaves freq), p.2 ≤ 31) :
    LengthList (leafLengths (presentLeaves freq)) where
  nodup := (leafLengths_symbols _).nodup_iff.mpr (presentLeaves_nodup freq)
  symbol_lt s hs := presentLeaves_lt freq s ((leafLengths_symbols _).mem_iff.mp hs)
  pos := leafLengths_pos _
  le := h

/-! ## `BuildLengths` -/

/-- A build is refused where no symbol is present (42_huffman_code_builder.md R173). -/
theorem buildLengths_of_none_present {freq : Vector Word 256} (h : presentLeaves freq = []) :
    buildLengths freq = none := by
  rw [buildLengths, h]
  rfl

/-- A build is refused where a length is above 31 (42_huffman_code_builder.md R174). -/
theorem buildLengths_of_deep {freq : Vector Word 256} (h : ∃ p ∈ leafLengths (presentLeaves freq), 31 < p.2) :
    buildLengths freq = none := by
  obtain ⟨p, hp, hdeep⟩ := h
  exact if_pos (Bool.or_eq_true _ _ |>.mpr (.inr (List.any_eq_true.mpr ⟨p, hp, decide_eq_true hdeep⟩)))

/-- Any other build answers the lengths (42_huffman_code_builder.md R172). -/
theorem buildLengths_of_le {freq : Vector Word 256} (hne : presentLeaves freq ≠ [])
    (h : ∀ p ∈ leafLengths (presentLeaves freq), p.2 ≤ 31) :
    buildLengths freq = some (sizesOf (leafLengths (presentLeaves freq))) :=
  if_neg (by simpa [Config.hufMaxLen, leafLengths_eq_nil_iff, hne] using h)

/-- Exactly the present symbols have a code (42_huffman_code_builder.md R172). -/
theorem built_coded_iff {freq : Vector Word 256} (h : ∀ p ∈ leafLengths (presentLeaves freq), p.2 ≤ 31) (v : Byte) :
    symGet (sizesOf (leafLengths (presentLeaves freq))) v ≠ 0 ↔ symGet freq v ≠ 0 := by
  rw [symGet_sizesOf_ne_zero_iff (lengthList_leafLengths h), (leafLengths_symbols _).mem_iff, mem_presentLeaves_symbols]

/-- The length of a present symbol is listed (42_huffman_code_builder.md R172). -/
theorem built_length_mem {freq : Vector Word 256} (h : ∀ p ∈ leafLengths (presentLeaves freq), p.2 ≤ 31) {v : Byte}
    (hv : symGet freq v ≠ 0) :
    (v.toNat, (symGet (sizesOf (leafLengths (presentLeaves freq))) v).toNat) ∈ leafLengths (presentLeaves freq) := by
  obtain ⟨⟨_, n⟩, hp, rfl⟩ := List.mem_map.mp ((leafLengths_symbols _).mem_iff.mpr (mem_presentLeaves_of_freq hv))
  rwa [symGet_sizesOf_of_mem (lengthList_leafLengths h) hp]

/-! ## HCB_BUILD -/

section
variable (s : State)

/-- A refused build changes nothing but the response (42_huffman_code_builder.md R182). -/
theorem exec_hcbBuild_none (h : buildLengths s.hcb.freq = none) : exec .hcbBuild s = .next (failed s 3) := by
  show execHcbBuild s = _
  rw [execHcbBuild, h]
  exact congrArg _ (failed_eq s .invalidArgument (by decide)).symm

/-- The state after a build that is not refused, in terms of the lengths listed (42_huffman_code_builder.md R182). -/
theorem exec_hcbBuild_of_le (hne : presentLeaves s.hcb.freq ≠ [])
    (h : ∀ p ∈ leafLengths (presentLeaves s.hcb.freq), p.2 ≤ 31) :
    let z := sizesOf (leafLengths (presentLeaves s.hcb.freq))
    exec .hcbBuild s = .next (answered { s with hcb := { s.hcb with sizes := z, codes := assignCodes z } }
      (presentLeaves s.hcb.freq).length) := by
  intro z
  show execHcbBuild s = _
  rw [execHcbBuild, buildLengths_of_le hne h, ← leafLengths_length, ← codedCount_sizesOf (lengthList_leafLengths h)]
  rfl

end

/-! ## The height of a build's tree -/

/-- A length above 1 needs a total frequency of Fibonacci number length + 2 (42_huffman_code_builder.md R174). -/
theorem leafLengths_le_one_or_fib_le (freq : Vector Word 256) :
    ∀ p ∈ leafLengths (presentLeaves freq), p.2 ≤ 1 ∨ Nat.fib (p.2 + 2) ≤ (freq.toList.map BitVec.toNat).sum := by
  intro p hp
  by_cases hmany : 1 < (presentLeaves freq).length
  · obtain ⟨t, ht, e⟩ := leafLengths_many hmany
    have hfib := fib_height_le (merging_presentLeaves freq) ht
    rw [← presentLeaves_sum]
    rw [e] at hp
    have hdepth := depth_le_height t 0 p hp
    refine .inr ((Nat.fib_mono (by omega)).trans (hfib.trans (Nat.le_of_eq ?_)))
    rw [List.append_nil, List.map_map]
    rfl
  · exact .inl (leafLengths_few (by omega) p hp).le

end Sys2Proof.Machine

namespace Sys2Proof

open Machine

/-- Settles O28: a length of 29 would need a total of the 31st Fibonacci number, 1346269. -/
theorem smallTotalsAlwaysBuild : Obligations.SmallTotalsAlwaysBuild := by
  rintro s ⟨u, hu⟩ htotal
  have hshallow : ∀ p ∈ leafLengths (presentLeaves s.hcb.freq), p.2 ≤ 28 := by
    intro p hp
    rcases leafLengths_le_one_or_fib_le s.hcb.freq p hp with hone | hfib
    · omega
    · by_contra hdeep
      have hmono : Nat.fib 31 ≤ Nat.fib (p.2 + 2) := Nat.fib_mono (by omega)
      have hval : Nat.fib 31 = 1346269 := by decide
      omega
  have hle : ∀ p ∈ leafLengths (presentLeaves s.hcb.freq), p.2 ≤ 31 := fun p hp => (hshallow p hp).trans (by decide)
  have hne : presentLeaves s.hcb.freq ≠ [] := by
    intro hnil
    have hmem := mem_presentLeaves_of_freq hu
    rw [hnil] at hmem
    cases hmem
  exact ⟨_, _, exec_hcbBuild_of_le s hne hle, symGet_sizesOf_le (lengthList_leafLengths hle) hshallow, built_coded_iff hle⟩

end Sys2Proof

/-! SUPPORT. The two queues of a build and the merges on one list: the first of the lightest nodes of the list is the node
`PopMin` takes, so both make the same tree (42_huffman_code_builder.md R171, R172). -/

namespace Sys2Proof.Machine

/-! ## The first of the lightest -/

/-- What stands behind strictly heavier elements, and before none lighter, is the first of the lightest; erasing it leaves
both parts. -/
theorem argmin_of_split {α : Type} [DecidableEq α] {f : α → Nat} {pre post : List α} {a : α}
    (hpre : ∀ x ∈ pre, f a < f x) (hpost : ∀ x ∈ post, f a ≤ f x) :
    (pre ++ a :: post).argmin f = some a ∧ (pre ++ a :: post).erase a = pre ++ post := by
  have hnot : a ∉ pre := fun h => Nat.lt_irrefl _ (hpre a h)
  constructor
  · rw [List.argmin_eq_some_iff]
    refine ⟨by simp, fun x hx => ?_, fun x _ hx => ?_⟩
    · rcases List.mem_append.mp hx with hx | hx
      · exact (hpre x hx).le
      · rcases List.mem_cons.mp hx with rfl | hx
        · exact le_refl _
        · exact hpost x hx
    · have hxpre : x ∉ pre := fun h => absurd (hpre x h) (Nat.not_lt.mpr hx)
      rw [List.idxOf_append_of_notMem hnot, List.idxOf_append_of_notMem hxpre, List.idxOf_cons_self]
      omega
  · rw [List.erase_append_right _ hnot, List.erase_cons_head]

/-! ## The two queues as one list -/

/-- The two queues and the one list hold the same nodes: the list has the leaves by symbol and behind them the merged nodes
in the order of their queue, the leaves' queue goes by (frequency, symbol), that of the merged nodes by weight. -/
structure SamePool (freq : Vector Word 256) (leaves : List (Nat × Nat)) (merged : List Pending) (pool : List HTree) :
    Prop where
  nodes : ∃ symbols : List Nat, symbols.Pairwise (· < ·) ∧ symbols.Perm (leaves.map Prod.snd) ∧
    pool = symbols.map .leaf ++ merged.map Prod.snd
  leafOrder : leaves.Pairwise leafBefore
  leafWeight : ∀ p ∈ leaves, p.1 = (HTree.leaf p.2).weight freq
  mergedOrder : merged.Pairwise fun x y => x.1 ≤ y.1
  mergedWeight : ∀ p ∈ merged, p.1 = p.2.weight freq

/-- The queue of the leaves is tried first: its head is taken unless a merged node is lighter
(42_huffman_code_builder.md R172). -/
theorem popMin_leafNodes {leaves : List (Nat × Nat)} {merged r1 r2 : List Pending} {a : Pending}
    (h : popMin (leafNodes leaves) merged = some (a, r1, r2)) :
    (∃ p rest, leaves = p :: rest ∧ a = (p.1, .leaf p.2) ∧ r1 = leafNodes rest ∧ r2 = merged ∧
      ∀ y ∈ merged.head?, a.1 ≤ y.1) ∨
    (merged = a :: r2 ∧ r1 = leafNodes leaves ∧ ∀ p ∈ leaves.head?, a.1 < p.1) := by
  match leaves, merged with
  | [], [] => cases h
  | p :: rest, [] =>
    cases h
    exact .inl ⟨p, rest, rfl, rfl, rfl, rfl, nofun⟩
  | [], b :: merged =>
    cases h
    exact .inr ⟨rfl, rfl, nofun⟩
  | p :: rest, b :: merged =>
    have hunfold : popMin (leafNodes (p :: rest)) (b :: merged) =
        if p.1 ≤ b.1 then some ((p.1, .leaf p.2), leafNodes rest, b :: merged)
        else some (b, leafNodes (p :: rest), merged) := rfl
    rw [hunfold] at h
    split at h
    · rename_i hle
      cases h
      exact .inl ⟨p, rest, rfl, rfl, rfl, rfl, by simpa using hle⟩
    · rename_i hlt
      cases h
      exact .inr ⟨rfl, rfl, by simpa using hlt⟩

section
variable {freq : Vector Word 256} {leaves rest : List (Nat × Nat)} {merged r1 r2 : List Pending} {pool : List HTree}
  {p : Nat × Nat} {a c : Pending}

/-- The first leaf, unless a merged node is lighter, is the first of the lightest nodes of the list
(42_huffman_code_builder.md R171, R172). -/
theorem SamePool.pop_leaf (hp : SamePool freq (p :: rest) merged pool) (hhead : ∀ y ∈ merged.head?, p.1 ≤ y.1) :
    pool.argmin (HTree.weight freq) = some (.leaf p.2) ∧ SamePool freq rest merged (pool.erase (.leaf p.2)) := by
  obtain ⟨⟨symbols, hrise, hperm, rfl⟩, hleaf, hleafw, hmerged, hmergedw⟩ := hp
  obtain ⟨hmin, hrest⟩ := List.pairwise_cons.mp hleaf
  obtain ⟨hpw, hrestw⟩ := List.forall_mem_cons.mp hleafw
  obtain ⟨pre, post, rfl⟩ := List.append_of_mem (hperm.mem_iff.mpr List.mem_cons_self)
  have hperm' := (List.perm_middle.symm.trans hperm).cons_inv
  have hother : ∀ s ∈ pre ++ post, leafBefore p ((HTree.leaf s).weight freq, s) := by
    intro s hs
    obtain ⟨q, hq, rfl⟩ := List.mem_map.mp (hperm'.mem_iff.mp hs)
    rw [← hrestw q hq]
    exact hmin q hq
  have hpre : ∀ x ∈ pre.map HTree.leaf, (HTree.leaf p.2).weight freq < x.weight freq := by
    intro x hx
    obtain ⟨s, hs, rfl⟩ := List.mem_map.mp hx
    have hbefore := hother s (List.mem_append_left _ hs)
    have hlt := (List.pairwise_append.mp hrise).2.2 s hs p.2 List.mem_cons_self
    unfold leafBefore at hbefore
    omega
  have hpost : ∀ x ∈ post.map HTree.leaf ++ merged.map Prod.snd, (HTree.leaf p.2).weight freq ≤ x.weight freq := by
    intro x hx
    rcases List.mem_append.mp hx with hx | hx
    · obtain ⟨s, hs, rfl⟩ := List.mem_map.mp hx
      have hbefore := hother s (List.mem_append_right _ hs)
      unfold leafBefore at hbefore
      omega
    · obtain ⟨y, hy, rfl⟩ := List.mem_map.mp hx
      rw [← hpw, ← hmergedw y hy]
      exact le_of_le_head hmerged hhead y hy
  have hpool : (pre ++ p.2 :: post).map HTree.leaf ++ merged.map Prod.snd =
      pre.map .leaf ++ .leaf p.2 :: (post.map .leaf ++ merged.map Prod.snd) := by simp
  obtain ⟨hargmin, herase⟩ := argmin_of_split hpre hpost
  rw [hpool, herase]
  exact ⟨hargmin, ⟨pre ++ post, hrise.sublist ((List.Sublist.refl pre).append (List.sublist_cons_self _ _)), hperm',
    by simp⟩, hrest, hrestw, hmerged, hmergedw⟩

/-- The oldest merged node, where it is lighter than every leaf, is the first of the lightest nodes of the list
(42_huffman_code_builder.md R171, R172). -/
theorem SamePool.pop_merged (hp : SamePool freq leaves (a :: merged) pool) (hhead : ∀ q ∈ leaves.head?, a.1 < q.1) :
    pool.argmin (HTree.weight freq) = some a.2 ∧ SamePool freq leaves merged (pool.erase a.2) := by
  obtain ⟨⟨symbols, hrise, hperm, rfl⟩, hleaf, hleafw, hmerged, hmergedw⟩ := hp
  obtain ⟨hmin, hrest⟩ := List.pairwise_cons.mp hmerged
  obtain ⟨haw, hrestw⟩ := List.forall_mem_cons.mp hmergedw
  have hlight : ∀ q ∈ leaves, a.1 < q.1 := by
    cases leaves with
    | nil => exact nofun
    | cons q rest =>
      have hq := hhead q rfl
      refine List.forall_mem_cons.mpr ⟨hq, fun q' hq' => ?_⟩
      have hbefore := (List.pairwise_cons.mp hleaf).1 q' hq'
      unfold leafBefore at hbefore
      omega
  have hpre : ∀ x ∈ symbols.map HTree.leaf, a.2.weight freq < x.weight freq := by
    intro x hx
    obtain ⟨s, hs, rfl⟩ := List.mem_map.mp hx
    obtain ⟨q, hq, rfl⟩ := List.mem_map.mp (hperm.mem_iff.mp hs)
    rw [← haw, ← hleafw q hq]
    exact hlight q hq
  have hpost : ∀ x ∈ merged.map Prod.snd, a.2.weight freq ≤ x.weight freq := by
    intro x hx
    obtain ⟨y, hy, rfl⟩ := List.mem_map.mp hx
    rw [← haw, ← hrestw y hy]
    exact hmin y hy
  obtain ⟨hargmin, herase⟩ := argmin_of_split hpre hpost
  exact ⟨hargmin, ⟨symbols, hrise, hperm, herase⟩, hleaf, hleafw, hrest, hrestw⟩

/-- `PopMin` takes the first of the lightest nodes of the list (42_huffman_code_builder.md R171, R172). -/
theorem SamePool.pop (hp : SamePool freq leaves merged pool) (h : popMin (leafNodes leaves) merged = some (a, r1, r2)) :
    pool.argmin (HTree.weight freq) = some a.2 ∧ a.1 = a.2.weight freq ∧
      ∃ rest, r1 = leafNodes rest ∧ SamePool freq rest r2 (pool.erase a.2) := by
  rcases popMin_leafNodes h with ⟨p, rest, rfl, rfl, rfl, rfl, hhead⟩ | ⟨rfl, rfl, hhead⟩
  · obtain ⟨hargmin, hrest⟩ := hp.pop_leaf hhead
    exact ⟨hargmin, hp.leafWeight p List.mem_cons_self, rest, rfl, hrest⟩
  · obtain ⟨hargmin, hrest⟩ := hp.pop_merged hhead
    exact ⟨hargmin, hp.mergedWeight a List.mem_cons_self, leaves, rfl, hrest⟩

/-- `PopMin` finds no node only where the list is empty. -/
theorem SamePool.pop_none (hp : SamePool freq leaves merged pool) (h : popMin (leafNodes leaves) merged = none) :
    pool = [] := by
  obtain ⟨⟨symbols, _, hperm, rfl⟩, -⟩ := hp
  have hnil := popMin_none h
  rw [List.append_eq_nil_iff, leafNodes, List.map_eq_nil_iff] at hnil
  obtain ⟨rfl, rfl⟩ := hnil
  rw [hperm.eq_nil]
  rfl

/-- A merged node goes to the end of its queue and of the list. -/
theorem SamePool.push (hp : SamePool freq leaves merged pool) (hc : c.1 = c.2.weight freq)
    (horder : (merged ++ [c]).Pairwise fun x y => x.1 ≤ y.1) : SamePool freq leaves (merged ++ [c]) (pool ++ [c.2]) := by
  obtain ⟨⟨symbols, hrise, hperm, rfl⟩, hleaf, hleafw, _, hmergedw⟩ := hp
  refine ⟨⟨symbols, hrise, hperm, by simp⟩, hleaf, hleafw, horder, fun p hp => ?_⟩
  rcases List.mem_append.mp hp with hp | hp
  · exact hmergedw p hp
  · rw [List.mem_singleton.mp hp]
    exact hc

/-- The merges on one list make the tree of the two queues (42_huffman_code_builder.md R172). -/
theorem mergedTree_of_mergeNodes {fuel n : Nat} {t : HTree} (hp : SamePool freq leaves merged pool)
    (hq : Merging (leafNodes leaves) merged) (hn : fuel ≤ n)
    (h : mergeNodes fuel (leafNodes leaves) merged = some t) : mergedTree freq n pool = some t := by
  induction fuel generalizing n leaves merged pool with
  | zero => cases h
  | succ fuel ih =>
    obtain ⟨n, rfl⟩ : ∃ m, n = m + 1 := ⟨n - 1, by omega⟩
    unfold mergeNodes at h
    split at h
    · cases h
    · rename_i a r1 r2 ha
      obtain ⟨hamin, haw, rest, rfl, hpa⟩ := hp.pop ha
      split at h
      · rename_i hb
        cases h
        have hnone : (pool.erase a.2).argmin (HTree.weight freq) = none := by
          rw [hpa.pop_none hb]
          rfl
        simp only [mergedTree, hamin, hnone]
      · rename_i b t1 t2 hb
        obtain ⟨hbmin, hbw, rest', rfl, hpb⟩ := hpa.pop hb
        obtain ⟨_, hnext⟩ := hq.next ha hb
        have hweight : (mergedNode a b).1 = (mergedNode a b).2.weight freq := congrArg₂ (· + ·) haw hbw
        simp only [mergedTree, hamin, hbmin]
        exact ih (hpb.push hweight hnext.merged) hnext (by omega) h

end

/-- The leaves go by (frequency, symbol) (42_huffman_code_builder.md R171). -/
theorem presentLeaves_order (freq : Vector Word 256) : (presentLeaves freq).Pairwise leafBefore := by
  have : Std.Total leafBefore := ⟨fun x y => by unfold leafBefore; omega⟩
  have : IsTrans (Nat × Nat) leafBefore := ⟨fun x y z hxy hyz => by unfold leafBefore at *; omega⟩
  exact List.pairwise_insertionSort leafBefore _

/-- The queues and the list before the first merge (42_huffman_code_builder.md R171). -/
theorem samePool_presentLeaves (freq : Vector Word 256) :
    SamePool freq (presentLeaves freq) [] (presentNodes freq) where
  nodes := by
    refine ⟨(List.range 256).filter fun s => decide ((freq[s]?).getD 0 ≠ 0), List.pairwise_lt_range.filter _, ?_,
      (List.append_nil _).symm⟩
    rw [List.perm_ext_iff_of_nodup (List.nodup_range.filter _) (presentLeaves_nodup freq)]
    intro s
    rw [List.mem_filter, List.mem_range, decide_eq_true_eq]
    by_cases hs : s < 2 ^ 8
    · obtain ⟨v, rfl⟩ := exists_byte_of_lt hs
      rw [mem_presentLeaves_symbols, Vector.getElem?_eq_getElem v.isLt]
      exact and_iff_right v.isLt
    · exact iff_of_false (fun h => hs h.1) fun h => hs (presentLeaves_lt freq s h)
  leafOrder := presentLeaves_order freq
  leafWeight p hp := by
    obtain ⟨v, rfl, _⟩ := exists_symbol_of_leaf hp
    show _ = ((freq[v.toNat]?).getD 0).toNat
    rw [Vector.getElem?_eq_getElem v.isLt]
    rfl
  mergedOrder := .nil
  mergedWeight := nofun

/-- More than one present symbol make the tree of the merges on one list, and its depths are the lengths before the height
test (42_huffman_code_builder.md R172). -/
theorem leafLengths_mergedTree {freq : Vector Word 256} (hmany : 1 < (presentLeaves freq).length) :
    ∃ t, mergedTree freq 256 (presentNodes freq) = some t ∧ leafLengths (presentLeaves freq) = t.depths 0 := by
  obtain ⟨t, ht, e⟩ := leafLengths_many hmany
  exact ⟨t, mergedTree_of_mergeNodes (samePool_presentLeaves freq) (merging_presentLeaves freq)
    (presentLeaves_length_le freq) ht, e⟩

/-- The table of a build of more than one symbol has a full Kraft sum (42_huffman_code_builder.md R176). -/
theorem kraft_built {freq : Vector Word 256} (hmany : 1 < (presentLeaves freq).length)
    (h : ∀ p ∈ leafLengths (presentLeaves freq), p.2 ≤ 31) :
    kraft (sizesOf (leafLengths (presentLeaves freq))) = 2 ^ 31 := by
  obtain ⟨t, _, e⟩ := leafLengths_many hmany
  rw [kraft_eq_kraftSum, kraftSum_sizesOf (lengthList_leafLengths h)]
  rw [e] at h ⊢
  exact kraft_depths t 0 h

end Sys2Proof.Machine

/-! SUPPORT. The order of the canonical codes: slots in the code space follow the code order, the first code is all zeros,
and on a full tree the last is all ones; no code's bits start another's (42_huffman_code_builder.md R175, R176). -/

namespace Sys2Proof.Machine

/-! ## The code order -/

/-- The coded symbols go by falling length, then by symbol (42_huffman_code_builder.md R175). -/
theorem codedSymbols_order (z : Vector (BitVec 5) 256) : (codedSymbols z).Pairwise codeBefore := by
  have : Std.Total codeBefore := ⟨fun x y => by unfold codeBefore; omega⟩
  have : IsTrans (Nat × Nat) codeBefore := ⟨fun x y z hxy hyz => by unfold codeBefore at *; omega⟩
  exact List.pairwise_insertionSort codeBefore _

/-- The symbol of a coded entry has that length. -/
theorem exists_symbol_of_coded {z : Vector (BitVec 5) 256} {x : Nat × Nat} (hx : x ∈ codedSymbols z) :
    ∃ v : Byte, x = ((symGet z v).toNat, v.toNat) ∧ symGet z v ≠ 0 := by
  obtain ⟨n, s⟩ := x
  obtain ⟨hmem, hpos⟩ := (mem_codedSymbols z _).mp hx
  rw [List.mem_zipIdx_iff_getElem?] at hmem
  have hs : s < 2 ^ 8 := by simpa using (List.getElem?_eq_some_iff.mp hmem).1
  obtain ⟨v, rfl⟩ := exists_byte_of_lt hs
  have hn : (symGet z v).toNat = n := by simpa [symGet, v.isLt] using hmem
  subst hn
  exact ⟨v, rfl, fun h => hpos (congrArg BitVec.toNat h)⟩

/-- A symbol without a length has the code 0 (42_huffman_code_builder.md R175). -/
theorem assignCodes_uncoded {z : Vector (BitVec 5) 256} {v : Byte} (hv : symGet z v = 0) :
    symGet (assignCodes z) v = 0 := by
  have hloop (L : List (Nat × Nat)) (code len : Nat) : (assignLoop L code len).map Prod.fst = L.map Prod.snd := by
    induction L generalizing code len with
    | nil => rfl
    | cons x L ih =>
      rw [assignLoop]
      split <;> simp [ih]
  rw [assignCodes, symGet_tabulate, listedFor_of_not_mem]
  · rfl
  · rw [hloop]
    intro hmem
    obtain ⟨x, hx, hxv⟩ := List.mem_map.mp hmem
    obtain ⟨w, rfl, hw⟩ := exists_symbol_of_coded hx
    rw [BitVec.eq_of_toNat_eq hxv] at hw
    exact hw hv

/-- The first symbol in code order, the smallest of the longest code, has the code 0 (42_huffman_code_builder.md R175). -/
theorem assignCodes_first {z : Vector (BitVec 5) 256} {v : Byte} (hv : symGet z v ≠ 0)
    (h : ∀ w : Byte, (symGet z w).toNat < (symGet z v).toNat ∨ ((symGet z w).toNat = (symGet z v).toNat ∧ v ≤ w)) :
    symGet (assignCodes z) v = 0 := by
  have horder := codedSymbols_order z
  have hmem := mem_codedSymbols_of_coded hv
  have hlisted : listedFor (assignLoop (codedSymbols z) 0 (((codedSymbols z).head?.map Prod.fst).getD 0)) v.toNat = 0 := by
    match hcoded : codedSymbols z with
    | [] =>
      rw [hcoded] at hmem
      cases hmem
    | x :: L =>
      obtain ⟨w, hw, _⟩ := exists_symbol_of_coded (z := z) (x := x) (by rw [hcoded]; exact List.mem_cons_self)
      rw [hcoded] at hmem horder
      have hwv : w.toNat = v.toNat := by
        rcases List.mem_cons.mp hmem with hx | hx
        · exact (congrArg Prod.snd (hx.trans hw)).symm
        · have hbefore := (List.pairwise_cons.mp horder).1 _ hx
          rw [hw] at hbefore
          have hle := h w
          unfold codeBefore at hbefore
          rw [BitVec.le_def] at hle
          omega
      have hhead : (((x :: L).head?.map Prod.fst).getD 0) = x.1 := rfl
      rw [hhead, assignLoop_cons L (le_refl x.1), hw, hwv, Nat.zero_shiftRight]
      simp [listedFor]
  rw [assignCodes, symGet_tabulate, hlisted]
  rfl

/-- A single symbol of length 1 has the code 0 (42_huffman_code_builder.md R173). -/
theorem assignCodes_of_one {z : Vector (BitVec 5) 256} {a : Byte} (hz : ∀ b : Byte, symGet z b = if b = a then 1 else 0)
    (b : Byte) : symGet (assignCodes z) b = 0 := by
  by_cases hb : b = a
  · rw [hb]
    refine assignCodes_first (by simp [hz]) fun c => ?_
    by_cases hc : c = a <;> simp [hz, hc]
  · exact assignCodes_uncoded (by simp [hz, hb])

/-! ## Slots in code order -/

/-- The entries stand for the coded symbols in code order. -/
theorem codeEntries_map_fst {z : Vector (BitVec 5) 256} (hz : lengthsValid z = true) :
    (codeEntries z).map Prod.fst = codedSymbols z := by
  have hlength := congrArg List.length (codeEntries_slots hz).1
  rw [List.length_map, List.length_map] at hlength
  exact List.map_fst_zip hlength.ge

/-- Every entry is that of a symbol, with its length and code. -/
theorem exists_symbol_of_codeEntry {z : Vector (BitVec 5) 256} (hz : lengthsValid z = true) {e : CodeEntry}
    (he : e ∈ codeEntries z) : ∃ v : Byte, symGet z v ≠ 0 ∧ e.1 = ((symGet z v).toNat, v.toNat) ∧
      e.2.2 = (symGet (assignCodes z) v).toNat := by
  have hmap := codeEntries_map_fst hz
  obtain ⟨v, hev, hv⟩ := exists_symbol_of_coded (hmap ▸ List.mem_map_of_mem he)
  obtain ⟨f, hf, hfv, hcode⟩ := exists_codeEntry hz hv
  have hnodup : ((codeEntries z).map Prod.fst).Nodup := hmap ▸ (codedSymbols_nodup z).of_map _
  rw [List.inj_on_of_nodup_map hnodup he hf (hev.trans hfv.symm)]
  exact ⟨v, hv, hfv, hcode⟩

/-- Of two different elements of a list one stands before the other. -/
theorem rel_or_rel_of_pairwise {α : Type} {R : α → α → Prop} {l : List α} (h : l.Pairwise R) {a b : α} (ha : a ∈ l)
    (hb : b ∈ l) (hne : a ≠ b) : R a b ∨ R b a := by
  have : Std.Symm fun x y => R x y ∨ R y x := ⟨fun _ _ hxy => hxy.symm⟩
  exact (h.imp (S := fun x y => R x y ∨ R y x) .inl).forall ha hb hne

/-- A symbol earlier in code order ends its slot where the later one's begins, or before (42_huffman_code_builder.md R175,
R176). -/
theorem slot_le_of_before {z : Vector (BitVec 5) 256} (hz : lengthsValid z = true) {v w : Byte} (hv : symGet z v ≠ 0)
    (hw : symGet z w ≠ 0)
    (h : (symGet z w).toNat < (symGet z v).toNat ∨ ((symGet z w).toNat = (symGet z v).toNat ∧ v < w)) :
    ((symGet (assignCodes z) v).toNat + 1) * codeShare (symGet z v).toNat ≤
      (symGet (assignCodes z) w).toNat * codeShare (symGet z w).toNat := by
  obtain ⟨e, he, hev, hcode⟩ := exists_codeEntry hz hv
  obtain ⟨f, hf, hfw, hcode'⟩ := exists_codeEntry hz hw
  have horder : (codeEntries z).Pairwise fun e f : CodeEntry => codeBefore e.1 f.1 := by
    rw [← List.pairwise_map (f := Prod.fst), codeEntries_map_fst hz]
    exact codedSymbols_order z
  obtain ⟨_, _, hslots⟩ := codeEntries_slots hz
  rw [BitVec.lt_def] at h
  have hef : e ≠ f := by
    rintro rfl
    have hsame := congrArg Prod.snd (hev.symm.trans hfw)
    have hsize := congrArg Prod.fst (hev.symm.trans hfw)
    dsimp only at hsame hsize
    omega
  rcases rel_or_rel_of_pairwise (horder.and hslots) he hf hef with ⟨_, hslot⟩ | ⟨hback, _⟩
  · rwa [CodeEntry.stop, CodeEntry.start, hev, hfw, hcode, hcode'] at hslot
  · rw [hev, hfw] at hback
    unfold codeBefore at hback
    omega

/-- Codes of equal length rise with the symbol (42_huffman_code_builder.md R176). -/
theorem assignCodes_lt_of_lt {z : Vector (BitVec 5) 256} (hz : lengthsValid z = true) {v w : Byte} (hv : symGet z v ≠ 0)
    (hsize : symGet z w = symGet z v) (h : v < w) :
    (symGet (assignCodes z) v).toNat < (symGet (assignCodes z) w).toNat := by
  have hslot := slot_le_of_before hz hv (hsize ▸ hv) (.inr ⟨congrArg BitVec.toNat hsize, h⟩)
  rw [hsize] at hslot
  exact Nat.le_of_mul_le_mul_right hslot (codeShare_pos _)

/-- Of two symbols of length 1 the smaller has the code 0, the other 1 (42_huffman_code_builder.md R173). -/
theorem assignCodes_of_two {z : Vector (BitVec 5) 256} {a a' : Byte} (hlt : a < a')
    (hz : ∀ b : Byte, symGet z b = if b = a ∨ b = a' then 1 else 0) (hvalid : lengthsValid z = true) (b : Byte) :
    symGet (assignCodes z) b = if b = a' then 1 else 0 := by
  have ha : symGet z a = 1 := by simp [hz]
  have ha' : symGet z a' = 1 := by simp [hz]
  by_cases hb' : b = a'
  · rw [if_pos hb', hb']
    have hfit := (codeSlots_assignCodes hvalid).code_lt (v := a') (by simp [ha'])
    have hrise := assignCodes_lt_of_lt hvalid (v := a) (w := a') (by simp [ha]) (ha'.trans ha.symm) hlt
    rw [ha'] at hfit
    exact BitVec.eq_of_toNat_eq (Nat.le_antisymm (Nat.lt_succ_iff.mp hfit) (Nat.one_le_of_lt hrise))
  · rw [if_neg hb']
    by_cases hb : b = a
    · rw [hb]
      refine assignCodes_first (by simp [ha]) fun c => ?_
      by_cases hc : c = a ∨ c = a'
      · rcases hc with rfl | rfl
        · exact .inr ⟨rfl, BitVec.le_refl _⟩
        · exact .inr ⟨by rw [ha, ha'], BitVec.le_of_lt hlt⟩
      · exact .inl (by simp [hz, hc])
    · exact assignCodes_uncoded (by simp [hz, hb, hb'])

/-! ## The last code of a full tree -/

/-- Slots that follow each other within bounds take no more than lies between the bounds. -/
theorem sum_codeShare_le {l : List CodeEntry} {lo hi : Nat} (hlohi : lo ≤ hi)
    (hl : l.Pairwise fun e f => CodeEntry.stop e ≤ CodeEntry.start f)
    (h : ∀ e ∈ l, lo ≤ CodeEntry.start e ∧ CodeEntry.stop e ≤ hi) :
    lo + (l.map fun e => codeShare e.1.1).sum ≤ hi := by
  induction l generalizing lo with
  | nil => exact hlohi
  | cons e l ih =>
    obtain ⟨hfirst, hl⟩ := List.pairwise_cons.mp hl
    obtain ⟨⟨hlo, hhi⟩, hrest⟩ := List.forall_mem_cons.mp h
    have hshare : e.stop = e.start + codeShare e.1.1 := by rw [CodeEntry.stop, CodeEntry.start, Nat.add_mul, Nat.one_mul]
    have htail := ih hhi hl fun f hf => ⟨hfirst f hf, (hrest f hf).2⟩
    rw [List.map_cons, List.sum_cons]
    omega

/-- On a full tree the last symbol in code order, the largest of the shortest code, has the code of all ones
(42_huffman_code_builder.md R176). -/
theorem assignCodes_last {z : Vector (BitVec 5) 256} (hfull : kraftSum z = 2 ^ 31) {v : Byte} (hv : symGet z v ≠ 0)
    (h : ∀ w : Byte, symGet z w ≠ 0 →
      (symGet z v).toNat < (symGet z w).toNat ∨ ((symGet z w).toNat = (symGet z v).toNat ∧ w ≤ v)) :
    (symGet (assignCodes z) v).toNat = 2 ^ (symGet z v).toNat - 1 := by
  have hz := lengthsValid_of_full hfull
  obtain ⟨_, _, hpair⟩ := codeEntries_slots hz
  have hstops : ∀ e ∈ codeEntries z, e.stop ≤
      ((symGet (assignCodes z) v).toNat + 1) * codeShare (symGet z v).toNat := by
    intro e he
    obtain ⟨w, hw, hew, hcode⟩ := exists_symbol_of_codeEntry hz he
    rw [CodeEntry.stop, hew, hcode]
    by_cases hwv : w = v
    · rw [hwv]
    · refine (slot_le_of_before hz hw hv ?_).trans (Nat.mul_le_mul_right _ (Nat.le_succ _))
      exact (h w hw).imp id fun hlast => ⟨hlast.1.symm, BitVec.lt_of_le_ne hlast.2 hwv⟩
  have hsum := sum_codeShare_le (Nat.zero_le _) hpair fun e he => ⟨Nat.zero_le _, hstops e he⟩
  have hmap : (codeEntries z).map (fun e => codeShare e.1.1) = (codedSymbols z).map fun x => codeShare x.1 := by
    rw [← codeEntries_map_fst hz, List.map_map]
    rfl
  rw [hmap, codedSymbols_shares, hfull, Nat.zero_add] at hsum
  have hwhole : 2 ^ (symGet z v).toNat * codeShare (symGet z v).toNat = 2 ^ 31 := by
    have := (symGet z v).isLt
    rw [codeShare, ← Nat.pow_add, Nat.add_sub_cancel' (by omega)]
  rw [← hwhole] at hsum
  have hge := Nat.le_of_mul_le_mul_right hsum (codeShare_pos _)
  have hlt := (codeSlots_assignCodes hz).code_lt hv
  omega

/-! ## The bits of the codes -/

/-- The low bits of numbers with the same bits agree. -/
theorem eq_of_bitsMsb_eq {v w n : Nat} (hv : v < 2 ^ n) (hw : w < 2 ^ n) (h : bitsMsb v n = bitsMsb w n) : v = w := by
  have hbits : ∀ i < n, v.testBit i = w.testBit i := by
    clear hv hw
    induction n with
    | zero => exact nofun
    | succ n ih =>
      obtain ⟨htop, hlow⟩ := List.cons.inj h
      intro i hi
      rcases Nat.lt_succ_iff_lt_or_eq.mp hi with hi | rfl
      · exact ih hlow i hi
      · exact htop
  refine Nat.eq_of_testBit_eq fun i => ?_
  by_cases hi : i < n
  · exact hbits i hi
  · have hpow : 2 ^ n ≤ 2 ^ i := Nat.pow_le_pow_right (by decide) (by omega)
    rw [Nat.testBit_lt_two_pow (hv.trans_le hpow), Nat.testBit_lt_two_pow (hw.trans_le hpow)]

/-- Where the bits of a number start those of another, the number is the other's top bits. -/
theorem eq_shiftRight_of_bitsMsb_prefix {v w m n : Nat} (hv : v < 2 ^ m) (hw : w < 2 ^ n)
    (h : bitsMsb v m <+: bitsMsb w n) : m ≤ n ∧ v = w >>> (n - m) := by
  have hle : m ≤ n := by simpa using h.length_le
  obtain ⟨d, rfl⟩ := Nat.exists_eq_add_of_le hle
  rw [Nat.add_sub_cancel_left]
  rw [bitsMsb_add] at h
  have htop := (List.prefix_of_prefix_length_le h (List.prefix_append _ _) (by simp)).eq_of_length (by simp)
  refine ⟨hle, eq_of_bitsMsb_eq hv ?_ htop⟩
  rw [Nat.shiftRight_eq_div_pow, Nat.div_lt_iff_lt_mul (Nat.two_pow_pos d), ← Nat.pow_add]
  exact hw

/-- No canonical code of a valid table starts another (42_huffman_code_builder.md R176). -/
theorem prefixFree_assignCodes {z : Vector (BitVec 5) 256} (hz : lengthsValid z = true) : PrefixFree z (assignCodes z) := by
  intro a b hne ha hb hprefix
  have hslots := codeSlots_assignCodes hz
  obtain ⟨hle, hcode⟩ := eq_shiftRight_of_bitsMsb_prefix (hslots.code_lt ha) (hslots.code_lt hb) hprefix
  exact hne (hslots.eq_of_prefix hb ha hle hcode)

/-- The canonical codes of a valid table fit in their lengths (42_huffman_code_builder.md R175). -/
theorem codesFit_assignCodes {z : Vector (BitVec 5) 256} (hz : lengthsValid z = true) : CodesFit z (assignCodes z) := by
  intro a
  by_cases ha : symGet z a = 0
  · rw [assignCodes_uncoded ha]
    exact Nat.two_pow_pos _
  · exact (codeSlots_assignCodes hz).code_lt ha

end Sys2Proof.Machine

namespace Sys2Proof

open Machine

/-- Settles O29: the codes' slots follow each other in code order and fill the code space. -/
theorem canonicalCodesArePrefixFreeAndOrdered : Obligations.CanonicalCodesArePrefixFreeAndOrdered := by
  intro z hfull size code
  rw [kraft_eq_kraftSum] at hfull
  have hz := lengthsValid_of_full hfull
  have hcoded {a : Byte} (ha : size a ≠ 0) : symGet z a ≠ 0 := mt (toNat_eq_zero_iff _).mpr ha
  refine ⟨prefixFree_assignCodes hz, codesFit_assignCodes hz, fun a b ha hsize hlt => ?_, fun a b hb hlt => ?_,
    fun a ha hfirst => ?_, fun a ha hlast => ?_⟩
  · exact assignCodes_lt_of_lt hz (hcoded ha) (BitVec.eq_of_toNat_eq hsize) hlt
  · have hslot := slot_le_of_before hz (v := a) (hcoded (by omega)) (hcoded hb) (.inl hlt)
    refine Nat.lt_of_lt_of_le ?_ hslot
    exact Nat.mul_lt_mul_of_pos_right (Nat.lt_succ_self _) (codeShare_pos _)
  · exact congrArg BitVec.toNat (assignCodes_first (hcoded ha) hfirst)
  · exact assignCodes_last hfull (hcoded ha) fun w hw => hlast w fun h => hw (BitVec.eq_of_toNat_eq h)

end Sys2Proof

/-! SUPPORT. A build of one or two present symbols, and the parts of the statement on HCB_BUILD together
(42_huffman_code_builder.md R173, R182). -/

namespace Sys2Proof.Machine

/-- A build of one or two present symbols installs the length 1 for each and none for any other
(42_huffman_code_builder.md R173, R182). -/
theorem exec_hcbBuild_few {s : State} {l : List Byte} (hl : l.Nodup) (hpos : l ≠ []) (hfew : l.length ≤ 2)
    (h : ∀ v : Byte, symGet s.hcb.freq v ≠ 0 ↔ v ∈ l) : ∃ z : Vector (BitVec 5) 256,
      exec .hcbBuild s = .next (answered { s with hcb := { s.hcb with sizes := z, codes := assignCodes z } } l.length) ∧
      (∀ v : Byte, symGet z v = if v ∈ l then 1 else 0) ∧ lengthsValid z = true := by
  have hlength : (presentLeaves s.hcb.freq).length = l.length := by
    simpa using (presentLeaves_symbols_perm hl h).length_eq
  have hne : presentLeaves s.hcb.freq ≠ [] := by
    rw [← List.length_pos_iff, hlength, List.length_pos_iff]
    exact hpos
  have hone := leafLengths_few (leaves := presentLeaves s.hcb.freq) (by omega)
  have hle : ∀ p ∈ leafLengths (presentLeaves s.hcb.freq), p.2 ≤ 31 := fun p hp => by rw [hone p hp]; decide
  refine ⟨_, hlength ▸ exec_hcbBuild_of_le s hne hle, fun v => ?_, buildLengths_valid (buildLengths_of_le hne hle)⟩
  split
  · rename_i hv
    exact BitVec.eq_of_toNat_eq (hone _ (built_length_mem hle ((h v).mpr hv)))
  · rename_i hv
    have hcoded := built_coded_iff hle v
    rwa [h, iff_false_right hv, not_not] at hcoded

end Sys2Proof.Machine

namespace Sys2Proof

open Machine

/-- Settles O27: the builder's two queues make the tree of the merges on one list, and its depths are installed. -/
theorem buildInstallsAFullTree : Obligations.BuildInstallsAFullTree := by
  refine ⟨fun s => ⟨fun hnone => ?_, fun a hone => ?_, fun a a' hlt htwo => ?_⟩, fun s => ?_⟩
  · refine exec_hcbBuild_none s (buildLengths_of_none_present (List.eq_nil_iff_forall_not_mem.mpr fun p hp => ?_))
    obtain ⟨v, _, hv⟩ := exists_symbol_of_leaf hp
    exact hv (hnone v)
  · obtain ⟨z, hexec, hz, _⟩ := exec_hcbBuild_few (l := [a]) (by simp) nofun (by simp) (by simpa using hone)
    simp only [List.mem_singleton] at hz
    exact ⟨z, assignCodes z, hexec, fun b => ⟨hz b, assignCodes_of_one hz b⟩⟩
  · have hne : a ≠ a' := fun e => absurd hlt (e ▸ BitVec.lt_irrefl a)
    obtain ⟨z, hexec, hz, hvalid⟩ := exec_hcbBuild_few (l := [a, a']) (by simp [hne]) nofun (by simp)
      (by simpa using htwo)
    simp only [List.mem_cons, List.not_mem_nil, or_false] at hz
    exact ⟨z, assignCodes z, hexec, fun b => ⟨hz b, assignCodes_of_two hlt hz hvalid b⟩⟩
  · intro present hmany
    have hlength : (presentLeaves s.hcb.freq).length = present := presentLeaves_length _
    obtain ⟨t, ht, e⟩ := leafLengths_mergedTree (freq := s.hcb.freq) (by omega)
    have hne : presentLeaves s.hcb.freq ≠ [] := List.length_pos_iff.mp (by omega)
    refine ⟨t, ht, fun hdeep => exec_hcbBuild_none s (buildLengths_of_deep (e ▸ hdeep)), fun hle => ?_⟩
    rw [← e] at hle ⊢
    have hlens := lengthList_leafLengths hle
    refine ⟨_, hlength ▸ exec_hcbBuild_of_le s hne hle, fun d hd => ?_, kraft_built (by omega) hle, built_coded_iff hle⟩
    have hsymbol : (BitVec.ofNat 8 d.1).toNat = d.1 := Nat.mod_eq_of_lt (hlens.symbol_lt _ (List.mem_map_of_mem hd))
    exact symGet_sizesOf_of_mem hlens (by rwa [hsymbol])

end Sys2Proof

namespace Sys2Proof

open Machine

/-- Settles O26: each command by its meaning, and an entry read after a write. -/
theorem hcbTableCommandsReadAndWriteEntries : Obligations.HcbTableCommandsReadAndWriteEntries := by
  refine ⟨fun w => ⟨decode_of_opc (.hcbSetfreq 0 0), decode_of_opc .hcbClrfreq, decode_of_opc (.hcbGetsize 0),
    decode_of_opc (.hcbGetcode 0), decode_of_opc (.hcbGetfreq 0)⟩, fun s idx value => ⟨?_, ?_, rfl, rfl, rfl⟩⟩
  · exact ⟨symSet s.hcb.freq idx value, rfl, fun b => symGet_symSet _ _ b _⟩
  · exact ⟨tabulate 256 fun _ => 0, rfl, fun b => symGet_tabulate _ b⟩

end Sys2Proof

/-! SUPPORT. Every valid length table is built from some frequencies: where each symbol weighs its share of the code space,
all weights are powers of two, the two lightest nodes always weigh the same, and so every leaf ends at its length
(42_huffman_code_builder.md R177). -/

namespace Sys2Proof.Machine

/-! ## Trees of halves -/

/-- Every node of the tree weighs half of its parent, a leaf what `f` gives its symbol. -/
def HTree.Halves (f : Nat → Nat) : HTree → Nat → Prop
  | .leaf s, w => f s = w
  | .node l r, w => ∃ v, w = v + v ∧ l.Halves f v ∧ r.Halves f v

/-- The weight of a leaf is that of the root, halved at each level. -/
theorem HTree.Halves.depths {f : Nat → Nat} {t : HTree} {w : Nat} (h : t.Halves f w) (d : Nat) :
    ∀ p ∈ t.depths d, f p.1 * 2 ^ p.2 = w * 2 ^ d := by
  induction t generalizing w d with
  | leaf s =>
    intro p hp
    rw [List.mem_singleton.mp hp]
    exact congrArg (· * 2 ^ d) h
  | node l r ihl ihr =>
    obtain ⟨v, rfl, hl, hr⟩ := h
    have hdouble : v * 2 ^ (d + 1) = (v + v) * 2 ^ d := by ring
    intro p hp
    rw [← hdouble]
    rcases List.mem_append.mp hp with hp | hp
    · exact ihl hl (d + 1) p hp
    · exact ihr hr (d + 1) p hp

/-! ## Merges of powers of two -/

/-- The pending nodes are trees of halves, their weights are powers of two, and they weigh 2^31 together. -/
structure Dyadic (f : Nat → Nat) (q : List Pending) : Prop where
  halves : ∀ p ∈ q, p.2.Halves f p.1
  power : ∀ p ∈ q, ∃ k, p.1 = 2 ^ k
  total : (q.map Prod.fst).sum = 2 ^ 31

theorem Dyadic.perm {f : Nat → Nat} {q q' : List Pending} (h : Dyadic f q) (hperm : q.Perm q') : Dyadic f q' where
  halves p hp := h.halves p (hperm.mem_iff.mpr hp)
  power p hp := h.power p (hperm.mem_iff.mpr hp)
  total := (hperm.map Prod.fst).sum_eq.symm.trans h.total

/-- The two lightest nodes weigh the same: any heavier than the lightest is a multiple of twice its weight, and so is the
total. -/
theorem Dyadic.lightest_eq {f : Nat → Nat} {a b : Pending} {q : List Pending} (h : Dyadic f (a :: b :: q))
    (hab : a.1 ≤ b.1) (hb : ∀ y ∈ q, b.1 ≤ y.1) : a.1 = b.1 := by
  obtain ⟨k, hk⟩ := h.power a List.mem_cons_self
  have htotal : a.1 + ((b :: q).map Prod.fst).sum = 2 ^ 31 := h.total
  by_contra hne
  have hheavy : ∀ y ∈ b :: q, 2 ^ (k + 1) ∣ y.1 := by
    intro y hy
    obtain ⟨j, hj⟩ := h.power y (List.mem_cons_of_mem a hy)
    have hlt : a.1 < y.1 := by
      rcases List.mem_cons.mp hy with rfl | hy
      · omega
      · have := hb y hy
        omega
    rw [hk, hj] at hlt
    rw [hj]
    exact Nat.pow_dvd_pow 2 ((Nat.pow_lt_pow_iff_right (by decide)).mp hlt)
  have hrest : 2 ^ (k + 1) ∣ ((b :: q).map Prod.fst).sum := List.dvd_sum fun n hn => by
    obtain ⟨y, hy, rfl⟩ := List.mem_map.mp hn
    exact hheavy y hy
  have hk31 : k + 1 ≤ 31 := by
    have hlt : 2 ^ k < 2 ^ 31 := by
      rw [← hk, ← htotal, List.map_cons, List.sum_cons]
      obtain ⟨j, hj⟩ := h.power b (List.mem_cons_of_mem a List.mem_cons_self)
      have := Nat.two_pow_pos j
      omega
    exact (Nat.pow_lt_pow_iff_right (by decide)).mp hlt
  have hdvd : 2 ^ (k + 1) ∣ 2 ^ k := by
    rw [← hk, ← Nat.dvd_add_left hrest, htotal]
    exact Nat.pow_dvd_pow 2 hk31
  have := Nat.le_of_dvd (Nat.two_pow_pos k) hdvd
  rw [Nat.pow_succ] at this
  have := Nat.two_pow_pos k
  omega

/-- A merge of two nodes of the same weight keeps all this. -/
theorem Dyadic.merge {f : Nat → Nat} {a b : Pending} {q : List Pending} (h : Dyadic f (a :: b :: q)) (hab : a.1 = b.1) :
    Dyadic f (mergedNode a b :: q) := by
  obtain ⟨hah, hbh, hqh⟩ := by simpa only [List.forall_mem_cons] using h.halves
  obtain ⟨⟨k, hk⟩, _, hqp⟩ := by simpa only [List.forall_mem_cons] using h.power
  refine ⟨List.forall_mem_cons.mpr ⟨⟨a.1, by rw [mergedNode, hab], hah, hab ▸ hbh⟩, hqh⟩,
    List.forall_mem_cons.mpr ⟨⟨k + 1, ?_⟩, hqp⟩, ?_⟩
  · rw [mergedNode, ← hab, hk, Nat.pow_succ]
    omega
  · rw [← h.total]
    simp [mergedNode, Nat.add_assoc]

/-- The merges keep all this to the root, which weighs the total. -/
theorem mergeNodes_halves {f : Nat → Nat} {fuel : Nat} {q1 q2 : List Pending} {t : HTree} (hq : Merging q1 q2)
    (hd : Dyadic f (q1 ++ q2)) (h : mergeNodes fuel q1 q2 = some t) : t.Halves f (2 ^ 31) := by
  induction fuel generalizing q1 q2 with
  | zero => cases h
  | succ fuel ih =>
    unfold mergeNodes at h
    split at h
    · cases h
    · rename_i a r1 r2 ha
      split at h
      · rename_i hb
        cases h
        have hlast := hd.perm (popMin_perm ha)
        rw [popMin_none hb] at hlast
        have hroot := hlast.halves a List.mem_cons_self
        have htotal : a.1 = 2 ^ 31 := by simpa using hlast.total
        rwa [htotal] at hroot
      · rename_i b t1 t2 hb
        obtain ⟨hperm, hnext⟩ := hq.next ha hb
        obtain ⟨hamin, hr1, hr2⟩ := popMin_least hq.leaves hq.merged ha
        obtain ⟨hbmin, _, _⟩ := popMin_least (hq.leaves.sublist hr1) (hq.merged.sublist hr2) hb
        have hpicks := hd.perm hperm
        have hab := hamin b ((popMin_perm hb).mem_iff.mpr List.mem_cons_self)
        have hmerged := hpicks.merge (hpicks.lightest_eq hab hbmin)
        refine ih hnext (hmerged.perm ?_) h
        rw [← List.append_assoc]
        exact (List.perm_append_singleton _ _).symm

/-! ## The frequencies of a length table -/

/-- The frequency of a symbol of a length: its share of the code space, 0 without a length. -/
def shareWord (n : BitVec 5) : Word := if n = 0 then 0 else BitVec.ofNat 32 (codeShare n.toNat)

theorem shareWord_toNat {n : BitVec 5} (hn : n ≠ 0) : (shareWord n).toNat = codeShare n.toNat := by
  have hle : codeShare n.toNat ≤ 2 ^ 31 := Nat.pow_le_pow_right (by decide) (by omega)
  rw [shareWord, if_neg hn, BitVec.toNat_ofNat, Nat.mod_eq_of_lt (hle.trans_lt (by decide))]

theorem shareWord_ne_zero_iff (n : BitVec 5) : shareWord n ≠ 0 ↔ n ≠ 0 := by
  refine ⟨fun h hn => h (if_pos hn), fun hn h => ?_⟩
  have hnat := shareWord_toNat hn
  rw [h] at hnat
  exact (codeShare_pos n.toNat).ne hnat

/-- The frequencies that give each symbol of a table its share of the code space (42_huffman_code_builder.md R177). -/
def shareFreq (z : Vector (BitVec 5) 256) : Vector Word 256 := z.map shareWord

/-- The leaves of these frequencies are the coded symbols. -/
theorem symGet_shareFreq_ne_zero_iff (z : Vector (BitVec 5) 256) (v : Byte) :
    symGet (shareFreq z) v ≠ 0 ↔ symGet z v ≠ 0 := by
  rw [shareFreq, symGet_map, shareWord_ne_zero_iff]

theorem presentLeaves_shareFreq_length (z : Vector (BitVec 5) 256) :
    (presentLeaves (shareFreq z)).length = codedCount z := by
  have hnonzero : (fun f : Word => decide (f ≠ 0)) ∘ shareWord = fun n => decide (n ≠ 0) :=
    funext fun n => decide_eq_decide.mpr (shareWord_ne_zero_iff n)
  rw [presentLeaves_length, shareFreq, Vector.toList_map, List.filter_map, hnonzero, List.length_map, codedCount_eq_length]

/-- These frequencies add up to the Kraft sum. -/
theorem shareFreq_sum (z : Vector (BitVec 5) 256) : ((shareFreq z).toList.map BitVec.toNat).sum = kraftSum z := by
  rw [kraftSum_eq_sum_all, shareFreq, Vector.toList_map, List.map_map]
  refine congrArg List.sum (List.map_congr_left fun n _ => ?_)
  rw [Function.comp_apply]
  split
  · rename_i hn
    exact shareWord_toNat hn
  · rename_i hn
    rw [not_not.mp hn]
    rfl

/-- The pending nodes of these frequencies before the first merge, on a full tree. -/
theorem dyadic_shareFreq {z : Vector (BitVec 5) 256} (hfull : kraftSum z = 2 ^ 31) :
    Dyadic (fun s => (symGet (shareFreq z) (BitVec.ofNat 8 s)).toNat) (leafNodes (presentLeaves (shareFreq z))) where
  halves q hq := by
    obtain ⟨p, hp, rfl⟩ := List.mem_map.mp hq
    obtain ⟨v, rfl, _⟩ := exists_symbol_of_leaf hp
    show (symGet (shareFreq z) (BitVec.ofNat 8 v.toNat)).toNat = _
    rw [BitVec.ofNat_toNat, BitVec.setWidth_eq]
  power q hq := by
    obtain ⟨p, hp, rfl⟩ := List.mem_map.mp hq
    obtain ⟨v, rfl, hv⟩ := exists_symbol_of_leaf hp
    refine ⟨31 - (symGet z v).toNat, ?_⟩
    show (symGet (shareFreq z) v).toNat = _
    rw [shareFreq, symGet_map, shareWord_toNat ((symGet_shareFreq_ne_zero_iff z v).mp hv)]
    rfl
  total := by
    rw [← hfull, ← shareFreq_sum, ← presentLeaves_sum, leafNodes, List.map_map]
    rfl

/-- These frequencies give each symbol of a valid table its length (42_huffman_code_builder.md R177). -/
theorem leafLengths_shareFreq {z : Vector (BitVec 5) 256} (hz : lengthsValid z = true) (v : Byte) {n : Nat}
    (hn : (v.toNat, n) ∈ leafLengths (presentLeaves (shareFreq z))) : n = (symGet z v).toNat := by
  have hv : symGet z v ≠ 0 := by
    rw [← symGet_shareFreq_ne_zero_iff, ← mem_presentLeaves_symbols, ← (leafLengths_symbols _).mem_iff]
    exact List.mem_map_of_mem hn
  have hlength := presentLeaves_shareFreq_length z
  have hpos := codedCount_pos_of_valid hz
  rw [lengthsValid_iff] at hz
  split at hz
  · rename_i hone
    obtain ⟨b, hb⟩ := hz
    obtain ⟨m, _, _, hall⟩ := exists_length_of_codedCount_eq_one hone
    have hm : m = 1 := ((hall b).resolve_left (by rw [hb]; decide)).symm.trans hb
    rw [(hall v).resolve_left hv, hm]
    exact leafLengths_few (by omega) _ hn
  · rename_i hmany
    obtain ⟨t, ht, e⟩ := leafLengths_many (leaves := presentLeaves (shareFreq z)) (by omega)
    have hroot := mergeNodes_halves (merging_presentLeaves _) (by rw [List.append_nil]; exact dyadic_shareFreq hz) ht
    rw [e] at hn
    have hweight := hroot.depths 0 _ hn
    dsimp only at hweight
    rw [BitVec.ofNat_toNat, BitVec.setWidth_eq, shareFreq, symGet_map, shareWord_toNat hv, codeShare, ← Nat.pow_add,
      pow_zero, mul_one] at hweight
    have hexp := Nat.pow_right_injective (le_refl 2) hweight
    have := (symGet z v).isLt
    omega

/-- Every valid length table is built from some frequencies (42_huffman_code_builder.md R177). -/
theorem buildLengths_shareFreq {z : Vector (BitVec 5) 256} (hz : lengthsValid z = true) :
    buildLengths (shareFreq z) = some z := by
  have hle : ∀ p ∈ leafLengths (presentLeaves (shareFreq z)), p.2 ≤ 31 := by
    rintro ⟨s, n⟩ hp
    have hs : s < 2 ^ 8 := presentLeaves_lt _ s ((leafLengths_symbols _).mem_iff.mp (List.mem_map_of_mem hp))
    obtain ⟨v, rfl⟩ := exists_byte_of_lt hs
    rw [leafLengths_shareFreq hz v hp]
    exact Nat.le_of_lt_succ (symGet z v).isLt
  have hne : presentLeaves (shareFreq z) ≠ [] := by
    rw [← List.length_pos_iff, presentLeaves_shareFreq_length]
    exact codedCount_pos_of_valid hz
  rw [buildLengths_of_le hne hle]
  refine congrArg some (table_ext fun v => ?_)
  by_cases hv : symGet z v = 0
  · have hcoded := built_coded_iff hle v
    rw [symGet_shareFreq_ne_zero_iff, iff_false_right (not_not.mpr hv), not_not] at hcoded
    rw [hcoded, hv]
  · have hmem := built_length_mem hle ((symGet_shareFreq_ne_zero_iff z v).mpr hv)
    exact BitVec.eq_of_toNat_eq (leafLengths_shareFreq hz v hmem)

end Sys2Proof.Machine

namespace Sys2Proof

open Machine

/-- Settles O30: frequencies in the symbols' shares of the code space build any valid table. -/
theorem validLengthsAreTheBuildableOnes : Obligations.ValidLengthsAreTheBuildableOnes := by
  intro z
  rw [← codedCount_eq_length, kraft_eq_kraftSum]
  exact ⟨lengthsValid_iff z, fun hz => ⟨shareFreq z, buildLengths_shareFreq hz⟩, fun ⟨_, h⟩ => buildLengths_valid h⟩

end Sys2Proof

/-! SUPPORT. The block loops of HFE_ENCODE and HFD_DECODE: one block and then the rest, whatever the count the loop starts
with and the fuel it is given (43_huffman_codec.md R196, R197). -/

namespace Sys2Proof.Machine

/-! ## The count of a bulk encode -/

/-- The next part of a bulk encode runs where the one before it coded all of its symbols (47_system_commands.md R333). -/
def thenEncode {σ : Type} (e : Nat × Option Stop × σ) (f : Nat → σ → Nat × Option Stop × σ) : Nat × Option Stop × σ :=
  match e with
  | (n, none, t) => f n t
  | (n, some r, t) => (n, some r, t)

section
variable {σ : Type} (enc : Byte → σ → Run σ Unit) (m : List Host.Cell)

/-- The symbols coded before a loop are added to those it codes. -/
theorem encodeLoop_count (k a n : Nat) (t : σ) :
    encodeLoop enc m k a n t = (n + (encodeLoop enc m k a 0 t).1, (encodeLoop enc m k a 0 t).2) := by
  induction k generalizing a n t with
  | zero => rfl
  | succ k ih =>
    unfold encodeLoop
    cases enc (memRead m a) t with
    | ok _ u =>
      dsimp only
      rw [ih (a + 1) (n + 1), ih (a + 1) (0 + 1), Nat.zero_add, Nat.add_assoc]
    | stop r u => rfl

/-- A loop that codes all of its symbols counts them all, and one that stops counts fewer (47_system_commands.md R333). -/
theorem encodeLoop_fst (k a n : Nat) (t : σ) :
    ((encodeLoop enc m k a n t).2.1 = none → (encodeLoop enc m k a n t).1 = n + k) ∧
      ((encodeLoop enc m k a n t).2.1 ≠ none → (encodeLoop enc m k a n t).1 < n + k) := by
  induction k generalizing a n t with
  | zero => exact ⟨fun _ => rfl, fun h => absurd rfl h⟩
  | succ k ih =>
    unfold encodeLoop
    cases enc (memRead m a) t with
    | ok _ u =>
      have hrest := ih (a + 1) (n + 1) u
      rw [Nat.add_right_comm n 1 k] at hrest
      exact hrest
    | stop r u => exact ⟨nofun, fun _ => by dsimp only; omega⟩

end

/-- A bulk encode that answers the number of its symbols without a fault coded them all: one that stops counts fewer
(47_system_commands.md R333, 60_exceptions.md R344). -/
theorem endEncode_full {s : State} {u : UnitId} {n l : Nat} {r : Option Stop} (hl : l < 2 ^ 64)
    (hcount : r ≠ none → n < l) (hrsp : (s.endEncode u n r).rsp = { flt := 0, r := BitVec.ofNat 64 l }) : r = none := by
  by_contra hr
  have hn := hcount hr
  have hne {j : Nat} (hj : j < l) : ¬ ({ flt := 0, r := BitVec.ofNat 64 j } : Response) = { flt := 0, r := BitVec.ofNat 64 l } := by
    intro h
    have heq := congrArg (fun p => p.r.toNat) h
    simp only [BitVec.toNat_ofNat] at heq
    omega
  match r with
  | none => exact hr rfl
  | some .shortWrite => exact hne hn hrsp
  | some .noCode => exact hne (Nat.zero_lt_of_lt hn) hrsp
  | some .endOfStream =>
    have hflt : (1 : BitVec 3) = 0 := congrArg Response.flt hrsp
    exact absurd hflt (by decide)
  | some .invalidStream =>
    have hflt : (2 : BitVec 3) = 0 := congrArg Response.flt hrsp
    exact absurd hflt (by decide)
  | some .refused =>
    have hflt : (3 : BitVec 3) = 0 := congrArg Response.flt hrsp
    exact absurd hflt (by decide)

/-! ## The blocks of HFE_ENCODE -/

section
variable (m : List Host.Cell) {fuel rem a n : Nat} {t : HfeSide}

/-- HFE's side keeps its block size and its status word over the blocks. -/
theorem hfEncodeBlocks_kept (fuel rem a n : Nat) (t : HfeSide) : HfeKept t (hfEncodeBlocks m fuel rem a n t).2.2 :=
  (hfEncodeBlocks_keeps (E := fun _ => True) trivial trivial trivial t m fuel rem a n t (.refl t)).1

/-- One block that is coded in full counts all of its symbols (43_huffman_codec.md R196). -/
theorem hfEncodeBlocks_all {k : Nat} (hpos : 0 < k) (hblock : k ≤ t.2.1.block.toNat)
    (h : (hfEncodeBlocks m k k a 0 t).2.1 = none) : (hfEncodeBlocks m k k a 0 t).1 = k := by
  cases hupdate : hfUpdate ({ t.1 with freq := blockCounts m a k }, t.2) with
  | stop r u =>
    rw [hfEncodeBlocks_stop hpos hblock hupdate] at h
    cases h
  | ok _ u =>
    rw [hfEncodeBlocks_ok hpos hblock hupdate] at h ⊢
    exact ((encodeLoop_fst hfEncodeSymbol m k a 0 u).1 h).trans (Nat.zero_add k)

/-- The loop is its first block and then the loop on the rest (43_huffman_codec.md R196). -/
theorem hfEncodeBlocks_succ (hblock : 1 ≤ t.2.1.block.toNat) (hrem : rem ≠ 0) :
    let k := min t.2.1.block.toNat rem
    hfEncodeBlocks m (fuel + 1) rem a n t =
      thenEncode (hfEncodeBlocks m k k a n t) fun n t => hfEncodeBlocks m fuel (rem - k) (a + k) n t := by
  intro k
  obtain ⟨j, hj⟩ : ∃ j, k = j + 1 := ⟨k - 1, by omega⟩
  have hmin : min t.2.1.block.toNat (j + 1) = j + 1 := by omega
  rw [hj, hfEncodeBlocks, hfEncodeBlocks, if_neg hrem, if_neg (Nat.succ_ne_zero j)]
  simp only [show min t.2.1.block.toNat rem = j + 1 from hj, hmin, Nat.sub_self, hfEncodeBlocks_done]
  cases hfUpdate ({ t.1 with freq := blockCounts m a (j + 1) }, t.2) with
  | stop r u => rfl
  | ok _ u =>
    dsimp only
    rcases encodeLoop hfEncodeSymbol m (j + 1) a n u with ⟨n', _ | r, u'⟩ <;> rfl

/-- Fuel beyond the symbols left changes nothing (43_huffman_codec.md R196). -/
theorem hfEncodeBlocks_fuel (hblock : 1 ≤ t.2.1.block.toNat) (hfuel : rem ≤ fuel) :
    hfEncodeBlocks m fuel rem a n t = hfEncodeBlocks m rem rem a n t := by
  induction fuel using Nat.strong_induction_on generalizing rem a n t with
  | h fuel ih =>
    cases rem with
    | zero => rw [hfEncodeBlocks_done, hfEncodeBlocks_done]
    | succ rem =>
      obtain ⟨fuel, rfl⟩ : ∃ f, fuel = f + 1 := ⟨fuel - 1, by omega⟩
      rw [hfEncodeBlocks_succ m hblock (Nat.succ_ne_zero rem), hfEncodeBlocks_succ m hblock (Nat.succ_ne_zero rem)]
      generalize hk : min t.2.1.block.toNat (rem + 1) = k
      have hkept := (hfEncodeBlocks_kept m k k a n t).block
      rcases hfirst : hfEncodeBlocks m k k a n t with ⟨n', _ | r, u⟩
      · rw [hfirst] at hkept
        have hu : 1 ≤ u.2.1.block.toNat := (congrArg BitVec.toNat hkept).symm ▸ hblock
        exact (ih fuel (by omega) hu (by omega)).trans (ih rem (by omega) hu (by omega)).symm
      · rfl

/-- The symbols coded before the loop are added to those it codes. -/
theorem hfEncodeBlocks_count (fuel rem a n : Nat) (t : HfeSide) :
    hfEncodeBlocks m fuel rem a n t =
      (n + (hfEncodeBlocks m fuel rem a 0 t).1, (hfEncodeBlocks m fuel rem a 0 t).2) := by
  induction fuel generalizing rem a n t with
  | zero => rfl
  | succ fuel ih =>
    unfold hfEncodeBlocks
    by_cases hrem : rem = 0
    · rw [if_pos hrem, if_pos hrem]
      rfl
    · rw [if_neg hrem, if_neg hrem]
      dsimp only
      cases hfUpdate ({ t.1 with freq := blockCounts m a (min t.2.1.block.toNat rem) }, t.2) with
      | stop r u => rfl
      | ok _ u =>
        dsimp only
        rw [encodeLoop_count]
        rcases encodeLoop hfEncodeSymbol m (min t.2.1.block.toNat rem) a 0 u with ⟨n', _ | r, u'⟩
        · dsimp only
          rw [ih _ _ (n + n'), ih _ _ n', Nat.add_assoc]
        · rfl

/-- A loop that stops counts fewer symbols than it was given (43_huffman_codec.md R196). -/
theorem hfEncodeBlocks_lt (fuel rem a n : Nat) (t : HfeSide) (hstop : (hfEncodeBlocks m fuel rem a n t).2.1 ≠ none) :
    (hfEncodeBlocks m fuel rem a n t).1 < n + rem := by
  induction fuel generalizing rem a n t with
  | zero => exact absurd rfl hstop
  | succ fuel ih =>
    unfold hfEncodeBlocks at hstop ⊢
    by_cases hrem : rem = 0
    · rw [if_pos hrem] at hstop
      exact absurd rfl hstop
    · rw [if_neg hrem] at hstop ⊢
      dsimp only at hstop ⊢
      have hk : min t.2.1.block.toNat rem ≤ rem := Nat.min_le_right _ _
      generalize min t.2.1.block.toNat rem = k at *
      cases hupdate : hfUpdate ({ t.1 with freq := blockCounts m a k }, t.2) with
      | stop r u =>
        dsimp only
        omega
      | ok _ u =>
        simp only [hupdate] at hstop ⊢
        obtain ⟨hall, hfewer⟩ := encodeLoop_fst hfEncodeSymbol m k a n u
        rcases hloop : encodeLoop hfEncodeSymbol m k a n u with ⟨n', _ | r, u'⟩ <;> rw [hloop] at hall hfewer
        · simp only [hloop] at hstop ⊢
          have hn : n' = n + k := hall rfl
          have hlt := ih (rem - k) (a + k) n' u' hstop
          omega
        · have hlt : n' < n + k := hfewer nofun
          dsimp only
          omega

end

/-! ## The blocks of HFD_DECODE -/

section
variable {fuel rem a : Nat} {t : HfdSide × List Host.Cell}

/-- HFD's side keeps its block size over the blocks. -/
theorem hfDecodeBlocks_kept (t₀ : HfdSide) (fuel rem a : Nat) :
    Lasts (fun t => HfdKept t₀ t.1) (hfDecodeBlocks fuel rem a) := by
  induction fuel generalizing rem a with
  | zero => exact lasts_ok ()
  | succ fuel ih =>
    intro t h
    unfold hfDecodeBlocks
    split
    · exact meets_ok h
    · have hread := (hfReadLengths_keeps (E := fun _ => True) trivial trivial t₀ t.1 h).within (f := fun u => (u, t.2))
        (Q' := fun t => HfdKept t₀ t.1) fun _ h => h
      exact hread.andThen fun _ t h =>
        (decodeLoop_lasts (hfDecodeSymbol_keeps trivial trivial t₀) _ a t h).andThen fun _ => ih _ _

theorem hfDecodeBlocks_done (fuel a : Nat) (t : HfdSide × List Host.Cell) : hfDecodeBlocks fuel 0 a t = .ok () t := by
  cases fuel <;> rfl

/-- The loop is its first block and then the loop on the rest (43_huffman_codec.md R197). -/
theorem hfDecodeBlocks_succ (hblock : 1 ≤ t.1.1.block.toNat) (hrem : rem ≠ 0) :
    let k := min t.1.1.block.toNat rem
    hfDecodeBlocks (fuel + 1) rem a t =
      (hfDecodeBlocks k k a t).andThen fun _ t => hfDecodeBlocks fuel (rem - k) (a + k) t := by
  intro k
  obtain ⟨j, hj⟩ : ∃ j, k = j + 1 := ⟨k - 1, by omega⟩
  have hmin : min t.1.1.block.toNat (j + 1) = j + 1 := by omega
  rw [hj, hfDecodeBlocks, hfDecodeBlocks, if_neg hrem, if_neg (Nat.succ_ne_zero j)]
  simp only [show min t.1.1.block.toNat rem = j + 1 from hj, hmin, Nat.sub_self, hfDecodeBlocks_done]
  cases (hfReadLengths t.1).within fun u => (u, t.2) with
  | stop r u => rfl
  | ok _ u =>
    simp only [Run.andThen]
    cases decodeLoop hfDecodeSymbol (j + 1) a u <;> rfl

/-- Fuel beyond the symbols left changes nothing (43_huffman_codec.md R197). -/
theorem hfDecodeBlocks_fuel (hblock : 1 ≤ t.1.1.block.toNat) (hfuel : rem ≤ fuel) :
    hfDecodeBlocks fuel rem a t = hfDecodeBlocks rem rem a t := by
  induction fuel using Nat.strong_induction_on generalizing rem a t with
  | h fuel ih =>
    cases rem with
    | zero => rw [hfDecodeBlocks_done, hfDecodeBlocks_done]
    | succ rem =>
      obtain ⟨fuel, rfl⟩ : ∃ f, fuel = f + 1 := ⟨fuel - 1, by omega⟩
      rw [hfDecodeBlocks_succ hblock (Nat.succ_ne_zero rem), hfDecodeBlocks_succ hblock (Nat.succ_ne_zero rem)]
      generalize hk : min t.1.1.block.toNat (rem + 1) = k
      cases hfirst : hfDecodeBlocks k k a t with
      | stop r u => rfl
      | ok _ u =>
        have hkept := ((hfDecodeBlocks_kept t.1 k k a t (.refl _)).of_ok hfirst).block
        have hu : 1 ≤ u.1.1.block.toNat := (congrArg BitVec.toNat hkept).symm ▸ hblock
        exact (ih fuel (by omega) hu (by omega)).trans (ih rem (by omega) hu (by omega)).symm

end

end Sys2Proof.Machine

/-! SUPPORT. HFE_ENCODE and HFD_DECODE of more than a block: the first block, and then the same command on the rest
(43_huffman_codec.md R196, R197, R201, R211). -/

namespace Sys2Proof.Machine

/-! ## What an update and a block of HFE can do -/

/-- A build that is not refused codes exactly the present symbols (42_huffman_code_builder.md R172). -/
theorem built_coded {freq : Vector Word 256} {z : Vector (BitVec 5) 256} (hz : buildLengths freq = some z) (v : Byte) :
    symGet z v ≠ 0 ↔ symGet freq v ≠ 0 := by
  have hne : presentLeaves freq ≠ [] := by
    intro hnil
    rw [buildLengths_of_none_present hnil] at hz
    cases hz
  have hle : ∀ p ∈ leafLengths (presentLeaves freq), p.2 ≤ 31 := by
    by_contra hdeep
    push Not at hdeep
    rw [buildLengths_of_deep hdeep] at hz
    cases hz
  rw [buildLengths_of_le hne hle] at hz
  cases hz
  exact built_coded_iff hle v

/-- A symbol of a block of fewer than 2^32 symbols is counted (43_huffman_codec.md R196). -/
theorem symGet_blockCounts_ne_zero {m : List Host.Cell} {a k : Nat} (hk : k < 2 ^ 32) {v : Byte} (hv : v ∈ bufBytes m a k) :
    symGet (blockCounts m a k) v ≠ 0 := by
  have hpos := List.count_pos_iff.mpr hv
  have hle := List.count_le_length (a := v) (l := bufBytes m a k)
  rw [bufBytes_length] at hle
  have hcount : symGet (blockCounts m a k) v = BitVec.ofNat 32 ((bufBytes m a k).count v) := by
    rw [blockCounts, symGet_tabulate, BitVec.ofNat_toNat, BitVec.setWidth_eq]
    rfl
  rw [hcount, ne_eq, ← toNat_eq_zero_iff, BitVec.toNat_ofNat, Nat.mod_eq_of_lt (by omega)]
  omega

/-- HFE's side with a table installed in HCB and HFE (43_huffman_codec.md R193). -/
def HfeSide.announced (t : HfeSide) (z : Vector (BitVec 5) 256) (b : Bsi) : HfeSide :=
  ({ t.1 with sizes := z, codes := assignCodes z }, { t.2.1 with sizes := z, codes := assignCodes z }, b)

section
variable {t : HfeSide} {z : Vector (BitVec 5) 256}

theorem hfUpdate_none (hz : buildLengths t.1.freq = none) : hfUpdate t = .stop .refused t := by
  unfold hfUpdate
  rw [hz]

theorem hfUpdate_takes (hz : buildLengths t.1.freq = some z) (h : t.2.2.takes (headerBits z)) :
    hfUpdate t = .ok () (t.announced z (t.2.2.append (headerBits z))) := by
  unfold hfUpdate
  simp only [hz, (offers_hfWriteHeader z).full _ h]
  rfl

theorem hfUpdate_cut (hz : buildLengths t.1.freq = some z) (h : ¬ t.2.2.takes (headerBits z)) :
    hfUpdate t = .stop .shortWrite (t.announced z (t.2.2.offer (headerBits z))) := by
  unfold hfUpdate
  simp only [hz, (offers_hfWriteHeader z).short _ h]
  rfl

end

/-- A loop over coded symbols meets none without a code (43_huffman_codec.md R191). -/
theorem encodeLoop_coded {m : List Host.Cell} {u : HufUnit} {a k : Nat} (hcoded : ∀ v ∈ bufBytes m a k, symGet u.sizes v ≠ 0)
    (c : Hcb) (b : Bsi) (n : Nat) : (encodeLoop hfEncodeSymbol m k a n (c, u, b)).2.1 ≠ some .noCode := by
  by_cases h : b.takes (blockCodes u m a k)
  · rw [encodeLoop_full c n hcoded h]
    exact nofun
  · obtain ⟨j, _, _, _, hloop⟩ := encodeLoop_short c n hcoded h
    rw [hloop]
    exact nofun

/-- HFE_ENCODE never meets a symbol without a code: every block is coded with a table of its own counts
(43_huffman_codec.md R196). -/
theorem hfEncodeBlocks_coded (m : List Host.Cell) {rem : Nat} (hrem : rem < 2 ^ 32) (fuel a n : Nat) (t : HfeSide) :
    (hfEncodeBlocks m fuel rem a n t).2.1 ≠ some .noCode := by
  induction fuel generalizing rem a n t with
  | zero => exact nofun
  | succ fuel ih =>
    unfold hfEncodeBlocks
    split
    · exact nofun
    · dsimp only
      have hk : min t.2.1.block.toNat rem < 2 ^ 32 := by omega
      generalize min t.2.1.block.toNat rem = k at *
      cases hz : buildLengths (blockCounts m a k) with
      | none =>
        rw [hfUpdate_none hz]
        exact nofun
      | some z =>
        by_cases h : t.2.2.takes (headerBits z)
        · rw [hfUpdate_full hz h]
          dsimp only [HfeSide.installed]
          have hloop := encodeLoop_coded (u := { t.2.1 with sizes := z, codes := assignCodes z })
            (fun v hv => (built_coded hz v).mpr (symGet_blockCounts_ne_zero hk hv))
            { freq := blockCounts m a k, sizes := z, codes := assignCodes z } (t.2.2.append (headerBits z)) n
          split
          · rename_i n' r u e
            rw [e] at hloop
            exact hloop
          · exact ih (by omega) _ _ _
        · rw [hfUpdate_short hz h]
          exact nofun

/-! ## The commands -/

section
variable {s : State} {o l : Word}

/-- HFE_ENCODE of a live HFE in a range of BUF ends as its loop does (43_huffman_codec.md R201). -/
theorem exec_hfeEncode (hlive : Live s .hfe) (hin : o.toNat + l.toNat ≤ s.cfg.bufSize) {n : Nat} {r : Option Stop} {t : HfeSide}
    (h : hfEncodeBlocks s.buf l.toNat l.toNat o.toNat 0 (hfePart.get s) = (n, r, t)) :
    exec (.hfeEncode o l) s = .next ((hfePart.put t s).endEncode .hfe n r) := by
  show Host.Outcome.next (s.gated .hfe fun s => s.bounded o l fun s => _) = _
  rw [gated_live hlive, bounded_inside hin]
  simp only [h]

/-- HFD_DECODE of a live HFD in a range of BUF ends as its loop does (43_huffman_codec.md R211). -/
theorem exec_hfdDecode (hlive : Live s .hfd) (hin : o.toNat + l.toNat ≤ s.cfg.bufSize) :
    exec (.hfdDecode o l) s = .next (s.endDecode .hfd hfdPart l
      (hfDecodeBlocks l.toNat l.toNat o.toNat (hfdPart.get s, s.buf))) := by
  show Host.Outcome.next (s.gated .hfd fun s => s.bounded o l fun s => _) = _
  rw [gated_live hlive, bounded_inside hin]

/-- Where the first `k` symbols of a range in BUF end, the rest of it starts: no address or length wraps (20_memory.md R71). -/
theorem rest_of_range {k : Word} (hk : k.toNat < l.toNat) (hin : o.toNat + l.toNat ≤ s.cfg.bufSize) :
    (o + k).toNat = o.toNat + k.toNat ∧ (l - k).toNat = l.toNat - k.toNat := by
  have hsize := s.cfg.bufSize_le
  refine ⟨?_, BitVec.toNat_sub_of_le (BitVec.le_def.mpr hk.le)⟩
  rw [BitVec.toNat_add, Nat.mod_eq_of_lt (by omega)]

/-- Symbols coded before are added to the answer, however the rest ends without a missing code (47_system_commands.md R333,
43_huffman_codec.md R196). -/
theorem plusDone_endEncode (s : State) (u : UnitId) (k n : Nat) {r : Option Stop} (hr : r ≠ some .noCode) :
    plusDone (s.endEncode u n r) k = s.endEncode u (k + n) r := by
  have hadd : BitVec.ofNat 64 n + BitVec.ofNat 64 k = BitVec.ofNat 64 (k + n) := by
    rw [Nat.add_comm k, BitVec.ofNat_add]
  match r with
  | some .noCode => exact absurd rfl hr
  | none => exact congrArg (s.respond · .none) hadd
  | some .shortWrite => exact congrArg ((s.wrFail u).respond · .none) hadd
  | some .endOfStream | some .invalidStream | some .refused => rfl

/-- A response of no fault gives way to the next one. -/
theorem endEncode_answer (s : State) (k n : Nat) (r : Option Stop) (t u : HfeSide) :
    (hfePart.put u ((hfePart.put t s).answer k)).endEncode .hfe n r = (hfePart.put u s).endEncode .hfe n r := by
  match r with
  | none => rfl
  | some r => cases r <;> rfl

end

/-! ## More than a block of HFE_ENCODE -/

section
variable {s : State} {o l : Word} (hlive : Live s .hfe) (hblock : 1 ≤ s.hfe.block.toNat)
  (hlt : s.hfe.block.toNat < l.toNat) (hin : o.toNat + l.toNat ≤ s.cfg.bufSize)

/-- The loop of HFE_ENCODE over more than a block (43_huffman_codec.md R196). -/
theorem hfeEncode_loop (hblock : 1 ≤ s.hfe.block.toNat) (hlt : s.hfe.block.toNat < l.toNat) :
    hfEncodeBlocks s.buf l.toNat l.toNat o.toNat 0 (hfePart.get s) =
      thenEncode (hfEncodeBlocks s.buf s.hfe.block.toNat s.hfe.block.toNat o.toNat 0 (hfePart.get s)) fun n t =>
        hfEncodeBlocks s.buf (l.toNat - 1) (l.toNat - s.hfe.block.toNat) (o.toNat + s.hfe.block.toNat) n t := by
  have hmin : min (hfePart.get s).2.1.block.toNat l.toNat = s.hfe.block.toNat := Nat.min_eq_left hlt.le
  have hsucc := hfEncodeBlocks_succ s.buf (fuel := l.toNat - 1) (a := o.toNat) (n := 0) (t := hfePart.get s) hblock
    (rem := l.toNat) (by omega)
  rw [Nat.sub_add_cancel (by omega), hmin] at hsucc
  exact hsucc

include hlive hblock hlt hin

/-- A first block that stops ends the command (43_huffman_codec.md R196, R201). -/
theorem hfeEncode_stop {n : Nat} {r : Stop} {t : HfeSide}
    (h : hfEncodeBlocks s.buf s.hfe.block.toNat s.hfe.block.toNat o.toNat 0 (hfePart.get s) = (n, some r, t)) :
    exec (.hfeEncode o l) s = .next ((hfePart.put t s).endEncode .hfe n (some r)) := by
  refine exec_hfeEncode hlive hin ?_
  rw [hfeEncode_loop hblock hlt, h]
  rfl

/-- Behind a first block coded in full goes the same command on the rest (43_huffman_codec.md R196, R201). -/
theorem hfeEncode_rest {t : HfeSide}
    (h : hfEncodeBlocks s.buf s.hfe.block.toNat s.hfe.block.toNat o.toNat 0 (hfePart.get s) = (s.hfe.block.toNat, none, t)) :
    ∃ t', exec (.hfeEncode (o + s.hfe.block) (l - s.hfe.block)) ((hfePart.put t s).answer s.hfe.block.toNat) = .next t' ∧
      exec (.hfeEncode o l) s = .next (plusDone t' s.hfe.block.toNat) := by
  obtain ⟨ho, hl⟩ := rest_of_range hlt hin
  have hkept : HfeKept (hfePart.get s) t := by
    have hall := hfEncodeBlocks_kept s.buf s.hfe.block.toNat s.hfe.block.toNat o.toNat 0 (hfePart.get s)
    rwa [h] at hall
  have hblock' : 1 ≤ t.2.1.block.toNat := by
    rw [hkept.block]
    exact hblock
  have hlive' : Live ((hfePart.put t s).answer s.hfe.block.toNat) .hfe := by
    show t.2.1.ustat.dead = false ∧ t.2.1.ustat.disposed = false
    rw [hkept.ustat]
    exact hlive
  rcases hrest : hfEncodeBlocks s.buf (l - s.hfe.block).toNat (l - s.hfe.block).toNat (o + s.hfe.block).toNat 0 t with ⟨n, r, u⟩
  have hcoded := hfEncodeBlocks_coded s.buf (l - s.hfe.block).isLt (l - s.hfe.block).toNat (o + s.hfe.block).toNat 0 t
  rw [hrest] at hcoded
  refine ⟨_, exec_hfeEncode hlive' (by show _ ≤ s.cfg.bufSize; omega) hrest, ?_⟩
  have hloop := hfeEncode_loop (o := o) hblock hlt
  rw [h] at hloop
  have hwhole : hfEncodeBlocks s.buf l.toNat l.toNat o.toNat 0 (hfePart.get s) = (s.hfe.block.toNat + n, r, u) := by
    rw [hloop, thenEncode, ← hl, ← ho, hfEncodeBlocks_fuel s.buf hblock' (by omega), hfEncodeBlocks_count, hrest]
  rw [exec_hfeEncode hlive hin hwhole, plusDone_endEncode _ _ _ _ hcoded]
  exact congrArg _ (endEncode_answer s _ _ r t u).symm

/-- HFE_ENCODE of more than a block: its first block, and the command on the rest where that is coded in full
(43_huffman_codec.md R196, R201, R380). -/
theorem hfeEncode_blocks : ∃ t, exec (.hfeEncode o s.hfe.block) s = .next t ∧
    (t.rsp ≠ { flt := 0, r := s.hfe.block.setWidth 64 } → exec (.hfeEncode o l) s = .next t) ∧
    (t.rsp = { flt := 0, r := s.hfe.block.setWidth 64 } →
      ∃ t', exec (.hfeEncode (o + s.hfe.block) (l - s.hfe.block)) t = .next t' ∧
        exec (.hfeEncode o l) s = .next (plusDone t' s.hfe.block.toNat)) := by
  have hk : s.hfe.block.setWidth 64 = BitVec.ofNat 64 s.hfe.block.toNat := (BitVec.ofNat_toNat 64 _).symm
  rw [hk]
  have hfewer := hfEncodeBlocks_lt s.buf s.hfe.block.toNat s.hfe.block.toNat o.toNat 0 (hfePart.get s)
  have hall := hfEncodeBlocks_all s.buf (t := hfePart.get s) (a := o.toNat) hblock (le_refl _)
  rcases hfirst : hfEncodeBlocks s.buf s.hfe.block.toNat s.hfe.block.toNat o.toNat 0 (hfePart.get s) with ⟨n, r, t⟩
  rw [hfirst, Nat.zero_add] at hfewer
  rw [hfirst] at hall
  refine ⟨_, exec_hfeEncode hlive (by omega) hfirst, fun hcut => ?_, fun hfull => ?_⟩
  · cases r with
    | none =>
      obtain rfl : n = s.hfe.block.toNat := hall rfl
      exact absurd rfl hcut
    | some r => exact hfeEncode_stop hlive hblock hlt hin hfirst
  · obtain rfl := endEncode_full (by omega) hfewer hfull
    obtain rfl : n = s.hfe.block.toNat := hall rfl
    exact hfeEncode_rest hlive hblock hlt hin hfirst

end

/-! ## More than a block of HFD_DECODE -/

/-- The blocks of a range of BUF stop with a fault of the stream alone (43_huffman_codec.md R194, R195). -/
theorem hfDecodeBlocks_fault {o l : Word} {fuel rem a : Nat} {t u : HfdSide × List Host.Cell} {r : Stop}
    (ho : o.toNat ≤ a) (ha : a + rem ≤ o.toNat + l.toNat) (h : hfDecodeBlocks fuel rem a t = .stop r u) :
    r = .endOfStream ∨ r = .invalidStream :=
  ((hfDecodeBlocks_keeps (E := fun r => r = .endOfStream ∨ r = .invalidStream) (.inl rfl) (.inr rfl) t.1 o l _ t.2
    (le_refl _) fuel rem a ho ha t ⟨.refl _, .refl _ _ _⟩).of_stop h).2

/-- LENGTH is answered for the whole of a decode that goes on behind its first symbols, and a fault is the whole's
(47_system_commands.md R333). -/
theorem plusDone_endDecode (s : State) {k l : Word} (hk : k.toNat ≤ l.toNat) (n : Nat) (m : List Host.Cell) (t : HfdSide)
    {x : Run (HfdSide × List Host.Cell) Unit} (hx : ∀ r u, x = .stop r u → r = .endOfStream ∨ r = .invalidStream) :
    plusDone (((hfdPart.put t { s with buf := m }).answer n).endDecode .hfd hfdPart (l - k) x) k.toNat =
      s.endDecode .hfd hfdPart l x := by
  cases x with
  | ok _ u =>
    have hadd : BitVec.ofNat 64 (l - k).toNat + BitVec.ofNat 64 k.toNat = BitVec.ofNat 64 l.toNat := by
      rw [← BitVec.ofNat_add, BitVec.toNat_sub_of_le (BitVec.le_def.mpr hk), Nat.sub_add_cancel hk]
    exact congrArg ((hfdPart.put u.1 { s with buf := u.2 }).respond · .none) hadd
  | stop r u => rcases hx r u rfl with rfl | rfl <;> rfl

section
variable {s : State} {o l : Word} (hlive : Live s .hfd) (hblock : 1 ≤ s.hfd.block.toNat)
  (hlt : s.hfd.block.toNat < l.toNat) (hin : o.toNat + l.toNat ≤ s.cfg.bufSize)

/-- The loop of HFD_DECODE over more than a block (43_huffman_codec.md R197). -/
theorem hfdDecode_loop (hblock : 1 ≤ s.hfd.block.toNat) (hlt : s.hfd.block.toNat < l.toNat) :
    hfDecodeBlocks l.toNat l.toNat o.toNat (hfdPart.get s, s.buf) =
      (hfDecodeBlocks s.hfd.block.toNat s.hfd.block.toNat o.toNat (hfdPart.get s, s.buf)).andThen fun _ t =>
        hfDecodeBlocks (l.toNat - 1) (l.toNat - s.hfd.block.toNat) (o.toNat + s.hfd.block.toNat) t := by
  have hmin : min (hfdPart.get s).1.block.toNat l.toNat = s.hfd.block.toNat := Nat.min_eq_left hlt.le
  have hsucc := hfDecodeBlocks_succ (fuel := l.toNat - 1) (a := o.toNat) (t := (hfdPart.get s, s.buf)) hblock
    (rem := l.toNat) (by omega)
  rw [Nat.sub_add_cancel (by omega), hmin] at hsucc
  exact hsucc

include hlive hblock hlt hin

/-- HFD_DECODE of more than a block: its first block, and the command on the rest where that is decoded
(43_huffman_codec.md R197, R211, R380). -/
theorem hfdDecode_blocks : ∃ t, exec (.hfdDecode o s.hfd.block) s = .next t ∧
    (t.rsp.flt ≠ 0 → exec (.hfdDecode o l) s = .next t) ∧
    (t.rsp.flt = 0 → ∃ t', exec (.hfdDecode (o + s.hfd.block) (l - s.hfd.block)) t = .next t' ∧
      exec (.hfdDecode o l) s = .next (plusDone t' s.hfd.block.toNat)) := by
  obtain ⟨ho, hl⟩ := rest_of_range hlt hin
  rw [exec_hfdDecode hlive hin, exec_hfdDecode hlive (by omega), hfdDecode_loop hblock hlt]
  cases hfirst : hfDecodeBlocks s.hfd.block.toNat s.hfd.block.toNat o.toNat (hfdPart.get s, s.buf) with
  | stop r t =>
    refine ⟨_, rfl, fun _ => rfl, fun hflt => ?_⟩
    rcases hfDecodeBlocks_fault (le_refl _) (Nat.add_le_add_left hlt.le _) hfirst with rfl | rfl
    · have hone : (1 : BitVec 3) = 0 := hflt
      exact absurd hone (by decide)
    · have htwo : (2 : BitVec 3) = 0 := hflt
      exact absurd htwo (by decide)
  | ok _ t =>
    have hkept := (hfDecodeBlocks_kept (hfdPart.get s) _ _ _ (hfdPart.get s, s.buf) (.refl _)).of_ok hfirst
    have hblock' : 1 ≤ t.1.1.block.toNat := by
      rw [hkept.block]
      exact hblock
    have hlive' : Live ((hfdPart.put t.1 { s with buf := t.2 }).answer s.hfd.block.toNat) .hfd := by
      show t.1.1.ustat.dead = false ∧ t.1.1.ustat.disposed = false
      rw [hkept.ustat]
      exact hlive
    refine ⟨_, rfl, fun hflt => absurd rfl hflt, fun _ => ⟨_, exec_hfdDecode hlive' (by show _ ≤ s.cfg.bufSize; omega), ?_⟩⟩
    have hrest := hfDecodeBlocks_fuel (fuel := l.toNat - 1) (rem := (l - s.hfd.block).toNat) (a := (o + s.hfd.block).toNat)
      hblock' (by omega)
    rw [ho, hl] at hrest ⊢
    show Host.Outcome.next (s.endDecode .hfd hfdPart l (hfDecodeBlocks (l.toNat - 1) _ _ t)) = _
    rw [hrest]
    exact congrArg _ (plusDone_endDecode s hlt.le _ t.2 t.1 fun r u =>
      hfDecodeBlocks_fault (o := o) (l := l) (by omega) (by omega)).symm

end

end Sys2Proof.Machine

namespace Sys2Proof

open Machine

/-- Settles O37: the loops of the commands are their first block and then the loop on the rest. -/
theorem huffmanBulkGoesBlockByBlock : Obligations.HuffmanBulkGoesBlockByBlock :=
  ⟨fun _ _ _ => hfeEncode_blocks, fun _ _ _ => hfdDecode_blocks⟩

end Sys2Proof

/-! SUPPORT. The Huffman round trip: HFD reads every block HFE wrote in full, header and codes, and stores its bytes back
(43_huffman_codec.md R218, R380). -/

namespace Sys2Proof.Machine

/-! ## Ranges of BUF -/

theorem bufBytes_add (m : List Host.Cell) (a k j : Nat) : bufBytes m a (k + j) = bufBytes m a k ++ bufBytes m (a + k) j := by
  simp only [bufBytes, List.range_add, List.map_append, List.map_map]
  refine congrArg _ (List.map_congr_left fun i _ => ?_)
  rw [Function.comp_apply, Nat.add_assoc]

/-- A list stored behind another is the two stored as one (20_memory.md R71). -/
theorem Stored.append {m₁ m₂ m₃ : List Host.Cell} {a : Nat} {vs ws : List Byte} (hv : Stored m₁ m₂ a vs)
    (hw : Stored m₂ m₃ (a + vs.length) ws) : Stored m₁ m₃ a (vs ++ ws) := by
  intro x
  rw [hw x, hv x, List.length_append]
  rcases Nat.lt_or_ge x a with hlow | hlow
  · rw [if_neg (by omega), if_neg (by omega), if_neg (by omega)]
  · rcases Nat.lt_or_ge x (a + vs.length) with hfirst | hrest
    · rw [if_neg (by omega), if_pos (by omega), if_pos (by omega), List.getD_append _ _ _ _ (by omega)]
    · rw [List.getD_append_right _ _ _ _ (by omega), Nat.sub_add_eq]
      by_cases hin : x < a + (vs.length + ws.length)
      · rw [if_pos (by omega), if_pos (by omega)]
      · rw [if_neg (by omega), if_neg (by omega), if_neg (by omega)]

/-! ## How many bits a block has -/

/-- The Exp-Golomb code of an integer has at most 18 bits (41_exp_golomb.md R142). -/
theorem egCode_length_le {x : Int} (hx : x.natAbs ≤ 510) (signed : Bool) : (egCode x signed).length ≤ 18 := by
  have hlog : Nat.log2 (x.natAbs + 1) ≤ 8 := log2_le_egMaxZ hx
  have hsign : (egSign x signed).length ≤ 1 := by
    unfold egSign
    split <;> simp
  rw [egCode_eq, List.length_append, egMagnitude_length]
  omega

theorem deltaCodes_length_le {prev : Nat} {lens : List Nat} (hprev : prev ≤ 31) (hlens : ∀ n ∈ lens, n ≤ 31) :
    (deltaCodes prev lens).length ≤ 18 * lens.length := by
  induction lens generalizing prev with
  | nil => exact Nat.zero_le _
  | cons z lens ih =>
    rw [List.forall_mem_cons] at hlens
    obtain ⟨hz, hlens⟩ := hlens
    have hrest := ih hz hlens
    have hcode := egCode_length_le (x := (z : Int) - (prev : Int)) (by omega) true
    rw [deltaCodes, List.length_append, List.length_cons]
    omega

/-- A block header has at most 4595 bits (30_encoding.md R102). -/
theorem headerBits_length_le (z : Vector (BitVec 5) 256) : (headerBits z).length ≤ 4595 := by
  have hlens : ∀ n ∈ z.toList.map BitVec.toNat, n ≤ 31 := by
    intro n hn
    obtain ⟨v, _, rfl⟩ := List.mem_map.mp hn
    have := v.isLt
    omega
  have hlength : (z.toList.map BitVec.toNat).length = 256 := by rw [List.length_map, Vector.length_toList]
  unfold headerBits headerStart
  rcases hl : z.toList.map BitVec.toNat with _ | ⟨n, lens⟩ <;> rw [hl] at hlens hlength
  · cases hlength
  · rw [List.forall_mem_cons] at hlens
    have hdeltas := deltaCodes_length_le hlens.1 hlens.2
    rw [List.length_cons] at hlength
    rw [List.length_append, bitsMsb_length, List.headD_cons, List.tail_cons]
    omega

/-- A block of `k` symbols has at most 8192 bits for each of them (30_encoding.md R104). -/
theorem blockBits_length_le (z : Vector (BitVec 5) 256) (m : List Host.Cell) (a : Nat) {k : Nat} (hk : 0 < k) :
    (blockBits z m a k).length ≤ 8192 * k := by
  have hheader := headerBits_length_le z
  have hcodes : ((bufBytes m a k).map fun v => (hufBits z (assignCodes z) v).length).sum ≤ k * 31 := by
    have hle := List.sum_le_card_nsmul ((bufBytes m a k).map fun v => (hufBits z (assignCodes z) v).length) 31 (by
      intro n hn
      obtain ⟨v, _, rfl⟩ := List.mem_map.mp hn
      have := (symGet z v).isLt
      rw [hufBits, bitsMsb_length]
      omega)
    rwa [List.length_map, bufBytes_length, smul_eq_mul] at hle
  rw [blockBits, List.length_append, List.length_flatMap]
  omega

/-! ## The blocks -/

/-- One block that HFE coded in full has the bits of its own table (43_huffman_codec.md R196). -/
theorem hfEncodeBlocks_one {m : List Host.Cell} {a k n n' : Nat} {t t' : HfeSide} (hpos : 0 < k)
    (hblock : k ≤ t.2.1.block.toNat) (hmax : k ≤ 2 ^ 20) (h : hfEncodeBlocks m k k a n t = (n', none, t')) :
    ∃ z, buildLengths (blockCounts m a k) = some z ∧ t' = t.installed m a k z (t.2.2.append (blockBits z m a k)) := by
  obtain ⟨z, hz, hcoded⟩ := buildLengths_blockCounts m a k hmax hpos
  refine ⟨z, hz, ?_⟩
  rw [hfEncodeBlocks_count] at h
  by_cases hfits : t.2.2.takes (blockBits z m a k)
  · rw [hfEncodeBlocks_full hpos hblock hz hcoded hfits] at h
    cases h
    rfl
  · obtain ⟨j, _, _, _, hshort⟩ := hfEncodeBlocks_short hpos hblock hz hcoded hfits
    rw [hshort] at h
    cases h

/-- What HFE coded in full, block by block, HFD with the same block size reads back (43_huffman_codec.md R218). -/
theorem hfDecodeBlocks_of_encoded (m : List Host.Cell) {rem a n n' : Nat} {t t' : HfeSide} (hlo : 1 ≤ t.2.1.block.toNat)
    (hhi : t.2.1.block.toNat ≤ 2 ^ 20) (h : hfEncodeBlocks m rem rem a n t = (n', none, t')) :
    ∃ bits, t'.2.2 = t.2.2.append bits ∧ bits.length ≤ 8192 * rem ∧
      ∀ (u : HufUnit) (b : Bsi) (m₀ : List Host.Cell), u.block = t.2.1.block → b.continues bits →
        ∃ u' m₁, hfDecodeBlocks rem rem a ((u, b), m₀) = .ok () ((u', b.advance bits.length), m₁) ∧
          Stored m₀ m₁ a (bufBytes m a rem) := by
  induction rem using Nat.strong_induction_on generalizing a n t with
  | h rem ih =>
    rcases rem with _ | r
    · rw [hfEncodeBlocks_done] at h
      cases h
      refine ⟨[], by simp [Bsi.append], Nat.le_refl _, fun u b m₀ _ _ => ⟨u, m₀, by simp [hfDecodeBlocks_done], fun x => ?_⟩⟩
      exact (if_neg (by rw [bufBytes_length]; omega)).symm
    · rw [hfEncodeBlocks_succ m hlo (Nat.succ_ne_zero r)] at h
      obtain ⟨k, hk⟩ : ∃ k, min t.2.1.block.toNat (r + 1) = k := ⟨_, rfl⟩
      rw [hk] at h
      rcases hfirst : hfEncodeBlocks m k k a n t with ⟨n₁, _ | stop, t₁⟩ <;> rw [hfirst] at h
      · obtain ⟨z, hz, rfl⟩ := hfEncodeBlocks_one (by omega) (by omega) (by omega) hfirst
        have hrest := (hfEncodeBlocks_fuel m (rem := r + 1 - k) (fuel := r)
          (t := t.installed m a k z (t.2.2.append (blockBits z m a k))) hlo (by omega)).symm.trans h
        obtain ⟨bits, hout, hlen, hdec⟩ := ih (r + 1 - k) (by omega)
          (t := t.installed m a k z (t.2.2.append (blockBits z m a k))) hlo hhi hrest
        refine ⟨blockBits z m a k ++ bits, by rw [hout, HfeSide.installed, Bsi.append_append], ?_, fun u b m₀ hu hb => ?_⟩
        · have hblockLen := blockBits_length_le z m a (k := k) (by omega)
          rw [List.length_append]
          omega
        · obtain ⟨hheader, hbits⟩ := Bsi.continues_append hb
          have hcoded : ∀ v ∈ bufBytes m a k, symGet z v ≠ 0 := fun v hv =>
            (built_coded hz v).mpr (symGet_blockCounts_ne_zero (by omega) hv)
          obtain ⟨m₁, hblock, hstored⟩ := hfDecodeBlocks_continues (u := u) (buildLengths_valid hz)
            (by rw [bufBytes_length]; omega) (by rw [bufBytes_length, hu]; omega) hcoded a m₀ hheader
          rw [bufBytes_length] at hblock
          obtain ⟨u', m₂, hrest, hstored'⟩ := hdec { u with sizes := z, codes := assignCodes z } _ m₁ hu hbits
          refine ⟨u', m₂, ?_, ?_⟩
          · have hub : 1 ≤ u.block.toNat := hu ▸ hlo
            have hmin : min u.block.toNat (r + 1) = k := hu ▸ hk
            rw [hfDecodeBlocks_succ hub (Nat.succ_ne_zero r)]
            simp only [hmin, hblock, Run.andThen]
            rw [Bsi.advance_advance, ← List.length_append] at hrest
            rw [hfDecodeBlocks_fuel hub (by omega)]
            exact hrest
          · rw [show r + 1 = k + (r + 1 - k) by omega, bufBytes_add]
            exact hstored.append (by rwa [bufBytes_length])
      · cases h

/-! ## The commands -/

/-- What an HFE_ENCODE that answers LENGTH added to OUT, HFD_DECODE reads back (43_huffman_codec.md R201, R218). -/
theorem hfeEncode_full {s t : State} {o l : Word} (hlive : Live s .hfe) (hblock : BlockInv s)
    (hin : o.toNat + l.toNat ≤ s.cfg.bufSize) (hexec : exec (.hfeEncode o l) s = .next t)
    (hrsp : t.rsp = { flt := 0, r := l.setWidth 64 }) :
    ∃ bits, t.bsi.out = s.bsi.out ++ bits ∧ bits.length < 2 ^ 64 ∧
      ∀ (u : HufUnit) (b : Bsi) (m : List Host.Cell), u.block = s.hfe.block → b.continues bits →
        ∃ u' m', hfDecodeBlocks l.toNat l.toNat o.toNat ((u, b), m) = .ok () ((u', b.advance bits.length), m') ∧
          Stored m m' o.toNat (bufBytes s.buf o.toNat l.toNat) := by
  obtain ⟨⟨hlo, hhi⟩, _⟩ := hblock
  have hl := l.isLt
  have hfewer := hfEncodeBlocks_lt s.buf l.toNat l.toNat o.toNat 0 (hfePart.get s)
  rcases hloop : hfEncodeBlocks s.buf l.toNat l.toNat o.toNat 0 (hfePart.get s) with ⟨n, r, u⟩
  rw [hloop, Nat.zero_add] at hfewer
  rw [exec_hfeEncode hlive hin hloop] at hexec
  cases hexec
  rw [← BitVec.ofNat_toNat] at hrsp
  obtain rfl := endEncode_full (by omega) hfewer hrsp
  obtain ⟨bits, hout, hlen, hdec⟩ := hfDecodeBlocks_of_encoded s.buf (t := hfePart.get s) hlo hhi hloop
  refine ⟨bits, ?_, by omega, hdec⟩
  show u.2.2.out = _
  rw [hout]
  rfl

end Sys2Proof.Machine

namespace Sys2Proof

open Machine

/-- Settles O50: block by block, HFD reads the bits HFE added to OUT. -/
theorem huffmanRoundTrip : Obligations.HuffmanRoundTrip := by
  intro s t d o l hlive hblock hin hexec hrsp hdlive hsame hdin hopen hstart hbits
  obtain ⟨bits, hout, hlen, hdec⟩ := hfeEncode_full hlive hblock hin hexec hrsp
  rw [hout, List.drop_left] at hbits
  have hcontinues := Bsi.continues_inBits hopen hstart (hbits ▸ hlen)
  rw [hbits] at hcontinues
  obtain ⟨u, m, hblocks, hstored⟩ := hdec d.hfd d.bsi d.buf hsame hcontinues
  have hloop : hfDecodeBlocks l.toNat l.toNat o.toNat (hfdPart.get d, d.buf) = _ := hblocks
  rw [exec_hfdDecode hdlive hdin, hloop]
  refine ⟨_, rfl, congrArg (Response.mk 0) (BitVec.ofNat_toNat 64 l), hstored, ?_⟩
  show d.bsi.rcnt + BitVec.ofNat 64 bits.length = _
  rw [hstart, hbits]
  exact BitVec.zero_add _

end Sys2Proof

namespace Sys2Proof

open Machine

/-- Settles O31: the gate, and then the code offered to OUT. -/
theorem huffmanEncodeWritesTheCode : Obligations.HuffmanEncodeWritesTheCode := by
  refine ⟨fun w => decode_of_opc (.hfeEncbyte 0), fun s v => ⟨fun hdead => ?_, fun hlive hnone => ?_,
    fun hlive hv hfits => ?_, fun hlive hv hshort => ?_⟩⟩
  · exact congrArg _ ((gated_shut hdead _).trans (failed_eq s .unitDead (by decide)).symm)
  · have hstop : hfEncodeSymbol v (hfePart.get s) = .stop .noCode (hfePart.get s) := if_pos (congrArg BitVec.toNat hnone)
    exact congrArg _ (single_stop hlive (part := hfePart) _ hstop)
  · rw [fits_iff] at hfits
    rw [emitted_eq, Bsi.offer_of_takes hfits]
    exact congrArg _ (single_ok hlive (part := hfePart) _ (hfEncodeSymbol_full s.hcb hv hfits))
  · rw [emitted_eq]
    exact congrArg _ (single_stop hlive (part := hfePart) _ (hfEncodeSymbol_short s.hcb hv hshort))

/-- Settles O33: the gate, and then the build, the table installed and its header offered to OUT. -/
theorem huffmanUpdateInstallsAndAnnounces : Obligations.HuffmanUpdateInstallsAndAnnounces := by
  refine ⟨fun w => decode_of_opc .hfeUpdate, fun s => ⟨fun hdead => ?_, fun hlive hnone => ?_, fun z hlive hz => ?_⟩⟩
  · exact congrArg _ ((gated_shut hdead _).trans (failed_eq s .unitDead (by decide)).symm)
  · refine congrArg _ ((single_stop hlive (part := hfePart) _ (hfUpdate_none (t := hfePart.get s) hnone)).trans ?_)
    exact (failed_eq s .invalidArgument (by decide)).symm
  · intro t
    refine ⟨fun hfits => ?_, fun hshort => ?_⟩
    · have hfull := single_ok hlive (part := hfePart) (fun _ s => s.answer 1) (hfUpdate_takes (t := hfePart.get s) hz hfits)
      rw [← Bsi.offer_of_takes (b := (hfePart.get s).2.2) hfits] at hfull
      exact congrArg _ hfull
    · exact congrArg _ (single_stop hlive (part := hfePart) (fun _ s => s.answer 1)
        (hfUpdate_cut (t := hfePart.get s) hz hshort))

end Sys2Proof

/-! SUPPORT. The walk of the Huffman decoder where it does not end with a symbol: in a full tree every bit leads on, in the
one-symbol table a 1 leads nowhere, and IN may end inside a code (43_huffman_codec.md R195). -/

namespace Sys2Proof.Machine

/-! ## A full tree -/

/-- Slots that follow each other and fill the space between two bounds leave no gap. -/
theorem exists_slot_of_full {l : List CodeEntry} {lo hi x : Nat} (hl : l.Pairwise fun e f => CodeEntry.stop e ≤ CodeEntry.start f)
    (h : ∀ e ∈ l, lo ≤ CodeEntry.start e ∧ CodeEntry.stop e ≤ hi) (hsum : lo + (l.map fun e => codeShare e.1.1).sum = hi)
    (hlo : lo ≤ x) (hhi : x < hi) : ∃ e ∈ l, CodeEntry.start e ≤ x ∧ x < CodeEntry.stop e := by
  induction l generalizing lo with
  | nil =>
    rw [List.map_nil, List.sum_nil] at hsum
    omega
  | cons e l ih =>
    obtain ⟨hfirst, hl⟩ := List.pairwise_cons.mp hl
    obtain ⟨⟨hstart, hstop⟩, hrest⟩ := List.forall_mem_cons.mp h
    have hshare : e.stop = e.start + codeShare e.1.1 := by rw [CodeEntry.stop, CodeEntry.start, Nat.add_mul, Nat.one_mul]
    have hin : ∀ f ∈ l, e.stop ≤ CodeEntry.start f ∧ CodeEntry.stop f ≤ hi := fun f hf => ⟨hfirst f hf, (hrest f hf).2⟩
    have htail := sum_codeShare_le hstop hl hin
    rw [List.map_cons, List.sum_cons] at hsum
    by_cases hx : x < e.stop
    · exact ⟨e, List.mem_cons_self, by omega, hx⟩
    · obtain ⟨f, hf, hslot⟩ := ih hl hin (by omega) (by omega)
      exact ⟨f, List.mem_cons_of_mem _ hf, hslot⟩

/-- In a full tree every point of the code space lies in a symbol's slot (42_huffman_code_builder.md R176). -/
theorem exists_symbol_at {z : Vector (BitVec 5) 256} (hfull : kraftSum z = 2 ^ 31) {x : Nat} (hx : x < 2 ^ 31) :
    ∃ w : Byte, symGet z w ≠ 0 ∧ (symGet (assignCodes z) w).toNat * codeShare (symGet z w).toNat ≤ x ∧
      x < ((symGet (assignCodes z) w).toNat + 1) * codeShare (symGet z w).toNat := by
  have hz := lengthsValid_of_full hfull
  obtain ⟨_, hslots, hpair⟩ := codeEntries_slots hz
  have hsum : ((codeEntries z).map fun e => codeShare e.1.1).sum = 2 ^ 31 := by
    rw [← hfull, ← codedSymbols_shares, ← codeEntries_map_fst hz, List.map_map]
    rfl
  obtain ⟨e, he, hlo, hhi⟩ := exists_slot_of_full hpair (fun e he => ⟨Nat.zero_le _, (hslots e he).2⟩)
    ((Nat.zero_add _).trans hsum) (Nat.zero_le _) hx
  obtain ⟨w, hw, hew, hcode⟩ := exists_symbol_of_codeEntry hz he
  rw [CodeEntry.start, hew, hcode] at hlo
  rw [CodeEntry.stop, hew, hcode] at hhi
  exact ⟨w, hw, hlo, hhi⟩

/-- The bits read so far are the start of a longer code: an inner node of the tree (43_huffman_codec.md R195). -/
def HufUnit.Inner (u : HufUnit) (len c : Nat) : Prop :=
  ∃ v : Byte, len < (symGet u.sizes v).toNat ∧ (symGet u.codes v).toNat >>> ((symGet u.sizes v).toNat - len) = c

/-- In a full tree an inner node has a child for either bit: a code, or the start of one (42_huffman_code_builder.md
R176). -/
theorem HufUnit.Inner.child {u : HufUnit} (hfull : kraftSum u.sizes = 2 ^ 31) (hcodes : u.codes = assignCodes u.sizes)
    {len c : Nat} (h : u.Inner len c) (x : Bool) :
    ∃ w : Byte, len + 1 ≤ (symGet u.sizes w).toNat ∧
      (symGet u.codes w).toNat >>> ((symGet u.sizes w).toNat - (len + 1)) = 2 * c + x.toNat := by
  obtain ⟨v, hlen, hc⟩ := h
  have hslots : CodeSlots u.sizes u.codes := hcodes ▸ codeSlots_assignCodes (lengthsValid_of_full hfull)
  have hv : symGet u.sizes v ≠ 0 := fun hzero => by
    rw [hzero] at hlen
    exact Nat.not_lt_zero _ hlen
  have hv31 := (symGet u.sizes v).isLt
  have hcode := hslots.code_lt hv
  have hx : x.toNat ≤ 1 := Bool.toNat_le x
  have hc_lt : c < 2 ^ len := by
    rw [← hc, Nat.shiftRight_eq_div_pow, Nat.div_lt_iff_lt_mul (Nat.two_pow_pos _), ← Nat.pow_add,
      Nat.add_sub_cancel' hlen.le]
    exact hcode
  have hwhole : 2 ^ (len + 1) * codeShare (len + 1) = 2 ^ 31 := by
    rw [codeShare, ← Nat.pow_add, Nat.add_sub_cancel' (by omega)]
  have hpoint : (2 * c + x.toNat) * codeShare (len + 1) < 2 ^ 31 := by
    rw [← hwhole]
    refine Nat.mul_lt_mul_of_pos_right ?_ (codeShare_pos _)
    rw [Nat.pow_succ]
    omega
  obtain ⟨w, hw, hlo, hhi⟩ := exists_symbol_at hfull hpoint
  rw [← hcodes] at hlo hhi
  have hw31 := (symGet u.sizes w).isLt
  rcases Nat.lt_or_ge len (symGet u.sizes w).toNat with hlong | hshort
  · refine ⟨w, hlong, ?_⟩
    rw [codeShare_eq (l := len + 1) hlong (by omega), ← Nat.mul_assoc] at hlo hhi
    have hle := Nat.le_of_mul_le_mul_right hlo (codeShare_pos _)
    have hlt := Nat.lt_of_mul_lt_mul_right hhi
    have heq : (symGet u.codes w).toNat = (2 * c + x.toNat) * 2 ^ ((symGet u.sizes w).toNat - (len + 1)) := by omega
    rw [heq, Nat.shiftRight_eq_div_pow, Nat.mul_div_cancel _ (Nat.two_pow_pos _)]
  · exfalso
    rw [codeShare_eq (l := (symGet u.sizes w).toNat) (l' := len + 1) (by omega) (by omega), ← Nat.mul_assoc] at hlo hhi
    have hle := Nat.le_of_mul_le_mul_right hlo (codeShare_pos _)
    have hlt := Nat.lt_of_mul_lt_mul_right hhi
    have hprefix : (symGet u.codes w).toNat =
        (symGet u.codes v).toNat >>> ((symGet u.sizes v).toNat - (symGet u.sizes w).toNat) := by
      rw [show (symGet u.sizes v).toNat - (symGet u.sizes w).toNat =
        ((symGet u.sizes v).toNat - len) + (len - (symGet u.sizes w).toNat) by omega, Nat.shiftRight_add, hc,
        Nat.shiftRight_eq_div_pow]
      rw [show len + 1 - (symGet u.sizes w).toNat = (len - (symGet u.sizes w).toNat) + 1 by omega, Nat.pow_succ] at hle hlt
      rw [← Nat.mul_assoc] at hle hlt
      exact (Nat.div_eq_of_lt_le (by omega) (by omega)).symm
    have hwv := hslots.eq_of_prefix hv hw (by omega) hprefix
    rw [hwv] at hshort
    omega

/-- In a full tree the walk ends with a symbol, or with IN (43_huffman_codec.md R195). -/
theorem hfWalk_full {u : HufUnit} (hfull : kraftSum u.sizes = 2 ^ 31) (hcodes : u.codes = assignCodes u.sizes)
    {fuel len c : Nat} (hfuel : len + fuel = 31) (h : u.Inner len c) {b b' : Bsi} {r : Stop}
    (hstop : hfWalk u.codeList fuel len c b = .stop r b') : r = .endOfStream := by
  induction fuel generalizing len c b with
  | zero =>
    obtain ⟨v, hlen, _⟩ := h
    have := (symGet u.sizes v).isLt
    omega
  | succ fuel ih =>
    rw [hfWalk, readBit_eq] at hstop
    split at hstop
    · obtain ⟨w, hlen, hc⟩ := h.child hfull hcodes (b.inBits.getD b.rcnt.toNat false)
      simp only [Run.andThen] at hstop
      split at hstop
      · cases hstop
      · rename_i hnone
        rw [List.findIdx?_eq_none_iff] at hnone
        have hmem := List.getElem_mem (lt_codeList_length u w)
        have hother := of_decide_eq_false (hnone _ hmem)
        rw [codeList_getElem] at hother hmem
        have hne : (symGet u.sizes w).toNat ≠ len + 1 := by
          intro heq
          rw [heq, Nat.sub_self, Nat.shiftRight_zero] at hc
          exact hother ⟨heq, hc⟩
        have hlonger : len + 1 < (symGet u.sizes w).toNat := by omega
        have hany : (u.codeList.any fun e => decide (e.1 > len + 1 ∧
            e.2 >>> (e.1 - (len + 1)) = 2 * c + (b.inBits.getD b.rcnt.toNat false).toNat)) = true :=
          List.any_eq_true.mpr ⟨_, hmem, decide_eq_true ⟨hlonger, hc⟩⟩
        rw [if_pos hany] at hstop
        exact ih (by omega) ⟨w, hlonger, hc⟩ hstop
    · cases hstop
      rfl

/-- With a full tree the only fault of `HfDecodeSymbol` is EndOfStream (43_huffman_codec.md R195). -/
theorem hfDecodeSymbol_full {u : HufUnit} (hvalid : u.Valid) (hfull : kraftSum u.sizes = 2 ^ 31) {b : Bsi} {r : Stop}
    {t : HfdSide} (hstop : hfDecodeSymbol (u, b) = .stop r t) : r = .endOfStream := by
  obtain ⟨hz, hcodes⟩ := hvalid
  obtain ⟨w, hw, _⟩ := exists_symbol_at hfull (x := 0) (by decide)
  have hroot : u.Inner 0 0 := by
    have hlt := (codeSlots_assignCodes hz).code_lt hw
    rw [← hcodes] at hlt
    exact ⟨w, Nat.pos_of_ne_zero (mt (toNat_eq_zero_iff _).mp hw), by
      rw [Nat.sub_zero, Nat.shiftRight_eq_div_pow, Nat.div_eq_of_lt hlt]⟩
  cases hwalk : hfWalk u.codeList Config.hufMaxLen 0 0 b with
  | ok v b' =>
    rw [hfDecodeSymbol, hwalk] at hstop
    cases hstop
  | stop r' b' =>
    rw [hfDecodeSymbol, hwalk] at hstop
    cases hstop
    exact hfWalk_full hfull hcodes rfl hroot hwalk

/-! ## The one-symbol table -/

/-- A table with one symbol gives it the code `0` (42_huffman_code_builder.md R173, R177). -/
theorem codes_of_one {u : HufUnit} (hvalid : u.Valid) (hone : kraftSum u.sizes ≠ 2 ^ 31) (v : Byte) :
    (symGet u.sizes v).toNat ≤ 1 ∧ symGet u.codes v = 0 := by
  obtain ⟨hz, hcodes⟩ := hvalid
  have hcount : codedCount u.sizes = 1 := by
    by_contra hmany
    exact hone ((if_neg hmany).mp ((lengthsValid_iff u.sizes).mp hz))
  obtain ⟨a, ha⟩ := (if_pos hcount).mp ((lengthsValid_iff u.sizes).mp hz)
  have hlength : (codedSymbols u.sizes).length = 1 := by
    rw [← List.length_map (f := Prod.fst), (codedSymbols_lengths u.sizes).length_eq, List.length_map,
      ← codedCount_eq_length]
    exact hcount
  obtain ⟨p, hp⟩ := List.length_eq_one_iff.mp hlength
  have hlisted (b : Byte) (hb : symGet u.sizes b ≠ 0) : ((symGet u.sizes b).toNat, b.toNat) = p := by
    have hmem := mem_codedSymbols_of_coded hb
    rw [hp] at hmem
    exact List.mem_singleton.mp hmem
  have ha' : symGet u.sizes a ≠ 0 := by
    rw [ha]
    decide
  have hsizes (b : Byte) : symGet u.sizes b = if b = a then 1 else 0 := by
    by_cases hb : symGet u.sizes b = 0
    · have hba : b ≠ a := by
        rintro rfl
        exact ha' hb
      rw [hb, if_neg hba]
    · have hsame := congrArg Prod.snd ((hlisted b hb).trans (hlisted a ha').symm)
      obtain rfl := BitVec.eq_of_toNat_eq hsame
      rw [ha, if_pos rfl]
  refine ⟨?_, hcodes ▸ assignCodes_of_one hsizes v⟩
  rw [hsizes v]
  split <;> decide

/-- With the one-symbol table a 1 bit is InvalidStream (43_huffman_codec.md R195). -/
theorem hfDecodeSymbol_one {u : HufUnit} (hvalid : u.Valid) (hone : kraftSum u.sizes ≠ 2 ^ 31) {b : Bsi}
    (hb : b.continues [true]) : hfDecodeSymbol (u, b) = .stop .invalidStream (u, b.advance 1) := by
  have hentry : ∀ e ∈ u.codeList, e.1 ≤ 1 ∧ e.2 = 0 := by
    intro e he
    obtain ⟨i, hi, rfl⟩ := List.mem_iff_getElem.mp he
    obtain ⟨v, _, hv⟩ := codeList_getElem_index u hi
    obtain ⟨hsize, hcode⟩ := codes_of_one hvalid hone v
    rw [hv, hcode]
    exact ⟨hsize, rfl⟩
  have hnone : (u.codeList.findIdx? fun e => decide (e.1 = 0 + 1 ∧ e.2 = 2 * 0 + true.toNat)) = none :=
    List.findIdx?_eq_none_iff.mpr fun e he => decide_eq_false fun h => by
      rw [(hentry e he).2] at h
      exact absurd h.2 (by decide)
  have hany : ¬ (u.codeList.any fun e => decide (e.1 > 0 + 1 ∧ e.2 >>> (e.1 - (0 + 1)) = 2 * 0 + true.toNat)) = true := by
    rw [List.any_eq_true]
    rintro ⟨e, he, h⟩
    have hsize := (hentry e he).1
    have hlong := (of_decide_eq_true h).1
    omega
  have hwalk (fuel : Nat) : hfWalk u.codeList (fuel + 1) 0 0 b = .stop .invalidStream (b.advance 1) := by
    rw [hfWalk, readBit_continues hb]
    simp only [Run.andThen, hnone]
    exact if_neg hany
  rw [hfDecodeSymbol, show Config.hufMaxLen = 30 + 1 from rfl, hwalk]
  rfl

/-! ## IN ends inside a code -/

section
variable {u : HufUnit} (h : CodeSlots u.sizes u.codes) {v : Byte} (hv : symGet u.sizes v ≠ 0)
include h hv

/-- Where IN ends inside a symbol's code the walk consumes the bits there and stops (43_huffman_codec.md R195). -/
theorem hfWalk_end {part : List Bool} {k len fuel : Nat} {b : Bsi} (hk : len + (k + 1) = (symGet u.sizes v).toNat)
    (hfuel : k < fuel) (hpart : part <+: bitsMsb (symGet u.codes v).toNat (k + 1)) (hcut : part.length < k + 1)
    (hb : b.endsIn part) :
    hfWalk u.codeList fuel len ((symGet u.codes v).toNat >>> (k + 1)) b = .stop .endOfStream (b.advance part.length) := by
  induction part generalizing k len fuel b with
  | nil =>
    obtain ⟨fuel, rfl⟩ : ∃ f, fuel = f + 1 := ⟨fuel - 1, by omega⟩
    rw [hfWalk, readBit_end hb, List.length_nil, Bsi.advance_zero]
    rfl
  | cons x part ih =>
    obtain ⟨fuel, rfl⟩ : ∃ f, fuel = f + 1 := ⟨fuel - 1, by omega⟩
    rw [List.length_cons] at hcut
    obtain ⟨k, rfl⟩ : ∃ j, k = j + 1 := ⟨k - 1, by omega⟩
    obtain ⟨rfl, htail⟩ := List.cons_prefix_cons.mp hpart
    obtain ⟨hbit, hend⟩ := Bsi.endsIn_append (l := [(symGet u.codes v).toNat.testBit (k + 1)]) hb
    obtain ⟨hnone, hany⟩ := findIdx_start h hv (n := len + 1) (by omega) (by omega)
    have hrest := ih (len := len + 1) (fuel := fuel) (by omega) (by omega) htail (by omega) hend
    rw [show (symGet u.sizes v).toNat - (len + 1) = k + 1 by omega] at hnone hany
    rw [List.length_singleton, Bsi.advance_advance] at hrest
    simp only [hfWalk, readBit_continues hbit, Run.andThen, two_mul_shiftRight_add, hnone, hany, if_true, hrest]
    rw [List.length_cons, Nat.add_comm 1]

/-- IN ending inside a symbol's code is EndOfStream, the bits there consumed (43_huffman_codec.md R195). -/
theorem hfDecodeSymbol_end {part : List Bool} {b : Bsi} (hpart : part <+: hufBits u.sizes u.codes v)
    (hne : part ≠ hufBits u.sizes u.codes v) (hb : b.endsIn part) :
    hfDecodeSymbol (u, b) = .stop .endOfStream (u, b.advance part.length) := by
  have hlt := h.code_lt hv
  have h31 := (symGet u.sizes v).isLt
  have hcut := length_lt_of_prefix_of_ne hpart hne
  obtain ⟨k, hk⟩ : ∃ k, (symGet u.sizes v).toNat = k + 1 :=
    ⟨(symGet u.sizes v).toNat - 1, by have := mt (toNat_eq_zero_iff _).mp hv; omega⟩
  unfold hufBits at hpart hcut
  rw [bitsMsb_length] at hcut
  rw [hk] at hpart hcut hlt
  have hwalk := hfWalk_end h hv (len := 0) (fuel := Config.hufMaxLen) (by omega) (by unfold Config.hufMaxLen; omega) hpart hcut hb
  rw [Nat.shiftRight_eq_div_pow, Nat.div_eq_of_lt hlt] at hwalk
  rw [hfDecodeSymbol, hwalk]
  rfl

end

end Sys2Proof.Machine

namespace Sys2Proof

open Machine

/-- Settles O32: the walk follows the code of the symbol IN continues with; in a full tree every node it meets has both
children. -/
theorem huffmanDecodeInvertsTheCode : Obligations.HuffmanDecodeInvertsTheCode := by
  constructor
  · rintro s v hlive ⟨hz, hcodes⟩ hv hb
    have hslots : CodeSlots s.hfd.sizes s.hfd.codes := hcodes ▸ codeSlots_assignCodes hz
    have hdec := single_ok hlive (part := hfdPart) (fun v s => s.answer v.toNat) (hfDecodeSymbol_continues hslots hv hb)
    rw [hufBits, bitsMsb_length] at hdec
    exact congrArg _ hdec
  · intro s hlive hvalid
    refine ⟨fun t hfull hexec => ?_, fun hone hb => ?_, fun v hv hopen hlen hpart hne => ?_⟩
    · rw [kraft_eq_kraftSum] at hfull
      have hexec' : execHfdDecbyte s = .next t := hexec
      unfold execHfdDecbyte at hexec'
      cases hdec : hfDecodeSymbol (hfdPart.get s) with
      | ok v u =>
        rw [single_ok hlive _ hdec] at hexec'
        cases hexec'
        exact .inl rfl
      | stop r u =>
        obtain rfl := hfDecodeSymbol_full hvalid hfull hdec
        rw [single_stop hlive _ hdec] at hexec'
        cases hexec'
        exact .inr rfl
    · rw [kraft_eq_kraftSum] at hone
      refine congrArg _ ((single_stop hlive (part := hfdPart) _ (hfDecodeSymbol_one hvalid hone hb)).trans ?_)
      exact endBy_eq _ .hfd .invalidStream
    · obtain ⟨hz, hcodes⟩ := hvalid
      have hslots : CodeSlots s.hfd.sizes s.hfd.codes := hcodes ▸ codeSlots_assignCodes hz
      have hend := hfDecodeSymbol_end hslots hv hpart hne ⟨hopen, hlen, rfl⟩
      rw [List.length_drop] at hend
      exact congrArg _ ((single_stop hlive (part := hfdPart) _ hend).trans (endBy_eq _ .hfd .endOfStream))

end Sys2Proof

/-! SUPPORT. How a decoder undoes an encoder: the window the decoder holds and the bits it has still to read are the bits
the encoder has still to write (44_range_coder.md R240, 46_cm_coder.md R305, 43_huffman_codec.md R218). -/

namespace Sys2Proof.Machine

/-! ## Numbers and their bits -/

theorem bitsValue_append (l m : List Bool) : bitsValue (l ++ m) = bitsValue l * 2 ^ m.length + bitsValue m := by
  induction m using List.reverseRecOn with
  | nil => simp [bitsValue]
  | append_singleton m x ih =>
    rw [← List.append_assoc, bitsValue_concat, ih, bitsValue_concat, List.length_append, List.length_singleton, Nat.pow_succ]
    ring

theorem bitsValue_lt (l : List Bool) : bitsValue l < 2 ^ l.length := by
  induction l using List.reverseRecOn with
  | nil => exact Nat.one_pos
  | append_singleton l x ih =>
    have hx := Bool.toNat_le x
    rw [bitsValue_concat, List.length_append, List.length_singleton, Nat.pow_succ]
    omega

/-- A list of bits is the bits of its number. -/
theorem bitsMsb_bitsValue (l : List Bool) : bitsMsb (bitsValue l) l.length = l := by
  induction l using List.reverseRecOn with
  | nil => rfl
  | append_singleton l x ih =>
    have hhalf : (2 * bitsValue l + x.toNat) >>> 1 = bitsValue l := by
      have hx := Bool.toNat_le x
      rw [Nat.shiftRight_eq_div_pow]
      omega
    have hlast : bitsMsb (2 * bitsValue l + x.toNat) 1 = [x] := by cases x <;> simp [bitsMsb, Nat.testBit_zero]
    rw [bitsValue_concat, List.length_append, List.length_singleton, bitsMsb_add, hhalf, ih, hlast]

/-- The number of the low bits of a number is its remainder. -/
theorem bitsValue_bitsMsb (v n : Nat) : bitsValue (bitsMsb v n) = v % 2 ^ n := by
  induction n with
  | zero => simp [bitsMsb, bitsValue, Nat.mod_one]
  | succ n ih =>
    have hcons : bitsMsb v (n + 1) = [v.testBit n] ++ bitsMsb v n := rfl
    have hone : bitsValue [v.testBit n] = (v.testBit n).toNat := Nat.zero_add _
    rw [hcons, bitsValue_append, bitsMsb_length, ih, hone, Nat.mod_pow_succ, Nat.toNat_testBit]
    ring

/-- `ReadBits` reads the number of the bits IN continues with (40_bit_stream.md R123). -/
theorem readBits_list {b : Bsi} {l : List Bool} (h : b.continues l) :
    readBits l.length b = .ok (bitsValue l) (b.advance l.length) := by
  have hread := readBits_continues (b := b) (v := bitsValue l) (n := l.length) (by rwa [bitsMsb_bitsValue])
  rwa [Nat.mod_eq_of_lt (bitsValue_lt l)] at hread

/-- A write a coder needs in full, made in full, appended its bits (60_exceptions.md R344). -/
theorem writeAll_ok {v n : Nat} {b b' : Bsi} (h : writeAll v n b = .ok () b') : b' = b.append (bitsMsb v n) := by
  rw [writeAll_eq] at h
  split at h <;> cases h
  rfl

/-! ## The window -/

/-- A decoder's window of `width` bits holds the first of a list of bits, and the rest of the list is the rest of IN. -/
structure Bsi.Loaded (b : Bsi) (width w : Nat) (bits : List Bool) : Prop where
  long : width ≤ bits.length
  value : w = bitsValue (bits.take width)
  ends : b.endsIn (bits.drop width)
  within : b.rcnt.toNat ≤ b.inBits.length

/-- Reading bits that IN ends in. -/
theorem Bsi.endsIn_read {b : Bsi} {l m : List Bool} (h : b.endsIn (l ++ m)) (hin : b.rcnt.toNat ≤ b.inBits.length) :
    readBits l.length b = .ok (bitsValue l) (b.advance l.length) ∧ (b.advance l.length).endsIn m ∧
      (b.advance l.length).rcnt.toNat ≤ (b.advance l.length).inBits.length := by
  have hlen := Bsi.endsIn_length h
  obtain ⟨_, hsmall, _⟩ := id h
  obtain ⟨hcontinues, hrest⟩ := Bsi.endsIn_append h
  rw [List.length_append] at hlen
  refine ⟨readBits_list hcontinues, hrest, ?_⟩
  rw [Bsi.advance_toNat (by omega), Bsi.advance_inBits]
  omega

/-- Loading the window (44_range_coder.md R239, 46_cm_coder.md R304). -/
theorem Bsi.loaded_of_endsIn {b : Bsi} {bits : List Bool} {width : Nat} (h : b.endsIn bits)
    (hin : b.rcnt.toNat ≤ b.inBits.length) (hlong : width ≤ bits.length) :
    readBits width b = .ok (bitsValue (bits.take width)) (b.advance width) ∧
      (b.advance width).Loaded width (bitsValue (bits.take width)) bits := by
  rw [← List.take_append_drop width bits] at h
  obtain ⟨hread, hends, hwithin⟩ := Bsi.endsIn_read h hin
  rw [List.length_take, Nat.min_eq_left hlong] at hread hends hwithin
  exact ⟨hread, hlong, rfl, hends, hwithin⟩

/-- Where the window holds the last bits of all, IN is consumed. -/
theorem Bsi.Loaded.consumed {b : Bsi} {width w : Nat} {bits : List Bool} (h : b.Loaded width w bits)
    (hlast : bits.length = width) : b.rcnt = BitVec.ofNat 64 b.inBits.length := by
  have hlen := Bsi.endsIn_length h.ends
  obtain ⟨_, hsmall, _⟩ := h.ends
  have hin := h.within
  rw [List.length_drop] at hlen
  refine BitVec.eq_of_toNat_eq ?_
  rw [BitVec.toNat_ofNat, Nat.mod_eq_of_lt hsmall]
  omega

/-- An open IN read from its start ends in the whole of itself. -/
theorem Bsi.endsIn_inBits {b : Bsi} {bits : List Bool} (hopen : b.inClosed = false) (hstart : b.rcnt = 0)
    (hbits : b.inBits = bits) (hlen : bits.length < 2 ^ 64) : b.endsIn bits ∧ b.rcnt.toNat ≤ b.inBits.length := by
  have hpos : b.rcnt.toNat = 0 := congrArg BitVec.toNat hstart
  subst hbits
  exact ⟨⟨hopen, hlen, by rw [hpos, List.drop_zero]⟩, by omega⟩

section
variable {byte bits : List Bool} {width : Nat} (hbyte : byte.length = 8) (hwidth : 8 ≤ width) (hlong : width ≤ bits.length)
include hbyte hwidth hlong

/-- The window in front of a byte: the byte, and the window behind it without its last byte. -/
theorem window_byte : bitsValue ((byte ++ bits).take width) =
    bitsValue byte * 2 ^ (width - 8) + bitsValue (bits.take width) / 256 := by
  have hlast : ((bits.drop (width - 8)).take 8).length = 8 := by
    rw [List.length_take, List.length_drop]
    omega
  have hsplit : bits.take width = bits.take (width - 8) ++ (bits.drop (width - 8)).take 8 := by
    rw [← List.take_add, Nat.sub_add_cancel hwidth]
  have hlt := bitsValue_lt ((bits.drop (width - 8)).take 8)
  rw [hlast] at hlt
  rw [hsplit, bitsValue_append, hlast, List.take_append, List.take_of_length_le (by omega), hbyte, bitsValue_append,
    List.length_take, Nat.min_eq_left (by omega)]
  omega

/-- Shifting a byte in: the window drops the byte in front and takes in the next one of IN (44_range_coder.md R240,
46_cm_coder.md R305). -/
theorem Bsi.Loaded.shift {b : Bsi} {w : Nat} (h : b.Loaded width w (byte ++ bits)) :
    ∃ v, v < 256 ∧ readBits 8 b = .ok v (b.advance 8) ∧ (b.advance 8).Loaded width ((w * 256 + v) % 2 ^ width) bits := by
  obtain ⟨_, hvalue, hends, hwithin⟩ := h
  obtain ⟨next, hnext⟩ : ∃ next, (bits.drop (width - 8)).take 8 = next := ⟨_, rfl⟩
  have hlen : next.length = 8 := by
    rw [← hnext, List.length_take, List.length_drop]
    omega
  have hrest : (byte ++ bits).drop width = next ++ bits.drop width := by
    have hdrop : bits.drop width = (bits.drop (width - 8)).drop 8 := by
      rw [List.drop_drop, Nat.sub_add_cancel hwidth]
    rw [List.drop_append, List.drop_of_length_le (by omega), hbyte, List.nil_append, hdrop, ← hnext,
      List.take_append_drop]
  have hwindow : bitsValue (bits.take width) = bitsValue (bits.take (width - 8)) * 256 + bitsValue next := by
    rw [← Nat.sub_add_cancel hwidth, List.take_add, Nat.add_sub_cancel, hnext, bitsValue_append, hlen]
    rfl
  have hold := window_byte hbyte hwidth hlong
  have hnew := bitsValue_lt (bits.take width)
  rw [List.length_take, Nat.min_eq_left hlong] at hnew
  have hv := bitsValue_lt next
  rw [hlen] at hv
  rw [hrest] at hends
  obtain ⟨hread, hends, hwithin⟩ := Bsi.endsIn_read hends hwithin
  rw [hlen] at hread hends hwithin
  refine ⟨bitsValue next, hv, hread, hlong, ?_, hends, hwithin⟩
  have hpow : 2 ^ width = 2 ^ (width - 8) * 256 := by rw [← Nat.pow_add 2 (width - 8) 8, Nat.sub_add_cancel hwidth]
  have hsum : w * 256 + bitsValue next = bitsValue (bits.take width) + 2 ^ width * bitsValue byte := by
    rw [hvalue, hold, hpow]
    have hdiv : bitsValue (bits.take width) / 256 = bitsValue (bits.take (width - 8)) := by omega
    rw [hdiv, hwindow]
    ring
  rw [hsum, Nat.add_mul_mod_self_left, Nat.mod_eq_of_lt hnew]

end

/-! ## Pairs of an encoder and a decoder -/

/-- What ties a decoder's side to an encoder's coder: what holds of the coder between symbols, which bits it can still
come to write, and when the decoder's side stands at the same coder with those bits before it. -/
structure Pairing (χ τ : Type) where
  inv : χ → Prop
  holds : χ → List Bool → Prop
  reads : χ → List Bool → τ → Prop

/-- The decoder undoes the encoder: where `enc` ends it has written at most `n` bits, and on those and any bits the new
coder can come to write, `dec` delivers the value and stands at the new coder (43_huffman_codec.md R218). -/
def Pairing.Undoes {χ τ α : Type} (P : Pairing χ τ) (n : Nat) (enc : χ × Bsi → Run (χ × Bsi) Unit) (dec : τ → Run τ α)
    (a : α) : Prop :=
  ∀ x b x' b', P.inv x → enc (x, b) = .ok () (x', b') → P.inv x' ∧ ∃ out, b' = b.append out ∧ out.length ≤ n ∧
    ∀ bits, P.holds x' bits → P.holds x (out ++ bits) ∧
      ∀ t, P.reads x (out ++ bits) t → ∃ t', dec t = .ok a t' ∧ P.reads x' bits t'

section
variable {χ τ α β : Type} {P : Pairing χ τ}

theorem Pairing.undoes_nothing (a : α) : P.Undoes 0 (fun t => .ok () t) (fun t => .ok a t) a := by
  intro x b x' b' hx henc
  cases henc
  exact ⟨hx, [], by simp [Bsi.append], le_refl _, fun bits h => ⟨h, fun t ht => ⟨t, rfl, ht⟩⟩⟩

/-- Two steps undone one after the other, in the order they were made. -/
theorem Pairing.Undoes.andThen {n m : Nat} {p q : χ × Bsi → Run (χ × Bsi) Unit} {dec : τ → Run τ α} {a : α}
    {f : α → τ → Run τ β} {c : β} (hp : P.Undoes n p dec a) (hq : P.Undoes m q (f a) c) :
    P.Undoes (n + m) (fun t => (p t).andThen fun _ t => q t) (fun t => (dec t).andThen f) c := by
  intro x b x' b' hx henc
  obtain ⟨_, ⟨y, b₁⟩, hfirst, hsecond⟩ := andThen_ok henc
  obtain ⟨hy, out, rfl, hlen, hundo⟩ := hp x b y b₁ hx hfirst
  obtain ⟨hx', out', rfl, hlen', hundo'⟩ := hq y _ x' b' hy hsecond
  refine ⟨hx', out ++ out', Bsi.append_append _ _ _, by rw [List.length_append]; omega, fun bits hbits => ?_⟩
  obtain ⟨hrest, hdec'⟩ := hundo' bits hbits
  obtain ⟨hall, hdec⟩ := hundo _ hrest
  rw [List.append_assoc]
  refine ⟨hall, fun t ht => ?_⟩
  obtain ⟨t₁, hd, ht₁⟩ := hdec t ht
  obtain ⟨t₂, hd', ht₂⟩ := hdec' t₁ ht₁
  exact ⟨t₂, (congrArg (Run.andThen · f) hd).trans hd', ht₂⟩

/-- A bulk decode undoes a bulk encode that coded all of its symbols (47_system_commands.md R333). -/
theorem Pairing.Undoes.loop {n : Nat} {enc : Byte → χ × Bsi → Run (χ × Bsi) Unit} {dec : τ → Run τ Byte}
    (h : ∀ v, P.Undoes n (enc v) dec v) (m : List Host.Cell) {k a c c' : Nat} {x x' : χ} {b b' : Bsi} (hx : P.inv x)
    (henc : encodeLoop enc m k a c (x, b) = (c', none, x', b')) :
    P.inv x' ∧ ∃ out, b' = b.append out ∧ out.length ≤ k * n ∧ ∀ bits, P.holds x' bits → P.holds x (out ++ bits) ∧
      ∀ t m₀, P.reads x (out ++ bits) t → ∃ t' m₁, decodeLoop dec k a (t, m₀) = .ok () (t', m₁) ∧ P.reads x' bits t' ∧
        Stored m₀ m₁ a (bufBytes m a k) := by
  induction k generalizing a c x b with
  | zero =>
    cases henc
    refine ⟨hx, [], by simp [Bsi.append], Nat.zero_le _, fun bits hbits => ⟨hbits, fun t m₀ ht => ⟨t, m₀, rfl, ht, fun y => ?_⟩⟩⟩
    exact (if_neg (by rw [bufBytes_length]; omega)).symm
  | succ k ih =>
    rw [encodeLoop] at henc
    cases hfirst : enc (memRead m a) (x, b) with
    | stop r u =>
      rw [hfirst] at henc
      cases henc
    | ok _ u =>
      rw [hfirst] at henc
      obtain ⟨y, b₁⟩ := u
      obtain ⟨hy, out, rfl, hlen, hundo⟩ := h _ x b y b₁ hx hfirst
      obtain ⟨hx', out', rfl, hlen', hundo'⟩ := ih hy henc
      refine ⟨hx', out ++ out', Bsi.append_append _ _ _, by rw [List.length_append, Nat.succ_mul]; omega, fun bits hbits => ?_⟩
      obtain ⟨hrest, hdec'⟩ := hundo' bits hbits
      obtain ⟨hall, hdec⟩ := hundo _ hrest
      rw [List.append_assoc]
      refine ⟨hall, fun t m₀ ht => ?_⟩
      obtain ⟨t₁, hd, ht₁⟩ := hdec t ht
      obtain ⟨t₂, m₁, hloop, ht₂, hstored⟩ := hdec' t₁ (memWrite m₀ a (memRead m a)) ht₁
      refine ⟨t₂, m₁, ?_, ht₂, ?_⟩
      · rw [decodeLoop, hd]
        exact hloop
      · rw [bufBytes_succ]
        exact hstored.cons

end

/-! ## A round trip -/

/-- A window that is loaded at the first symbol: a bulk decode of at least one symbol goes on as if it had been loaded before
(44_range_coder.md R239, 46_cm_coder.md R304). -/
theorem decodeLoop_primed {σ : Type} {dec : σ → Run σ Byte} {x y : σ} (h : ∀ v z, dec y = .ok v z → dec x = .ok v z) {k a : Nat}
    (hk : k ≠ 0) {m : List Host.Cell} {z : σ × List Host.Cell} (hloop : decodeLoop dec k a (y, m) = .ok () z) :
    decodeLoop dec k a (x, m) = .ok () z := by
  obtain ⟨k, rfl⟩ : ∃ j, k = j + 1 := ⟨k - 1, by omega⟩
  rw [decodeLoop] at hloop ⊢
  cases hfirst : dec y with
  | ok v u =>
    rw [hfirst] at hloop
    rw [h v u hfirst]
    exact hloop
  | stop r u =>
    rw [hfirst] at hloop
    cases hloop

/-- The round trip of a coder: a bulk encode that coded all of its symbols and a flush that the last window holds, and a bulk
decode, unprimed, on an IN that is those bits (43_huffman_codec.md R218). -/
theorem Pairing.Undoes.roundTrip {χ δ : Type} {P : Pairing χ (δ × Bsi)} {n width : Nat}
    {enc : Byte → χ × Bsi → Run (χ × Bsi) Unit} {dec : δ × Bsi → Run (δ × Bsi) Byte} (hundo : ∀ v, P.Undoes n (enc v) dec v)
    (hreads : ∀ x bits t, P.reads x bits t → ∃ w, t.2.Loaded width w bits) {x x' : χ} {b b' d : Bsi} {δ₀ : δ}
    {m m₀ : List Host.Cell} {k a c : Nat} {flush : List Bool}
    (hprime : ∀ bits, d.endsIn bits → d.rcnt.toNat ≤ d.inBits.length → width ≤ bits.length →
      ∃ y, (∀ v z, dec y = .ok v z → dec (δ₀, d) = .ok v z) ∧ P.reads x bits y)
    (hx : P.inv x) (hk : k ≠ 0) (hsize : k * n + width < 2 ^ 64)
    (henc : encodeLoop enc m k a 0 (x, b) = (c, none, x', b')) (hflush : flush.length = width)
    (hlast : P.inv x' → P.holds x' flush) (hopen : d.inClosed = false) (hstart : d.rcnt = 0)
    (hbits : d.inBits = (b'.append flush).out.drop b.out.length) :
    ∃ y m₁, decodeLoop dec k a ((δ₀, d), m₀) = .ok () (y, m₁) ∧ Stored m₀ m₁ a (bufBytes m a k) ∧
      y.2.rcnt = BitVec.ofNat 64 y.2.inBits.length := by
  obtain ⟨hx', out, rfl, hout, hback⟩ := Pairing.Undoes.loop hundo m hx henc
  obtain ⟨_, hdec⟩ := hback flush (hlast hx')
  rw [Bsi.append_append, Bsi.append_out, List.drop_left] at hbits
  obtain ⟨hends, hwithin⟩ := Bsi.endsIn_inBits hopen hstart hbits (by rw [List.length_append]; omega)
  obtain ⟨y, hfirst, hy⟩ := hprime _ hends hwithin (by rw [List.length_append]; omega)
  obtain ⟨z, m₁, hloop, hz, hstored⟩ := hdec y m₀ hy
  obtain ⟨w, hloaded⟩ := hreads _ _ z hz
  exact ⟨z, m₁, decodeLoop_primed hfirst hk hloop, hstored, hloaded.consumed hflush⟩

/-! ## The commands -/

section
variable {σ : Type} {s t : State} {u : UnitId} {part : Part σ} {o l : Word}

/-- A bulk encode that answers LENGTH coded all of its symbols (47_system_commands.md R333). -/
theorem bulkEncode_full {enc : Byte → σ → Run σ Unit} (hlive : Live s u) (hin : o.toNat + l.toNat ≤ s.cfg.bufSize)
    (hrsp : (s.bulkEncode u part enc o l).rsp = { flt := 0, r := l.setWidth 64 }) :
    ∃ y, encodeLoop enc s.buf l.toNat o.toNat 0 (part.get s) = (l.toNat, none, y) ∧
      s.bulkEncode u part enc o l = (part.put y s).answer l.toNat := by
  rcases bulkEncode_cases s u part enc o l with ⟨hdead, _⟩ | ⟨_, hout, _⟩ | ⟨_, _, n, r, y, hloop, hend⟩
  · exact absurd hlive hdead
  · omega
  · have hl := l.isLt
    obtain ⟨hall, hfewer⟩ := encodeLoop_fst enc s.buf l.toNat o.toNat 0 (part.get s)
    rw [hloop, Nat.zero_add] at hall hfewer
    rw [hend, ← BitVec.ofNat_toNat] at hrsp
    obtain rfl := endEncode_full (by omega) hfewer hrsp
    obtain rfl : n = l.toNat := hall rfl
    exact ⟨y, hloop, hend⟩

/-- A bulk decode whose loop ends answers LENGTH (47_system_commands.md R333). -/
theorem bulkDecode_ok {dec : σ → Run σ Byte} (hlive : Live s u) (hin : o.toNat + l.toNat ≤ s.cfg.bufSize) {y : σ}
    {m : List Host.Cell} (h : decodeLoop dec l.toNat o.toNat (part.get s, s.buf) = .ok () (y, m)) :
    s.bulkDecode u part dec o l = (part.put y { s with buf := m }).answer l.toNat := by
  rw [State.bulkDecode, gated_live hlive, bounded_inside hin, h]
  rfl

/-- A DISPOSE of a live unit without a fault wrote the whole flush (47_system_commands.md R334). -/
theorem disposeUnit_full {v n : Nat} (hlive : Live t u) (hrsp : (t.disposeUnit u (writeAll v n)).rsp.flt = 0) :
    (t.disposeUnit u (writeAll v n)).bsi = t.bsi.append (bitsMsb v n) := by
  obtain ⟨hdead, hdisposed⟩ := hlive
  unfold State.disposeUnit at hrsp ⊢
  rw [hdead, hdisposed, if_neg nofun] at hrsp ⊢
  dsimp only at hrsp ⊢
  rw [if_neg nofun] at hrsp ⊢
  cases hflush : writeAll v n (t.setUstat u (t.ustat u).dispose).bsi with
  | ok _ b =>
    have hb := writeAll_ok hflush
    rw [State.setUstat_bsi] at hb
    exact hb
  | stop r b =>
    rw [hflush] at hrsp
    have hone : (1 : BitVec 3) = 0 := hrsp
    exact absurd hone (by decide)

end

end Sys2Proof.Machine

/-! SUPPORT. The range coder: its table, its renormalisation, and the decoder that undoes the encoder (44_range_coder.md
R231 to R241). -/

namespace Sys2Proof.Machine

/-! ## The table -/

/-- An entry of a table with 1 added where a test says so. -/
theorem bumpWhere_getD {n : Nat} (t : Vector Word n) (p : Nat → Bool) {i : Nat} (hi : i < n) :
    ((bumpWhere t p)[i]?).getD 0 = if p i then (t[i]?).getD 0 + 1 else (t[i]?).getD 0 := by
  rw [Vector.getElem?_eq_getElem hi, Option.getD_some, bumpWhere, tabulate_getElem]

/-- A register takes one more without wrapping (10_state.md R37). -/
theorem word_succ {x : Word} (h : x.toNat < 2 ^ 32 - 1) : (x + 1).toNat = x.toNat + 1 := by
  have hone : (1 : Word).toNat = 1 := rfl
  rw [BitVec.toNat_add, hone, Nat.mod_eq_of_lt (by omega)]

section
variable {f : Aft} (hf : f.Inv)
include hf

theorem Aft.Inv.cum_mono {i j : Nat} (hij : i ≤ j) (hj : j ≤ 257) : f.cum i ≤ f.cum j := by
  obtain ⟨_, _, hrise, _⟩ := hf
  induction j with
  | zero => rw [Nat.le_zero.mp hij]
  | succ j ih =>
    rcases Nat.lt_or_ge j i with h | h
    · rw [show i = j + 1 by omega]
    · exact (ih h (by omega)).trans (hrise j (by omega)).le

/-- `AftFind` finds the slot whose interval holds the count (44_range_coder.md R233). -/
theorem Aft.Inv.find_slot {v count : Nat} (hv : v ≤ 256) (hlo : f.cum v ≤ count) (hhi : count < f.cum (v + 1)) :
    f.find count = some v := by
  rw [Aft.find, List.find?_range_eq_some]
  refine ⟨decide_eq_true ⟨hlo, hhi⟩, List.mem_range.mpr (by omega), fun j hj => ?_⟩
  have hbelow := hf.cum_mono (i := j + 1) (j := v) hj (by omega)
  rw [Bool.not_eq_true', decide_eq_false_iff_not]
  omega

/-- `AftUpdate` adds 1 to every cumulative count above the symbol (44_range_coder.md R232). -/
theorem Aft.Inv.cum_update {v i : Nat} (hi : i ≤ 257) (hroom : f.total < 2 ^ 32 - 1) :
    (f.update v).cum i = f.cum i + if v < i then 1 else 0 := by
  have htotal : f.cum i ≤ f.total := hf.cum_mono hi (le_refl _)
  unfold Aft.cum at htotal
  rw [Nat.shiftRight_eq_div_pow] at htotal
  unfold Aft.update Aft.cum
  dsimp only
  rw [bumpWhere_getD _ _ (show i >>> 4 < 17 by rw [Nat.shiftRight_eq_div_pow]; omega), bumpWhere_getD _ _ (by omega)]
  simp only [decide_eq_true_eq, Nat.shiftRight_eq_div_pow]
  rcases Nat.lt_or_ge v i with habove | hbelow
  · rw [if_pos habove]
    by_cases hgroup : (v + 1 + 15) / 2 ^ 4 ≤ i / 2 ^ 4
    · rw [if_pos hgroup, if_neg (by omega), word_succ (by omega)]
      omega
    · rw [if_neg hgroup, if_pos (by omega), word_succ (by omega)]
      omega
  · rw [if_neg (by omega), if_neg (by omega), if_neg (by omega)]
    rfl

/-- `AftUpdate` keeps the table's invariant as long as its total has room (44_range_coder.md R234). -/
theorem Aft.Inv.update {v : Nat} (hv : v < 256) (hroom : f.total < 2 ^ 32 - 1) : (f.update v).Inv := by
  have hcum {i : Nat} (hi : i ≤ 257) := hf.cum_update (v := v) hi hroom
  obtain ⟨hzero, hstarts, hrise, _⟩ := id hf
  refine ⟨?_, fun j hj => ?_, fun i hi => ?_, ?_⟩
  · have hbase : (f.update v).base[0] = ((bumpWhere f.base fun j => decide ((v + 1 + 15) >>> 4 ≤ j))[0]?).getD 0 := rfl
    rw [hbase, bumpWhere_getD _ _ (by decide), if_neg (by rw [decide_eq_true_eq, Nat.shiftRight_eq_div_pow]; omega)]
    exact hzero
  · have hdelta : (f.update v).delta = bumpWhere f.delta fun j => decide (v + 1 ≤ j ∧ j < 16 * ((v + 1 + 15) >>> 4)) := rfl
    rw [hdelta, bumpWhere_getD _ _ (by omega), if_neg (by rw [decide_eq_true_eq, Nat.shiftRight_eq_div_pow]; omega)]
    exact hstarts j hj
  · rw [hcum (by omega), hcum (by omega)]
    have := hrise i hi
    split <;> split <;> omega
  · rw [Aft.total, hcum (le_refl _), if_pos (by omega)]
    exact hroom

end

/-! ## The renormalisation -/

/-- The interval of a range coder while it is renormalised: not empty, and within [0, 2^56) (44_range_coder.md R236). -/
structure RcCoder.Interval (x : RcCoder) : Prop where
  within : x.low.toNat + x.range.toNat ≤ 2 ^ 56
  pos : 0 < x.range.toNat

/-- The interval `y` is what one pass of the renormalisation shifts a byte out of: a part of `x` with the same start, all of
it with one top byte (44_range_coder.md R236). -/
structure RcCoder.Due (x y : RcCoder) : Prop where
  low : y.low = x.low
  aft : y.aft = x.aft
  pos : 0 < y.range.toNat
  le : y.range.toNat ≤ x.range.toNat
  fits : x.low.toNat % 2 ^ 48 + y.range.toNat ≤ 2 ^ 48

section
variable {x y : RcCoder}

/-- The renormalisation ends where the top byte is not settled and the range is wide enough (44_range_coder.md R236). -/
theorem RcCoder.passStart_none (h : x.passStart = none) :
    x.low.toNat >>> 48 ≠ (x.low.toNat + x.range.toNat) >>> 48 ∧ 2 ^ 40 ≤ x.range.toNat := by
  unfold RcCoder.passStart RcCoder.settled Config.rcMinRange at h
  simp only [decide_eq_true_eq] at h
  split at h
  · cases h
  · split at h
    · cases h
    · exact ⟨‹_›, by omega⟩

/-- What one pass does before its shift: nothing, or the cut of the range to the next multiple of 2^40
(44_range_coder.md R236). -/
theorem RcCoder.passStart_some (h : x.passStart = some y) :
    (x.low.toNat / 2 ^ 48 = (x.low.toNat + x.range.toNat) / 2 ^ 48 ∧ y = x) ∨
      (x.low.toNat / 2 ^ 48 ≠ (x.low.toNat + x.range.toNat) / 2 ^ 48 ∧ x.range.toNat < 2 ^ 40 ∧ y.low = x.low ∧
        y.aft = x.aft ∧ y.range.toNat = (2 ^ 56 - x.low.toNat) % 2 ^ 40) := by
  unfold RcCoder.passStart RcCoder.settled at h
  simp only [decide_eq_true_eq, Nat.shiftRight_eq_div_pow] at h
  split at h
  · cases h
    exact .inl ⟨‹_›, rfl⟩
  · split at h
    · cases h
      refine .inr ⟨‹_›, ‹_›, rfl, rfl, ?_⟩
      rw [BitVec.toNat_ofNat, Nat.mod_eq_of_lt]
      · rfl
      · exact (Nat.mod_lt _ (by decide)).trans (by decide)
    · cases h

theorem RcCoder.Interval.due (hx : x.Interval) (h : x.passStart = some y) : x.Due y := by
  obtain ⟨hwithin, hpos⟩ := hx
  rcases RcCoder.passStart_some h with ⟨htop, rfl⟩ | ⟨htop, hsmall, hlow, haft, hcut⟩
  · exact ⟨rfl, rfl, hpos, le_refl _, by omega⟩
  · exact ⟨hlow, haft, by omega, by omega, by omega⟩

section
variable (h : x.Due y)
include h

theorem RcCoder.Due.shifted_low : y.shifted.low.toNat = x.low.toNat % 2 ^ 48 * 256 := by
  show (BitVec.ofNat 64 ((y.low.toNat <<< 8) % 2 ^ 56)).toNat = _
  rw [h.low, BitVec.toNat_ofNat, Nat.shiftLeft_eq]
  omega

theorem RcCoder.Due.shifted_range : y.shifted.range.toNat = y.range.toNat * 256 := by
  have hfits := h.fits
  show (BitVec.ofNat 64 (y.range.toNat <<< 8)).toNat = _
  rw [BitVec.toNat_ofNat, Nat.shiftLeft_eq]
  omega

theorem RcCoder.Due.shifted_interval : y.shifted.Interval := by
  obtain ⟨_, _, hpos, _, hfits⟩ := id h
  constructor
  · rw [h.shifted_low, h.shifted_range]
    omega
  · rw [h.shifted_range]
    omega

end

/-- A power of 2 that divides both ends of the interval divides them after a pass, 8 bits more of it after its shift. -/
theorem RcCoder.Interval.shifted_dvd (hx : x.Interval) (h : x.passStart = some y) {j : Nat} (hj : j ≤ 6)
    (hlow : 2 ^ (8 * j) ∣ x.low.toNat) (hrange : 2 ^ (8 * j) ∣ x.range.toNat) :
    2 ^ (8 * (j + 1)) ∣ y.shifted.low.toNat ∧ 2 ^ (8 * (j + 1)) ∣ y.shifted.range.toNat := by
  have hdue := hx.due h
  have hpow : 2 ^ (8 * (j + 1)) = 2 ^ (8 * j) * 256 := by rw [Nat.mul_succ, Nat.pow_add]
  rw [hdue.shifted_low, hdue.shifted_range, hpow]
  refine ⟨Nat.mul_dvd_mul_right ((Nat.dvd_mod_iff (Nat.pow_dvd_pow 2 (by omega))).mpr hlow) _, Nat.mul_dvd_mul_right ?_ _⟩
  rcases RcCoder.passStart_some h with ⟨_, rfl⟩ | ⟨_, hsmall, _, _, hcut⟩
  · exact hrange
  · have hlt := (Nat.le_of_dvd hx.pos hrange).trans_lt hsmall
    rw [Nat.pow_lt_pow_iff_right (by decide)] at hlt
    rw [hcut, Nat.dvd_mod_iff (Nat.pow_dvd_pow 2 hlt.le)]
    exact Nat.dvd_sub (Nat.pow_dvd_pow 2 (by omega)) hlow

end

/-- Seven passes are enough: a renormalisation ends with an interval whose top byte is not settled and whose range is wide
enough, and it leaves the table (44_range_coder.md R237). -/
theorem rcRenorm_ends {σ : Type} {shift : RcCoder → σ → Run σ Unit} {fuel j : Nat} (hj : fuel + j = 7) {x x' : RcCoder}
    {u u' : σ} (hx : x.Interval) (hlow : 2 ^ (8 * j) ∣ x.low.toNat) (hrange : 2 ^ (8 * j) ∣ x.range.toNat)
    (h : rcRenorm shift fuel (x, u) = .ok () (x', u')) :
    x'.low.toNat >>> 48 ≠ (x'.low.toNat + x'.range.toNat) >>> 48 ∧ 2 ^ 40 ≤ x'.range.toNat ∧ x'.aft = x.aft := by
  induction fuel generalizing j x u with
  | zero =>
    cases h
    obtain rfl : j = 7 := by omega
    have hwide := Nat.le_of_dvd hx.pos hrange
    have hwithin := hx.within
    refine ⟨?_, by omega, rfl⟩
    rw [Nat.shiftRight_eq_div_pow, Nat.shiftRight_eq_div_pow]
    omega
  | succ fuel ih =>
    rw [rcRenorm] at h
    cases hpass : x.passStart with
    | none =>
      simp only [hpass] at h
      cases h
      obtain ⟨htop, hwide⟩ := RcCoder.passStart_none hpass
      exact ⟨htop, hwide, rfl⟩
    | some y =>
      simp only [hpass] at h
      split at h
      · cases h
      · have hdue := hx.due hpass
        obtain ⟨hlow', hrange'⟩ := hx.shifted_dvd hpass (by omega) hlow hrange
        obtain ⟨htop, hwide, haft⟩ := ih (j := j + 1) (by omega) hdue.shifted_interval hlow' hrange' h
        exact ⟨htop, hwide, haft.trans hdue.aft⟩

/-! ## The window in the interval -/

/-- The window on the bits an encoder has still to write lies in its interval (44_range_coder.md R240). -/
def RcCoder.Holds (x : RcCoder) (bits : List Bool) : Prop :=
  56 ≤ bits.length ∧ x.low.toNat ≤ bitsValue (bits.take 56) ∧ bitsValue (bits.take 56) < x.low.toNat + x.range.toNat

/-- The window in the interval a byte is shifted out of: where it lies in the one behind the shift, it does with the byte in
front of it (44_range_coder.md R236, R238). -/
theorem RcCoder.Due.holds {x y : RcCoder} (hx : x.Interval) (h : x.Due y) {bits : List Bool} (hbits : y.shifted.Holds bits) :
    x.Holds (bitsMsb (y.low.toNat >>> 48) 8 ++ bits) := by
  obtain ⟨hlong, hlo, hhi⟩ := hbits
  have hwithin := hx.within
  have hpos := hx.pos
  have hbyte : bitsValue (bitsMsb (y.low.toNat >>> 48) 8) = x.low.toNat / 2 ^ 48 := by
    rw [bitsValue_bitsMsb, h.low, Nat.shiftRight_eq_div_pow]
    omega
  have hwindow := window_byte (byte := bitsMsb (y.low.toNat >>> 48) 8) (bits := bits) (width := 56) (bitsMsb_length _ _)
    (by decide) hlong
  rw [hbyte] at hwindow
  have hle := h.le
  rw [h.shifted_low] at hlo hhi
  rw [h.shifted_range] at hhi
  refine ⟨by rw [List.length_append]; omega, ?_, ?_⟩ <;> rw [hwindow] <;> omega

/-- The window RCD holds while the interval is renormalised. -/
def rcLoop : Pairing RcCoder (RcCoder × Quad × Bsi) where
  inv := RcCoder.Interval
  holds := RcCoder.Holds
  reads x bits t := t.1 = x ∧ t.2.2.Loaded 56 t.2.1.toNat bits

/-- RCD's shift takes in a byte for the byte RCE's put out (44_range_coder.md R240). -/
theorem rcConsume_loaded {byte bits : List Bool} (hbyte : byte.length = 8) (hlong : 56 ≤ bits.length) (x : RcCoder)
    {code : Quad} {b : Bsi} (h : b.Loaded 56 code.toNat (byte ++ bits)) :
    ∃ code' : Quad, rcConsume x (code, b) = .ok () (code', b.advance 8) ∧ (b.advance 8).Loaded 56 code'.toNat bits := by
  obtain ⟨v, hv, hread, hloaded⟩ := h.shift hbyte (by decide) hlong
  have hcode : (BitVec.ofNat 64 ((code.toNat <<< 8) % 2 ^ 56 + v)).toNat = (code.toNat * 256 + v) % 2 ^ 56 := by
    rw [BitVec.toNat_ofNat, Nat.shiftLeft_eq]
    omega
  refine ⟨_, ?_, hcode ▸ hloaded⟩
  simp only [rcConsume, hread, Config.rcBits]

/-- RCD's renormalisation follows RCE's, byte for byte (44_range_coder.md R236, R238, R240). -/
theorem rcRenorm_undoes (fuel : Nat) : rcLoop.Undoes (8 * fuel) (rcRenorm rcEmit fuel) (rcRenorm rcConsume fuel) () := by
  induction fuel with
  | zero => exact Pairing.undoes_nothing ()
  | succ fuel ih =>
    intro x b x' b' hx henc
    rw [rcRenorm] at henc
    cases hpass : x.passStart with
    | none =>
      simp only [hpass] at henc
      cases henc
      refine ⟨hx, [], by simp [Bsi.append], Nat.zero_le _, fun bits hbits => ⟨hbits, fun t ht => ⟨t, ?_, ht⟩⟩⟩
      obtain ⟨x', u⟩ := t
      obtain ⟨rfl, _⟩ := ht
      simp only [rcRenorm, hpass]
    | some y =>
      have hdue := RcCoder.Interval.due hx hpass
      simp only [hpass] at henc
      split at henc
      · cases henc
      · rename_i u b₁ hemit
        obtain rfl := writeAll_ok hemit
        obtain ⟨hx', out, rfl, hlen, hundo⟩ := ih _ _ x' b' hdue.shifted_interval henc
        refine ⟨hx', bitsMsb (y.low.toNat >>> 48) 8 ++ out, Bsi.append_append _ _ _,
          by rw [List.length_append, bitsMsb_length]; omega, fun bits hbits => ?_⟩
        obtain ⟨hrest, hdec⟩ := hundo bits hbits
        rw [List.append_assoc]
        refine ⟨hdue.holds hx hrest, fun t ht => ?_⟩
        obtain ⟨x₁, code, d⟩ := t
        obtain ⟨rfl, hloaded⟩ := ht
        obtain ⟨code', hconsume, hloaded'⟩ := rcConsume_loaded (bitsMsb_length _ _) hrest.1 y hloaded
        obtain ⟨t', hloop, ht'⟩ := hdec (y.shifted, code', d.advance 8) ⟨rfl, hloaded'⟩
        exact ⟨t', by simp only [rcRenorm, hpass, hconsume]; exact hloop, ht'⟩

/-! ## Symbols -/

theorem RcCoder.Inv.table {x : RcCoder} (hx : x.Inv) : x.aft.Inv := by
  obtain ⟨_, _, _, _, haft⟩ := hx
  exact haft

section
variable {x : RcCoder} (hx : x.Inv) {v : Nat} (hv : v ≤ 256)
include hx

/-- One count is at least one step of the interval (44_range_coder.md R235). -/
theorem RcCoder.Inv.step_pos : 0 < x.aft.total ∧ 0 < x.range.toNat / x.aft.total ∧
    x.aft.total * (x.range.toNat / x.aft.total) ≤ x.range.toNat := by
  obtain ⟨_, _, hrange, _, haft⟩ := hx
  obtain ⟨_, _, hrise, hmax⟩ := id haft
  have hpos : 0 < x.aft.total := Nat.zero_lt_of_lt (hrise 256 (by decide))
  exact ⟨hpos, Nat.div_pos (by omega) hpos, Nat.mul_div_le _ _⟩

include hv

/-- The part of the interval that a slot owns: not empty, and within the interval (44_range_coder.md R235). -/
theorem RcCoder.Inv.narrow :
    (x.narrow v).low.toNat = x.low.toNat + x.aft.cum v * (x.range.toNat / x.aft.total) ∧
      (x.narrow v).low.toNat + (x.narrow v).range.toNat =
        x.low.toNat + x.aft.cum (v + 1) * (x.range.toNat / x.aft.total) ∧
      0 < (x.narrow v).range.toNat ∧
      (x.narrow v).low.toNat + (x.narrow v).range.toNat ≤ x.low.toNat + x.range.toNat := by
  obtain ⟨_, hstep, hwhole⟩ := hx.step_pos
  obtain ⟨_, hwithin, _, _, haft⟩ := hx
  obtain ⟨_, _, hrise, _⟩ := id haft
  have hlt := hrise v (by omega)
  have htotal : x.aft.cum (v + 1) ≤ x.aft.total := haft.cum_mono (by omega) (le_refl _)
  have hslot : (x.aft.cum (v + 1) - x.aft.cum v) * (x.range.toNat / x.aft.total) =
      x.aft.cum (v + 1) * (x.range.toNat / x.aft.total) - x.aft.cum v * (x.range.toNat / x.aft.total) := Nat.sub_mul _ _ _
  have hlo := Nat.mul_lt_mul_of_pos_right hlt hstep
  have hhi := Nat.mul_le_mul_right (x.range.toNat / x.aft.total) htotal
  have hlow : (x.narrow v).low.toNat = x.low.toNat + x.aft.cum v * (x.range.toNat / x.aft.total) := by
    show (BitVec.ofNat 64 (x.low.toNat + x.aft.cum v * (x.range.toNat / x.aft.total))).toNat = _
    rw [BitVec.toNat_ofNat, Nat.mod_eq_of_lt (by omega)]
  have hrange : (x.narrow v).range.toNat = x.aft.cum (v + 1) * (x.range.toNat / x.aft.total) -
      x.aft.cum v * (x.range.toNat / x.aft.total) := by
    show (BitVec.ofNat 64 ((x.aft.cum (v + 1) - x.aft.cum v) * (x.range.toNat / x.aft.total))).toNat = _
    rw [hslot, BitVec.toNat_ofNat, Nat.mod_eq_of_lt (by omega)]
  rw [hlow, hrange]
  omega

theorem RcCoder.Inv.narrow_interval : (x.narrow v).Interval := by
  obtain ⟨_, _, hpos, hle⟩ := hx.narrow hv
  obtain ⟨_, hwithin, _⟩ := hx
  exact ⟨hle.trans hwithin, hpos⟩

/-- A window in the part of a slot is one in the interval (44_range_coder.md R235). -/
theorem RcCoder.Inv.holds_of_narrow {bits : List Bool} (hbits : (x.narrow v).Holds bits) : x.Holds bits := by
  obtain ⟨hlow, _, _, hle⟩ := hx.narrow hv
  obtain ⟨hlong, hlo, hhi⟩ := hbits
  exact ⟨hlong, by omega, by omega⟩

/-- A window in the part of a slot selects the slot (44_range_coder.md R240). -/
theorem RcCoder.Inv.slot {bits : List Bool} (hbits : (x.narrow v).Holds bits) {d : Rcd} (hd : d.coder = x)
    (hcode : d.code.toNat = bitsValue (bits.take 56)) (hsym : v ≠ 256) : d.slot = .ok v := by
  obtain ⟨hlow, hsum, _, hle⟩ := hx.narrow hv
  obtain ⟨hpos, hstep, _⟩ := hx.step_pos
  obtain ⟨_, hlo, hhi⟩ := hbits
  obtain ⟨_, hwithin, _, _, haft⟩ := hx
  have hdiff : (d.code - d.coder.low).toNat % 2 ^ 56 = bitsValue (bits.take 56) - x.low.toNat := by
    rw [hd, BitVec.toNat_sub_of_le (BitVec.le_def.mpr (by omega)), hcode, Nat.mod_eq_of_lt (by omega)]
  obtain ⟨count, hcount⟩ : ∃ count,
      (bitsValue (bits.take 56) - x.low.toNat) / (x.range.toNat / x.aft.total) = count := ⟨_, rfl⟩
  have hcumlo : x.aft.cum v ≤ count := by
    rw [← hcount, Nat.le_div_iff_mul_le hstep]
    omega
  have hcumhi : count < x.aft.cum (v + 1) := by
    rw [← hcount, Nat.div_lt_iff_lt_mul hstep]
    omega
  have htotal : x.aft.cum (v + 1) ≤ x.aft.total := haft.cum_mono (by omega) (le_refl _)
  have hfind := haft.find_slot hv hcumlo hcumhi
  unfold Rcd.slot
  simp only [Config.rcBits, hdiff]
  simp only [hd, hcount, hfind, if_neg hsym]
  exact if_neg (by omega)

end

/-- The window RCD holds between symbols, once it is primed (44_range_coder.md R239, R240). -/
def rcPairing : Pairing RcCoder RcdSide where
  inv := RcCoder.Inv
  holds := RcCoder.Holds
  reads x bits t := t.1.coder = x ∧ t.1.ustat.primed = true ∧ t.2.Loaded 56 t.1.code.toNat bits

/-- RCE that codes a symbol: the slot's part of the interval is renormalised, and the table learns (44_range_coder.md
R238). -/
theorem rcEncodeSymbol_ok {v : Byte} {x x' : RcCoder} {b b' : Bsi} (h : rcEncodeSymbol v (x, b) = .ok () (x', b')) :
    x.aft.total < 2 ^ 32 - 1 ∧ ∃ y, rcRenorm rcEmit rcPasses (x.narrow v.toNat, b) = .ok () (y, b') ∧ x' = y.learn v.toNat := by
  rw [rcEncodeSymbol] at h
  split at h
  · cases h
  · rename_i hroom
    obtain ⟨_, ⟨y, b₁⟩, hloop, hend⟩ := andThen_ok h
    cases hend
    exact ⟨Nat.lt_of_not_le hroom, y, hloop, rfl⟩

/-- RCD decodes the symbol its window selects, and renormalises and learns as RCE does (44_range_coder.md R240). -/
theorem rcDecodeSymbol_ok {d : Rcd} {b b' : Bsi} {v : Byte} {y : RcCoder} {code : Quad}
    (hroom : d.coder.aft.total < 2 ^ 32 - 1) (hprimed : d.ustat.primed = true) (hslot : d.slot = .ok v.toNat)
    (hloop : rcRenorm rcConsume rcPasses (d.coder.narrow v.toNat, d.code, b) = .ok () (y, code, b')) :
    rcDecodeSymbol (d, b) = .ok v ({ d with coder := y.learn v.toNat, code := code }, b') := by
  have hprime : rcPrime (d, b) = .ok () (d, b) := if_pos hprimed
  have hdec : rcDecodePrimed (d, b) = .ok v ({ d with coder := y.learn v.toNat, code := code }, b') := by
    simp only [rcDecodePrimed, hslot, hloop, Run.within, Run.andThen, Rcd.putBack, BitVec.ofNat_toNat, BitVec.setWidth_eq]
  refine (if_neg (Nat.not_le.mpr hroom)).trans ?_
  rw [hprime]
  exact hdec

/-- RCD undoes RCE symbol by symbol (44_range_coder.md R238, R240). -/
theorem rcEncodeSymbol_undoes (v : Byte) : rcPairing.Undoes 56 (rcEncodeSymbol v) rcDecodeSymbol v := by
  intro x b x' b' hx henc
  have hv : v.toNat ≤ 256 := v.isLt.le
  have hinterval := RcCoder.Inv.narrow_interval hx hv
  obtain ⟨hroom, y, hloop, rfl⟩ := rcEncodeSymbol_ok henc
  obtain ⟨htop, hwide, haft⟩ := rcRenorm_ends (fuel := rcPasses) (j := 0) rfl hinterval (one_dvd _) (one_dvd _) hloop
  obtain ⟨⟨hwithin, _⟩, out, rfl, hlen, hundo⟩ := rcRenorm_undoes rcPasses _ b y b' hinterval hloop
  have hlearned : (y.learn v.toNat).aft.Inv := by
    have htable : y.aft.Inv := by
      rw [haft]
      exact RcCoder.Inv.table (x := x) hx
    exact htable.update v.isLt (lt_of_eq_of_lt (congrArg Aft.total haft) hroom)
  refine ⟨⟨by show y.low.toNat < _; omega, hwithin, hwide, htop, hlearned⟩, out, rfl, hlen, fun bits hbits => ?_⟩
  obtain ⟨hpart, hdec⟩ := hundo bits hbits
  refine ⟨RcCoder.Inv.holds_of_narrow hx hv hpart, fun t ht => ?_⟩
  obtain ⟨d, b₁⟩ := t
  obtain ⟨rfl, hprimed, hloaded⟩ := ht
  obtain ⟨⟨y', code, b₂⟩, hloop', rfl, hloaded'⟩ := hdec (d.coder.narrow v.toNat, d.code, b₁) ⟨rfl, hloaded⟩
  have hslot := RcCoder.Inv.slot hx hv hpart rfl hloaded.value (Nat.ne_of_lt v.isLt)
  exact ⟨_, rcDecodeSymbol_ok hroom hprimed hslot hloop', rfl, hprimed, hloaded'⟩

/-! ## The commands -/

/-- An unprimed RCD loads its window at its first symbol (44_range_coder.md R239). -/
theorem rcDecodeSymbol_unprimed {d : Rcd} (hprimed : d.ustat.primed = false) {b : Bsi} {bits : List Bool}
    (hends : b.endsIn bits) (hin : b.rcnt.toNat ≤ b.inBits.length) (hlong : 56 ≤ bits.length) :
    ∃ t, (∀ v z, rcDecodeSymbol t = .ok v z → rcDecodeSymbol (d, b) = .ok v z) ∧ rcPairing.reads d.coder bits t := by
  obtain ⟨hread, hloaded⟩ := Bsi.loaded_of_endsIn hends hin hlong
  have hcode : (BitVec.ofNat 64 (bitsValue (bits.take 56))).toNat = bitsValue (bits.take 56) := by
    have hlt := bitsValue_lt (bits.take 56)
    rw [List.length_take, Nat.min_eq_left hlong] at hlt
    rw [BitVec.toNat_ofNat, Nat.mod_eq_of_lt (by omega)]
  let d' : Rcd := { d with code := BitVec.ofNat 64 (bitsValue (bits.take 56)), ustat := d.ustat.prime }
  have hprime : rcPrime (d, b) = .ok () (d', b.advance 56) := by
    simp only [rcPrime, hprimed, Bool.false_eq_true, if_false, Config.rcFlushBits, hread]
    rfl
  have hstays : rcPrime (d', b.advance 56) = .ok () (d', b.advance 56) := if_pos rfl
  refine ⟨(d', b.advance 56), fun v z h => ?_, rfl, rfl, by rw [hcode]; exact hloaded⟩
  rw [rcDecodeSymbol, hstays] at h
  rw [rcDecodeSymbol, hprime]
  split at h
  · cases h
  · rename_i hroom
    exact (if_neg hroom).trans h

/-- The flush is a window in the interval: its start (44_range_coder.md R241). -/
theorem RcCoder.Inv.holds_flush {x : RcCoder} (hx : x.Inv) : x.Holds (bitsMsb x.low.toNat 56) := by
  obtain ⟨hlow, _, hwide, _⟩ := hx
  have hvalue : bitsValue ((bitsMsb x.low.toNat 56).take 56) = x.low.toNat := by
    rw [List.take_of_length_le (bitsMsb_length _ _).le, bitsValue_bitsMsb, Nat.mod_eq_of_lt hlow]
  exact ⟨(bitsMsb_length _ _).ge, hvalue.ge, by omega⟩

section
variable {s t : State} {o l : Word}

/-- An RCE_ENCODE that answers LENGTH coded all of its symbols (44_range_coder.md R251). -/
theorem rceEncode_full (hlive : Live s .rce) (hin : o.toNat + l.toNat ≤ s.cfg.bufSize)
    (hexec : exec (.rceEncode o l) s = .next t) (hrsp : t.rsp = { flt := 0, r := l.setWidth 64 }) :
    ∃ x b, encodeLoop rcEncodeSymbol s.buf l.toNat o.toNat 0 (s.rce.coder, s.bsi) = (l.toNat, none, x, b) ∧
      t.rce.coder = x ∧ t.bsi = b ∧ Live t .rce := by
  obtain rfl : s.bulkEncode .rce rcePart rcEncodeSymbol o l = t := Host.Outcome.next.inj hexec
  obtain ⟨⟨x, b⟩, hloop, hend⟩ := bulkEncode_full hlive hin hrsp
  rw [hend]
  exact ⟨x, b, hloop, rfl, rfl, hlive⟩

/-- An RCE_DISPOSE of a live RCE without a fault wrote the 56 bits of `low` (44_range_coder.md R241, R252). -/
theorem rceDispose_full (hlive : Live s .rce) (hexec : exec .rceDispose s = .next t) (hrsp : t.rsp = { flt := 0, r := 0 }) :
    t.bsi = s.bsi.append (bitsMsb s.rce.coder.low.toNat 56) := by
  obtain rfl : s.disposeUnit .rce (rcFlush s.rce.coder.low) = t := Host.Outcome.next.inj hexec
  exact disposeUnit_full hlive (congrArg Response.flt hrsp)

end

end Sys2Proof.Machine

namespace Sys2Proof

open Machine

/-- Settles O51: RCD undoes RCE symbol by symbol, and the flush is a window in the last interval. -/
theorem rangeCoderRoundTrip : Obligations.RangeCoderRoundTrip := by
  intro s t t' d o l hlive hinv hl hin henc hrsp hdispose hrsp' hdlive hsame hprimed hdin hopen hstart hbits
  have hlen := l.isLt
  have hpos : l.toNat ≠ 0 := mt (toNat_eq_zero_iff l).mp hl
  obtain ⟨x, b, hloop, rfl, rfl, hlive'⟩ := rceEncode_full hlive hin henc hrsp
  rw [rceDispose_full hlive' hdispose hrsp'] at hbits
  obtain ⟨y, m, hdec, hstored, hrcnt⟩ := Pairing.Undoes.roundTrip (P := rcPairing) rcEncodeSymbol_undoes
    (fun _ _ _ ⟨_, _, hloaded⟩ => ⟨_, hloaded⟩) (δ₀ := d.rcd) (m₀ := d.buf)
    (fun bits hends hwithin hlong => hsame ▸ rcDecodeSymbol_unprimed hprimed hends hwithin hlong) hinv hpos (by omega) hloop
    (bitsMsb_length _ _) RcCoder.Inv.holds_flush hopen hstart hbits
  have hexec : exec (.rcdDecode o l) d = .next ((rcdPart.put y { d with buf := m }).answer l.toNat) :=
    congrArg _ (bulkDecode_ok (part := rcdPart) hdlive hdin hdec)
  have hsource : y.2.inBits = d.bsi.inBits := (changes_of_exec (i := .rcdDecode o l) nofun hexec).stream.inBits
  exact ⟨_, hexec, congrArg (Response.mk 0) (BitVec.ofNat_toNat 64 l), hstored, hsource ▸ hrcnt⟩

end Sys2Proof

/-! SUPPORT. The context-mixing coder: its split, its renormalisation, and the decoder that undoes the encoder, whatever the
predictor says (46_cm_coder.md R301 to R308). -/

namespace Sys2Proof.Machine

/-! ## The shift -/

/-- A byte shifted into a 32-bit register. -/
theorem word_shiftIn (w : Word) {v : Nat} (hv : v < 256) :
    (w <<< 8 ||| BitVec.ofNat 32 v).toNat = w.toNat * 256 % 2 ^ 32 + v := by
  have hshift : (w <<< 8).toNat = (w.toNat % 2 ^ 24) <<< 8 := by
    rw [BitVec.toNat_shiftLeft, Nat.shiftLeft_eq, Nat.shiftLeft_eq]
    omega
  rw [BitVec.toNat_or, BitVec.toNat_ofNat, Nat.mod_eq_of_lt (by omega), hshift,
    ← Nat.shiftLeft_add_eq_or_of_lt (show v < 2 ^ 8 from hv), Nat.shiftLeft_eq]
  omega

theorem CmCoder.shifted_low (x : CmCoder) : x.shifted.low.toNat = x.low.toNat % 2 ^ 24 * 256 := by
  show (x.low <<< 8).toNat = _
  rw [BitVec.toNat_shiftLeft, Nat.shiftLeft_eq]
  omega

theorem CmCoder.shifted_high (x : CmCoder) : x.shifted.high.toNat = x.high.toNat % 2 ^ 24 * 256 + 255 := by
  have h := word_shiftIn x.high (v := 255) (by decide)
  show (x.high <<< 8 ||| BitVec.ofNat 32 255).toNat = _
  omega

theorem CmCoder.settled_iff (x : CmCoder) : x.settled = true ↔ x.low.toNat / 2 ^ 24 = x.high.toNat / 2 ^ 24 := by
  rw [CmCoder.settled, decide_eq_true_eq, Nat.shiftRight_eq_div_pow, Nat.shiftRight_eq_div_pow]

/-- Behind a shift the interval has at least 256 points (46_cm_coder.md R303). -/
theorem CmCoder.shifted_lt {x : CmCoder} (h : x.low.toNat ≤ x.high.toNat) (hs : x.settled = true) :
    x.shifted.low.toNat < x.shifted.high.toNat := by
  rw [CmCoder.settled_iff] at hs
  rw [x.shifted_low, x.shifted_high]
  omega

/-- A renormalisation of an interval of more than one point ends with one of more than one point (46_cm_coder.md R303). -/
theorem cmRenorm_lt {σ : Type} {shift : CmCoder → σ → Run σ Unit} {fuel : Nat} {x x' : CmCoder} {u u' : σ}
    (hx : x.low.toNat < x.high.toNat) (h : cmRenorm shift fuel (x, u) = .ok () (x', u')) : x'.low.toNat < x'.high.toNat := by
  induction fuel generalizing x u with
  | zero =>
    cases h
    exact hx
  | succ fuel ih =>
    rw [cmRenorm] at h
    split at h
    · rename_i hs
      split at h
      · cases h
      · exact ih (CmCoder.shifted_lt hx.le hs) h
    · cases h
      exact hx

/-- After a narrowing, too: an interval of one point has a settled top byte (46_cm_coder.md R303, R308). -/
theorem cmRenorm_ends {σ : Type} {shift : CmCoder → σ → Run σ Unit} {x x' : CmCoder} {u u' : σ}
    (hx : x.low.toNat ≤ x.high.toNat) (h : cmRenorm shift cmShifts (x, u) = .ok () (x', u')) :
    x'.low.toNat < x'.high.toNat := by
  rw [cmShifts, cmRenorm] at h
  split at h
  · rename_i hs
    split at h
    · cases h
    · exact cmRenorm_lt (CmCoder.shifted_lt hx hs) h
  · rename_i hs
    cases h
    rw [CmCoder.settled_iff] at hs
    exact Nat.lt_of_le_of_ne hx fun heq => hs (congrArg (· / 2 ^ 24) heq)

/-! ## The window in the interval -/

/-- The window on the bits an encoder has still to write lies in its interval (46_cm_coder.md R305). -/
def CmCoder.Holds (x : CmCoder) (bits : List Bool) : Prop :=
  32 ≤ bits.length ∧ x.low.toNat ≤ bitsValue (bits.take 32) ∧ bitsValue (bits.take 32) ≤ x.high.toNat

/-- The window in an interval with a settled top byte: where it lies in the one behind the shift, it does with that byte in
front of it (46_cm_coder.md R302, R303). -/
theorem CmCoder.holds_of_shifted {x : CmCoder} (hs : x.settled = true) {bits : List Bool} (hbits : x.shifted.Holds bits) :
    x.Holds (bitsMsb (x.high.toNat >>> 24) 8 ++ bits) := by
  obtain ⟨hlong, hlo, hhi⟩ := hbits
  have hlt := x.high.isLt
  have hbyte : bitsValue (bitsMsb (x.high.toNat >>> 24) 8) = x.high.toNat / 2 ^ 24 := by
    rw [bitsValue_bitsMsb, Nat.shiftRight_eq_div_pow]
    omega
  have hwindow := window_byte (byte := bitsMsb (x.high.toNat >>> 24) 8) (bits := bits) (width := 32) (bitsMsb_length _ _)
    (by decide) hlong
  rw [hbyte] at hwindow
  rw [CmCoder.settled_iff] at hs
  rw [x.shifted_low] at hlo
  rw [x.shifted_high] at hhi
  have hlow : x.low.toNat ≤ bitsValue ((bitsMsb (x.high.toNat >>> 24) 8 ++ bits).take 32) := by
    rw [hwindow]
    omega
  have hhigh : bitsValue ((bitsMsb (x.high.toNat >>> 24) 8 ++ bits).take 32) ≤ x.high.toNat := by
    have hrest : bitsValue (bits.take 32) / 256 ≤ x.high.toNat % 2 ^ 24 := by omega
    calc _ = x.high.toNat / 2 ^ 24 * 2 ^ 24 + bitsValue (bits.take 32) / 256 := hwindow
      _ ≤ x.high.toNat / 2 ^ 24 * 2 ^ 24 + x.high.toNat % 2 ^ 24 := Nat.add_le_add_left hrest _
      _ = x.high.toNat := Nat.div_add_mod' _ _
  exact ⟨by rw [List.length_append]; omega, hlow, hhigh⟩

/-- The window CMD holds while the interval is renormalised. -/
def cmLoop : Pairing CmCoder (CmCoder × Word × Bsi) where
  inv x := x.low.toNat ≤ x.high.toNat
  holds := CmCoder.Holds
  reads x bits t := t.1 = x ∧ t.2.2.Loaded 32 t.2.1.toNat bits

/-- CMD's shift takes in a byte for the byte CME's put out (46_cm_coder.md R305). -/
theorem cmConsume_loaded {byte bits : List Bool} (hbyte : byte.length = 8) (hlong : 32 ≤ bits.length) (x : CmCoder)
    {w : Word} {b : Bsi} (h : b.Loaded 32 w.toNat (byte ++ bits)) :
    ∃ w' : Word, cmConsume x (w, b) = .ok () (w', b.advance 8) ∧ (b.advance 8).Loaded 32 w'.toNat bits := by
  obtain ⟨v, hv, hread, hloaded⟩ := h.shift hbyte (by decide) hlong
  have hw : (w <<< 8 ||| BitVec.ofNat 32 v).toNat = (w.toNat * 256 + v) % 2 ^ 32 := by
    rw [word_shiftIn w hv]
    omega
  refine ⟨_, ?_, hw ▸ hloaded⟩
  simp only [cmConsume, hread]

/-- CMD's renormalisation follows CME's, byte for byte (46_cm_coder.md R302, R303, R305). -/
theorem cmRenorm_undoes (fuel : Nat) : cmLoop.Undoes (8 * fuel) (cmRenorm cmEmit fuel) (cmRenorm cmConsume fuel) () := by
  induction fuel with
  | zero => exact Pairing.undoes_nothing ()
  | succ fuel ih =>
    intro x b x' b' hx henc
    rw [cmRenorm] at henc
    by_cases hs : x.settled = true
    · rw [if_pos hs] at henc
      split at henc
      · cases henc
      · rename_i u b₁ hemit
        obtain rfl := writeAll_ok hemit
        obtain ⟨hx', out, rfl, hlen, hundo⟩ := ih _ _ x' b' (CmCoder.shifted_lt hx hs).le henc
        refine ⟨hx', bitsMsb (x.high.toNat >>> 24) 8 ++ out, Bsi.append_append _ _ _,
          by rw [List.length_append, bitsMsb_length]; omega, fun bits hbits => ?_⟩
        obtain ⟨hrest, hdec⟩ := hundo bits hbits
        rw [List.append_assoc]
        refine ⟨CmCoder.holds_of_shifted hs hrest, fun t ht => ?_⟩
        obtain ⟨x₁, w, d⟩ := t
        obtain ⟨rfl, hloaded⟩ := ht
        obtain ⟨w', hconsume, hloaded'⟩ := cmConsume_loaded (bitsMsb_length _ _) hrest.1 x₁ hloaded
        obtain ⟨t', hloop, ht'⟩ := hdec (x₁.shifted, w', d.advance 8) ⟨rfl, hloaded'⟩
        exact ⟨t', by simp only [cmRenorm, hs, if_true, hconsume]; exact hloop, ht'⟩
    · rw [if_neg hs] at henc
      cases henc
      refine ⟨hx, [], by simp [Bsi.append], Nat.zero_le _, fun bits hbits => ⟨hbits, fun t ht => ⟨t, ?_, ht⟩⟩⟩
      obtain ⟨x', u⟩ := t
      obtain ⟨rfl, _⟩ := ht
      exact if_neg hs

/-! ## Bits -/

section
variable {x : CmCoder} (hx : x.low.toNat < x.high.toNat)
include hx

/-- The split point leaves both bits a part of the interval (46_cm_coder.md R301). -/
theorem CmCoder.split_within : x.low.toNat ≤ x.split ∧ x.split < x.high.toNat := by
  have hpred := x.p.pred.isLt
  have hle : (x.high.toNat - x.low.toNat) / 2 ^ 12 * x.p.pred.toNat ≤ (x.high.toNat - x.low.toNat) / 2 ^ 12 * 4095 :=
    Nat.mul_le_mul_left _ (by omega)
  unfold CmCoder.split
  rw [Nat.shiftRight_eq_div_pow]
  omega

variable (tbl : Vector StateEntry 256) (bit : Bool)

/-- The part of the interval a bit owns (46_cm_coder.md R302). -/
theorem CmCoder.resolve_ends :
    (x.resolve tbl bit).low.toNat = (if bit then x.low.toNat else x.split + 1) ∧
      (x.resolve tbl bit).high.toNat = (if bit then x.split else x.high.toNat) := by
  obtain ⟨_, hsplit⟩ := CmCoder.split_within hx
  have hhigh := x.high.isLt
  cases bit with
  | true => exact ⟨rfl, (BitVec.toNat_ofNat _ _).trans (Nat.mod_eq_of_lt (by omega))⟩
  | false => exact ⟨(BitVec.toNat_ofNat _ _).trans (Nat.mod_eq_of_lt (by omega)), rfl⟩

theorem CmCoder.resolve_le : (x.resolve tbl bit).low.toNat ≤ (x.resolve tbl bit).high.toNat := by
  obtain ⟨hlow, hhigh⟩ := CmCoder.resolve_ends hx tbl bit
  obtain ⟨hlo, hhi⟩ := CmCoder.split_within hx
  rw [hlow, hhigh]
  cases bit with
  | true => exact hlo
  | false => exact hhi

/-- A window in the part of a bit is one in the interval, and selects the bit (46_cm_coder.md R305). -/
theorem CmCoder.holds_of_resolve {bits : List Bool} (h : (x.resolve tbl bit).Holds bits) :
    x.Holds bits ∧ decide (bitsValue (bits.take 32) ≤ x.split) = bit := by
  obtain ⟨hlow, hhigh⟩ := CmCoder.resolve_ends hx tbl bit
  obtain ⟨hlo, hhi⟩ := CmCoder.split_within hx
  obtain ⟨hlong, hwlo, hwhi⟩ := h
  rw [hlow] at hwlo
  rw [hhigh] at hwhi
  cases bit with
  | true =>
    simp only [if_true] at hwlo hwhi
    exact ⟨⟨hlong, hwlo, by omega⟩, decide_eq_true hwhi⟩
  | false =>
    simp only [Bool.false_eq_true, if_false] at hwlo hwhi
    exact ⟨⟨hlong, by omega, hwhi⟩, decide_eq_false (by omega)⟩

end

/-- The window CMD holds between bits, once it is primed (46_cm_coder.md R304, R305). -/
def cmPairing : Pairing CmCoder CmdSide where
  inv x := x.low.toNat < x.high.toNat
  holds := CmCoder.Holds
  reads x bits t := t.1.coder = x ∧ t.1.ustat.primed = true ∧ t.2.Loaded 32 t.1.current.toNat bits

section
variable (tbl : Vector StateEntry 256)

/-- CMD undoes CME bit by bit (46_cm_coder.md R302, R305). -/
theorem cmEncodeBit_undoes (bit : Bool) : cmPairing.Undoes 32 (cmEncodeBit tbl bit) (cmDecodeBit tbl) bit := by
  intro x b x' b' hx henc
  have hle := CmCoder.resolve_le hx tbl bit
  obtain ⟨_, out, rfl, hlen, hundo⟩ := cmRenorm_undoes cmShifts _ b x' b' hle henc
  refine ⟨cmRenorm_ends hle henc, out, rfl, hlen, fun bits hbits => ?_⟩
  obtain ⟨hpart, hdec⟩ := hundo bits hbits
  obtain ⟨hall, hselected⟩ := CmCoder.holds_of_resolve hx tbl bit hpart
  refine ⟨hall, fun t ht => ?_⟩
  obtain ⟨d, b₁⟩ := t
  obtain ⟨rfl, hprimed, hloaded⟩ := ht
  have hbit : d.bit = bit := by
    have hvalue : d.current.toNat = _ := hloaded.value
    rw [Cmd.bit, hvalue]
    exact hselected
  obtain ⟨⟨y, w, b₂⟩, hloop, rfl, hloaded'⟩ := hdec (d.coder.resolve tbl bit, d.current, b₁) ⟨rfl, hloaded⟩
  refine ⟨({ d with coder := y, current := w }, b₂), ?_, rfl, hprimed, hloaded'⟩
  simp only [cmDecodeBit, hbit, hloop, Run.within, Run.andThen, Cmd.putBack]

/-- CMD undoes CME over the low bits of a symbol, the most significant first (46_cm_coder.md R306). -/
theorem cmEncodeBits_undoes (v : Byte) (k acc : Nat) :
    cmPairing.Undoes (32 * k) (cmEncodeBits tbl v k) (cmDecodeBits tbl k acc) (acc * 2 ^ k + v.toNat % 2 ^ k) := by
  induction k generalizing acc with
  | zero =>
    rw [Nat.pow_zero, Nat.mod_one, Nat.mul_one]
    exact Pairing.undoes_nothing acc
  | succ k ih =>
    have hvalue : acc * 2 ^ (k + 1) + v.toNat % 2 ^ (k + 1) = (2 * acc + (v.getLsbD k).toNat) * 2 ^ k + v.toNat % 2 ^ k := by
      have hbit : (v.getLsbD k).toNat = v.toNat / 2 ^ k % 2 := Nat.toNat_testBit _ _
      rw [hbit, Nat.mod_pow_succ, Nat.pow_succ]
      ring
    rw [hvalue, show 32 * (k + 1) = 32 + 32 * k by omega]
    exact (cmEncodeBit_undoes tbl (v.getLsbD k)).andThen (ih _)

/-- CMD undoes CME symbol by symbol (46_cm_coder.md R306). -/
theorem cmEncodeSymbol_undoes (v : Byte) :
    cmPairing.Undoes 256 (cmEncodeSymbol tbl v) (cmDecodeSymbol tbl) v := by
  intro x b x' b' hx henc
  obtain ⟨hx', out, rfl, hlen, hundo⟩ := cmEncodeBits_undoes tbl v 8 0 x b x' b' hx henc
  refine ⟨hx', out, rfl, hlen, fun bits hbits => ?_⟩
  obtain ⟨hall, hdec⟩ := hundo bits hbits
  refine ⟨hall, fun t ht => ?_⟩
  obtain ⟨t', hbits', ht'⟩ := hdec t ht
  obtain ⟨_, hprimed, _⟩ := ht
  have hprime : cmPrime t = .ok () t := if_pos hprimed
  have hv : BitVec.ofNat 8 (0 * 2 ^ 8 + v.toNat % 2 ^ 8) = v := by
    rw [Nat.zero_mul, Nat.zero_add, Nat.mod_eq_of_lt v.isLt, BitVec.ofNat_toNat, BitVec.setWidth_eq]
  refine ⟨t', ?_, ht'⟩
  simp only [cmDecodeSymbol, hprime, Run.andThen, hbits', hv]

/-! ## The commands -/

/-- An unprimed CMD loads its window at its first symbol (46_cm_coder.md R304). -/
theorem cmDecodeSymbol_unprimed {d : Cmd} (hprimed : d.ustat.primed = false) {b : Bsi} {bits : List Bool}
    (hends : b.endsIn bits) (hin : b.rcnt.toNat ≤ b.inBits.length) (hlong : 32 ≤ bits.length) :
    ∃ t, (∀ v z, cmDecodeSymbol tbl t = .ok v z → cmDecodeSymbol tbl (d, b) = .ok v z) ∧ cmPairing.reads d.coder bits t := by
  obtain ⟨hread, hloaded⟩ := Bsi.loaded_of_endsIn hends hin hlong
  have hw : (BitVec.ofNat 32 (bitsValue (bits.take 32))).toNat = bitsValue (bits.take 32) := by
    have hlt := bitsValue_lt (bits.take 32)
    rw [List.length_take, Nat.min_eq_left hlong] at hlt
    rw [BitVec.toNat_ofNat, Nat.mod_eq_of_lt hlt]
  let d' : Cmd := { d with current := BitVec.ofNat 32 (bitsValue (bits.take 32)), ustat := d.ustat.prime }
  have hprime : cmPrime (d, b) = .ok () (d', b.advance 32) := by
    simp only [cmPrime, hprimed, Bool.false_eq_true, if_false, Config.cmPrimeBits, hread]
    rfl
  have hstays : cmPrime (d', b.advance 32) = .ok () (d', b.advance 32) := if_pos rfl
  refine ⟨(d', b.advance 32), fun v z h => ?_, rfl, rfl, by rw [hw]; exact hloaded⟩
  rw [cmDecodeSymbol, hstays] at h
  rw [cmDecodeSymbol, hprime]
  exact h

end

/-- The flush is a window in the interval: its start (46_cm_coder.md R307). -/
theorem CmCoder.holds_flush {x : CmCoder} (hx : x.low.toNat < x.high.toNat) : x.Holds (bitsMsb x.low.toNat 32) := by
  have hvalue : bitsValue ((bitsMsb x.low.toNat 32).take 32) = x.low.toNat := by
    rw [List.take_of_length_le (bitsMsb_length _ _).le, bitsValue_bitsMsb, Nat.mod_eq_of_lt x.low.isLt]
  exact ⟨(bitsMsb_length _ _).ge, hvalue.ge, by omega⟩

section
variable {s t : State} {o l : Word}

/-- A CME_ENCODE that answers LENGTH coded all of its symbols (46_cm_coder.md R311). -/
theorem cmeEncode_full (hlive : Live s .cme) (hin : o.toNat + l.toNat ≤ s.cfg.bufSize)
    (hexec : exec (.cmeEncode o l) s = .next t) (hrsp : t.rsp = { flt := 0, r := l.setWidth 64 }) :
    ∃ x b, encodeLoop (cmEncodeSymbol s.cfg.stateTable) s.buf l.toNat o.toNat 0 (s.cme.coder, s.bsi) =
      (l.toNat, none, x, b) ∧ t.cme.coder = x ∧ t.bsi = b ∧ Live t .cme := by
  obtain rfl : s.bulkEncode .cme cmePart (cmEncodeSymbol s.cfg.stateTable) o l = t := Host.Outcome.next.inj hexec
  obtain ⟨⟨x, b⟩, hloop, hend⟩ := bulkEncode_full hlive hin hrsp
  rw [hend]
  exact ⟨x, b, hloop, rfl, rfl, hlive⟩

/-- A CME_DISPOSE of a live CME without a fault wrote the 32 bits of `low` (46_cm_coder.md R307, R312). -/
theorem cmeDispose_full (hlive : Live s .cme) (hexec : exec .cmeDispose s = .next t) (hrsp : t.rsp = { flt := 0, r := 0 }) :
    t.bsi = s.bsi.append (bitsMsb s.cme.coder.low.toNat 32) := by
  obtain rfl : s.disposeUnit .cme (cmFlush s.cme.coder.low) = t := Host.Outcome.next.inj hexec
  exact disposeUnit_full hlive (congrArg Response.flt hrsp)

end

end Sys2Proof.Machine

namespace Sys2Proof

open Machine

/-- Settles O52: CMD undoes CME bit by bit, and the flush is a window in the last interval. -/
theorem contextMixingRoundTrip : Obligations.ContextMixingRoundTrip := by
  rintro s t t' d o l hlive ⟨hinv, _⟩ _ hl hin henc hrsp hdispose hrsp' hdlive hsame htbl hprimed hdin hopen hstart hbits
  have hlen := l.isLt
  have hpos : l.toNat ≠ 0 := mt (toNat_eq_zero_iff l).mp hl
  obtain ⟨x, b, hloop, rfl, rfl, hlive'⟩ := cmeEncode_full hlive hin henc hrsp
  rw [cmeDispose_full hlive' hdispose hrsp'] at hbits
  rw [← htbl] at hloop
  obtain ⟨y, m, hdec, hstored, hrcnt⟩ := Pairing.Undoes.roundTrip (P := cmPairing) (cmEncodeSymbol_undoes d.cfg.stateTable)
    (fun _ _ _ ⟨_, _, hloaded⟩ => ⟨_, hloaded⟩) (δ₀ := d.cmd) (m₀ := d.buf)
    (fun bits hends hwithin hlong => hsame ▸ cmDecodeSymbol_unprimed d.cfg.stateTable hprimed hends hwithin hlong) hinv hpos
    (by omega) hloop (bitsMsb_length _ _) CmCoder.holds_flush hopen hstart hbits
  have hexec : exec (.cmdDecode o l) d = .next ((cmdPart.put y { d with buf := m }).answer l.toNat) :=
    congrArg _ (bulkDecode_ok (part := cmdPart) hdlive hdin hdec)
  have hsource : y.2.inBits = d.bsi.inBits := (changes_of_exec (i := .cmdDecode o l) nofun hexec).stream.inBits
  exact ⟨_, hexec, congrArg (Response.mk 0) (BitVec.ofNat_toNat 64 l), hstored, hsource ▸ hrcnt⟩

end Sys2Proof

/-! SUPPORT. An encoder and a decoder of the same kind go through the same renormalisations: where both run to their end from
one coder, they end with one coder, and every byte that goes out has one that comes in (44_range_coder.md R240,
46_cm_coder.md R305). Nothing here asks the coder to meet an invariant. -/

namespace Sys2Proof.Machine

/-! ## Two sides moved together -/

/-- Two procedures of the stream sides move them together: where both run to their end, they keep a relation. -/
def Together {σ τ : Type} (R : σ → τ → Prop) (p : σ → Run σ Unit) (q : τ → Run τ Unit) : Prop :=
  ∀ u w u' w', R u w → p u = .ok () u' → q w = .ok () w' → R u' w'

section
variable {σ τ : Type} {R : σ → τ → Prop}

/-- Two renormalisations of one interval end with one interval (44_range_coder.md R236). -/
theorem rcRenorm_together {p : RcCoder → σ → Run σ Unit} {q : RcCoder → τ → Run τ Unit} (hpq : ∀ x, Together R (p x) (q x))
    {fuel : Nat} {x y z : RcCoder} {u u' : σ} {w w' : τ} (hR : R u w) (hp : rcRenorm p fuel (x, u) = .ok () (y, u'))
    (hq : rcRenorm q fuel (x, w) = .ok () (z, w')) : z = y ∧ R u' w' := by
  induction fuel generalizing x u w with
  | zero =>
    cases hp
    cases hq
    exact ⟨rfl, hR⟩
  | succ fuel ih =>
    rw [rcRenorm] at hp hq
    dsimp only at hp hq
    split at hp
    · rename_i hpass
      rw [hpass] at hq
      cases hp
      cases hq
      exact ⟨rfl, hR⟩
    · rename_i x₁ hpass
      rw [hpass] at hq
      dsimp only at hq
      split at hp
      · cases hp
      · rename_i u₁ hu
        split at hq
        · cases hq
        · rename_i w₁ hw
          exact ih (hpq x₁ u w u₁ w₁ hR hu hw) hp hq

/-- Two renormalisations of one interval end with one interval (46_cm_coder.md R303). -/
theorem cmRenorm_together {p : CmCoder → σ → Run σ Unit} {q : CmCoder → τ → Run τ Unit} (hpq : ∀ x, Together R (p x) (q x))
    {fuel : Nat} {x y z : CmCoder} {u u' : σ} {w w' : τ} (hR : R u w) (hp : cmRenorm p fuel (x, u) = .ok () (y, u'))
    (hq : cmRenorm q fuel (x, w) = .ok () (z, w')) : z = y ∧ R u' w' := by
  induction fuel generalizing x u w with
  | zero =>
    cases hp
    cases hq
    exact ⟨rfl, hR⟩
  | succ fuel ih =>
    rw [cmRenorm] at hp hq
    dsimp only at hp hq
    split at hp
    · rename_i hsettled
      rw [if_pos hsettled] at hq
      split at hp
      · cases hp
      · rename_i u₁ hu
        split at hq
        · cases hq
        · rename_i w₁ hw
          exact ih (hpq x u w u₁ w₁ hR hu hw) hp hq
    · rename_i hsettled
      rw [if_neg hsettled] at hq
      cases hp
      cases hq
      exact ⟨rfl, hR⟩

end

/-! ## As many bits in as out -/

/-- From the stream `s` on, as many bits went out to reach `b` as came in to reach `d`. -/
def Bsi.SameCount (s b d : Bsi) : Prop := d.rcnt - s.rcnt = b.wcnt - s.wcnt

theorem Bsi.SameCount.refl (s : Bsi) : s.SameCount s s := by simp [Bsi.SameCount]

theorem Bsi.SameCount.move {s b d : Bsi} (h : s.SameCount b d) (l : List Bool) :
    s.SameCount (b.append l) (d.advance l.length) := by
  unfold Bsi.SameCount at *
  rw [Bsi.append_wcnt, Bsi.advance_rcnt, add_sub_right_comm, h, add_sub_right_comm]

/-- `ReadBits` of at least one bit that does not stop has moved over its bits (40_bit_stream.md R123). -/
theorem readBits_ok {n : Nat} {b b' : Bsi} {v : Nat} (hn : n ≠ 0) (h : readBits n b = .ok v b') :
    v = bitsValue (b.ahead n) ∧ b' = b.advance n := by
  by_cases hcan : b.canRead n
  · rw [readBits_canRead hn hcan] at h
    cases h
    exact ⟨rfl, rfl⟩
  · rw [readBits_end hn hcan] at h
    cases h

/-- A byte of either encoder put out and a byte of either decoder taken in. -/
theorem Bsi.SameCount.byte {s b d b' d' : Bsi} {v w : Nat} (h : s.SameCount b d) (hwrite : writeAll v 8 b = .ok () b')
    (hread : readBits 8 d = .ok w d') : s.SameCount b' d' := by
  obtain rfl := writeAll_ok hwrite
  obtain ⟨_, rfl⟩ := readBits_ok (by decide) hread
  have hmove := h.move (bitsMsb v 8)
  rwa [bitsMsb_length] at hmove

theorem rcShifts_together (s : Bsi) (x : RcCoder) : Together (fun b t => s.SameCount b t.2) (rcEmit x) (rcConsume x) := by
  intro b t b' t' hR hemit hconsume
  unfold rcConsume at hconsume
  split at hconsume
  · rename_i v d hread
    cases hconsume
    exact hR.byte hemit hread
  · cases hconsume

theorem cmShifts_together (s : Bsi) (x : CmCoder) : Together (fun b t => s.SameCount b t.2) (cmEmit x) (cmConsume x) := by
  intro b t b' t' hR hemit hconsume
  unfold cmConsume at hconsume
  split at hconsume
  · rename_i v d hread
    cases hconsume
    exact hR.byte hemit hread
  · cases hconsume

/-! ## Symbols of the range coder -/

/-- A window that selects a slot selects a data symbol (44_range_coder.md R240). -/
theorem slot_ok_lt {d : Rcd} {v : Nat} (h : d.slot = .ok v) : v < 256 := by
  unfold Rcd.slot at h
  dsimp only at h
  split at h
  · cases h
  · split at h
    · cases h
    · rename_i u hfind
      have hmem := List.mem_range.mp (List.mem_of_find?_eq_some hfind)
      split at h
      · cases h
      · cases h
        omega

/-- A primed RCD that decodes: the window selects the symbol, its slot's part of the interval is renormalised, and the table
learns (44_range_coder.md R240). -/
theorem rcDecodePrimed_inv {t t' : RcdSide} {v : Byte} (h : rcDecodePrimed t = .ok v t') :
    ∃ y code, t.1.slot = .ok v.toNat ∧
      rcRenorm rcConsume rcPasses (t.1.coder.narrow v.toNat, t.1.code, t.2) = .ok () (y, code, t'.2) ∧
      t'.1 = { t.1 with coder := y.learn v.toNat, code := code } := by
  unfold rcDecodePrimed at h
  split at h
  · cases h
  · rename_i u hslot
    have hu := slot_ok_lt hslot
    obtain ⟨_, r, hback, hend⟩ := andThen_ok h
    cases hend
    rw [BitVec.toNat_ofNat, Nat.mod_eq_of_lt hu]
    cases hloop : rcRenorm rcConsume rcPasses (t.1.coder.narrow u, t.1.code, t.2) with
    | ok _ z =>
      rw [hloop] at hback
      cases hback
      exact ⟨z.1, z.2.1, hslot, rfl, rfl⟩
    | stop _ _ =>
      rw [hloop] at hback
      cases hback

/-- A primed RCD that decodes has room in its table, and no window to load (44_range_coder.md R239, R240). -/
theorem rcDecodeSymbol_primed_ok {t t' : RcdSide} {v : Byte} (hprimed : t.1.ustat.primed = true)
    (h : rcDecodeSymbol t = .ok v t') : rcDecodePrimed t = .ok v t' := by
  have hprime : rcPrime t = .ok () t := if_pos hprimed
  unfold rcDecodeSymbol at h
  split at h
  · cases h
  · rwa [hprime] at h

/-- RCE that codes a symbol and a primed RCD that delivers it, from one coder, end with one coder (44_range_coder.md R238,
R240). -/
theorem rcSymbols_together {s b b' : Bsi} {t t' : RcdSide} {x' : RcCoder} {v : Byte} (hprimed : t.1.ustat.primed = true)
    (hR : s.SameCount b t.2) (henc : rcEncodeSymbol v (t.1.coder, b) = .ok () (x', b')) (hdec : rcDecodeSymbol t = .ok v t') :
    t'.1.coder = x' ∧ s.SameCount b' t'.2 := by
  obtain ⟨_, y, hemit, rfl⟩ := rcEncodeSymbol_ok henc
  obtain ⟨z, code, _, hconsume, hback⟩ := rcDecodePrimed_inv (rcDecodeSymbol_primed_ok hprimed hdec)
  obtain ⟨rfl, hcount⟩ := rcRenorm_together (rcShifts_together s) hR hemit hconsume
  rw [hback]
  exact ⟨rfl, hcount⟩

/-! ## Bits of the context-mixing coder -/

section
variable {tbl : Vector StateEntry 256}

/-- CMD that decodes a bit: the window selects it, and its part of the interval is renormalised (46_cm_coder.md R305). -/
theorem cmDecodeBit_ok {t t' : CmdSide} {bit : Bool} (h : cmDecodeBit tbl t = .ok bit t') :
    ∃ y code, t.1.bit = bit ∧
      cmRenorm cmConsume cmShifts (t.1.coder.resolve tbl bit, t.1.current, t.2) = .ok () (y, code, t'.2) ∧
      t'.1 = { t.1 with coder := y, current := code } := by
  obtain ⟨_, r, hback, hend⟩ := andThen_ok h
  cases hend
  cases hloop : cmRenorm cmConsume cmShifts (t.1.coder.resolve tbl t.1.bit, t.1.current, t.2) with
  | ok _ z =>
    rw [hloop] at hback
    cases hback
    exact ⟨z.1, z.2.1, rfl, rfl, rfl⟩
  | stop _ _ =>
    rw [hloop] at hback
    cases hback

/-- The number of some decoded bits starts with the bits decoded before them (46_cm_coder.md R306). -/
theorem cmDecodeBits_div {k acc n : Nat} {t t' : CmdSide} (h : cmDecodeBits tbl k acc t = .ok n t') : n / 2 ^ k = acc := by
  induction k generalizing acc t with
  | zero =>
    cases h
    exact Nat.div_one _
  | succ k ih =>
    obtain ⟨bit, t₁, _, hrest⟩ := andThen_ok h
    have hbit := Bool.toNat_le bit
    rw [Nat.pow_succ, ← Nat.div_div_eq_div_mul, ih hrest]
    omega

/-- CME that codes the low bits of a symbol and CMD that delivers them, from one coder, end with one coder
(46_cm_coder.md R302, R305, R306). -/
theorem cmBits_together {s : Bsi} {v : Byte} {k acc n : Nat} {b b' : Bsi} {t t' : CmdSide} {x' : CmCoder}
    (hR : s.SameCount b t.2) (hvalue : n % 2 ^ k = v.toNat % 2 ^ k)
    (henc : cmEncodeBits tbl v k (t.1.coder, b) = .ok () (x', b')) (hdec : cmDecodeBits tbl k acc t = .ok n t') :
    t'.1.coder = x' ∧ s.SameCount b' t'.2 := by
  induction k generalizing acc b t with
  | zero =>
    cases henc
    cases hdec
    exact ⟨rfl, hR⟩
  | succ k ih =>
    obtain ⟨_, ⟨x₁, b₁⟩, hemit, hencRest⟩ := andThen_ok henc
    obtain ⟨bit, t₁, hfirst, hdecRest⟩ := andThen_ok hdec
    have hbit : bit = v.getLsbD k := by
      have hlast : n.testBit k = bit := by
        rw [Nat.testBit_eq_decide_div_mod_eq, cmDecodeBits_div hdecRest]
        cases bit <;> simp
      have hsame : n.testBit k = v.toNat.testBit k := by
        have hcut := congrArg (Nat.testBit · k) hvalue
        simpa [Nat.testBit_mod_two_pow] using hcut
      exact hlast.symm.trans hsame
    obtain ⟨z, code, _, hconsume, hback⟩ := cmDecodeBit_ok hfirst
    rw [hbit] at hconsume
    obtain ⟨rfl, hcount⟩ := cmRenorm_together (cmShifts_together s) hR hemit hconsume
    have hcoder : t₁.1.coder = z := by rw [hback]
    rw [← hcoder] at hencRest
    refine ih hcount ?_ hencRest hdecRest
    have hlow := congrArg (· % 2 ^ k) hvalue
    simpa [Nat.mod_mod_of_dvd _ (Nat.pow_dvd_pow 2 (Nat.le_succ k))] using hlow

/-- CME that codes a symbol and a primed CMD that delivers it, from one coder, end with one coder (46_cm_coder.md R306). -/
theorem cmSymbols_together {s b b' : Bsi} {t t' : CmdSide} {x' : CmCoder} {v : Byte} (hprimed : t.1.ustat.primed = true)
    (hR : s.SameCount b t.2) (henc : cmEncodeSymbol tbl v (t.1.coder, b) = .ok () (x', b'))
    (hdec : cmDecodeSymbol tbl t = .ok v t') : t'.1.coder = x' ∧ s.SameCount b' t'.2 := by
  have hprime : cmPrime t = .ok () t := if_pos hprimed
  rw [cmDecodeSymbol, hprime] at hdec
  obtain ⟨n, t₁, hbits, hend⟩ := andThen_ok (x := cmDecodeBits tbl 8 0 t) hdec
  cases hend
  exact cmBits_together hR (by rw [BitVec.toNat_ofNat, Nat.mod_mod]) henc hbits

end

/-! ## Single-symbol commands by their response -/

/-- A procedure stops only by stops that are answered with a fault (60_exceptions.md R343, R345). -/
abbrev Stop.Faults (r : Stop) : Prop := r = .endOfStream ∨ r = .invalidStream ∨ r = .refused

section
variable {σ α : Type} {s t : State} {u : UnitId} {part : Part σ} {proc : σ → Run σ α} {done : α → State → State}

/-- A command that ends by such a stop answers a fault. -/
theorem endBy_faults {r : Stop} (h : r.Faults) : (s.endBy u r).rsp.flt ≠ 0 := by
  rw [endBy_eq]
  rcases h with rfl | rfl | rfl
  · exact (by decide : (1 : BitVec 3) ≠ 0)
  · exact (by decide : (2 : BitVec 3) ≠ 0)
  · exact (by decide : (3 : BitVec 3) ≠ 0)

/-- Whatever stop a command ends by, it does not answer 1 without a fault. -/
theorem endBy_ne_one (r : Stop) : (s.endBy u r).rsp ≠ { flt := 0, r := 1 } := by
  intro h
  cases r with
  | endOfStream => exact endBy_faults (.inl rfl) (congrArg Response.flt h)
  | invalidStream => exact endBy_faults (.inr (.inl rfl)) (congrArg Response.flt h)
  | refused => exact endBy_faults (.inr (.inr rfl)) (congrArg Response.flt h)
  | shortWrite | noCode =>
    have hzero : (0 : Quad) = 1 := congrArg Response.r h
    exact absurd hzero (by decide)

/-- A single-symbol command that does not answer a fault and does not end by a stop ran its procedure to its end
(47_system_commands.md R330). -/
theorem single_done (hflt : (s.single u part proc done).rsp.flt = 0)
    (hstop : ∀ r x, proc (part.get s) = .stop r x → (s.single u part proc done).rsp ≠ ((part.put x s).endBy u r).rsp) :
    ∃ a x, proc (part.get s) = .ok a x ∧ s.single u part proc done = done a (part.put x s) := by
  rcases single_cases s u part proc done with ⟨_, e⟩ | ⟨_, a, x, hp, e⟩ | ⟨_, r, x, hp, e⟩
  · rw [e] at hflt
    exact absurd hflt (by decide : (5 : BitVec 3) ≠ 0)
  · exact ⟨a, x, hp, e⟩
  · exact absurd (congrArg State.rsp e) (hstop r x hp)

/-- An encoder's single-symbol command that answers 1 coded the symbol (47_system_commands.md R330). -/
theorem single_coded {proc : σ → Run σ Unit} (hexec : s.single u part proc (fun _ s => s.answer 1) = t)
    (hrsp : t.rsp = { flt := 0, r := 1 }) : ∃ x, proc (part.get s) = .ok () x ∧ t = (part.put x s).answer 1 := by
  subst hexec
  obtain ⟨_, x, hp, e⟩ := single_done (congrArg Response.flt hrsp) fun r _ _ h => endBy_ne_one r (h.symm.trans hrsp)
  exact ⟨x, hp, e⟩

/-- A decoder's single-symbol command that answers a symbol delivered it (47_system_commands.md R330). -/
theorem single_delivered {proc : σ → Run σ Byte} {Q : σ → Prop} {v : Byte}
    (hexec : s.single u part proc (fun v s => s.answer v.toNat) = t) (hrsp : t.rsp = { flt := 0, r := v.setWidth 64 })
    (hproc : (proc (part.get s)).Meets Q Stop.Faults) : ∃ x, proc (part.get s) = .ok v x ∧ t = (part.put x s).answer v.toNat := by
  subst hexec
  obtain ⟨w, x, hp, e⟩ := single_done (congrArg Response.flt hrsp) fun r x hp h =>
    endBy_faults (hproc.of_stop hp).2 (congrArg Response.flt (h.symm.trans hrsp))
  have hw : BitVec.ofNat 64 w.toNat = v.setWidth 64 := by
    rw [e] at hrsp
    exact congrArg Response.r hrsp
  obtain rfl : w = v := by
    have hnat := congrArg BitVec.toNat hw
    rw [BitVec.toNat_ofNat, BitVec.toNat_setWidth] at hnat
    refine BitVec.eq_of_toNat_eq ?_
    omega
  exact ⟨x, hp, e⟩

end

end Sys2Proof.Machine

namespace Sys2Proof

open Machine

/-- Settles O43: both sides ran to their ends, and renormalised the same parts of the same intervals, byte for byte. -/
theorem arithmeticCodersStayInLockstep : Obligations.ArithmeticCodersStayInLockstep := by
  refine fun s t t' v => ⟨fun hsame hprimed hdec hv henc hone => ?_, fun hsame hprimed hdec hv henc hone => ?_⟩
  · obtain ⟨⟨x, b⟩, hcoded, rfl⟩ := single_coded (Host.Outcome.next.inj henc) hone
    obtain ⟨u, hdelivered, rfl⟩ := single_delivered (Host.Outcome.next.inj hdec) hv
      (rcDecodeSymbol_keeps (.inl rfl) (.inr (.inl rfl)) (.inr (.inr rfl)) _ _ ⟨.inl rfl, .refl _⟩)
    exact rcSymbols_together (t := (s.rcd, s.bsi)) hprimed (.refl s.bsi) (hsame ▸ hcoded) hdelivered
  · obtain ⟨⟨x, b⟩, hcoded, rfl⟩ := single_coded (Host.Outcome.next.inj henc) hone
    obtain ⟨u, hdelivered, rfl⟩ := single_delivered (Host.Outcome.next.inj hdec) hv
      (cmDecodeSymbol_keeps (.inl rfl) _ _ _ ⟨.inl rfl, .refl _⟩)
    exact cmSymbols_together (t := (s.cmd, s.bsi)) hprimed (.refl s.bsi) (hsame ▸ hcoded) hdelivered

end Sys2Proof

/-! SUPPORT. A fact of one unit's own registers while the unit is alive: the skeletons of 47_system_commands.md keep it where
the unit's procedures leave it or end by a stop that kills (60_exceptions.md R343, R344). -/

namespace Sys2Proof.Machine

/-! ## While a unit is alive -/

/-- A fact of the state that the response and the status words have no part in. -/
structure UnitFact (I : State → Prop) : Prop where
  respond : ∀ s r c, I s → I (s.respond r c)
  setUstat : ∀ s u v, I s → I (s.setUstat u v)

/-- A fact holds as long as a unit is alive (60_exceptions.md R343, R344). -/
def WhileAlive (u : UnitId) (I : State → Prop) (s : State) : Prop := (s.ustat u).dead = false → I s

/-- The stops that kill the unit (60_exceptions.md R343, R344). -/
def Stop.kills : Stop → Bool
  | .endOfStream | .invalidStream | .shortWrite => true
  | .refused | .noCode => false

/-- A procedure leaves a fact behind, unless it ends by a stop that kills. -/
def Run.Leaves {σ α : Type} (x : Run σ α) (Q : σ → Prop) : Prop :=
  match x with
  | .ok _ t => Q t
  | .stop r t => r.kills = false → Q t

/-- A symbol of a unit leaves behind a fact it finds. -/
abbrev LeavesAlive {σ α : Type} (Q : σ → Prop) (proc : σ → Run σ α) : Prop := ∀ t, Q t → (proc t).Leaves Q

theorem Run.Leaves.of_ok {σ α : Type} {x : Run σ α} {Q : σ → Prop} {a : α} {t : σ} (h : x.Leaves Q) (e : x = .ok a t) :
    Q t := by
  subst e
  exact h

theorem Run.Leaves.of_stop {σ α : Type} {x : Run σ α} {Q : σ → Prop} {r : Stop} {t : σ} (h : x.Leaves Q)
    (e : x = .stop r t) (hr : r.kills = false) : Q t := by
  subst e
  exact h hr

section
variable {σ : Type} {Q : σ → Prop}

/-- The loop of a bulk encode leaves behind what each symbol does (47_system_commands.md R333). -/
theorem encodeLoop_leaves {enc : Byte → σ → Run σ Unit} (henc : ∀ v, LeavesAlive Q (enc v)) (m : List Host.Cell)
    (k a n : Nat) (t : σ) (ht : Q t) (hr : ∀ r ∈ (encodeLoop enc m k a n t).2.1, r.kills = false) :
    Q (encodeLoop enc m k a n t).2.2 := by
  induction k generalizing a n t with
  | zero => exact ht
  | succ k ih =>
    have hfirst := henc (memRead m a) t ht
    unfold encodeLoop at hr ⊢
    split
    · rename_i u e
      rw [e] at hr
      exact ih (a + 1) (n + 1) u (hfirst.of_ok e) hr
    · rename_i r u e
      rw [e] at hr
      exact hfirst.of_stop e (hr r rfl)

/-- The loop of a bulk decode leaves behind what each symbol does (47_system_commands.md R333). -/
theorem decodeLoop_leaves {dec : σ → Run σ Byte} (hdec : LeavesAlive Q dec) (k a : Nat) :
    LeavesAlive (fun t => Q t.1) (decodeLoop dec k a) := by
  induction k generalizing a with
  | zero => exact fun _ ht => ht
  | succ k ih =>
    intro t ht
    have hfirst := hdec t.1 ht
    unfold decodeLoop
    split
    · rename_i v u e
      exact ih (a + 1) _ (hfirst.of_ok e)
    · rename_i r u e
      exact hfirst.of_stop e

end

/-! ## The skeletons -/

section
variable {u : UnitId} {I : State → Prop} (hI : UnitFact I)
include hI

theorem whileAlive_respond {s : State} (h : WhileAlive u I s) (r : Quad) (c : FaultCode) : WhileAlive u I (s.respond r c) := by
  intro hdead
  rw [State.ustat_respond] at hdead
  exact hI.respond s r c (h hdead)

/-- A status word set without reviving the unit. -/
theorem whileAlive_setUstat {s : State} {v : UStat} (h : WhileAlive u I s)
    (hv : v.dead = false → (s.ustat u).dead = false) : WhileAlive u I (s.setUstat u v) := by
  intro hdead
  rw [State.ustat_setUstat_self] at hdead
  exact hI.setUstat s u v (h (hv hdead))

omit hI in
/-- A dead unit promises nothing. -/
theorem whileAlive_die (s : State) (c : FaultCode) : WhileAlive u I (s.setUstat u ((s.ustat u).die c)) := by
  intro hdead
  rw [State.ustat_setUstat_self] at hdead
  exact absurd hdead nofun

theorem whileAlive_endBy {s : State} {r : Stop} (h : r.kills = false → I s) : WhileAlive u I (s.endBy u r) := by
  cases r with
  | endOfStream | invalidStream | shortWrite => exact whileAlive_respond hI (whileAlive_die s _) _ _
  | refused | noCode => exact whileAlive_respond hI (fun _ => h rfl) _ _

theorem whileAlive_endEncode {s : State} (n : Nat) {r : Option Stop} (h : (∀ x ∈ r, x.kills = false) → I s) :
    WhileAlive u I (s.endEncode u n r) := by
  cases r with
  | none => exact whileAlive_respond hI (fun _ => h nofun) _ _
  | some x =>
    cases x with
    | shortWrite => exact whileAlive_respond hI (whileAlive_die s _) _ _
    | endOfStream | invalidStream | refused | noCode =>
      exact whileAlive_endBy hI fun hx => h fun y hy => by
        cases hy
        exact hx

theorem whileAlive_gated {s : State} {body : State → State} (h : WhileAlive u I s)
    (hbody : I s → WhileAlive u I (body s)) : WhileAlive u I (s.gated u body) := by
  rcases gated_cases s u body with ⟨⟨halive, _⟩, e⟩ | ⟨_, e⟩
  · exact e ▸ hbody (h halive)
  · exact e ▸ whileAlive_respond hI h _ _

theorem whileAlive_bounded {s : State} {o l : Word} {body : State → State} (h : I s) (hbody : WhileAlive u I (body s)) :
    WhileAlive u I (s.bounded o l body) := by
  rcases bounded_cases s o l body with ⟨_, e⟩ | ⟨_, e⟩
  · exact e ▸ hbody
  · exact e ▸ whileAlive_respond hI (fun _ => h) _ _

section
variable {σ : Type} {part : Part σ} {Q : σ → Prop} (hget : ∀ s, I s → Q (part.get s))
  (hput : ∀ t s, Q t → I (part.put t s)) {s : State} (h : WhileAlive u I s)
include hget hput h

theorem whileAlive_single {α : Type} {proc : σ → Run σ α} (hproc : LeavesAlive Q proc) {done : α → State → State}
    (hdone : ∀ a t, ∃ r c, done a t = t.respond r c) : WhileAlive u I (s.single u part proc done) := by
  refine whileAlive_gated hI h fun hs => ?_
  have hrun := hproc _ (hget s hs)
  split
  · rename_i a t e
    obtain ⟨r, c, hr⟩ := hdone a (part.put t s)
    rw [hr]
    exact whileAlive_respond hI (fun _ => hput t s (hrun.of_ok e)) r c
  · rename_i r t e
    exact whileAlive_endBy hI fun hr => hput t s (hrun.of_stop e hr)

theorem whileAlive_bulkEncode {enc : Byte → σ → Run σ Unit} (henc : ∀ v, LeavesAlive Q (enc v)) (o l : Word) :
    WhileAlive u I (s.bulkEncode u part enc o l) :=
  whileAlive_gated hI h fun hs => whileAlive_bounded hI hs <| whileAlive_endEncode hI _ fun hr =>
    hput _ s (encodeLoop_leaves henc _ _ _ _ _ (hget s hs) hr)

theorem whileAlive_bulkDecode {dec : σ → Run σ Byte} (hdec : LeavesAlive Q dec) (o l : Word) :
    WhileAlive u I (s.bulkDecode u part dec o l) := by
  refine whileAlive_gated hI h fun hs => whileAlive_bounded hI hs ?_
  have hrun := decodeLoop_leaves hdec l.toNat o.toNat (part.get s, s.buf) (hget s hs)
  cases e : decodeLoop dec l.toNat o.toNat (part.get s, s.buf) with
  | ok _ t => exact whileAlive_respond hI (fun _ => hput t.1 _ (hrun.of_ok e)) _ _
  | stop r t => exact whileAlive_endBy hI fun hr => hput t.1 _ (hrun.of_stop e hr)

end

theorem whileAlive_dispose {s : State} (hbsi : ∀ s b, I s → I { s with bsi := b }) {flush : Bsi → Run Bsi Unit}
    (h : WhileAlive u I s) : WhileAlive u I (s.disposeUnit u flush) := by
  have hdisposed : WhileAlive u I (s.setUstat u (s.ustat u).dispose) := whileAlive_setUstat hI h id
  unfold State.disposeUnit
  dsimp only
  split
  · exact whileAlive_respond hI h _ _
  · split
    · exact whileAlive_respond hI hdisposed _ _
    · split
      · rename_i b _
        exact whileAlive_respond hI (fun hdead => hbsi _ b (hdisposed hdead)) _ _
      · exact whileAlive_respond hI (whileAlive_die _ _) _ _

theorem whileAlive_init (s : State) {install : State → State} (h : I (install s)) :
    WhileAlive u I (s.initUnit u install) :=
  whileAlive_respond hI (fun _ => hI.setUstat _ u .reset h) _ _

end

/-! ## Every step -/

/-- A fact that every command, a host write, a reset and the taking of a host action keep holds after every step. -/
theorem step_keeps_of_exec {I : State → Prop} (htake : ∀ s l, I s → I { s with pending := l })
    (hexec : ∀ i s t, I s → exec i s = .next t → I t) (hrefuse : ∀ s c, I s → I (s.refuse c))
    (hwrite : ∀ s m, I s → I { s with buf := m }) (hreset : ∀ s, I s → I s.hardReset) (s s' : State) (hs : I s)
    (h : step s = .next s') : I s' := by
  cases hp : s.pending with
  | nil =>
    rw [step_idle hp] at h
    cases h
    exact hs
  | cons a rest =>
    rw [step_of_pending hp] at h
    have hs := htake s rest hs
    cases a with
    | command w =>
      cases hw : decode w with
      | ok i => exact hexec i _ s' hs ((present_ok hw _).symm.trans h)
      | error e =>
        cases (present_error hw _).symm.trans h
        exact hrefuse _ _ hs
    | writeBuf a v =>
      by_cases ha : a < s.cfg.bufSize
      · cases (hostWrite_present (s := { s with pending := rest }) ha v).symm.trans h
        exact hwrite _ _ hs
      · cases (hostWrite_absent (s := { s with pending := rest }) (Nat.le_of_not_lt ha) v).symm.trans h
    | resetInput =>
      cases h
      exact hreset _ hs

end Sys2Proof.Machine

/-! SUPPORT. What every symbol leaves in the range coders: the interval and the table of 44_range_coder.md R234 and R237, and
RCD's window below 2^56. -/

namespace Sys2Proof.Machine

/-! ## Reset -/

/-- What reset leaves in a range coder meets its invariant (44_range_coder.md R231, R237). -/
theorem RcCoder.ResetValues.inv {x : RcCoder} (h : x.ResetValues) : x.Inv := by
  obtain ⟨hlow, hrange, hbase, hdelta⟩ := h
  have hcum {i : Nat} (hi : i ≤ 257) : x.aft.cum i = i := by
    have hgroup : i >>> 4 < 17 := by
      rw [Nat.shiftRight_eq_div_pow]
      omega
    rw [Aft.cum, Vector.getElem?_eq_getElem hgroup, Vector.getElem?_eq_getElem (show i < 258 by omega), Option.getD_some,
      Option.getD_some, hbase _ hgroup, hdelta i (by omega), Nat.shiftRight_eq_div_pow]
    omega
  have haft : x.aft.Inv := by
    refine ⟨hbase 0 (by decide), fun j hj => ?_, fun i hi => ?_, ?_⟩
    · rw [Vector.getElem?_eq_getElem (show 16 * j < 258 by omega), Option.getD_some, hdelta _ (by omega), Nat.mul_mod_right]
    · rw [hcum (by omega), hcum (by omega)]
      exact Nat.lt_succ_self i
    · rw [Aft.total, hcum (le_refl _)]
      decide
  rw [RcCoder.Inv, hlow, hrange]
  exact ⟨by decide, by decide, by decide, by decide, haft⟩

/-! ## The interval after a symbol -/

/-- A renormalisation of an interval ends with an interval, whatever its stream side is (44_range_coder.md R236). -/
theorem rcRenorm_interval {σ : Type} {shift : RcCoder → σ → Run σ Unit} {fuel : Nat} {x x' : RcCoder} {u u' : σ}
    (hx : x.Interval) (h : rcRenorm shift fuel (x, u) = .ok () (x', u')) : x'.Interval := by
  induction fuel generalizing x u with
  | zero =>
    cases h
    exact hx
  | succ fuel ih =>
    rw [rcRenorm] at h
    dsimp only at h
    split at h
    · cases h
      exact hx
    · rename_i y hpass
      split at h
      · cases h
      · exact ih (hx.due hpass).shifted_interval h

/-- Where a renormalisation ends and the table learns, the invariant holds (44_range_coder.md R234, R237). -/
theorem RcCoder.Interval.learn_inv {y : RcCoder} (hy : y.Interval)
    (htop : y.low.toNat >>> 48 ≠ (y.low.toNat + y.range.toNat) >>> 48) (hwide : 2 ^ 40 ≤ y.range.toNat) (htable : y.aft.Inv)
    (hroom : y.aft.total < 2 ^ 32 - 1) {v : Nat} (hv : v < 256) : (y.learn v).Inv := by
  obtain ⟨hwithin, _⟩ := hy
  exact ⟨by show y.low.toNat < _; omega, hwithin, hwide, htop, htable.update hv hroom⟩

/-- A symbol coded keeps the invariant, on either side (44_range_coder.md R234, R237). -/
theorem RcCoder.Inv.coded {σ : Type} {shift : RcCoder → σ → Run σ Unit} {x y : RcCoder} {u u' : σ} {v : Nat} (hx : x.Inv)
    (hv : v < 256) (hroom : x.aft.total < 2 ^ 32 - 1) (h : rcRenorm shift rcPasses (x.narrow v, u) = .ok () (y, u')) :
    (y.learn v).Inv := by
  have hinterval := hx.narrow_interval hv.le
  obtain ⟨htop, hwide, haft⟩ := rcRenorm_ends (fuel := rcPasses) (j := 0) rfl hinterval (one_dvd _) (one_dvd _) h
  have hsame : y.aft = x.aft := haft
  exact (rcRenorm_interval hinterval h).learn_inv htop hwide (hsame ▸ hx.table) (hsame ▸ hroom) hv

/-! ## The procedures -/

/-- RCE's interval and table between symbols (44_range_coder.md R237). -/
theorem rcEncodeSymbol_leaves (v : Byte) : LeavesAlive (fun t => t.1.Inv) (rcEncodeSymbol v) := by
  intro t ht
  cases h : rcEncodeSymbol v t with
  | ok _ t' =>
    obtain ⟨hroom, y, hloop, hlearned⟩ := rcEncodeSymbol_ok h
    show t'.1.Inv
    rw [hlearned]
    exact RcCoder.Inv.coded ht v.isLt hroom hloop
  | stop r t' =>
    intro hr
    rw [rcEncodeSymbol] at h
    split at h
    · cases h
      exact ht
    · have hshort := rcRenorm_keeps (rcEmit_keeps (E := (Stop.kills · = true)) rfl t.2) rcPasses
        (t.1.narrow v.toNat, t.2) (.refl _)
      rcases andThen_stop h with hstop | ⟨_, _, _, hend⟩
      · rw [(hshort.of_stop hstop).2] at hr
        cases hr
      · cases hend

/-- RCD's interval, table and window between symbols (44_range_coder.md R237, R240). -/
def Rcd.Inv (d : Rcd) : Prop := d.coder.Inv ∧ d.code.toNat < 2 ^ 56

@[simp] theorem Bsi.ahead_length (b : Bsi) (n : Nat) : (b.ahead n).length = n := by simp [Bsi.ahead]

/-- The number of the next bits of IN has no more bits than that. -/
theorem bitsValue_ahead_lt (b : Bsi) (n : Nat) : bitsValue (b.ahead n) < 2 ^ n := by
  have hlt := bitsValue_lt (b.ahead n)
  rwa [Bsi.ahead_length] at hlt

/-- A shift keeps the window below 2^56, and stops only by EndOfStream (44_range_coder.md R240). -/
theorem rcConsume_window (x : RcCoder) : Keeps (fun t => t.1.toNat < 2 ^ 56) (· = .endOfStream) (rcConsume x) := by
  intro t ht
  by_cases hcan : t.2.canRead 8
  · have hbyte := bitsValue_ahead_lt t.2 8
    rw [rcConsume, readBits_canRead (by decide) hcan]
    refine meets_ok ?_
    show (BitVec.ofNat 64 ((t.1.toNat <<< 8) % 2 ^ 56 + bitsValue (t.2.ahead 8))).toNat < _
    rw [BitVec.toNat_ofNat, Nat.shiftLeft_eq]
    omega
  · rw [rcConsume, readBits_end (by decide) hcan]
    exact meets_stop ht rfl

/-- A loaded window is below 2^56, and a load that stops kills (44_range_coder.md R239). -/
theorem rcPrime_leaves : LeavesAlive (fun t => t.1.Inv) rcPrime := by
  intro t ht
  obtain ⟨hcoder, _⟩ := id ht
  unfold rcPrime
  split
  · exact ht
  · by_cases hcan : t.2.canRead 56
    · have hwindow := bitsValue_ahead_lt t.2 56
      rw [Config.rcFlushBits, readBits_canRead (by decide) hcan]
      refine ⟨hcoder, ?_⟩
      show (BitVec.ofNat 64 (bitsValue (t.2.ahead 56))).toNat < _
      rw [BitVec.toNat_ofNat]
      omega
    · rw [Config.rcFlushBits, readBits_end (by decide) hcan]
      exact nofun

/-- Loading the window leaves the interval and the table (44_range_coder.md R239). -/
theorem rcPrime_coder {t t' : RcdSide} (h : rcPrime t = .ok () t') : t'.1.coder = t.1.coder := by
  unfold rcPrime at h
  split at h
  · cases h
    rfl
  · split at h <;> cases h
    rfl

/-- A primed RCD that does not decode dies (44_range_coder.md R240). -/
theorem rcDecodePrimed_stop {t t' : RcdSide} {r : Stop} (h : rcDecodePrimed t = .stop r t') : r.kills = true := by
  unfold rcDecodePrimed at h
  split at h
  · rename_i e hslot
    cases h
    rcases slot_error hslot with rfl | rfl
    · rfl
    · rfl
  · rename_i v _
    have hloop := rcRenorm_keeps (rcConsume_keeps (E := (Stop.kills · = true)) rfl t.2) rcPasses
      (t.1.coder.narrow v, t.1.code, t.2) (.refl _)
    have hback := hloop.within (Q' := fun _ => True) (f := t.1.putBack) fun _ _ => trivial
    rcases andThen_stop h with hstop | ⟨_, _, _, hend⟩
    · exact (hback.of_stop hstop).2
    · cases hend

theorem rcDecodePrimed_leaves {t : RcdSide} (ht : t.1.Inv) (hroom : t.1.coder.aft.total < 2 ^ 32 - 1) :
    (rcDecodePrimed t).Leaves fun t => t.1.Inv := by
  cases h : rcDecodePrimed t with
  | ok v t' =>
    obtain ⟨hcoder, hcode⟩ := ht
    obtain ⟨y, code, _, hloop, hback⟩ := rcDecodePrimed_inv h
    have hwindow := (rcRenorm_keeps rcConsume_window rcPasses (t.1.coder.narrow v.toNat, t.1.code, t.2) hcode).of_ok hloop
    show t'.1.Inv
    rw [hback]
    exact ⟨hcoder.coded v.isLt hroom hloop, hwindow⟩
  | stop r t' =>
    intro hr
    rw [rcDecodePrimed_stop h] at hr
    cases hr

theorem rcDecodeSymbol_leaves : LeavesAlive (fun t => t.1.Inv) rcDecodeSymbol := by
  intro t ht
  unfold rcDecodeSymbol
  split
  · exact fun _ => ht
  · rename_i hroom
    have hprime := rcPrime_leaves t ht
    cases h : rcPrime t with
    | ok _ t₁ =>
      have hcoder : t₁.1.coder = t.1.coder := rcPrime_coder h
      exact rcDecodePrimed_leaves (hprime.of_ok h) (hcoder ▸ Nat.lt_of_not_le hroom)
    | stop r t₁ => exact hprime.of_stop h

/-! ## The commands -/

/-- RCE's interval and table are as 44_range_coder.md R234 and R237 say. -/
def RceHolds (s : State) : Prop := s.rce.coder.Inv

/-- RCD's interval, table and window are as 44_range_coder.md R234, R237 and R240 say. -/
def RcdHolds (s : State) : Prop := s.rcd.Inv

theorem rcInv_iff (s : State) : RcInv s ↔ WhileAlive .rce RceHolds s ∧ WhileAlive .rcd RcdHolds s := Iff.rfl

theorem rceHolds_fact : UnitFact RceHolds where
  respond _ _ _ h := h
  setUstat _ u _ h := by cases u <;> exact h

theorem rcdHolds_fact : UnitFact RcdHolds where
  respond _ _ _ h := h
  setUstat _ u _ h := by cases u <;> exact h

/-- The commands of RCE (44_range_coder.md R250 to R255). -/
theorem exec_keeps_rce {i : Instr} (hi : i.unit? = some .rce) {s t : State} (h : WhileAlive .rce RceHolds s)
    (hexec : exec i s = .next t) : WhileAlive .rce RceHolds t := by
  cases i with
  | rceEncbyte v =>
    cases hexec
    exact whileAlive_single rceHolds_fact (fun _ hs => hs) (fun _ _ ht => ht) h (rcEncodeSymbol_leaves v)
      fun _ _ => ⟨_, _, rfl⟩
  | rceEncode o l =>
    cases hexec
    exact whileAlive_bulkEncode rceHolds_fact (fun _ hs => hs) (fun _ _ ht => ht) h rcEncodeSymbol_leaves o l
  | rceDispose =>
    cases hexec
    exact whileAlive_dispose rceHolds_fact (fun _ _ hs => hs) h
  | rceInit =>
    cases hexec
    exact whileAlive_init rceHolds_fact s resetValues_rcCoder.inv
  | rceStatus | rceGetbs =>
    cases hexec
    exact whileAlive_respond rceHolds_fact h _ _
  | _ => cases hi

/-- The commands of RCD (44_range_coder.md R256 to R261). -/
theorem exec_keeps_rcd {i : Instr} (hi : i.unit? = some .rcd) {s t : State} (h : WhileAlive .rcd RcdHolds s)
    (hexec : exec i s = .next t) : WhileAlive .rcd RcdHolds t := by
  cases i with
  | rcdDecbyte =>
    cases hexec
    exact whileAlive_single rcdHolds_fact (fun _ hs => hs) (fun _ _ ht => ht) h rcDecodeSymbol_leaves
      fun _ _ => ⟨_, _, rfl⟩
  | rcdDecode o l =>
    cases hexec
    exact whileAlive_bulkDecode rcdHolds_fact (fun _ hs => hs) (fun _ _ ht => ht) h rcDecodeSymbol_leaves o l
  | rcdDispose =>
    cases hexec
    exact whileAlive_dispose rcdHolds_fact (fun _ _ hs => hs) h
  | rcdInit =>
    cases hexec
    exact whileAlive_init rcdHolds_fact s ⟨resetValues_rcCoder.inv, Nat.two_pow_pos _⟩
  | rcdStatus | rcdGetbs =>
    cases hexec
    exact whileAlive_respond rcdHolds_fact h _ _
  | _ => cases hi

/-- Reset gives both range coders their reset values (70_reset_and_hazards.md R371). -/
theorem rcInv_hardReset (s : State) : RcInv s.hardReset :=
  ⟨fun _ => resetValues_rcCoder.inv, fun _ => ⟨resetValues_rcCoder.inv, Nat.two_pow_pos _⟩⟩

/-- A command keeps the fact of its own unit, and leaves the registers of every other (10_state.md R20). -/
theorem exec_rcInv (i : Instr) (s t : State) (hs : RcInv s) (hexec : exec i s = .next t) : RcInv t := by
  by_cases hi : i = .sysReset
  · subst hi
    cases hexec
    exact rcInv_hardReset s
  · have hchanges := changes_of_exec hi hexec
    obtain ⟨hrce, hrcd⟩ := (rcInv_iff s).mp hs
    refine (rcInv_iff t).mpr ⟨?_, ?_⟩
    · by_cases hunit : i.unit? = some .rce
      · exact exec_keeps_rce hunit hrce hexec
      · have hsame : t.rce = s.rce := hchanges.units .rce hunit
        rwa [WhileAlive, State.ustat, RceHolds, hsame]
    · by_cases hunit : i.unit? = some .rcd
      · exact exec_keeps_rcd hunit hrcd hexec
      · have hsame : t.rcd = s.rcd := hchanges.units .rcd hunit
        rwa [WhileAlive, State.ustat, RcdHolds, hsame]

end Sys2Proof.Machine

namespace Sys2Proof

open Machine

/-- Settles O58: only a coder's own commands move it; each of its symbols leaves the invariant behind or kills the unit. -/
theorem stepKeepsTheRangeCoderInvariant : Obligations.StepKeepsTheRangeCoderInvariant :=
  step_keeps_of_exec (fun _ _ hs => hs) exec_rcInv (fun _ _ hs => hs) (fun _ _ hs => hs) fun s _ => rcInv_hardReset s

end Sys2Proof

/-! SUPPORT. The frequency table as a search, and the commands of both range coders by what their procedures do: refused at
the counter limit, primed at the first symbol, and ended by the window (44_range_coder.md R231 to R234, R238 to R240). -/

namespace Sys2Proof.Machine

/-! ## The search -/

/-- The lowest cumulative count is 0 (44_range_coder.md R234). -/
theorem Aft.Inv.cum_zero {f : Aft} (hf : f.Inv) : f.cum 0 = 0 := by
  obtain ⟨hbase, hdelta, _⟩ := hf
  have hfirst : f.cum 0 = (f.base[0]).toNat + ((f.delta[16 * 0]?).getD 0).toNat := rfl
  rw [hfirst, hbase, hdelta 0 (by decide)]

/-- Every count below a cumulative count lies in a slot below it (44_range_coder.md R233). -/
theorem Aft.Inv.exists_slot {f : Aft} (hf : f.Inv) {n count : Nat} (h : count < f.cum n) :
    ∃ v, v < n ∧ f.cum v ≤ count ∧ count < f.cum (v + 1) := by
  induction n with
  | zero =>
    rw [hf.cum_zero] at h
    exact absurd h (Nat.not_lt_zero _)
  | succ n ih =>
    rcases Nat.lt_or_ge count (f.cum n) with hbelow | habove
    · obtain ⟨v, hv, hslot⟩ := ih hbelow
      exact ⟨v, by omega, hslot⟩
    · exact ⟨n, Nat.lt_succ_self n, habove, h⟩

/-- No update changes the last two deltas: their group starts above every data symbol (44_range_coder.md R232). -/
theorem Aft.update_delta {v i : Nat} (hv : v < 256) (hlo : 256 ≤ i) (hi : i < 258) (f : Aft) :
    (f.update v).delta[i] = f.delta[i] := by
  have hout : ¬ (v + 1 ≤ i ∧ i < 16 * ((v + 1 + 15) >>> 4)) := by
    rw [Nat.shiftRight_eq_div_pow]
    omega
  simp only [Aft.update, bumpWhere, tabulate_getElem, Vector.getElem?_eq_getElem hi, Option.getD_some, decide_eq_true_eq,
    if_neg hout]

/-! ## The slot of a window -/

/-- The position of the window in steps of one count is what the decoder divides out (44_range_coder.md R240). -/
theorem Rcd.count_eq (d : Rcd) : ((d.code - d.coder.low).toNat % 2 ^ 56) / (d.coder.range.toNat / d.coder.aft.total) = d.count := by
  have hcode := d.code.isLt
  have hlow := d.coder.low.isLt
  rw [Rcd.count, BitVec.toNat_sub]
  refine congrArg (· / _) ?_
  omega

section
variable {d : Rcd}

/-- A window in the unassigned tail is InvalidStream (44_range_coder.md R240). -/
theorem slot_tail (h : d.coder.aft.total ≤ d.count) : d.slot = .error .invalidStream := by
  unfold Rcd.slot
  simp only [Config.rcBits, Rcd.count_eq]
  exact if_pos h

/-- A window in a slot selects it, and in the sentinel's raises EndOfStream (44_range_coder.md R240). -/
theorem slot_of_count (haft : d.coder.aft.Inv) {v : Nat} (hv : v ≤ 256) (hlo : d.coder.aft.cum v ≤ d.count)
    (hhi : d.count < d.coder.aft.cum (v + 1)) : d.slot = if v = 256 then .error .endOfStream else .ok v := by
  have htotal : d.coder.aft.cum (v + 1) ≤ d.coder.aft.total := haft.cum_mono (by omega) (le_refl _)
  unfold Rcd.slot
  simp only [Config.rcBits, Rcd.count_eq, haft.find_slot hv hlo hhi]
  exact if_neg (by omega)

end

/-! ## Refusals by a procedure -/

section
variable {s : State} {u : UnitId} {o l : Word} {σ : Type} {part : Part σ} (hlive : Live s u)
  (hput : part.put (part.get s) s = s)
include hlive hput

/-- A single-symbol command whose procedure refuses changes nothing (60_exceptions.md R345). -/
theorem single_refused {α : Type} {proc : σ → Run σ α} (done : α → State → State)
    (h : proc (part.get s) = .stop .refused (part.get s)) : s.single u part proc done = failed s 3 := by
  rw [single_stop hlive done h, hput, endBy_eq]

/-- A bulk encode whose first symbol is refused changes nothing (44_range_coder.md R251). -/
theorem bulkEncode_refused {enc : Byte → σ → Run σ Unit} (hl : l ≠ 0)
    (h : ∀ v, enc v (part.get s) = .stop .refused (part.get s)) : s.bulkEncode u part enc o l = failed s 3 := by
  obtain ⟨k, hk⟩ := Nat.exists_eq_succ_of_ne_zero (mt (toNat_eq_zero_iff l).mp hl)
  have hloop : encodeLoop enc s.buf l.toNat o.toNat 0 (part.get s) = (0, some .refused, part.get s) := by
    rw [hk, encodeLoop, h]
  rcases bulkEncode_cases s u part enc o l with ⟨hdead, _⟩ | ⟨_, _, e⟩ | ⟨_, _, n, r, t, he, e⟩
  · exact absurd hlive hdead
  · exact e.trans (failed_eq s .invalidArgument (by decide)).symm
  · cases hloop.symm.trans he
    rw [e, hput]
    exact endBy_eq s u .refused

/-- A bulk decode whose first symbol is refused changes nothing (44_range_coder.md R257). -/
theorem bulkDecode_refused {dec : σ → Run σ Byte} (hl : l ≠ 0) (h : dec (part.get s) = .stop .refused (part.get s)) :
    s.bulkDecode u part dec o l = failed s 3 := by
  obtain ⟨k, hk⟩ := Nat.exists_eq_succ_of_ne_zero (mt (toNat_eq_zero_iff l).mp hl)
  have hloop : decodeLoop dec l.toNat o.toNat (part.get s, s.buf) = .stop .refused (part.get s, s.buf) := by
    rw [hk, decodeLoop, h]
  rcases bulkDecode_cases s u part dec o l with ⟨hdead, _⟩ | ⟨_, _, e⟩ | ⟨_, _, e⟩
  · exact absurd hlive hdead
  · exact e.trans (failed_eq s .invalidArgument (by decide)).symm
  · rw [e, hloop]
    show (part.put (part.get s) s).endBy u .refused = _
    rw [hput]
    exact endBy_eq s u .refused

end

section
variable {s : State} {o l : Word}

/-- RCE's coding commands at the counter limit (44_range_coder.md R238, R250, R251). -/
theorem exec_rce_full (hlive : Live s .rce) (hfull : 2 ^ 32 - 1 ≤ s.rce.coder.aft.total) (v : Byte) :
    exec (.rceEncbyte v) s = .next (failed s 3) ∧ (l ≠ 0 → exec (.rceEncode o l) s = .next (failed s 3)) := by
  have hrefused (v : Byte) : rcEncodeSymbol v (rcePart.get s) = .stop .refused (rcePart.get s) := if_pos hfull
  exact ⟨congrArg _ (single_refused hlive rfl _ (hrefused v)), fun hl => congrArg _ (bulkEncode_refused hlive rfl hl hrefused)⟩

/-- RCD's coding commands at the counter limit (44_range_coder.md R240, R256, R257). -/
theorem exec_rcd_full (hlive : Live s .rcd) (hfull : 2 ^ 32 - 1 ≤ s.rcd.coder.aft.total) :
    exec .rcdDecbyte s = .next (failed s 3) ∧ (l ≠ 0 → exec (.rcdDecode o l) s = .next (failed s 3)) := by
  have hrefused : rcDecodeSymbol (rcdPart.get s) = .stop .refused (rcdPart.get s) := if_pos hfull
  exact ⟨congrArg _ (single_refused hlive rfl _ hrefused), fun hl => congrArg _ (bulkDecode_refused hlive rfl hl hrefused)⟩

end

/-! ## Priming -/

/-- Two single-symbol commands whose procedures and parts agree do the same (47_system_commands.md R330). -/
theorem single_congr {σ α : Type} {s s' : State} {u : UnitId} {part : Part σ} {proc : σ → Run σ α}
    {done : α → State → State} (hlive : Live s u) (hlive' : Live s' u) (hproc : proc (part.get s) = proc (part.get s'))
    (hput : ∀ t, part.put t s = part.put t s') : s.single u part proc done = s'.single u part proc done := by
  rw [State.single, gated_live hlive, State.single, gated_live hlive', hproc]
  simp only [hput]

/-- RCD below the counter limit: the window is loaded where it is not, and then decoded (44_range_coder.md R240). -/
theorem rcDecodeSymbol_below {t : RcdSide} (hroom : t.1.coder.aft.total < 2 ^ 32 - 1) :
    rcDecodeSymbol t = (rcPrime t).andThen fun _ t => rcDecodePrimed t := if_neg (Nat.not_le.mpr hroom)

/-- RCD below the counter limit with its window loaded (44_range_coder.md R240). -/
theorem rcDecodeSymbol_loaded {t : RcdSide} (hroom : t.1.coder.aft.total < 2 ^ 32 - 1) (hprimed : t.1.ustat.primed = true) :
    rcDecodeSymbol t = rcDecodePrimed t := by
  have hprime : rcPrime t = .ok () t := if_pos hprimed
  rw [rcDecodeSymbol_below hroom, hprime]
  rfl

/-- A load that finds its bits fills the window and sets PRIMED; decoding goes on from there (44_range_coder.md R239). -/
theorem rcDecodeSymbol_load {d : Rcd} {b : Bsi} (hroom : d.coder.aft.total < 2 ^ 32 - 1) (hprimed : d.ustat.primed = false)
    (hcan : b.canRead 56) : rcDecodeSymbol (d, b) = rcDecodeSymbol
      ({ d with code := BitVec.ofNat 64 (bitsValue (b.ahead 56)), ustat := d.ustat.prime }, b.advance 56) := by
  have hloaded := rcDecodeSymbol_loaded
    (t := ({ d with code := BitVec.ofNat 64 (bitsValue (b.ahead 56)), ustat := d.ustat.prime }, b.advance 56)) hroom rfl
  rw [hloaded, rcDecodeSymbol_below (t := (d, b)) hroom]
  simp only [rcPrime, hprimed, Bool.false_eq_true, if_false, Config.rcFlushBits, readBits_canRead (by decide) hcan, Run.andThen]

/-- A load that does not find its bits consumes none (44_range_coder.md R239). -/
theorem rcDecodeSymbol_cannotLoad {d : Rcd} {b : Bsi} (hroom : d.coder.aft.total < 2 ^ 32 - 1)
    (hprimed : d.ustat.primed = false) (hend : ¬ b.canRead 56) : rcDecodeSymbol (d, b) = .stop .endOfStream (d, b) := by
  rw [rcDecodeSymbol_below (t := (d, b)) hroom]
  simp only [rcPrime, hprimed, Bool.false_eq_true, if_false, Config.rcFlushBits, readBits_end (by decide) hend, Run.andThen]

/-- A load that finds its bits fills the window and sets PRIMED; decoding goes on from there (46_cm_coder.md R304). -/
theorem cmDecodeSymbol_load (tbl : Vector StateEntry 256) {d : Cmd} {b : Bsi} (hprimed : d.ustat.primed = false)
    (hcan : b.canRead 32) : cmDecodeSymbol tbl (d, b) = cmDecodeSymbol tbl
      ({ d with current := BitVec.ofNat 32 (bitsValue (b.ahead 32)), ustat := d.ustat.prime }, b.advance 32) := by
  have hload : cmPrime (d, b) = cmPrime
      ({ d with current := BitVec.ofNat 32 (bitsValue (b.ahead 32)), ustat := d.ustat.prime }, b.advance 32) := by
    simp only [cmPrime, hprimed, Bool.false_eq_true, if_false, Config.cmPrimeBits, readBits_canRead (by decide) hcan,
      UStat.prime_primed, if_true]
  rw [cmDecodeSymbol, cmDecodeSymbol, hload]

/-- A load that does not find its bits consumes none (46_cm_coder.md R304). -/
theorem cmDecodeSymbol_cannotLoad (tbl : Vector StateEntry 256) {d : Cmd} {b : Bsi} (hprimed : d.ustat.primed = false)
    (hend : ¬ b.canRead 32) : cmDecodeSymbol tbl (d, b) = .stop .endOfStream (d, b) := by
  simp only [cmDecodeSymbol, cmPrime, hprimed, Bool.false_eq_true, if_false, Config.cmPrimeBits,
    readBits_end (by decide) hend, Run.andThen]

end Sys2Proof.Machine

namespace Sys2Proof

open Machine

/-- Settles O38: the search finds the first slot whose end lies above the count, and the slots do not overlap. -/
theorem frequencyTableCountsAndFinds : Obligations.FrequencyTableCountsAndFinds := by
  refine ⟨fun f v hf hv hroom => ?_, fun f count hf hcount => ?_⟩
  · exact ⟨hf.update hv hroom, fun i hi => hf.cum_update hi hroom, Aft.update_delta hv (by decide) (by decide) f,
      Aft.update_delta hv (by decide) (by decide) f⟩
  · obtain ⟨v, hv, hlo, hhi⟩ := hf.exists_slot hcount
    have hfind := hf.find_slot (Nat.le_of_lt_succ hv) hlo hhi
    refine ⟨v, Nat.le_of_lt_succ hv, hfind, hlo, hhi, fun u hu hulo huhi => ?_⟩
    exact Option.some.inj ((hf.find_slot hu hulo huhi).symm.trans hfind)

/-- Settles O42: the primed decoder is where the load leaves the unprimed one, and a load that fails kills the unit. -/
theorem decodersPrimeAtTheFirstDecode : Obligations.DecodersPrimeAtTheFirstDecode := by
  refine fun s => ⟨fun hlive hprimed hroom => ⟨fun hcan => ?_, fun hend => ?_⟩,
    fun hlive hprimed => ⟨fun hcan => ?_, fun hend => ?_⟩⟩
  · exact congrArg Host.Outcome.next
      (single_congr (part := rcdPart) hlive hlive (rcDecodeSymbol_load hroom hprimed hcan) fun _ => rfl)
  · refine congrArg Host.Outcome.next
      ((single_stop (part := rcdPart) hlive _ (rcDecodeSymbol_cannotLoad hroom hprimed hend)).trans ?_)
    exact endBy_eq s .rcd .endOfStream
  · exact congrArg Host.Outcome.next
      (single_congr (part := cmdPart) hlive hlive (cmDecodeSymbol_load _ hprimed hcan) fun _ => rfl)
  · refine congrArg Host.Outcome.next
      ((single_stop (part := cmdPart) hlive _ (cmDecodeSymbol_cannotLoad _ hprimed hend)).trans ?_)
    exact endBy_eq s .cmd .endOfStream

end Sys2Proof

/-! SUPPORT. The renormalisation of the range coder as a number of shifts: the bits they move, where they lead, and that both
sides make them (44_range_coder.md R236 to R240). -/

namespace Sys2Proof.Machine

/-! ## Shifts -/

/-- `k` shifts of a renormalisation lead from one interval to another, and these are the bits they move, a byte each
(44_range_coder.md R236, R238). -/
inductive RcShifts : Nat → RcCoder → List Bool → RcCoder → Prop
  | nil (x : RcCoder) : RcShifts 0 x [] x
  | cons {k : Nat} {x y z : RcCoder} {out : List Bool} (hpass : x.passStart = some y) (hrest : RcShifts k y.shifted out z) :
    RcShifts (k + 1) x (bitsMsb (y.low.toNat >>> 48) 8 ++ out) z

/-- An interval as (low, range). -/
def RcCoder.ends (x : RcCoder) : Nat × Nat := (x.low.toNat, x.range.toNat)

/-- One more byte is due exactly where a pass starts, and from the interval it starts from (44_range_coder.md R236). -/
theorem rcDue_ends (x : RcCoder) : rcDue x.ends = x.passStart.map RcCoder.ends := by
  have hsettled : x.settled = true ↔ x.low.toNat / 2 ^ 48 = (x.low.toNat + x.range.toNat) / 2 ^ 48 := by
    rw [RcCoder.settled, decide_eq_true_eq, Nat.shiftRight_eq_div_pow, Nat.shiftRight_eq_div_pow]
  by_cases htop : x.low.toNat / 2 ^ 48 = (x.low.toNat + x.range.toNat) / 2 ^ 48
  · have hdue : rcDue x.ends = some x.ends := if_pos htop
    have hpass : x.passStart = some x := if_pos (hsettled.mpr htop)
    rw [hdue, hpass]
    rfl
  · by_cases hsmall : x.range.toNat < 2 ^ 40
    · have hdue : rcDue x.ends = some (x.low.toNat, (2 ^ 56 - x.low.toNat) % 2 ^ 40) := (if_neg htop).trans (if_pos hsmall)
      have hpass : x.passStart = some { x with range := BitVec.ofNat 64 ((2 ^ 56 - x.low.toNat) % 2 ^ 40) } :=
        (if_neg (mt hsettled.mp htop)).trans (if_pos hsmall)
      have hcut : (2 ^ 56 - x.low.toNat) % 2 ^ 40 % 2 ^ 64 = (2 ^ 56 - x.low.toNat) % 2 ^ 40 := by omega
      rw [hdue, hpass, Option.map_some, RcCoder.ends, BitVec.toNat_ofNat, hcut]
    · have hdue : rcDue x.ends = none := (if_neg htop).trans (if_neg hsmall)
      have hpass : x.passStart = none := (if_neg (mt hsettled.mp htop)).trans (if_neg hsmall)
      rw [hdue, hpass]
      rfl

/-- The interval behind the shift of a pass (44_range_coder.md R236). -/
theorem RcCoder.Due.shifted_ends {x y : RcCoder} (h : x.Due y) :
    y.shifted.ends = (y.ends.1 * 256 % 2 ^ 56, y.ends.2 * 256) := by
  simp only [RcCoder.ends, h.shifted_low, h.shifted_range, h.low]
  rw [show 2 ^ 56 = 2 ^ 48 * 256 by rfl, Nat.mul_mod_mul_right]

/-- The byte moved by a shift and the new start are the old start (44_range_coder.md R236, R238). -/
theorem RcCoder.Due.shifted_value {x y : RcCoder} (hx : x.Interval) (h : x.Due y) :
    bitsValue (bitsMsb (y.low.toNat >>> 48) 8) * 2 ^ 56 + y.shifted.low.toNat = x.low.toNat * 256 := by
  have hwithin := hx.within
  have hpos := hx.pos
  rw [h.shifted_low, bitsValue_bitsMsb, h.low, Nat.shiftRight_eq_div_pow]
  omega

/-- The shifts counted from the front (44_range_coder.md R236). -/
theorem rcAfter_succ (i : Nat × Nat) (k : Nat) :
    rcAfter i (k + 1) = (rcDue i).bind fun c => rcAfter (c.1 * 256 % 2 ^ 56, c.2 * 256) k := by
  induction k with
  | zero =>
    rw [rcAfter, rcAfter, Option.bind_some, Option.map_eq_bind]
    rfl
  | succ k ih =>
    rw [rcAfter, ih, Option.bind_assoc]
    rfl

section
variable {k : Nat} {x z : RcCoder} {out : List Bool}

theorem RcShifts.length_eq (h : RcShifts k x out z) : out.length = 8 * k := by
  induction h with
  | nil => rfl
  | cons _ _ ih =>
    rw [List.length_append, bitsMsb_length, ih]
    omega

theorem RcShifts.interval (h : RcShifts k x out z) (hx : x.Interval) : z.Interval ∧ z.aft = x.aft := by
  induction h with
  | nil => exact ⟨hx, rfl⟩
  | cons hpass _ ih =>
    have hdue := hx.due hpass
    obtain ⟨hz, haft⟩ := ih hdue.shifted_interval
    exact ⟨hz, haft.trans hdue.aft⟩

/-- The shifts are those of `rcAfter` (44_range_coder.md R236). -/
theorem RcShifts.after (h : RcShifts k x out z) (hx : x.Interval) : rcAfter x.ends k = some z.ends := by
  induction h with
  | nil => rfl
  | cons hpass _ ih =>
    have hdue := hx.due hpass
    have hrest := ih hdue.shifted_interval
    rw [hdue.shifted_ends] at hrest
    rw [rcAfter_succ, rcDue_ends, hpass]
    exact hrest

/-- Where `rcAfter` leads, the shifts do (44_range_coder.md R236). -/
theorem RcShifts.of_after (hx : x.Interval) {i : Nat × Nat} (h : rcAfter x.ends k = some i) :
    ∃ out z, RcShifts k x out z ∧ z.ends = i := by
  induction k generalizing x with
  | zero =>
    cases h
    exact ⟨[], x, .nil x, rfl⟩
  | succ k ih =>
    rw [rcAfter_succ, rcDue_ends] at h
    cases hpass : x.passStart with
    | none =>
      rw [hpass] at h
      cases h
    | some y =>
      rw [hpass] at h
      have hdue := hx.due hpass
      obtain ⟨out, z, hshifts, hz⟩ := ih hdue.shifted_interval (hdue.shifted_ends ▸ h)
      exact ⟨_, z, .cons hpass hshifts, hz⟩

/-- One more shift behind the others. -/
theorem RcShifts.snoc (h : RcShifts k x out z) {y : RcCoder} (hpass : z.passStart = some y) :
    RcShifts (k + 1) x (out ++ bitsMsb (y.low.toNat >>> 48) 8) y.shifted := by
  induction h with
  | nil => exact .cons hpass (.nil _)
  | cons hfirst _ ih =>
    rw [List.append_assoc]
    exact .cons hfirst (ih hpass)

/-! ## How many there are -/

/-- An interval of whole windows is the whole interval, and no byte of it is due (44_range_coder.md R237). -/
theorem RcCoder.Interval.passStart_whole (hx : x.Interval) (hlow : 2 ^ 56 ∣ x.low.toNat) (hrange : 2 ^ 56 ∣ x.range.toNat) :
    x.passStart = none := by
  have hwithin := hx.within
  have hwide := Nat.le_of_dvd hx.pos hrange
  cases h : x.passStart with
  | none => rfl
  | some y => rcases RcCoder.passStart_some h with ⟨htop, _⟩ | ⟨_, hsmall, _⟩ <;> omega

/-- There are at most seven shifts, fewer from an interval whose low bytes are 0 (44_range_coder.md R237). -/
theorem RcShifts.count_le (h : RcShifts k x out z) (hx : x.Interval) {j : Nat} (hj : j ≤ 7)
    (hlow : 2 ^ (8 * j) ∣ x.low.toNat) (hrange : 2 ^ (8 * j) ∣ x.range.toNat) : k + j ≤ 7 := by
  induction h generalizing j with
  | nil => omega
  | cons hpass _ ih =>
    rcases Nat.lt_or_ge j 7 with hlt | hge
    · obtain ⟨hlow', hrange'⟩ := hx.shifted_dvd hpass (by omega) hlow hrange
      have hrest := ih (hx.due hpass).shifted_interval hlt hlow' hrange'
      omega
    · obtain rfl : j = 7 := by omega
      rw [hx.passStart_whole hlow hrange] at hpass
      cases hpass

/-- The shifts of a renormalisation end (44_range_coder.md R237). -/
theorem RcShifts.exists_end (hx : x.Interval) {n j : Nat} (hj : n + j = 7) (hlow : 2 ^ (8 * j) ∣ x.low.toNat)
    (hrange : 2 ^ (8 * j) ∣ x.range.toNat) : ∃ k out z, RcShifts k x out z ∧ z.passStart = none := by
  induction n generalizing x j with
  | zero =>
    obtain rfl : j = 7 := by omega
    exact ⟨0, [], x, .nil x, hx.passStart_whole hlow hrange⟩
  | succ n ih =>
    cases hpass : x.passStart with
    | none => exact ⟨0, [], x, .nil x, hpass⟩
    | some y =>
      obtain ⟨hlow', hrange'⟩ := hx.shifted_dvd hpass (by omega) hlow hrange
      obtain ⟨k, out, z, hshifts, hend⟩ := ih (j := j + 1) (hx.due hpass).shifted_interval (by omega) hlow' hrange'
      exact ⟨k + 1, _, z, .cons hpass hshifts, hend⟩

/-! ## The bits they move -/

/-- The bits moved with the new interval start where the old one does and lie inside it (44_range_coder.md R236). -/
theorem RcShifts.value (h : RcShifts k x out z) (hx : x.Interval) :
    bitsValue out * 2 ^ 56 + z.low.toNat = x.low.toNat * 2 ^ (8 * k) ∧
      bitsValue out * 2 ^ 56 + z.low.toNat + z.range.toNat ≤ (x.low.toNat + x.range.toNat) * 2 ^ (8 * k) := by
  induction h with
  | nil => simp [bitsValue]
  | @cons k x y z out hpass hrest ih =>
    have hdue := hx.due hpass
    obtain ⟨hstart, hinside⟩ := ih hdue.shifted_interval
    have hlow := hdue.shifted_value hx
    have hrange : y.shifted.range.toNat ≤ x.range.toNat * 256 := by
      rw [hdue.shifted_range]
      exact Nat.mul_le_mul_right _ hdue.le
    have hpow : 2 ^ (8 * (k + 1)) = 256 * 2 ^ (8 * k) := by rw [Nat.mul_succ, Nat.pow_add, Nat.mul_comm]
    have hall : bitsValue (bitsMsb (y.low.toNat >>> 48) 8 ++ out) * 2 ^ 56 + z.low.toNat = x.low.toNat * 2 ^ (8 * (k + 1)) := by
      calc _ = bitsValue (bitsMsb (y.low.toNat >>> 48) 8) * 2 ^ 56 * 2 ^ (8 * k) + (bitsValue out * 2 ^ 56 + z.low.toNat) := by
            rw [bitsValue_append, hrest.length_eq]
            ring
        _ = (bitsValue (bitsMsb (y.low.toNat >>> 48) 8) * 2 ^ 56 + y.shifted.low.toNat) * 2 ^ (8 * k) := by
            rw [hstart, Nat.add_mul]
        _ = x.low.toNat * 2 ^ (8 * (k + 1)) := by rw [hlow, hpow, Nat.mul_assoc]
    refine ⟨hall, ?_⟩
    rw [hstart, Nat.add_mul] at hinside
    have hnew : z.range.toNat ≤ x.range.toNat * 256 * 2 ^ (8 * k) :=
      (Nat.le_of_add_le_add_left hinside).trans (Nat.mul_le_mul_right _ hrange)
    rw [hall, Nat.add_mul, hpow, ← Nat.mul_assoc x.range.toNat]
    exact Nat.add_le_add_left hnew _

end

/-! ## Both sides make them -/

/-- The renormalisation ends where no byte is due (44_range_coder.md R236). -/
theorem rcRenorm_end {σ : Type} {shift : RcCoder → σ → Run σ Unit} {x : RcCoder} (h : x.passStart = none) (fuel : Nat) (u : σ) :
    rcRenorm shift fuel (x, u) = .ok () (x, u) := by
  cases fuel with
  | zero => rfl
  | succ fuel => simp only [rcRenorm, h]

/-- RCE puts the bits out (44_range_coder.md R238). -/
theorem RcShifts.emit {k : Nat} {x z : RcCoder} {out : List Bool} (h : RcShifts k x out z) {b : Bsi} (hfits : b.takes out)
    (fuel : Nat) : rcRenorm rcEmit (fuel + k) (x, b) = rcRenorm rcEmit fuel (z, b.append out) := by
  induction h generalizing b with
  | nil => simp [Bsi.append]
  | @cons k x y z out hpass hrest ih =>
    have hbyte : b.takes (bitsMsb (y.low.toNat >>> 48) 8) := by
      by_contra hn
      exact Bsi.not_takes_append hn out hfits
    have hemit : rcEmit y b = .ok () (b.append (bitsMsb (y.low.toNat >>> 48) 8)) := (offers_writeAll _ _).full b hbyte
    rw [← Nat.add_assoc, rcRenorm]
    simp only [hpass, hemit]
    rw [ih ((Bsi.takes_append hbyte).mpr hfits), Bsi.append_append]

/-- Bits can be read exactly where as many are left (40_bit_stream.md R122, R123). -/
theorem canRead_iff_le_left {b : Bsi} {n : Nat} (hn : n ≠ 0) : b.canRead n ↔ n ≤ b.left := by
  unfold Bsi.canRead Bsi.left
  cases b.inClosed with
  | true => simp [hn]
  | false =>
    simp only [true_and, Bool.false_eq_true, if_false]
    omega

/-- Reading takes from what is left (40_bit_stream.md R123). -/
theorem Bsi.left_advance {b : Bsi} {n : Nat} (hin : b.inBits.length < 2 ^ 64) (h : n ≤ b.left) :
    (b.advance n).left = b.left - n := by
  by_cases hn : n = 0
  · rw [hn, Bsi.advance_zero, Nat.sub_zero]
  · obtain ⟨hopen, hle⟩ := (canRead_iff_le_left hn).mpr h
    unfold Bsi.left
    rw [Bsi.advance_inClosed, hopen, Bsi.advance_toNat (by omega), Bsi.advance_inBits, if_neg nofun, if_neg nofun,
      Nat.sub_sub]

/-- The next bits of IN are some of them and those behind (40_bit_stream.md R122). -/
theorem Bsi.ahead_add (b : Bsi) (m n : Nat) : b.ahead (m + n) = b.ahead m ++ (b.advance m).ahead n := by
  simp only [Bsi.ahead, List.range_add, List.map_append, List.map_map]
  refine congrArg _ (List.map_congr_left fun i _ => ?_)
  rw [Function.comp_apply, BitVec.ofNat_add, ← BitVec.add_assoc]
  rfl

/-- A 56-bit window after the next `n` bits of IN have come in (44_range_coder.md R240). -/
def windowAfter (code : Quad) (b : Bsi) (n : Nat) : Quad :=
  BitVec.ofNat 64 ((code.toNat * 2 ^ n + bitsValue (b.ahead n)) % 2 ^ 56)

theorem windowAfter_toNat (code : Quad) (b : Bsi) (n : Nat) :
    (windowAfter code b n).toNat = (code.toNat * 2 ^ n + bitsValue (b.ahead n)) % 2 ^ 56 := by
  rw [windowAfter, BitVec.toNat_ofNat]
  omega

theorem windowAfter_zero {code : Quad} (h : code.toNat < 2 ^ 56) (b : Bsi) : windowAfter code b 0 = code := by
  refine BitVec.eq_of_toNat_eq ?_
  rw [windowAfter_toNat]
  show (code.toNat * 1 + 0) % 2 ^ 56 = _
  omega

theorem windowAfter_add (code : Quad) (b : Bsi) (m n : Nat) :
    windowAfter (windowAfter code b m) (b.advance m) n = windowAfter code b (m + n) := by
  have hmod : (code.toNat * 2 ^ m + bitsValue (b.ahead m)) % 2 ^ 56 * 2 ^ n + bitsValue ((b.advance m).ahead n) ≡
      code.toNat * 2 ^ (m + n) + bitsValue (b.ahead (m + n)) [MOD 2 ^ 56] := by
    rw [Bsi.ahead_add, bitsValue_append, Bsi.ahead_length, Nat.pow_add, ← Nat.mul_assoc, ← Nat.add_assoc, ← Nat.add_mul]
    exact ((Nat.mod_modEq _ _).mul_right _).add_right _
  refine BitVec.eq_of_toNat_eq ?_
  rw [windowAfter_toNat, windowAfter_toNat, windowAfter_toNat]
  exact hmod

/-- RCD's shift with a byte left (44_range_coder.md R240). -/
theorem rcConsume_ok {b : Bsi} (h : 8 ≤ b.left) (x : RcCoder) (code : Quad) :
    rcConsume x (code, b) = .ok () (windowAfter code b 8, b.advance 8) := by
  have hbyte := bitsValue_ahead_lt b 8
  have hwindow : (code.toNat <<< 8) % 2 ^ 56 + bitsValue (b.ahead 8) = (code.toNat * 2 ^ 8 + bitsValue (b.ahead 8)) % 2 ^ 56 := by
    rw [Nat.shiftLeft_eq]
    omega
  rw [rcConsume, readBits_canRead (by decide) ((canRead_iff_le_left (by decide)).mpr h)]
  simp only [Config.rcBits, hwindow, windowAfter]

/-- RCD's shift without (44_range_coder.md R240). -/
theorem rcConsume_end {b : Bsi} (h : b.left < 8) (x : RcCoder) (code : Quad) :
    rcConsume x (code, b) = .stop .endOfStream (code, b) := by
  have hfew : ¬ b.canRead 8 := fun hcan => by
    have := (canRead_iff_le_left (by decide)).mp hcan
    omega
  rw [rcConsume, readBits_end (by decide) hfew]

/-- RCD takes as many bits in (44_range_coder.md R240). -/
theorem RcShifts.consume {k : Nat} {x z : RcCoder} {out : List Bool} (h : RcShifts k x out z) {code : Quad} {b : Bsi}
    (hcode : code.toNat < 2 ^ 56) (hin : b.inBits.length < 2 ^ 64) (hleft : 8 * k ≤ b.left) (fuel : Nat) :
    rcRenorm rcConsume (fuel + k) (x, code, b) = rcRenorm rcConsume fuel (z, windowAfter code b (8 * k), b.advance (8 * k)) := by
  induction h generalizing code b with
  | nil => rw [Nat.mul_zero, windowAfter_zero hcode, Bsi.advance_zero, Nat.add_zero]
  | @cons k x y z out hpass hrest ih =>
    have hconsume := rcConsume_ok (by omega : 8 ≤ b.left) y code
    have hwindow : (windowAfter code b 8).toNat < 2 ^ 56 := by
      rw [windowAfter_toNat]
      exact Nat.mod_lt _ (Nat.two_pow_pos _)
    have hrestLeft : 8 * k ≤ (b.advance 8).left := by
      rw [Bsi.left_advance hin (by omega)]
      omega
    rw [← Nat.add_assoc, rcRenorm]
    simp only [hpass, hconsume]
    rw [ih (b := b.advance 8) hwindow hin hrestLeft, windowAfter_add, Bsi.advance_advance, show 8 + 8 * k = 8 * (k + 1) by omega]

/-! ## A symbol -/

section
variable {x : RcCoder} (hx : x.Inv) {v : Nat}
include hx

/-- The part of the interval a slot owns, in the statements' words (44_range_coder.md R235). -/
theorem RcCoder.Inv.slotPart_eq (hv : v ≤ 256) : x.slotPart v = (x.narrow v).ends := by
  obtain ⟨hlow, hsum, _⟩ := hx.narrow hv
  refine Prod.ext hlow.symm ?_
  have hrange : (x.narrow v).range.toNat =
      x.aft.cum (v + 1) * (x.range.toNat / x.aft.total) - x.aft.cum v * (x.range.toNat / x.aft.total) := by omega
  exact (Nat.sub_mul _ _ _).trans hrange.symm

/-- The shifts of a symbol's renormalisation end, after at most seven (44_range_coder.md R237). -/
theorem RcCoder.Inv.exists_shifts (hv : v ≤ 256) :
    ∃ k out z, RcShifts k (x.narrow v) out z ∧ z.passStart = none ∧ k ≤ 7 := by
  have hinterval := hx.narrow_interval hv
  obtain ⟨k, out, z, hshifts, hend⟩ := RcShifts.exists_end hinterval (n := 7) (j := 0) rfl (one_dvd _) (one_dvd _)
  exact ⟨k, out, z, hshifts, hend, hshifts.count_le hinterval (j := 0) (by decide) (one_dvd _) (one_dvd _)⟩

/-- Those shifts, and the table's update, are a symbol coded (44_range_coder.md R232, R235, R236, R237). -/
theorem RcCoder.Inv.step (hv : v < 256) (hroom : x.aft.total < 2 ^ 32 - 1) {k : Nat} {out : List Bool} {z : RcCoder}
    (h : RcShifts k (x.narrow v) out z) (hend : z.passStart = none) : RcStep x (z.learn v) v out := by
  have hinterval := hx.narrow_interval hv.le
  have hpart := hx.slotPart_eq hv.le
  obtain ⟨hlow, hsum, _⟩ := hx.narrow hv.le
  obtain ⟨hz, haft⟩ := h.interval hinterval
  obtain ⟨htop, hwide⟩ := RcCoder.passStart_none hend
  obtain ⟨hstart, hinside⟩ := h.value hinterval
  have hlen := h.length_eq
  have hcount := h.count_le hinterval (j := 0) (by decide) (one_dvd _) (one_dvd _)
  have hsame : z.aft = x.aft := haft
  rw [← hlen] at hstart hinside
  rw [hlow] at hstart
  rw [hsum] at hinside
  refine ⟨hz.learn_inv htop hwide (hsame ▸ hx.table) (hsame ▸ hroom) hv, fun i hi => ?_, ⟨k, hlen⟩, by omega, hstart, hinside,
    fun hnone => ?_, ?_, ?_⟩
  · show (z.aft.update v).cum i = _
    rw [hsame]
    exact hx.table.cum_update hi hroom
  · rw [hnone, List.length_nil] at hlen
    obtain rfl : k = 0 := by omega
    cases h
    show (x.narrow v).range.toNat = _
    omega
  · rw [hpart, hlen, Nat.mul_div_cancel_left k (by decide)]
    exact h.after hinterval
  · have hdue := rcDue_ends z
    rw [hend] at hdue
    exact hdue

end

/-! ## RCE -/

/-- A bulk encode whose loop ends answers LENGTH (47_system_commands.md R333). -/
theorem bulkEncode_ok {σ : Type} {s : State} {u : UnitId} {part : Part σ} {enc : Byte → σ → Run σ Unit} {o l : Word}
    (hlive : Live s u) (hin : o.toNat + l.toNat ≤ s.cfg.bufSize) {y : σ}
    (h : encodeLoop enc s.buf l.toNat o.toNat 0 (part.get s) = (l.toNat, none, y)) :
    s.bulkEncode u part enc o l = (part.put y s).answer l.toNat := by
  rw [State.bulkEncode, gated_live hlive, bounded_inside hin, h]
  rfl

/-- A shorter list fits where a longer one does (40_bit_stream.md R121). -/
theorem room_of_le {b : Bsi} {m n : Nat} (h : b.room n = n) (hm : m ≤ n) : b.room m = m := by
  unfold Bsi.room at h ⊢
  cases hc : b.outClosed with
  | true =>
    rw [hc, if_pos rfl] at h
    rw [if_pos rfl]
    omega
  | false =>
    rw [hc, if_neg nofun] at h
    rw [if_neg nofun]
    cases hcap : b.outCap with
    | none => rfl
    | some cap =>
      rw [hcap] at h
      dsimp only at h ⊢
      omega

/-- RCE codes a symbol where OUT has room for seven bytes (44_range_coder.md R238). -/
theorem rcEncodeSymbol_step {x : RcCoder} (hx : x.Inv) (hroom : x.aft.total < 2 ^ 32 - 1) (v : Byte) {b : Bsi}
    (hout : b.room 56 = 56) :
    ∃ x' out, rcEncodeSymbol v (x, b) = .ok () (x', b.append out) ∧ RcStep x x' v.toNat out := by
  obtain ⟨k, out, z, hshifts, hend, hk⟩ := hx.exists_shifts v.isLt.le
  have hlen := hshifts.length_eq
  have hfits : b.takes out := room_of_le hout (by omega)
  have hloop : rcRenorm rcEmit rcPasses (x.narrow v.toNat, b) = .ok () (z, b.append out) := by
    have hpasses : rcPasses = (7 - k) + k := by
      rw [Nat.sub_add_cancel hk]
      rfl
    rw [hpasses, hshifts.emit hfits, rcRenorm_end hend]
  refine ⟨z.learn v.toNat, out, ?_, hx.step v.isLt hroom hshifts hend⟩
  refine (if_neg (Nat.not_le.mpr hroom)).trans ?_
  show (rcRenorm rcEmit rcPasses (x.narrow v.toNat, b)).andThen _ = _
  rw [hloop]
  rfl

/-- RCE codes a range of BUF where OUT has room for seven bytes a symbol, and the table counts each (44_range_coder.md R251). -/
theorem encodeLoop_rcEncodeSymbol (m : List Host.Cell) {k a n : Nat} {x : RcCoder} {b : Bsi} (hx : x.Inv)
    (hroom : x.aft.total + k ≤ 2 ^ 32 - 1) (hout : b.room (56 * k) = 56 * k) :
    ∃ x' out, encodeLoop rcEncodeSymbol m k a n (x, b) = (n + k, none, x', b.append out) ∧ x'.Inv ∧ 8 ∣ out.length ∧
      out.length ≤ 56 * k ∧
      ∀ i, i ≤ 257 → x'.aft.cum i = x.aft.cum i + (bufBytes m a k).countP fun v => decide (v.toNat < i) := by
  induction k generalizing a n x b with
  | zero => exact ⟨x, [], by simp [encodeLoop, Bsi.append], hx, by simp, by simp, fun i _ => by simp [bufBytes]⟩
  | succ k ih =>
    obtain ⟨y, out, hfirst, hstep⟩ := rcEncodeSymbol_step hx (by omega) (memRead m a) (room_of_le hout (by omega))
    obtain ⟨hy, hcum, hbytes, hlen, _⟩ := hstep
    have htotal : y.aft.total = x.aft.total + 1 := (hcum 257 (le_refl _)).trans (by
      have := (memRead m a).isLt
      rw [if_pos (by omega)]
      rfl)
    have hfits : b.takes out := room_of_le hout (by omega)
    have hrest : (b.append out).room (56 * k) = 56 * k := by
      have hsum := room_append hfits (56 * k)
      rw [room_of_le hout (by omega)] at hsum
      omega
    obtain ⟨x', out', hloop, hx', hbytes', hlen', hcum'⟩ := ih (a := a + 1) (n := n + 1) hy (by omega) hrest
    refine ⟨x', out ++ out', ?_, hx', ?_, ?_, fun i hi => ?_⟩
    · rw [encodeLoop, hfirst]
      dsimp only
      rw [hloop, Bsi.append_append, Nat.add_assoc, Nat.add_comm 1 k]
    · rw [List.length_append]
      exact Nat.dvd_add hbytes hbytes'
    · rw [List.length_append]
      omega
    · rw [hcum' i hi, hcum i hi, bufBytes_succ, List.countP_cons, Nat.add_assoc]
      simp only [decide_eq_true_eq]
      omega

end Sys2Proof.Machine

namespace Sys2Proof

open Machine

/-- Settles O39: the part of the symbol is renormalised shift by shift, and each shift puts out the byte that is settled. -/
theorem rangeEncodeNarrowsToTheSymbol : Obligations.RangeEncodeNarrowsToTheSymbol := by
  refine ⟨fun s v hlive hx hroom hout => ?_, fun s o l hlive hx hroom hin hout => ?_⟩
  · obtain ⟨x, out, hcoded, hstep⟩ := rcEncodeSymbol_step hx hroom v hout
    exact ⟨x, out, congrArg _ (single_ok (part := rcePart) hlive _ hcoded), hstep⟩
  · obtain ⟨x, out, hloop, hx', hbytes, hlen, hcum⟩ := encodeLoop_rcEncodeSymbol s.buf (a := o.toNat) (n := 0) hx hroom hout
    rw [Nat.zero_add] at hloop
    exact ⟨x, out, congrArg _ (bulkEncode_ok (part := rcePart) hlive hin hloop), hx', hbytes, hlen, hcum⟩

end Sys2Proof

/-! SUPPORT. RCD with a loaded window: the symbol whose slot holds it, the faults at the slot, and the fault at a shift
(44_range_coder.md R240, R256, R257). -/

namespace Sys2Proof.Machine

section
variable {d : Rcd} {b : Bsi} {v : Byte} (hx : d.coder.Inv) (hcode : d.code.toNat < 2 ^ 56) (hin : b.inBits.length < 2 ^ 64)
  (hroom : d.coder.aft.total < 2 ^ 32 - 1) (hprimed : d.ustat.primed = true) (hlo : d.coder.aft.cum v.toNat ≤ d.count)
  (hhi : d.count < d.coder.aft.cum (v.toNat + 1))
include hx hlo hhi

/-- A window in the slot of a data symbol selects it (44_range_coder.md R240). -/
theorem slot_data : d.slot = .ok v.toNat :=
  (slot_of_count hx.table v.isLt.le hlo hhi).trans (if_neg (Nat.ne_of_lt v.isLt))

include hcode hin hroom hprimed

/-- RCD delivers the symbol whose slot holds the window where seven bytes are left (44_range_coder.md R240). -/
theorem rcDecodeSymbol_step (hleft : 56 ≤ b.left) : ∃ x out,
    rcDecodeSymbol (d, b) =
      .ok v ({ d with coder := x, code := windowAfter d.code b out.length }, b.advance out.length) ∧
    RcStep d.coder x v.toNat out := by
  obtain ⟨k, out, z, hshifts, hend, hk⟩ := hx.exists_shifts v.isLt.le
  have hloop : rcRenorm rcConsume rcPasses (d.coder.narrow v.toNat, d.code, b) =
      .ok () (z, windowAfter d.code b (8 * k), b.advance (8 * k)) := by
    have hpasses : rcPasses = (7 - k) + k := by
      rw [Nat.sub_add_cancel hk]
      rfl
    rw [hpasses, hshifts.consume hcode hin (by omega), rcRenorm_end hend]
  rw [← hshifts.length_eq] at hloop
  exact ⟨z.learn v.toNat, out, rcDecodeSymbol_ok hroom hprimed (slot_data hx hlo hhi) hloop, hx.step v.isLt hroom hshifts hend⟩

/-- RCD at a shift that finds no byte left: the shifts before it are done, and the cut of the range too (44_range_coder.md
R240, 60_exceptions.md R342). -/
theorem rcDecodeSymbol_shiftEnd {i c : Nat × Nat} (hafter : rcAfter (d.coder.slotPart v.toNat) (b.left / 8) = some i)
    (hdue : rcDue i = some c) :
    ∃ y : RcCoder, y.ends = c ∧ y.aft = d.coder.aft ∧ rcDecodeSymbol (d, b) = .stop .endOfStream
      ({ d with coder := y, code := windowAfter d.code b (8 * (b.left / 8)) }, b.advance (8 * (b.left / 8))) := by
  have hinterval := hx.narrow_interval v.isLt.le
  rw [hx.slotPart_eq v.isLt.le] at hafter
  obtain ⟨k, hk⟩ : ∃ k, b.left / 8 = k := ⟨_, rfl⟩
  rw [hk] at hafter ⊢
  obtain ⟨out, z, hshifts, rfl⟩ := RcShifts.of_after hinterval hafter
  rw [rcDue_ends, Option.map_eq_some_iff] at hdue
  obtain ⟨y, hpass, hends⟩ := hdue
  obtain ⟨hz, haft⟩ := hshifts.interval hinterval
  have hcount := (hshifts.snoc hpass).count_le hinterval (j := 0) (by decide) (one_dvd _) (one_dvd _)
  have hfew : (b.advance (8 * k)).left < 8 := by
    rw [Bsi.left_advance hin (by omega)]
    omega
  have hloop : rcRenorm rcConsume rcPasses (d.coder.narrow v.toNat, d.code, b) =
      .stop .endOfStream (y, windowAfter d.code b (8 * k), b.advance (8 * k)) := by
    have hpasses : rcPasses = (6 - k) + 1 + k := by
      show 7 = _
      omega
    have hstop := rcConsume_end hfew y (windowAfter d.code b (8 * k))
    rw [hpasses, hshifts.consume hcode hin (by omega), rcRenorm]
    simp only [hpass, hstop]
  refine ⟨y, hends, (hz.due hpass).aft.trans haft, ?_⟩
  rw [rcDecodeSymbol_loaded (t := (d, b)) hroom hprimed]
  simp only [rcDecodePrimed, slot_data hx hlo hhi, hloop, Run.within, Run.andThen, Rcd.putBack]

end

/-- RCD with a window that selects no data symbol consumes nothing (44_range_coder.md R240). -/
theorem rcDecodeSymbol_slotError {d : Rcd} {b : Bsi} {r : Stop} (hroom : d.coder.aft.total < 2 ^ 32 - 1)
    (hprimed : d.ustat.primed = true) (hslot : d.slot = .error r) : rcDecodeSymbol (d, b) = .stop r (d, b) := by
  rw [rcDecodeSymbol_loaded (t := (d, b)) hroom hprimed]
  simp only [rcDecodePrimed, hslot]

/-- An RCD_DECBYTE whose decoding stops ends by the stop, where it was reached (44_range_coder.md R256). -/
theorem exec_rcdDecbyte_stop {s : State} (hlive : Live s .rcd) {r : Stop} {t : RcdSide}
    (h : rcDecodeSymbol (s.rcd, s.bsi) = .stop r t) :
    exec .rcdDecbyte s = .next ((rcdPart.put t s).endBy .rcd r) :=
  congrArg _ (single_stop (part := rcdPart) hlive _ h)

/-- An interval and a table are a coder (10_state.md R38). -/
theorem RcCoder.eq_of_ends {y : RcCoder} {c : Nat × Nat} {f : Aft} (hends : y.ends = c) (haft : y.aft = f) :
    y = { low := BitVec.ofNat 64 c.1, range := BitVec.ofNat 64 c.2, aft := f } := by
  subst hends haft
  simp only [RcCoder.ends, BitVec.ofNat_toNat, BitVec.setWidth_eq]

end Sys2Proof.Machine

namespace Sys2Proof

open Machine

/-- Settles O40: the window's position selects the slot, and the decoder's shifts are those of its part of the interval. -/
theorem rangeDecodeDeliversTheSlot : Obligations.RangeDecodeDeliversTheSlot := by
  intro s v hlive hx hroom hprimed hcode hcan hin hlo hhi
  obtain ⟨x, out, hdec, hstep⟩ :=
    rcDecodeSymbol_step hx hcode hin hroom hprimed hlo hhi ((canRead_iff_le_left (by decide)).mp hcan)
  refine ⟨x, out, _, congrArg _ (single_ok (part := rcdPart) hlive _ hdec), fun o ho => ?_, hstep, windowAfter_toNat _ _ _⟩
  have hloop : decodeLoop rcDecodeSymbol 1 o.toNat (rcdPart.get s, s.buf) = .ok ()
      (({ s.rcd with coder := x, code := windowAfter s.rcd.code s.bsi out.length }, s.bsi.advance out.length),
        memWrite s.buf o.toNat v) := by
    simp only [decodeLoop, rcdPart, hdec]
  exact ⟨_, congrArg Host.Outcome.next (bulkDecode_ok (part := rcdPart) (l := 1) hlive ho hloop), stored_memWrite _ _ _⟩

/-- Settles O41: the window's position decides the fault at the slot; behind the bytes left, the next shift finds none. -/
theorem rangeDecodeRefusalsAndFaults : Obligations.RangeDecodeRefusalsAndFaults := by
  refine ⟨fun s hlive hx hroom hprimed => ⟨fun htail => ?_, fun hlo hhi => ?_, fun v i c hcode hin hlo hhi => ?_⟩,
    fun s v o l => ⟨fun hlive hfull => exec_rce_full hlive hfull v, exec_rcd_full⟩⟩
  · rw [exec_rcdDecbyte_stop hlive (rcDecodeSymbol_slotError hroom hprimed (slot_tail htail)), endBy_eq]
    rfl
  · have hslot := slot_of_count hx.table (le_refl 256) hlo hhi
    rw [if_pos rfl] at hslot
    rw [exec_rcdDecbyte_stop hlive (rcDecodeSymbol_slotError hroom hprimed hslot), endBy_eq]
    rfl
  · intro k hafter hdue
    obtain ⟨y, hends, haft, hstop⟩ := rcDecodeSymbol_shiftEnd hx hcode hin hroom hprimed hlo hhi hafter hdue
    rw [exec_rcdDecbyte_stop hlive hstop, endBy_eq, RcCoder.eq_of_ends hends haft]
    rfl

end Sys2Proof

/-! SUPPORT. The link functions: `squash` in natural numbers, that it is non-decreasing, and what the bisection of `stretch`
finds (45_cm_predictor.md R273, R274). -/

namespace Sys2Proof.Machine

/-! ## The link functions -/

/-- The segment of the curve that starts at sample `j`, `w` steps of 1/128 into it, in 128ths (45_cm_predictor.md R273). -/
def sqCurve (j w : Nat) : Nat := Config.sqTable.getD j 0 * (128 - w) + Config.sqTable.getD (j + 1) 0 * w

/-- `squash` in its inner range, by the place of its argument on the curve (45_cm_predictor.md R273). -/
theorem squash_eq {k : Nat} (hlo : 1 ≤ k) (hhi : k ≤ 4095) :
    squash ((k : Int) - 2048) = (sqCurve (k / 128) (k % 128) + 64) / 128 := by
  have hw : (((k : Int) - 2048) % 128).toNat = k % 128 := by omega
  have hj : (((k : Int) - 2048).fdiv 128 + 16).toNat = k / 128 := by
    rw [Int.fdiv_eq_ediv_of_nonneg _ (by decide)]
    omega
  rw [squash, if_neg (by omega), if_neg (by omega), Nat.shiftRight_eq_div_pow]
  simp only [hw, hj, sqCurve]

/-- One step along the curve does not go down: inside a segment the samples rise, and a segment ends where the next
starts. -/
theorem sqCurve_step {k : Nat} (h : k < 4095) : sqCurve (k / 128) (k % 128) ≤ sqCurve ((k + 1) / 128) ((k + 1) % 128) := by
  have hsamples : ∀ j < 32, Config.sqTable.getD j 0 ≤ Config.sqTable.getD (j + 1) 0 := by decide
  obtain ⟨d, hd⟩ := Nat.exists_eq_add_of_le (hsamples (k / 128) (by omega))
  have hcurve {w : Nat} (hw : w ≤ 128) : sqCurve (k / 128) w = Config.sqTable.getD (k / 128) 0 * 128 + d * w := by
    rw [sqCurve, hd, Nat.add_mul, ← Nat.add_assoc, ← Nat.mul_add, Nat.sub_add_cancel hw]
  rw [hcurve (by omega)]
  by_cases hend : k % 128 = 127
  · have hnext : (k + 1) / 128 = k / 128 + 1 ∧ (k + 1) % 128 = 0 := by omega
    rw [hnext.1, hnext.2, hend, sqCurve, hd]
    omega
  · have hsame : (k + 1) / 128 = k / 128 ∧ (k + 1) % 128 = k % 128 + 1 := by omega
    rw [hsame.1, hsame.2, hcurve (by omega)]
    exact Nat.add_le_add_left (Nat.mul_le_mul_left d (Nat.le_succ _)) _

/-- `squash` is non-decreasing in its inner range (45_cm_predictor.md R273). -/
theorem squash_le_squash {x y : Int} (hx : -2047 ≤ x) (hxy : x ≤ y) (hy : y ≤ 2047) : squash x ≤ squash y := by
  obtain ⟨n, rfl⟩ := Int.le.dest hxy
  induction n with
  | zero => simp
  | succ n ih =>
    refine (ih (by omega) (by omega)).trans ?_
    obtain ⟨k, hk⟩ : ∃ k : Nat, x + n = (k : Int) - 2048 := ⟨(x + n + 2048).toNat, by omega⟩
    have hnext : x + ((n + 1 : Nat) : Int) = ((k + 1 : Nat) : Int) - 2048 := by omega
    rw [hk, hnext, squash_eq (by omega) (by omega), squash_eq (by omega) (by omega)]
    exact Nat.div_le_div_right (Nat.add_le_add_right (sqCurve_step (by omega)) 64)

/-- The bisection finds the first argument of its range whose `squash` reaches `p`, and the end of the range where none
before it does (log entry 11). -/
theorem stretchSearch_least (p : Nat) {fuel lo hi : Nat} (hle : lo ≤ hi) (hfuel : hi < lo + 2 ^ fuel) (hhi : hi ≤ 4094)
    (hbelow : ∀ u < lo, squash ((u : Int) - 2047) < p) :
    stretchSearch p fuel lo hi ≤ hi ∧ (∀ u < stretchSearch p fuel lo hi, squash ((u : Int) - 2047) < p) ∧
      (stretchSearch p fuel lo hi < hi → p ≤ squash ((stretchSearch p fuel lo hi : Int) - 2047)) := by
  induction fuel generalizing lo hi with
  | zero => exact ⟨hle, hbelow, fun hlt => absurd hlt (by rw [stretchSearch]; omega)⟩
  | succ fuel ih =>
    rw [stretchSearch]
    split
    · simp only
      rw [Nat.pow_succ] at hfuel
      split
      next hlt hreach =>
        obtain ⟨hend, hless, hfound⟩ := ih (lo := lo) (hi := (lo + hi) / 2) (by omega) (by omega) (by omega) hbelow
        refine ⟨by omega, hless, fun _ => ?_⟩
        rcases hend.lt_or_eq with hin | hmid
        · exact hfound hin
        · rw [hmid]
          exact hreach
      next hlt hreach =>
        refine ih (lo := (lo + hi) / 2 + 1) (by omega) (by omega) hhi fun u hu => ?_
        exact (squash_le_squash (by omega) (by omega) (by omega)).trans_lt (Nat.lt_of_not_le hreach)
    · exact ⟨hle, hbelow, fun hlt => absurd hlt ‹_›⟩

/-- What `stretch` is, for every `p` (45_cm_predictor.md R274): every argument below it squashes to less than `p`, and it
reaches `p` itself unless it is the greatest. -/
theorem stretch_least (p : Nat) : -2047 ≤ stretch p ∧ stretch p ≤ 2047 ∧
    (∀ x : Int, -2047 ≤ x → x < stretch p → squash x < p) ∧ (stretch p < 2047 → p ≤ squash (stretch p)) := by
  obtain ⟨hend, hbelow, hfound⟩ :=
    stretchSearch_least p (fuel := 13) (lo := 0) (hi := 4094) (by decide) (by decide) le_rfl nofun
  unfold stretch
  refine ⟨by omega, by omega, fun x hx hlt => ?_, fun hlt => hfound (by omega)⟩
  obtain ⟨u, hu⟩ : ∃ u : Nat, x = (u : Int) - 2047 := ⟨(x + 2047).toNat, by omega⟩
  rw [hu]
  exact hbelow u (by omega)

end Sys2Proof.Machine

namespace Sys2Proof

open Machine

/-- Settles O44: `squash` is non-decreasing, so the bisection finds the least preimage; what else is said of `stretch` follows
from that. -/
theorem stretchIsTheLeastPreimageOfSquash : Obligations.StretchIsTheLeastPreimageOfSquash := by
  refine ⟨fun p _ => ?_, fun p q hpq _ => ?_, fun x hx _ => ?_, by decide⟩
  · obtain ⟨hlo, hhi, hleast, hreach⟩ := stretch_least p
    refine ⟨hlo, hhi, fun hp => ?_, hleast⟩
    rcases hhi.lt_or_eq with hlt | hmax
    · exact hreach hlt
    · have hsquash : squash 2047 = 4094 := by decide
      rw [hmax, hsquash]
      exact hp
  · obtain ⟨_, hhi, hleast, _⟩ := stretch_least p
    obtain ⟨hlo, _, _, hreach⟩ := stretch_least q
    by_contra hlt
    have hq := hreach (by omega)
    have hp := hleast (stretch q) hlo (by omega)
    omega
  · obtain ⟨_, _, hleast, _⟩ := stretch_least (squash x)
    by_contra hlt
    exact lt_irrefl _ (hleast x hx (by omega))

end Sys2Proof

/-! SUPPORT. Training moves an entry by a 128th of its distance and stays within 16 bits; taking a bit into the context is an
extension of the partial byte, and a whole byte after eight (45_cm_predictor.md R276, R278, R282). -/

namespace Sys2Proof.Machine

/-! ## Training -/

/-- An entry moved by a 128th of its distance to a target within the scale does not wrap (45_cm_predictor.md R276, R278). -/
theorem nudged_toNat (t : BitVec 16) {g : Int} (hlo : 0 ≤ g) (hhi : g ≤ 65536) :
    ((BitVec.ofInt 16 (t.toNat + asr (g - t.toNat) 7)).toNat : Int) = t.toNat + (g - t.toNat).fdiv 128 := by
  have hfloor : asr (g - t.toNat) 7 = (g - t.toNat) / 128 := Int.fdiv_eq_ediv_of_nonneg _ (by decide)
  have ht := t.isLt
  rw [BitVec.toNat_ofInt, hfloor, Int.fdiv_eq_ediv_of_nonneg _ (by decide)]
  omega

theorem smTrained_toNat (t : BitVec 16) (bit : Bool) :
    ((smTrained t bit).toNat : Int) = t.toNat + ((if bit then 65536 else 0) - (t.toNat : Int)).fdiv 128 := by
  refine nudged_toNat t ?_ ?_ <;> split <;> decide

theorem apmTrained_toNat (t : BitVec 16) (bit : Bool) :
    ((apmTrained t bit).toNat : Int) = t.toNat + ((if bit then 65535 else 0) - (t.toNat : Int)).fdiv 128 := by
  refine nudged_toNat t ?_ ?_ <;> split <;> decide

/-- Training moves the two bins of the last lookup and no other (45_cm_predictor.md R278). -/
theorem Apm.nudged_train {iw : Nat} (m : Apm iw) (bit : Bool) : m.Nudged (m.train bit) bit := by
  intro k
  simp only [Apm.train, Apm.trainEntry_entry]
  by_cases hlower : k = m.idx.toNat
  · simp [hlower]
  · by_cases hupper : k = m.idx.toNat + 1 <;> simp [hlower, hupper]

/-! ## The context -/

section
variable (p : Predictor) (bit : Bool)

/-- The partial byte with one more bit. -/
theorem Predictor.c0_extended : p.c0.toNat <<< 1 ||| bit.toNat = 2 * p.c0.toNat + bit.toNat := by
  rw [← Nat.shiftLeft_add_eq_or_of_lt (i := 1) bit.toNat_lt, Nat.shiftLeft_eq]
  omega

/-- A bit inside a byte extends the partial byte and is counted (45_cm_predictor.md R282). -/
theorem Predictor.updateContext_inByte (h : 2 * p.c0.toNat + bit.toNat ≤ 255) :
    p.updateContext bit = { p with c0 := BitVec.ofNat 8 (2 * p.c0.toNat + bit.toNat), bpos := p.bpos + 1 } := by
  simp only [Predictor.updateContext, c0_extended]
  exact if_pos h

/-- The run after a byte: one longer where the byte repeats the last one, and over where not (45_cm_predictor.md R282). -/
def Predictor.runAfter (byte : Nat) : Nat := if byte = p.c4.toNat % 256 then min (p.run.toNat + 1) 65535 else 0

theorem Predictor.runAfter_lt (byte : Nat) : p.runAfter byte < 65536 := by
  unfold Predictor.runAfter
  split <;> omega

/-- The predictor between symbols, the byte just completed (45_cm_predictor.md R282). -/
def Predictor.takeByte (byte : Nat) : Predictor :=
  { p with
    run := BitVec.ofNat 16 (p.runAfter byte)
    runCtx := runClass (p.runAfter byte)
    c4 := BitVec.ofNat 32 (p.c4.toNat <<< 8 ||| byte)
    c0 := 1
    bpos := 0 }

/-- The last bit of a byte completes it (45_cm_predictor.md R282). -/
theorem Predictor.updateContext_atByteEnd (h : 255 < 2 * p.c0.toNat + bit.toNat) :
    p.updateContext bit = p.takeByte ((2 * p.c0.toNat + bit.toNat) % 256) := by
  simp only [Predictor.updateContext, c0_extended]
  exact if_neg (by omega)

/-- A context update leaves the tables as they are. -/
theorem Predictor.updateContext_tables : p.updateContext bit = { p.updateContext bit with
    states := p.states, sm := p.sm, apm2 := p.apm2, apm3 := p.apm3, apm5 := p.apm5, apm4 := p.apm4 } := by
  rcases Nat.lt_or_ge 255 (2 * p.c0.toNat + bit.toNat) with hend | hin
  · rw [updateContext_atByteEnd p bit hend]
    rfl
  · rw [updateContext_inByte p bit hin]

/-- Bits inside a byte are appended to the partial byte, one after the other (45_cm_predictor.md R282). -/
theorem Predictor.foldl_updateContext_inByte (v n : Nat) (h : p.c0.toNat * 2 ^ n + v % 2 ^ n ≤ 255) :
    (bitsMsb v n).foldl Predictor.updateContext p =
      { p with c0 := BitVec.ofNat 8 (p.c0.toNat * 2 ^ n + v % 2 ^ n), bpos := p.bpos + BitVec.ofNat 3 n } := by
  induction n generalizing p with
  | zero => simp [bitsMsb, Nat.mod_one]
  | succ n ih =>
    have htop : v % 2 ^ (n + 1) = (v.testBit n).toNat * 2 ^ n + v % 2 ^ n := by
      rw [Nat.mod_pow_succ, Nat.toNat_testBit, Nat.mul_comm, Nat.add_comm]
    have happend : p.c0.toNat * 2 ^ (n + 1) + v % 2 ^ (n + 1) = (2 * p.c0.toNat + (v.testBit n).toNat) * 2 ^ n + v % 2 ^ n := by
      rw [htop, Nat.pow_succ]
      ring
    rw [happend] at h ⊢
    have hsmall : 2 * p.c0.toNat + (v.testBit n).toNat ≤ 255 :=
      (Nat.le_mul_of_pos_right _ (Nat.two_pow_pos n)).trans ((Nat.le_add_right _ _).trans h)
    have hc0 : (BitVec.ofNat 8 (2 * p.c0.toNat + (v.testBit n).toNat)).toNat = 2 * p.c0.toNat + (v.testBit n).toNat :=
      Nat.mod_eq_of_lt (Nat.lt_succ_of_le hsmall)
    have hbpos : p.bpos + 1 + BitVec.ofNat 3 n = p.bpos + BitVec.ofNat 3 (n + 1) := by
      rw [Nat.add_comm n, BitVec.ofNat_add, BitVec.add_assoc]
      rfl
    rw [bitsMsb, List.foldl_cons, updateContext_inByte p _ hsmall, ih _ (by rwa [hc0])]
    simp only [hc0, hbpos]

/-- Eight context updates from the marker of an empty byte take a whole byte in (45_cm_predictor.md R282). -/
theorem Predictor.foldl_updateContext_byte (v : Byte) (h : p.c0 = 1) :
    (bitsMsb v.toNat 8).foldl Predictor.updateContext p = p.takeByte v.toNat := by
  have hmarker : p.c0.toNat = 1 := by rw [h]; rfl
  have hfirst : p.c0.toNat * 2 ^ 7 + (v.toNat >>> 1) % 2 ^ 7 = 128 + v.toNat / 2 := by
    rw [hmarker, Nat.shiftRight_eq_div_pow]
    omega
  have hlast : bitsMsb v.toNat 1 = [v.toNat.testBit 0] := rfl
  have hbyte : 2 * (BitVec.ofNat 8 (128 + v.toNat / 2)).toNat + (v.toNat.testBit 0).toNat = 256 + v.toNat := by
    rw [BitVec.toNat_ofNat, Nat.toNat_testBit]
    omega
  rw [bitsMsb_add v.toNat 7 1, List.foldl_append, foldl_updateContext_inByte p _ 7 (by omega), hfirst, hlast,
    List.foldl_cons, List.foldl_nil, updateContext_atByteEnd _ _ (by simp only [hbyte]; omega)]
  simp only [hbyte, Nat.add_mod_left, Nat.mod_eq_of_lt v.isLt]
  rfl

/-- A byte extends the last bytes at their low end, and the two registers that every byte sets are as they were
(45_cm_predictor.md R282). -/
theorem Predictor.takeByte_eq (v : Byte) (hc0 : p.c0 = 1) (hbpos : p.bpos = 0) : p.takeByte v.toNat = { p with
    c4 := p.c4.extractLsb' 0 24 ++ v
    run := BitVec.ofNat 16 (p.runAfter v.toNat)
    runCtx := runClass (p.runAfter v.toNat) } := by
  have hc4 : BitVec.ofNat 32 (p.c4.toNat <<< 8 ||| v.toNat) = p.c4.extractLsb' 0 24 ++ v := by
    apply BitVec.eq_of_toNat_eq
    rw [BitVec.toNat_append, BitVec.extractLsb'_toNat, BitVec.toNat_ofNat, ← Nat.shiftLeft_add_eq_or_of_lt v.isLt,
      ← Nat.shiftLeft_add_eq_or_of_lt v.isLt, Nat.shiftLeft_eq, Nat.shiftLeft_eq, Nat.shiftRight_zero]
    omega
  rw [Predictor.takeByte, hc4, ← hc0, ← hbpos]

/-- The run goes on where the byte is the last one again. -/
theorem Predictor.runAfter_eq (v : Byte) :
    p.runAfter v.toNat = if p.c4.extractLsb' 0 8 = v then min (p.run.toNat + 1) 65535 else 0 := by
  have hsame : v.toNat = p.c4.toNat % 256 ↔ p.c4.extractLsb' 0 8 = v := by
    rw [← BitVec.toNat_inj, BitVec.extractLsb'_toNat, Nat.shiftRight_zero]
    exact eq_comm
  simp only [Predictor.runAfter, hsame]

end

/-- What `Update` does before it predicts is what learning a bit is (45_cm_predictor.md R281). -/
theorem Predictor.learned_update (tbl : Vector StateEntry 256) (p : Predictor) (bit : Bool) :
    p.Learned tbl bit (((p.train bit).transition tbl bit).updateContext bit) where
  sm b := by
    rw [updateContext_tables]
    exact (symGet_symSet _ _ _ _).trans (ite_congr rfl (fun h => by rw [h]) fun _ => rfl)
  states b := by
    rw [updateContext_tables]
    exact (symGet_symSet _ _ _ _).trans (ite_congr rfl (fun h => by rw [h]; rfl) fun _ => rfl)
  apm2 := by
    rw [updateContext_tables]
    exact p.apm2.nudged_train bit
  apm3 := by
    rw [updateContext_tables]
    exact p.apm3.nudged_train bit
  apm5 := by
    rw [updateContext_tables]
    exact p.apm5.nudged_train bit
  apm4 := by
    rw [updateContext_tables]
    exact p.apm4.nudged_train bit
  inByte h := by
    have hin : 2 * p.c0.toNat + bit.toNat ≤ 255 := by
      have := bit.toNat_lt
      omega
    rw [updateContext_inByte ((p.train bit).transition tbl bit) bit hin]
    exact ⟨Nat.mod_eq_of_lt (Nat.lt_succ_of_le hin), rfl, rfl, rfl, rfl⟩
  atByteEnd h := by
    intro byte run
    have hend : 255 < 2 * p.c0.toNat + bit.toNat := by omega
    have hc4 : (p.c4.toNat <<< 8 ||| byte) % 2 ^ 32 = (p.c4.toNat * 256 + byte) % 2 ^ 32 := by
      rw [← Nat.shiftLeft_add_eq_or_of_lt (show byte < 2 ^ 8 from Nat.mod_lt _ (by decide)), Nat.shiftLeft_eq]
    rw [updateContext_atByteEnd ((p.train bit).transition tbl bit) bit hend]
    exact ⟨rfl, rfl, hc4, Nat.mod_eq_of_lt (p.runAfter_lt byte), rfl⟩

end Sys2Proof.Machine

namespace Sys2Proof

open Machine

/-- Settles O45: training stays in range, and the eight bits of a byte are seven inside it and one that completes it. -/
theorem updateTrainsAndRollsTheContext : Obligations.UpdateTrainsAndRollsTheContext := by
  refine ⟨fun tbl p bit => ⟨_, p.learned_update tbl bit, rfl⟩,
    fun t bit => ⟨smTrained_toNat t bit, apmTrained_toNat t bit⟩, fun p v hidle => ?_⟩
  obtain ⟨hc0, hbpos, _⟩ := hidle
  intro run
  have hrun : p.runAfter v.toNat = run := p.runAfter_eq v
  rw [p.foldl_updateContext_byte v hc0, p.takeByte_eq v hc0 hbpos, hrun, runClass]

end Sys2Proof

/-! SUPPORT. What a lookup in an APM answers and leaves in its index register, and the keys of the four stages in plain
arithmetic (45_cm_predictor.md R277, R279). -/

namespace Sys2Proof.Machine

/-! ## A lookup -/

/-- The lower of the two bins a probability lies between (45_cm_predictor.md R277). -/
def Apm.bin (pr : Nat) : Nat := (stretch pr + 2048).toNat / 128

/-- How far a probability lies from its lower bin, in 128ths of a step (45_cm_predictor.md R277). -/
def Apm.weight (pr : Nat) : Nat := (stretch pr + 2048).toNat % 128

/-- No probability has the last bin for its lower one. -/
theorem Apm.bin_lt (pr : Nat) : Apm.bin pr < 32 := by
  obtain ⟨_, hhi, _⟩ := stretch_least pr
  unfold Apm.bin
  omega

/-- A lookup answers the mean of two neighbouring bins, weighted by the place between them (45_cm_predictor.md R277). -/
theorem Apm.get_fst {iw : Nat} (m : Apm iw) (pr : Nat) {cx key : Nat} (hkey : cx = key) : (m.get pr cx).1 =
    ((m.entry (Apm.bin pr + key * 33)).toNat * (128 - Apm.weight pr) +
      (m.entry (Apm.bin pr + key * 33 + 1)).toNat * Apm.weight pr) / 2048 := by
  simp only [hkey, Apm.get, Apm.bin, Apm.weight, Config.cmApmBins, Nat.shiftRight_eq_div_pow, Nat.reducePow]

/-- The index register takes the lower bin whole where the map's rows fit its width (45_cm_predictor.md R277, R279). -/
theorem Apm.get_idx {iw : Nat} (m : Apm iw) (pr : Nat) {cx key rows : Nat} (hkey : cx = key) (hlt : cx < rows)
    (hfits : rows * 33 ≤ 2 ^ iw) : (m.get pr cx).2.idx.toNat = Apm.bin pr + key * 33 := by
  have hbin := Apm.bin_lt pr
  have hregister : (m.get pr cx).2.idx = BitVec.ofNat iw (Apm.bin pr + cx * 33) := by
    simp only [Apm.get, Apm.bin, Config.cmApmBins, Nat.shiftRight_eq_div_pow, Nat.reducePow]
  rw [hregister, BitVec.toNat_ofNat, Nat.mod_eq_of_lt (by omega), hkey]

/-- A lookup answers a 12-bit probability. -/
theorem Apm.get_fst_lt {iw : Nat} (m : Apm iw) (pr cx : Nat) : (m.get pr cx).1 < 4096 := by
  have hbound (e : BitVec 16) (n : Nat) : e.toNat * n ≤ 65535 * n := Nat.mul_le_mul_right n (Nat.le_of_lt_succ e.isLt)
  have hlo := hbound (m.entry (Apm.bin pr + cx * 33)) (128 - Apm.weight pr)
  have hhi := hbound (m.entry (Apm.bin pr + cx * 33 + 1)) (Apm.weight pr)
  have hweight : Apm.weight pr < 128 := Nat.mod_lt _ (by decide)
  rw [Apm.get_fst m pr rfl]
  omega

/-! ## The keys -/

/-- A byte put before the bits of another is a sum. -/
theorem byte_or_shiftLeft (b : Byte) (n : Nat) : b.toNat ||| (n <<< 8) = b.toNat + 256 * n := by
  rw [Nat.or_comm, ← Nat.shiftLeft_add_eq_or_of_lt b.isLt, Nat.shiftLeft_eq]
  omega

section
variable (p : Predictor)

/-- The match flag: the last byte with a 1 before it starts with the partial byte (45_cm_predictor.md R279). -/
theorem Predictor.mflag_eq :
    p.mflag = if (256 + p.c4.toNat % 256) / 2 ^ (8 - p.bpos.toNat) = p.c0.toNat then 1 else 0 := by
  have hmarked : p.c1 ||| 256 = 256 + p.c4.toNat % 256 := by
    rw [Predictor.c1, Nat.or_comm]
    exact (Nat.shiftLeft_add_eq_or_of_lt (i := 8) (Nat.mod_lt _ (by decide)) 1).symm
  rw [Predictor.mflag, hmarked, Nat.shiftRight_eq_div_pow]

theorem Predictor.key2_eq : p.key2 = p.c0.toNat +
    256 * if (256 + p.c4.toNat % 256) / 2 ^ (8 - p.bpos.toNat) = p.c0.toNat then 1 else 0 := by
  rw [← p.mflag_eq]
  exact byte_or_shiftLeft _ _

theorem Predictor.key3_eq : p.key3 = p.c0.toNat + 256 * p.runCtx.toNat := byte_or_shiftLeft _ _

theorem Predictor.key5_eq : p.key5 = (p.c4.toNat * 0x9E3779B1 % 2 ^ 32 / 2 ^ 16) ^^^ p.c0.toNat := by
  rw [Predictor.key5, Nat.shiftRight_eq_div_pow, Config.cmHashMul]

theorem Predictor.key2_lt : p.key2 < 512 := by
  rw [key2_eq]
  split <;> omega

theorem Predictor.key3_lt : p.key3 < 1024 := by
  rw [key3_eq]
  omega

theorem Predictor.key5_lt : p.key5 < 65536 := by
  rw [key5_eq]
  exact Nat.xor_lt_two_pow (n := 16) (by omega) (p.c0.isLt.trans (by decide))

theorem Predictor.key4_lt : p.key4 < 256 := p.c0.isLt

/-! ## The chain -/

/-- What the StateMap says in the coded context, before the maps refine it (45_cm_predictor.md R275). -/
def Predictor.p0 : Nat := (symGet p.sm (symGet p.states p.c0)).toNat >>> 4

/-- The first stage: the map under the partial byte and the match flag (45_cm_predictor.md R280). -/
def Predictor.p2 : Nat := (p.apm2.get p.p0 p.key2).1

/-- The second stage: the map under the partial byte and the run class (45_cm_predictor.md R280). -/
def Predictor.p3 : Nat := (p.apm3.get p.p2 p.key3).1

/-- The third stage before it is averaged with the second (45_cm_predictor.md R280). -/
def Predictor.q5 : Nat := (p.apm5.get p.p3 p.key5).1

/-- The third stage (45_cm_predictor.md R280). -/
def Predictor.p5 : Nat := (p.q5 + p.p3 + 1) / 2

/-- The last stage before it is averaged with the third (45_cm_predictor.md R280). -/
def Predictor.q4 : Nat := (p.apm4.get p.p5 p.key4).1

/-- The stages are what `Predict` computes, and it leaves the mean of the last and its input. -/
theorem Predictor.predict_eq : p.predict = { p with
    smIdx := symGet p.states p.c0
    apm2 := (p.apm2.get p.p0 p.key2).2
    apm3 := (p.apm3.get p.p2 p.key3).2
    apm5 := (p.apm5.get p.p3 p.key5).2
    apm4 := (p.apm4.get p.p5 p.key4).2
    pred := BitVec.ofNat 12 ((p.q4 + p.p5 + 1) / 2) } := rfl

/-- The mean of two 12-bit probabilities, rounded to nearest, is one. -/
theorem Predictor.mean_lt : (p.q4 + p.p5 + 1) / 2 < 4096 := by
  have h3 : p.p3 < 4096 := Apm.get_fst_lt _ _ _
  have h5 : p.q5 < 4096 := Apm.get_fst_lt _ _ _
  have h4 : p.q4 < 4096 := Apm.get_fst_lt _ _ _
  unfold Predictor.p5
  omega

end

end Sys2Proof.Machine

namespace Sys2Proof

open Machine

/-- Settles O46: each stage is one lookup under its key, whose rows fit the index register of its map. -/
theorem predictRunsTheChain : Obligations.PredictRunsTheChain := by
  intro p
  refine ⟨p.p2, p.p3, p.q5, p.q4, ?_⟩
  intro si p0 p5 bin mix mflag key2 key3 key5 key4 i2 i3 i5 i4
  have hkey2 : p.key2 = key2 := p.key2_eq
  have hkey3 : p.key3 = key3 := p.key3_eq
  have hkey5 : p.key5 = key5 := p.key5_eq
  have hpred : p.predict.pred.toNat = (p.q4 + p5 + 1) / 2 := Nat.mod_eq_of_lt p.mean_lt
  rw [p.predict_eq] at hpred ⊢
  exact ⟨Apm.get_fst _ _ hkey2, Apm.get_fst _ _ hkey3, Apm.get_fst _ _ hkey5, Apm.get_fst _ _ rfl,
    hkey2 ▸ p.key2_lt, hkey3 ▸ p.key3_lt, hkey5 ▸ p.key5_lt, p.key4_lt,
    Apm.bin_lt _, Apm.bin_lt _, Apm.bin_lt _, Apm.bin_lt _, p.mean_lt, rfl,
    Apm.get_idx _ _ hkey2 p.key2_lt (by decide), Apm.get_idx _ _ hkey3 p.key3_lt (by decide),
    Apm.get_idx _ _ hkey5 p.key5_lt (by decide), Apm.get_idx _ _ rfl p.key4_lt (by decide), hpred⟩

end Sys2Proof

/-! SUPPORT. The renormalisation of the context-mixing coder by the bytes it shifts out, and a list of bits as the parts of the
interval they select one after the other, on either side (46_cm_coder.md R301 to R306, R308). -/

namespace Sys2Proof.Machine

/-! ## The bytes shifted out -/

/-- An interval as (low, high). -/
def CmCoder.ends (x : CmCoder) : Nat × Nat := (x.low.toNat, x.high.toNat)

/-- The byte a shift moves: the first of `high`, and where it is due of `low` too (46_cm_coder.md R302, R303). -/
def CmCoder.topByte (x : CmCoder) : List Bool := bitsMsb (x.high.toNat >>> 24) 8

@[simp] theorem CmCoder.topByte_length (x : CmCoder) : x.topByte.length = 8 := bitsMsb_length _ _

theorem CmCoder.bitsValue_topByte (x : CmCoder) : bitsValue x.topByte = x.high.toNat / 2 ^ 24 := by
  have hlt := x.high.isLt
  rw [CmCoder.topByte, bitsValue_bitsMsb, Nat.shiftRight_eq_div_pow]
  omega

theorem cmShifted_nil (x : CmCoder) : CmShifted x.ends x [] := by
  simp [CmShifted, CmCoder.ends, bitsValue]

section
variable {x z : CmCoder} {out : List Bool}

theorem CmShifted.eq_of_nil (h : CmShifted x.ends z []) (hp : z.p = x.p) : z = x := by
  obtain ⟨_, hlow, hhigh⟩ := h
  simp only [CmCoder.ends, bitsValue, List.foldl_nil, List.length_nil] at hlow hhigh
  have hl : z.low = x.low := BitVec.eq_of_toNat_eq (by omega)
  have hh : z.high = x.high := BitVec.eq_of_toNat_eq (by omega)
  obtain ⟨zlow, zhigh, zp⟩ := z
  exact congr (congr (congrArg CmCoder.mk hl) hh) hp

/-- Whole bytes are shifted out (46_cm_coder.md R303). -/
theorem CmShifted.bytes {i : Nat × Nat} (h : CmShifted i z out) : 8 ∣ out.length := by
  obtain ⟨hbytes, _⟩ := h
  exact hbytes

/-- One shift in front of the others (46_cm_coder.md R303). -/
theorem CmShifted.cons (hdue : x.due) (h : CmShifted x.shifted.ends z out) : CmShifted x.ends z (x.topByte ++ out) := by
  obtain ⟨hbytes, hlow, hhigh⟩ := h
  simp only [CmCoder.ends, x.shifted_low, x.shifted_high] at hlow hhigh
  have hpow : 2 ^ (8 + out.length) = 256 * 2 ^ out.length := Nat.pow_add 2 8 _
  have hl : x.low.toNat = x.high.toNat / 2 ^ 24 * 2 ^ 24 + x.low.toNat % 2 ^ 24 := by
    rw [← show x.low.toNat / 2 ^ 24 = x.high.toNat / 2 ^ 24 from hdue, Nat.div_add_mod']
  have hh : x.high.toNat + 1 = x.high.toNat / 2 ^ 24 * 2 ^ 24 + (x.high.toNat % 2 ^ 24 + 1) := by
    rw [← Nat.add_assoc, Nat.div_add_mod']
  refine ⟨?_, ?_, ?_⟩
  · rw [List.length_append, x.topByte_length]
    exact Nat.dvd_add (dvd_refl 8) hbytes
  · rw [List.length_append, x.topByte_length, hpow, bitsValue_append, x.bitsValue_topByte, Nat.add_mul, Nat.add_assoc, hlow]
    calc _ = (x.high.toNat / 2 ^ 24 * 2 ^ 24 + x.low.toNat % 2 ^ 24) * (256 * 2 ^ out.length) := by ring
      _ = x.low.toNat * (256 * 2 ^ out.length) := by rw [← hl]
  · rw [List.length_append, x.topByte_length, hpow, bitsValue_append, x.bitsValue_topByte, Nat.add_mul, Nat.add_assoc,
      Nat.add_assoc, ← Nat.add_assoc (bitsValue out * _), hhigh]
    calc _ = (x.high.toNat / 2 ^ 24 * 2 ^ 24 + (x.high.toNat % 2 ^ 24 + 1)) * (256 * 2 ^ out.length) := by ring
      _ = (x.high.toNat + 1) * (256 * 2 ^ out.length) := by rw [← hh]

/-- A number with a first byte `B` in front of a rest, read as an end of an interval scaled up: its first byte is `B`, and the
rest goes on from what is behind it. -/
theorem firstByte_of_scaled {B R N z i e : Nat} (hR : R < N) (hz : z < 2 ^ 32) (he : e < 256 * N)
    (h : (B * N + R) * 2 ^ 32 + z = i * (256 * N) + e) : i / 2 ^ 24 = B ∧ R * 2 ^ 32 + z = i % 2 ^ 24 * 256 * N + e := by
  have hi : (i * (256 * N) + e) / (256 * N) = i := by
    rw [Nat.add_comm, Nat.add_mul_div_right _ _ (by omega), Nat.div_eq_of_lt he, Nat.zero_add]
  have hB : ((B * N + R) * 2 ^ 32 + z) / (256 * N * 2 ^ 24) = B := by
    have hsplit : (B * N + R) * 2 ^ 32 + z = (R * 2 ^ 32 + z) + B * (256 * N * 2 ^ 24) := by ring
    rw [hsplit, Nat.add_mul_div_right _ _ (by omega), Nat.div_eq_of_lt (by omega), Nat.zero_add]
  have hfirst : i / 2 ^ 24 = B := by rw [← hB, h, ← Nat.div_div_eq_div_mul, hi]
  refine ⟨hfirst, ?_⟩
  have hwhole : i * (256 * N) = B * N * 2 ^ 32 + i % 2 ^ 24 * 256 * N := by
    conv_lhs => rw [← Nat.div_add_mod' i (2 ^ 24), hfirst]
    ring
  rw [hwhole, Nat.add_mul, Nat.add_assoc, Nat.add_assoc] at h
  exact Nat.add_left_cancel h

/-- Where bytes are shifted out, one is due, and the first of them is the interval's (46_cm_coder.md R303). -/
theorem CmShifted.uncons (h : CmShifted x.ends z out) (hout : out ≠ []) :
    x.due ∧ ∃ rest, out = x.topByte ++ rest ∧ CmShifted x.shifted.ends z rest := by
  obtain ⟨hbytes, hlow, hhigh⟩ := h
  have hlong : 8 ≤ out.length := Nat.le_of_dvd (List.length_pos_of_ne_nil hout) hbytes
  obtain ⟨byte, rest, hbyte, rfl⟩ : ∃ byte rest, byte.length = 8 ∧ out = byte ++ rest :=
    ⟨out.take 8, out.drop 8, by rw [List.length_take]; omega, (List.take_append_drop 8 out).symm⟩
  rw [List.length_append, hbyte] at hbytes hlow hhigh
  rw [bitsValue_append, Nat.pow_add] at hlow hhigh
  have hrest := bitsValue_lt rest
  have hpos := Nat.two_pow_pos rest.length
  have hlast : (x.high.toNat + 1) * (256 * 2 ^ rest.length) =
      x.high.toNat * (256 * 2 ^ rest.length) + (256 * 2 ^ rest.length - 1) + 1 := by
    rw [Nat.succ_mul, Nat.add_assoc, Nat.sub_add_cancel (by omega)]
  obtain ⟨hfirstLow, hrestLow⟩ := firstByte_of_scaled hrest z.low.isLt (e := 0) (by omega) hlow
  obtain ⟨hfirstHigh, hrestHigh⟩ := firstByte_of_scaled (e := 256 * 2 ^ rest.length - 1) hrest z.high.isLt (by omega)
    (Nat.succ.inj (hhigh.trans hlast))
  refine ⟨hfirstLow.trans hfirstHigh.symm, rest, ?_, (Nat.dvd_add_right (dvd_refl 8)).mp hbytes, ?_, ?_⟩
  · rw [CmCoder.topByte, Nat.shiftRight_eq_div_pow, hfirstHigh, ← hbyte, bitsMsb_bitsValue]
  · simp only [CmCoder.ends, x.shifted_low]
    exact hrestLow
  · simp only [CmCoder.ends, x.shifted_high]
    rw [Nat.add_assoc _ 255 1, Nat.add_mul, hrestHigh, Nat.add_assoc, Nat.sub_add_cancel (by omega)]

/-- Behind four shifts or more the interval is the whole one (46_cm_coder.md R303). -/
theorem CmShifted.whole {i : Nat × Nat} (h : CmShifted i z out) (hlong : 32 ≤ out.length) :
    z.low.toNat = 0 ∧ z.high.toNat = 2 ^ 32 - 1 := by
  obtain ⟨_, hlow, hhigh⟩ := h
  have hl := z.low.isLt
  have hh := z.high.isLt
  obtain ⟨k, hk⟩ := Nat.exists_eq_add_of_le hlong
  rw [hk, Nat.pow_add, Nat.mul_left_comm] at hlow hhigh
  omega

/-- There are at most four shifts (46_cm_coder.md R303). -/
theorem CmShifted.length_le {i : Nat × Nat} (h : CmShifted i z out) : out.length ≤ 32 := by
  by_contra hlong
  obtain ⟨hzlow, hzhigh⟩ := h.whole (by omega)
  obtain ⟨_, hlow, hhigh⟩ := h
  obtain ⟨k, hk⟩ := Nat.exists_eq_add_of_le (show 33 ≤ out.length by omega)
  rw [hk, Nat.pow_add, Nat.mul_left_comm] at hlow hhigh
  omega

/-- Shifts lead from an interval that is not empty to one that is not (46_cm_coder.md R303). -/
theorem CmShifted.le {i : Nat × Nat} (h : CmShifted i z out) (hi : i.1 ≤ i.2) : z.low.toNat ≤ z.high.toNat := by
  obtain ⟨_, hlow, hhigh⟩ := h
  have hpow := Nat.two_pow_pos out.length
  have hends : i.1 * 2 ^ out.length ≤ i.2 * 2 ^ out.length := Nat.mul_le_mul_right _ hi
  rw [Nat.succ_mul] at hhigh
  omega

end

/-- A renormalisation that ends has shifted the interval until no byte is due, at most four times and fewer where its low
bytes are already shifted in (46_cm_coder.md R303). -/
theorem cmRenorm_shifted {σ : Type} {shift : CmCoder → σ → Run σ Unit} {fuel j : Nat} {x z : CmCoder} {u u' : σ}
    (hj : fuel + j = 4) (hlow : 2 ^ (8 * j) ∣ x.low.toNat) (hhigh : 2 ^ (8 * j) ∣ x.high.toNat + 1)
    (h : cmRenorm shift fuel (x, u) = .ok () (z, u')) : ∃ out, CmShifted x.ends z out ∧ ¬ z.due ∧ z.p = x.p := by
  induction fuel generalizing x u j with
  | zero =>
    cases h
    obtain rfl : j = 4 := by omega
    have hl := z.low.isLt
    have hh := z.high.isLt
    refine ⟨[], cmShifted_nil z, ?_, rfl⟩
    unfold CmCoder.due
    omega
  | succ fuel ih =>
    rw [cmRenorm] at h
    split at h
    · rename_i hs
      split at h
      · cases h
      · have hlow' : 2 ^ (8 * (j + 1)) ∣ x.shifted.low.toNat := by
          rw [x.shifted_low, Nat.mul_succ, Nat.pow_add]
          exact Nat.mul_dvd_mul ((Nat.dvd_mod_iff (Nat.pow_dvd_pow 2 (by omega))).mpr hlow) (dvd_refl _)
        have hhigh' : 2 ^ (8 * (j + 1)) ∣ x.shifted.high.toNat + 1 := by
          have hrest : x.high.toNat + 1 = 2 ^ 24 * (x.high.toNat / 2 ^ 24) + (x.high.toNat % 2 ^ 24 + 1) := by omega
          rw [hrest] at hhigh
          rw [x.shifted_high, show x.high.toNat % 2 ^ 24 * 256 + 255 + 1 = (x.high.toNat % 2 ^ 24 + 1) * 2 ^ 8 by omega,
            Nat.mul_succ, Nat.pow_add]
          exact Nat.mul_dvd_mul ((Nat.dvd_add_right ((Nat.pow_dvd_pow 2 (by omega)).mul_right _)).mp hhigh) (dvd_refl _)
        obtain ⟨out, hshifted, hend, hp⟩ := ih (j := j + 1) (by omega) hlow' hhigh' h
        exact ⟨_, hshifted.cons (x.settled_iff.mp hs), hend, hp⟩
    · rename_i hs
      cases h
      exact ⟨[], cmShifted_nil z, fun hdue => hs (z.settled_iff.mpr hdue), rfl⟩

/-! ## A bit -/

section
variable {tbl : Vector StateEntry 256} {x : CmCoder}

/-- Between bits the interval has more than one point (46_cm_coder.md R308). -/
theorem CmCoder.Inv.lt (hx : x.Inv) : x.low.toNat < x.high.toNat := by
  obtain ⟨hlt, _⟩ := hx
  exact hlt

/-- The interval a bit is narrowed to, in the statements' words (46_cm_coder.md R301, R302). -/
theorem CmCoder.Inv.bitPart_eq (hx : x.Inv) (bit : Bool) : x.bitPart bit = (x.resolve tbl bit).ends := by
  obtain ⟨hlow, hhigh⟩ := CmCoder.resolve_ends hx.lt tbl bit
  have hsplit : x.split = x.low.toNat + (x.high.toNat - x.low.toNat) / 4096 * x.p.pred.toNat := by
    rw [CmCoder.split, Nat.shiftRight_eq_div_pow]
  rw [CmCoder.ends, hlow, hhigh, hsplit]
  cases bit <;> rfl

/-- A renormalisation behind a bit that ends has coded the bit (46_cm_coder.md R302, R303, R305). -/
theorem cmRenorm_bit {σ : Type} {shift : CmCoder → σ → Run σ Unit} {y : CmCoder} {u u' : σ} {bit : Bool} (hx : x.Inv)
    (h : cmRenorm shift cmShifts (x.resolve tbl bit, u) = .ok () (y, u')) : ∃ out, CmBit tbl x bit y out := by
  obtain ⟨out, hshifted, hend, hp⟩ := cmRenorm_shifted (fuel := cmShifts) (j := 0) rfl (one_dvd _) (one_dvd _) h
  rw [← hx.bitPart_eq] at hshifted
  exact ⟨out, hshifted, hend, hp⟩

/-- Every bit can be coded. -/
theorem exists_cmBit (hx : x.Inv) (bit : Bool) : ∃ y out, CmBit tbl x bit y out := by
  have hmove := cmRenorm_keeps (σ := Unit) (Q := fun _ => True) (E := fun _ => False) (shift := fun _ u => .ok () u)
    (fun _ _ h => h) cmShifts (x.resolve tbl bit, ()) trivial
  cases h : cmRenorm (fun _ u => .ok () u) cmShifts (x.resolve tbl bit, ()) with
  | ok _ t => exact ⟨t.1, cmRenorm_bit hx h⟩
  | stop r t => exact absurd (hmove.of_stop h).2 not_false

section
variable {y : CmCoder} {bit : Bool} {out : List Bool} (h : CmBit tbl x bit y out) (hx : x.Inv)
include h hx

/-- The interval behind a bit meets the invariant again (46_cm_coder.md R308). -/
theorem CmBit.inv : y.Inv := by
  obtain ⟨hshifted, hend, _⟩ := h
  have hle := CmCoder.resolve_le hx.lt tbl bit
  rw [hx.bitPart_eq (tbl := tbl)] at hshifted
  have htop : y.low.toNat / 2 ^ 24 ≠ y.high.toNat / 2 ^ 24 := hend
  refine ⟨Nat.lt_of_le_of_ne (hshifted.le hle) fun heq => htop (congrArg (· / 2 ^ 24) heq), ?_⟩
  rwa [Nat.shiftRight_eq_div_pow, Nat.shiftRight_eq_div_pow]

/-- The bytes shifted out and the interval behind a bit stand for a part of the interval before it (46_cm_coder.md R302). -/
theorem CmBit.inside : x.low.toNat * 2 ^ out.length ≤ bitsValue out * 2 ^ 32 + y.low.toNat ∧
    bitsValue out * 2 ^ 32 + y.high.toNat + 1 ≤ (x.high.toNat + 1) * 2 ^ out.length := by
  obtain ⟨⟨_, hlow, hhigh⟩, _⟩ := h
  obtain ⟨hends₁, hends₂⟩ := CmCoder.resolve_ends hx.lt tbl bit
  obtain ⟨hsplit₁, hsplit₂⟩ := CmCoder.split_within hx.lt
  rw [hx.bitPart_eq (tbl := tbl)] at hlow hhigh
  rw [hlow, hhigh]
  refine ⟨Nat.mul_le_mul_right _ ?_, Nat.mul_le_mul_right _ (Nat.succ_le_succ ?_)⟩
  · show _ ≤ (x.resolve tbl bit).low.toNat
    rw [hends₁]
    split <;> omega
  · show (x.resolve tbl bit).high.toNat ≤ _
    rw [hends₂]
    split <;> omega

end

end

end Sys2Proof.Machine

/-! SUPPORT. A list of bits coded one after the other, and the predictor between symbols: eight bits leave it idle again
(46_cm_coder.md R302, R306, R308; 45_cm_predictor.md R281, R282). -/

namespace Sys2Proof.Machine

/-! ## The context behind a symbol -/

/-- Two predictors with the same context registers (10_state.md R40). -/
structure Predictor.SameContext (p q : Predictor) : Prop where
  c0 : p.c0 = q.c0
  c4 : p.c4 = q.c4
  bpos : p.bpos = q.bpos
  run : p.run = q.run
  runCtx : p.runCtx = q.runCtx

theorem Predictor.SameContext.refl (p : Predictor) : p.SameContext p := ⟨rfl, rfl, rfl, rfl, rfl⟩

/-- `Update` moves the context registers as `UpdateContext` does: training, transition and prediction leave them
(45_cm_predictor.md R281). -/
theorem Predictor.SameContext.update {p q : Predictor} (h : p.SameContext q) (tbl : Vector StateEntry 256) (bit : Bool) :
    (p.update tbl bit).SameContext (q.updateContext bit) := by
  obtain ⟨hc0, hc4, hbpos, hrun, hrunCtx⟩ := h
  have htrained : ((p.train bit).transition tbl bit).SameContext q := ⟨hc0, hc4, hbpos, hrun, hrunCtx⟩
  show (((p.train bit).transition tbl bit).updateContext bit).predict.SameContext _
  generalize (p.train bit).transition tbl bit = r at htrained ⊢
  obtain ⟨rc0, rc4, rbpos, rrun, rrunCtx⟩ := htrained
  rw [Predictor.predict_eq]
  rcases Nat.lt_or_ge 255 (2 * q.c0.toNat + bit.toNat) with hend | hin
  · rw [updateContext_atByteEnd q bit hend, updateContext_atByteEnd r bit (rc0 ▸ hend)]
    constructor <;> simp only [Predictor.takeByte, Predictor.runAfter, rc0, rc4, rrun]
  · rw [updateContext_inByte q bit hin, updateContext_inByte r bit (rc0 ▸ hin)]
    exact ⟨by rw [rc0], rc4, by rw [rbpos], rrun, rrunCtx⟩

theorem Predictor.SameContext.predictorRun {p q : Predictor} (h : p.SameContext q) (tbl : Vector StateEntry 256) (l : List Bool) :
    (predictorRun tbl p l).SameContext (l.foldl Predictor.updateContext q) := by
  induction l generalizing p q with
  | nil => exact h
  | cons bit l ih => exact ih (h.update tbl bit)

/-- The bits of a symbol leave the predictor idle again (46_cm_coder.md R306, 45_cm_predictor.md R282). -/
theorem Predictor.Idle.symbol {p : Predictor} (h : p.Idle) (tbl : Vector StateEntry 256) (v : Byte) :
    (predictorRun tbl p (bitsMsb v.toNat 8)).Idle := by
  obtain ⟨hc0, hbpos, _⟩ := h
  have hsame := (Predictor.SameContext.refl p).predictorRun tbl (bitsMsb v.toNat 8)
  rw [p.foldl_updateContext_byte v hc0] at hsame
  have hrun : (p.takeByte v.toNat).run.toNat = p.runAfter v.toNat := Nat.mod_eq_of_lt (p.runAfter_lt _)
  refine ⟨hsame.c0, hsame.bpos, ?_⟩
  rw [hsame.runCtx, hsame.run, hrun]
  rfl

/-! ## Lists of bits -/

section
variable {tbl : Vector StateEntry 256} {x x' : CmCoder} {l : List Bool} {out : List Bool}

/-- Every list of bits can be coded. -/
theorem exists_cmBits (hx : x.Inv) (l : List Bool) : ∃ x' out, CmBits tbl x l x' out := by
  induction l generalizing x with
  | nil => exact ⟨x, [], rfl, rfl⟩
  | cons bit l ih =>
    obtain ⟨y, o₁, hbit⟩ := exists_cmBit (tbl := tbl) hx bit
    obtain ⟨x', o₂, hrest⟩ := ih (hbit.inv hx)
    exact ⟨x', o₁ ++ o₂, y, o₁, o₂, rfl, hbit, hrest⟩

/-- Two lists of bits, one after the other. -/
theorem CmBits.append {y : CmCoder} {m : List Bool} {o₁ o₂ : List Bool} (h : CmBits tbl x l y o₁) (k : CmBits tbl y m x' o₂) :
    CmBits tbl x (l ++ m) x' (o₁ ++ o₂) := by
  induction l generalizing x o₁ with
  | nil =>
    obtain ⟨rfl, rfl⟩ := h
    exact k
  | cons bit l ih =>
    obtain ⟨z, o, o', rfl, hbit, hrest⟩ := h
    exact ⟨z, o, o' ++ o₂, List.append_assoc _ _ _, hbit, ih hrest⟩

/-- The predictor sees the bits in order (46_cm_coder.md R306). -/
theorem CmBits.predictor (h : CmBits tbl x l x' out) : x'.p = predictorRun tbl x.p l := by
  induction l generalizing x out with
  | nil =>
    obtain ⟨rfl, _⟩ := h
    rfl
  | cons bit l ih =>
    obtain ⟨y, o₁, o₂, _, ⟨_, _, hp⟩, hrest⟩ := h
    rw [ih hrest, hp]
    rfl

/-- Whole bytes go out, at most four for each bit (46_cm_coder.md R303). -/
theorem CmBits.length_out (h : CmBits tbl x l x' out) : 8 ∣ out.length ∧ out.length ≤ 32 * l.length := by
  induction l generalizing x out with
  | nil =>
    obtain ⟨_, rfl⟩ := h
    exact ⟨dvd_zero 8, le_refl _⟩
  | cons bit l ih =>
    obtain ⟨y, o₁, o₂, rfl, ⟨hshifted, _⟩, hrest⟩ := h
    obtain ⟨hbytes, hle⟩ := ih hrest
    have hfirst := hshifted.length_le
    rw [List.length_append, List.length_cons]
    exact ⟨Nat.dvd_add hshifted.bytes hbytes, by omega⟩

/-- The interval behind a list of bits meets the invariant again (46_cm_coder.md R308). -/
theorem CmBits.inv (h : CmBits tbl x l x' out) (hx : x.Inv) : x'.Inv := by
  induction l generalizing x out with
  | nil =>
    obtain ⟨rfl, _⟩ := h
    exact hx
  | cons bit l ih =>
    obtain ⟨y, o₁, o₂, _, hbit, hrest⟩ := h
    exact ih hrest (hbit.inv hx)

/-- What goes out and the interval behind a list of bits stand for a part of the interval before it (46_cm_coder.md R302). -/
theorem CmBits.inside (h : CmBits tbl x l x' out) (hx : x.Inv) :
    x.low.toNat * 2 ^ out.length ≤ bitsValue out * 2 ^ 32 + x'.low.toNat ∧
      bitsValue out * 2 ^ 32 + x'.high.toNat + 1 ≤ (x.high.toNat + 1) * 2 ^ out.length := by
  induction l generalizing x out with
  | nil =>
    obtain ⟨rfl, rfl⟩ := h
    simp [bitsValue]
  | cons bit l ih =>
    obtain ⟨y, o₁, o₂, rfl, hbit, hrest⟩ := h
    obtain ⟨hlow₁, hhigh₁⟩ := hbit.inside hx
    obtain ⟨hlow₂, hhigh₂⟩ := ih hrest (hbit.inv hx)
    rw [List.length_append, bitsValue_append, Nat.pow_add, ← Nat.mul_assoc, ← Nat.mul_assoc]
    constructor
    · calc _ ≤ (bitsValue o₁ * 2 ^ 32 + y.low.toNat) * 2 ^ o₂.length := Nat.mul_le_mul_right _ hlow₁
        _ = bitsValue o₁ * 2 ^ o₂.length * 2 ^ 32 + y.low.toNat * 2 ^ o₂.length := by ring
        _ ≤ bitsValue o₁ * 2 ^ o₂.length * 2 ^ 32 + (bitsValue o₂ * 2 ^ 32 + x'.low.toNat) := Nat.add_le_add_left hlow₂ _
        _ = _ := by ring
    · calc _ = bitsValue o₁ * 2 ^ o₂.length * 2 ^ 32 + (bitsValue o₂ * 2 ^ 32 + x'.high.toNat + 1) := by ring
        _ ≤ bitsValue o₁ * 2 ^ o₂.length * 2 ^ 32 + (y.high.toNat + 1) * 2 ^ o₂.length := Nat.add_le_add_left hhigh₂ _
        _ = (bitsValue o₁ * 2 ^ 32 + y.high.toNat + 1) * 2 ^ o₂.length := by ring
        _ ≤ _ := Nat.mul_le_mul_right _ hhigh₁

/-- The eight bits of a symbol coded from an idle coder are the symbol coded (46_cm_coder.md R306, R308). -/
theorem CmBits.step {v : Byte} (h : CmBits tbl x (bitsMsb v.toNat 8) x' out) (hx : x.Inv) (hidle : x.p.Idle) :
    CmStep tbl x x' v out := by
  obtain ⟨hbytes, hlen⟩ := h.length_out
  obtain ⟨hlow, hhigh⟩ := h.inside hx
  exact ⟨h.inv hx, h.predictor ▸ hidle.symbol tbl v, h.predictor, h, hbytes, hlen, hlow, hhigh⟩

end

/-! ## Procedures that end -/

section
variable {tbl : Vector StateEntry 256}

/-- CME that codes the low bits of a symbol to their end has coded them one after the other (46_cm_coder.md R302, R306). -/
theorem cmEncodeBits_ok {v : Byte} {k : Nat} {t t' : CmeSide} (hx : t.1.Inv) (h : cmEncodeBits tbl v k t = .ok () t') :
    ∃ out, CmBits tbl t.1 (bitsMsb v.toNat k) t'.1 out := by
  induction k generalizing t with
  | zero =>
    cases h
    exact ⟨[], rfl, rfl⟩
  | succ k ih =>
    obtain ⟨_, ⟨y, b⟩, hfirst, hrest⟩ := andThen_ok h
    obtain ⟨o₁, hbit⟩ := cmRenorm_bit hx hfirst
    obtain ⟨o₂, hbits⟩ := ih (hbit.inv hx) hrest
    exact ⟨o₁ ++ o₂, y, o₁, o₂, rfl, hbit, hbits⟩

/-- CMD that decodes some bits has coded them one after the other on its side (46_cm_coder.md R305, R306). -/
theorem cmDecodeBits_ok {k acc n : Nat} {t t' : CmdSide} (hx : t.1.coder.Inv) (h : cmDecodeBits tbl k acc t = .ok n t') :
    ∃ l out, l.length = k ∧ CmBits tbl t.1.coder l t'.1.coder out := by
  induction k generalizing acc t with
  | zero =>
    cases h
    exact ⟨[], [], rfl, rfl, rfl⟩
  | succ k ih =>
    obtain ⟨bit, t₁, hfirst, hrest⟩ := andThen_ok h
    obtain ⟨y, code, _, hloop, hback⟩ := cmDecodeBit_ok hfirst
    obtain ⟨o₁, hbit⟩ := cmRenorm_bit hx hloop
    have hcoder : t₁.1.coder = y := by rw [hback]
    obtain ⟨l, o₂, hlen, hbits⟩ := ih (hcoder ▸ hbit.inv hx) hrest
    exact ⟨bit :: l, o₁ ++ o₂, congrArg Nat.succ hlen, y, o₁, o₂, rfl, hbit, hcoder ▸ hbits⟩

/-- Eight bits are the bits of a symbol. -/
theorem exists_symbol {l : List Bool} (h : l.length = 8) : ∃ v : Byte, l = bitsMsb v.toNat 8 := by
  have hlt := bitsValue_lt l
  rw [h] at hlt
  refine ⟨BitVec.ofNat 8 (bitsValue l), ?_⟩
  rw [BitVec.toNat_ofNat, Nat.mod_eq_of_lt hlt, ← h, bitsMsb_bitsValue]

/-- Loading the window leaves the interval and the predictor (46_cm_coder.md R304). -/
theorem cmPrime_coder {t t' : CmdSide} (h : cmPrime t = .ok () t') : t'.1.coder = t.1.coder := by
  unfold cmPrime at h
  split at h
  · cases h
    rfl
  · split at h <;> cases h
    rfl

end

/-! ## Live coders -/

/-- A context-mixing coder between symbols (46_cm_coder.md R306, R308). -/
def CmCoder.Ready (x : CmCoder) : Prop := x.Inv ∧ x.p.Idle

/-- A procedure whose every stop kills leaves behind what it does where it ends. -/
theorem leaves_of_kills {σ α : Type} {x : Run σ α} {P Q : σ → Prop} (hstops : x.Meets P (Stop.kills · = true))
    (hends : ∀ a t, x = .ok a t → Q t) : x.Leaves Q := by
  cases x with
  | ok a t => exact hends a t rfl
  | stop r t =>
    obtain ⟨_, hkills⟩ := hstops
    intro hr
    rw [hkills] at hr
    cases hr

/-- A symbol coded leaves CME between symbols (46_cm_coder.md R306, R308). -/
theorem cmEncodeSymbol_leaves (tbl : Vector StateEntry 256) (v : Byte) :
    LeavesAlive (fun t => t.1.Ready) (cmEncodeSymbol tbl v) := by
  rintro t ⟨hinv, hidle⟩
  refine leaves_of_kills (cmEncodeBits_keeps (E := (Stop.kills · = true)) rfl t.2 tbl v 8 t (.refl _)) fun _ t' h => ?_
  obtain ⟨out, hbits⟩ := cmEncodeBits_ok hinv h
  obtain ⟨hinv', hidle', _⟩ := hbits.step hinv hidle
  exact ⟨hinv', hidle'⟩

/-- A symbol decoded leaves CMD between symbols (46_cm_coder.md R306, R308). -/
theorem cmDecodeSymbol_leaves (tbl : Vector StateEntry 256) :
    LeavesAlive (fun t => t.1.coder.Ready) (cmDecodeSymbol tbl) := by
  rintro t ⟨hinv, hidle⟩
  refine leaves_of_kills (cmDecodeSymbol_keeps (E := (Stop.kills · = true)) rfl tbl t t ⟨.inl rfl, .refl _⟩) fun v t' h => ?_
  obtain ⟨_, t₁, hprime, hdec⟩ := andThen_ok h
  obtain ⟨n, t₂, hbits, hend⟩ := andThen_ok hdec
  cases hend
  rw [← cmPrime_coder hprime] at hinv hidle
  obtain ⟨l, out, hlen, hcoded⟩ := cmDecodeBits_ok hinv hbits
  obtain ⟨v, rfl⟩ := exists_symbol hlen
  obtain ⟨hinv', hidle', _⟩ := hcoded.step hinv hidle
  exact ⟨hinv', hidle'⟩

/-- What reset leaves in a context-mixing coder is a coder between symbols (10_state.md R40, R43). -/
theorem cmCoder_reset_ready (tbl : Vector StateEntry 256) : (CmCoder.reset tbl).Ready := by
  refine ⟨?_, rfl, rfl, rfl⟩
  show (0 : Word).toNat < (0xFFFFFFFF : Word).toNat ∧ (0 : Word).toNat >>> 24 ≠ (0xFFFFFFFF : Word).toNat >>> 24
  decide

/-- CME is between symbols. -/
def CmeHolds (s : State) : Prop := s.cme.coder.Ready

/-- CMD is between symbols. -/
def CmdHolds (s : State) : Prop := s.cmd.coder.Ready

theorem cmInv_iff (s : State) : CmInv s ↔ WhileAlive .cme CmeHolds s ∧ WhileAlive .cmd CmdHolds s := Iff.rfl

theorem cmeHolds_fact : UnitFact CmeHolds where
  respond _ _ _ h := h
  setUstat _ u _ h := by cases u <;> exact h

theorem cmdHolds_fact : UnitFact CmdHolds where
  respond _ _ _ h := h
  setUstat _ u _ h := by cases u <;> exact h

/-- The commands of CME (46_cm_coder.md R310 to R315). -/
theorem exec_keeps_cme {i : Instr} (hi : i.unit? = some .cme) {s t : State} (h : WhileAlive .cme CmeHolds s)
    (hexec : exec i s = .next t) : WhileAlive .cme CmeHolds t := by
  cases i with
  | cmeEncbyte v =>
    cases hexec
    exact whileAlive_single cmeHolds_fact (fun _ hs => hs) (fun _ _ ht => ht) h (cmEncodeSymbol_leaves _ v)
      fun _ _ => ⟨_, _, rfl⟩
  | cmeEncode o l =>
    cases hexec
    exact whileAlive_bulkEncode cmeHolds_fact (fun _ hs => hs) (fun _ _ ht => ht) h (cmEncodeSymbol_leaves _) o l
  | cmeDispose =>
    cases hexec
    exact whileAlive_dispose cmeHolds_fact (fun _ _ hs => hs) h
  | cmeInit =>
    cases hexec
    exact whileAlive_init cmeHolds_fact s (cmCoder_reset_ready _)
  | cmeStatus | cmeGetbs =>
    cases hexec
    exact whileAlive_respond cmeHolds_fact h _ _
  | _ => cases hi

/-- The commands of CMD (46_cm_coder.md R316 to R321). -/
theorem exec_keeps_cmd {i : Instr} (hi : i.unit? = some .cmd) {s t : State} (h : WhileAlive .cmd CmdHolds s)
    (hexec : exec i s = .next t) : WhileAlive .cmd CmdHolds t := by
  cases i with
  | cmdDecbyte =>
    cases hexec
    exact whileAlive_single cmdHolds_fact (fun _ hs => hs) (fun _ _ ht => ht) h (cmDecodeSymbol_leaves _)
      fun _ _ => ⟨_, _, rfl⟩
  | cmdDecode o l =>
    cases hexec
    exact whileAlive_bulkDecode cmdHolds_fact (fun _ hs => hs) (fun _ _ ht => ht) h (cmDecodeSymbol_leaves _) o l
  | cmdDispose =>
    cases hexec
    exact whileAlive_dispose cmdHolds_fact (fun _ _ hs => hs) h
  | cmdInit =>
    cases hexec
    exact whileAlive_init cmdHolds_fact s (cmCoder_reset_ready _)
  | cmdStatus | cmdGetbs =>
    cases hexec
    exact whileAlive_respond cmdHolds_fact h _ _
  | _ => cases hi

/-- Reset gives both context-mixing coders their reset values (70_reset_and_hazards.md R371). -/
theorem cmInv_hardReset (s : State) : CmInv s.hardReset := ⟨fun _ => cmCoder_reset_ready _, fun _ => cmCoder_reset_ready _⟩

/-- A fact of one unit's registers that the unit's own commands keep while it is alive, every command but SYS_RESET keeps: it
leaves the registers of the other units (10_state.md R20). -/
theorem whileAlive_exec {u : UnitId} {I : State → Prop} (hregs : ∀ s t : State, s.SameUnit t u → I s → I t)
    (hown : ∀ {i : Instr}, i.unit? = some u → ∀ {s t : State}, WhileAlive u I s → exec i s = .next t → WhileAlive u I t)
    {i : Instr} (hi : i ≠ .sysReset) {s t : State} (h : WhileAlive u I s) (hexec : exec i s = .next t) : WhileAlive u I t := by
  by_cases hunit : i.unit? = some u
  · exact hown hunit h hexec
  · have hsame := (changes_of_exec hi hexec).units u hunit
    intro hdead
    rw [hsame.ustat_eq] at hdead
    exact hregs s t hsame (h hdead)

/-- A command keeps what the two coders hold while they are alive. -/
theorem exec_cmInv (i : Instr) (s t : State) (hs : CmInv s) (hexec : exec i s = .next t) : CmInv t := by
  by_cases hi : i = .sysReset
  · subst hi
    cases hexec
    exact cmInv_hardReset s
  · obtain ⟨hcme, hcmd⟩ := (cmInv_iff s).mp hs
    exact (cmInv_iff t).mpr
      ⟨whileAlive_exec (u := .cme) (I := CmeHolds) (fun s t (hsame : t.cme = s.cme) h => by rwa [CmeHolds, hsame])
          exec_keeps_cme hi hcme hexec,
        whileAlive_exec (u := .cmd) (I := CmdHolds) (fun s t (hsame : t.cmd = s.cmd) h => by rwa [CmdHolds, hsame])
          exec_keeps_cmd hi hcmd hexec⟩

end Sys2Proof.Machine

namespace Sys2Proof

open Machine

/-- Settles O59: only a coder's own commands move it; eight bits leave it between symbols again, or the unit dies. -/
theorem stepKeepsTheContextMixingInvariant : Obligations.StepKeepsTheContextMixingInvariant :=
  step_keeps_of_exec (fun _ _ hs => hs) exec_cmInv (fun _ _ hs => hs) (fun _ _ hs => hs) fun s _ => cmInv_hardReset s

end Sys2Proof

/-! SUPPORT. The bytes of a renormalisation moved by either stream side, and CME where OUT has room for them
(46_cm_coder.md R301 to R303, R306, R310, R311). -/

namespace Sys2Proof.Machine

/-! ## Moving the bytes -/

/-- The shifts of a stream side move lists of bits: a byte with one shift, and nothing with none. -/
structure CmMoves {σ : Type} (shift : CmCoder → σ → Run σ Unit) (M : σ → List Bool → σ → Prop) : Prop where
  nil : ∀ u u', M u [] u' → u' = u
  cons : ∀ x u out u', M u (x.topByte ++ out) u' → ∃ v, shift x u = .ok () v ∧ M v out u'

/-- The renormalisation ends where no byte is due (46_cm_coder.md R303). -/
theorem cmRenorm_end {σ : Type} {shift : CmCoder → σ → Run σ Unit} {x : CmCoder} (h : ¬ x.due) (fuel : Nat) (u : σ) :
    cmRenorm shift fuel (x, u) = .ok () (x, u) := by
  cases fuel with
  | zero => rfl
  | succ fuel => exact if_neg fun hs => h (x.settled_iff.mp hs)

section
variable {σ : Type} {shift : CmCoder → σ → Run σ Unit} {M : σ → List Bool → σ → Prop} (hmoves : CmMoves shift M)
include hmoves

/-- A renormalisation makes the shifts that lead from its interval to another (46_cm_coder.md R303). -/
theorem CmMoves.renorm {k : Nat} {x z : CmCoder} {out : List Bool} (hlen : out.length = 8 * k) (h : CmShifted x.ends z out)
    (hp : z.p = x.p) {u u' : σ} (hM : M u out u') (fuel : Nat) :
    cmRenorm shift (fuel + k) (x, u) = cmRenorm shift fuel (z, u') := by
  induction k generalizing x out u with
  | zero =>
    obtain rfl := List.eq_nil_of_length_eq_zero hlen
    rw [h.eq_of_nil hp, hmoves.nil u u' hM, Nat.add_zero]
  | succ k ih =>
    obtain ⟨hdue, rest, rfl, hrest⟩ := h.uncons (List.ne_nil_of_length_pos (by omega))
    obtain ⟨v, hshift, hv⟩ := hmoves.cons x u rest u' hM
    rw [List.length_append, x.topByte_length] at hlen
    rw [← Nat.add_assoc, cmRenorm, if_pos (x.settled_iff.mpr hdue)]
    simp only [hshift]
    exact ih (by omega) hrest hp hv

/-- The renormalisation behind a bit moves the bytes of the bit and ends (46_cm_coder.md R302, R303, R305). -/
theorem CmMoves.bit {tbl : Vector StateEntry 256} {x y : CmCoder} {bit : Bool} {out : List Bool} (h : CmBit tbl x bit y out)
    (hx : x.Inv) {u u' : σ} (hM : M u out u') : cmRenorm shift cmShifts (x.resolve tbl bit, u) = .ok () (y, u') := by
  obtain ⟨hshifted, hend, hp⟩ := h
  have hle := hshifted.length_le
  obtain ⟨k, hk⟩ := hshifted.bytes
  rw [hx.bitPart_eq (tbl := tbl)] at hshifted
  have hfuel : cmShifts = (4 - k) + k := by
    show 4 = _
    omega
  rw [hfuel, hmoves.renorm hk hshifted hp hM, cmRenorm_end hend]

end

/-! ## CME -/

/-- OUT takes a list of bits in full (40_bit_stream.md R121). -/
def Bsi.TakesTo (b : Bsi) (out : List Bool) (b' : Bsi) : Prop := b.takes out ∧ b' = b.append out

/-- The first part of a list that fits does. -/
theorem Bsi.takes_left {b : Bsi} {l m : List Bool} (h : b.takes (l ++ m)) : b.takes l := by
  by_contra hn
  exact Bsi.not_takes_append hn m h

/-- CME's shifts put bytes out (46_cm_coder.md R302). -/
theorem cmEmit_moves : CmMoves cmEmit Bsi.TakesTo where
  nil b b' h := by
    obtain ⟨_, rfl⟩ := h
    simp [Bsi.append]
  cons x b out b' h := by
    obtain ⟨hfits, rfl⟩ := h
    have hbyte := Bsi.takes_left hfits
    exact ⟨_, (offers_writeAll _ _).full b hbyte, (Bsi.takes_append hbyte).mpr hfits, (Bsi.append_append _ _ _).symm⟩

section
variable {tbl : Vector StateEntry 256} {x x' : CmCoder} {out : List Bool} {b : Bsi}

/-- CME codes the low bits of a symbol where their bytes fit (46_cm_coder.md R302, R306). -/
theorem CmBits.encode {v : Byte} {k : Nat} (h : CmBits tbl x (bitsMsb v.toNat k) x' out) (hx : x.Inv) (hfits : b.takes out) :
    cmEncodeBits tbl v k (x, b) = .ok () (x', b.append out) := by
  induction k generalizing x out b with
  | zero =>
    obtain ⟨rfl, rfl⟩ := h
    simp [cmEncodeBits, Bsi.append]
  | succ k ih =>
    obtain ⟨y, o₁, o₂, rfl, hbit, hrest⟩ := h
    have hfirst := Bsi.takes_left hfits
    have hcode : cmEncodeBit tbl (v.getLsbD k) (x, b) = .ok () (y, b.append o₁) := cmEmit_moves.bit hbit hx ⟨hfirst, rfl⟩
    rw [cmEncodeBits, hcode, ← Bsi.append_append]
    exact ih hrest (hbit.inv hx) ((Bsi.takes_append hfirst).mpr hfits)

/-- CME codes a symbol where OUT has room for 32 bytes (46_cm_coder.md R306, R310). -/
theorem cmEncodeSymbol_bits (v : Byte) (hx : x.Inv) (hout : b.room 256 = 256) : ∃ x' out,
    cmEncodeSymbol tbl v (x, b) = .ok () (x', b.append out) ∧ CmBits tbl x (bitsMsb v.toNat 8) x' out := by
  obtain ⟨x', out, hbits⟩ := exists_cmBits (tbl := tbl) hx (bitsMsb v.toNat 8)
  obtain ⟨_, hlen⟩ := hbits.length_out
  exact ⟨x', out, hbits.encode hx (room_of_le hout hlen), hbits⟩

/-- The bits of a list of bytes, most significant first (46_cm_coder.md R306). -/
abbrev symbolBits (vs : List Byte) : List Bool := vs.flatMap fun b => bitsMsb b.toNat 8

theorem symbolBits_length (vs : List Byte) : (symbolBits vs).length = 8 * vs.length := by
  simp [symbolBits, List.length_flatMap, Nat.mul_comm]

/-- Symbols keep the predictor idle (46_cm_coder.md R306). -/
theorem Predictor.Idle.symbols {p : Predictor} (h : p.Idle) (vs : List Byte) : (predictorRun tbl p (symbolBits vs)).Idle := by
  induction vs generalizing p with
  | nil => exact h
  | cons v vs ih =>
    rw [symbolBits, List.flatMap_cons, predictorRun, List.foldl_append]
    exact ih (h.symbol tbl v)

/-- CME codes a range of BUF where OUT has room for 32 bytes a symbol (46_cm_coder.md R311). -/
theorem encodeLoop_cmEncodeSymbol (m : List Host.Cell) {k a n : Nat} (hx : x.Inv) (hout : b.room (256 * k) = 256 * k) :
    ∃ x' out, encodeLoop (cmEncodeSymbol tbl) m k a n (x, b) = (n + k, none, x', b.append out) ∧
      CmBits tbl x (symbolBits (bufBytes m a k)) x' out := by
  induction k generalizing a n x b with
  | zero => exact ⟨x, [], by simp [encodeLoop, Bsi.append], rfl, rfl⟩
  | succ k ih =>
    obtain ⟨y, o₁, hfirst, hbits⟩ := cmEncodeSymbol_bits (tbl := tbl) (memRead m a) hx (room_of_le hout (by omega))
    obtain ⟨_, hlen⟩ := hbits.length_out
    rw [bitsMsb_length] at hlen
    have hfits : b.takes o₁ := room_of_le hout (by omega)
    have hrest : (b.append o₁).room (256 * k) = 256 * k := by
      have hsum := room_append hfits (256 * k)
      rw [room_of_le hout (by omega)] at hsum
      omega
    obtain ⟨x', o₂, hloop, hbits'⟩ := ih (a := a + 1) (n := n + 1) (hbits.inv hx) hrest
    refine ⟨x', o₁ ++ o₂, ?_, ?_⟩
    · rw [encodeLoop, hfirst]
      dsimp only
      rw [hloop, Bsi.append_append, Nat.add_assoc, Nat.add_comm 1 k]
    · rw [bufBytes_succ]
      exact hbits.append hbits'

end

end Sys2Proof.Machine

namespace Sys2Proof

open Machine

/-- Settles O47: each bit's part of the interval is renormalised, and the bytes that fit go out one after the other. -/
theorem contextMixingEncodeCodesEightBits : Obligations.ContextMixingEncodeCodesEightBits := by
  refine ⟨fun x hx => ?_, fun s v hlive hx hidle hout => ?_, fun s o l hlive hx hidle hin hout => ?_⟩
  · obtain ⟨hlo, hhi⟩ := CmCoder.split_within hx
    have hsplit : x.split = x.low.toNat + (x.high.toNat - x.low.toNat) / 4096 * x.p.pred.toNat :=
      congrArg (fun n => x.low.toNat + n * x.p.pred.toNat) (Nat.shiftRight_eq_div_pow _ 12)
    have hlt := x.high.isLt
    exact ⟨hsplit, hlo, hhi, Nat.mod_eq_of_lt (by omega), Nat.mod_eq_of_lt (by omega)⟩
  · obtain ⟨x, out, hcoded, hbits⟩ := cmEncodeSymbol_bits (tbl := s.cfg.stateTable) v hx hout
    exact ⟨x, out, congrArg _ (single_ok (part := cmePart) hlive _ hcoded), hbits.step hx hidle⟩
  · obtain ⟨x, out, hloop, hbits⟩ :=
      encodeLoop_cmEncodeSymbol (tbl := s.cfg.stateTable) s.buf (a := o.toNat) (n := 0) hx hout
    obtain ⟨hbytes, hlen⟩ := hbits.length_out
    rw [symbolBits_length, bufBytes_length, ← Nat.mul_assoc] at hlen
    rw [Nat.zero_add] at hloop
    exact ⟨x, out, congrArg _ (bulkEncode_ok (part := cmePart) hlive hin hloop), hbits.inv hx,
      hbits.predictor ▸ hidle.symbols _, hbytes, hlen, hbits, hbits.predictor⟩

end Sys2Proof

/-! SUPPORT. CMD with a loaded window: the bits the window selects, the symbols they make, and the fault at a shift that finds
no byte left (46_cm_coder.md R304 to R306, R316, R317). -/

namespace Sys2Proof.Machine

/-! ## The window -/

/-- A 32-bit window after the next `n` bits of IN have come in (46_cm_coder.md R305). -/
def cmWindowAfter (w : Nat) (b : Bsi) (n : Nat) : Word := BitVec.ofNat 32 (w * 2 ^ n + bitsValue (b.ahead n))

theorem cmWindowAfter_toNat (w : Nat) (b : Bsi) (n : Nat) :
    (cmWindowAfter w b n).toNat = (w * 2 ^ n + bitsValue (b.ahead n)) % 2 ^ 32 := BitVec.toNat_ofNat _ _

theorem cmWindowAfter_zero (w : Word) (b : Bsi) : cmWindowAfter w.toNat b 0 = w := by
  simp [cmWindowAfter, Bsi.ahead, bitsValue]

/-- Bits that came in before those that come in next are a number in front of theirs, cut to the window. -/
theorem window_mod (w m : Nat) (l : List Bool) (n : Nat) :
    ((w * 2 ^ n + m) % 2 ^ 32 * 2 ^ l.length + bitsValue l) % 2 ^ 32 =
      (w * 2 ^ (n + l.length) + (m * 2 ^ l.length + bitsValue l)) % 2 ^ 32 := by
  have hmod : (w * 2 ^ n + m) % 2 ^ 32 * 2 ^ l.length + bitsValue l ≡ (w * 2 ^ n + m) * 2 ^ l.length + bitsValue l
    [MOD 2 ^ 32] := ((Nat.mod_modEq _ _).mul_right _).add_right _
  rw [hmod, Nat.add_mul, Nat.mul_assoc, ← Nat.pow_add, Nat.add_assoc]

theorem cmWindowAfter_add (w : Nat) (b : Bsi) (m n : Nat) :
    cmWindowAfter (cmWindowAfter w b m).toNat (b.advance m) n = cmWindowAfter w b (m + n) := by
  have hmod := window_mod w (bitsValue (b.ahead m)) ((b.advance m).ahead n) m
  rw [Bsi.ahead_length] at hmod
  refine BitVec.eq_of_toNat_eq ?_
  rw [cmWindowAfter_toNat, cmWindowAfter_toNat, cmWindowAfter_toNat, hmod, Bsi.ahead_add, bitsValue_append, Bsi.ahead_length]

/-- CMD's shift with a byte left (46_cm_coder.md R305). -/
theorem cmConsume_ok {b : Bsi} (h : 8 ≤ b.left) (x : CmCoder) (w : Word) :
    cmConsume x (w, b) = .ok () (cmWindowAfter w.toNat b 8, b.advance 8) := by
  have hbyte := bitsValue_ahead_lt b 8
  have hwindow : w <<< 8 ||| BitVec.ofNat 32 (bitsValue (b.ahead 8)) = cmWindowAfter w.toNat b 8 := by
    refine BitVec.eq_of_toNat_eq ?_
    rw [word_shiftIn w hbyte, cmWindowAfter_toNat]
    omega
  rw [cmConsume, readBits_canRead (by decide) ((canRead_iff_le_left (by decide)).mpr h), ← hwindow]

/-- CMD's shift without (46_cm_coder.md R305). -/
theorem cmConsume_end {b : Bsi} (h : b.left < 8) (x : CmCoder) (w : Word) :
    cmConsume x (w, b) = .stop .endOfStream (w, b) := by
  have hfew : ¬ b.canRead 8 := fun hcan => Nat.not_le.mpr h ((canRead_iff_le_left (by decide)).mp hcan)
  rw [cmConsume, readBits_end (by decide) hfew]

/-- As many bits of IN come into the window as a list has. -/
def ReadsTo (t : Word × Bsi) (out : List Bool) (t' : Word × Bsi) : Prop :=
  t.2.inBits.length < 2 ^ 64 ∧ out.length ≤ t.2.left ∧ t' = (cmWindowAfter t.1.toNat t.2 out.length, t.2.advance out.length)

/-- CMD's shifts take a byte in for each (46_cm_coder.md R305). -/
theorem cmConsume_moves : CmMoves cmConsume ReadsTo where
  nil t t' h := by
    obtain ⟨_, _, rfl⟩ := h
    rw [List.length_nil, cmWindowAfter_zero, Bsi.advance_zero]
  cons x t out t' h := by
    obtain ⟨w, b⟩ := t
    obtain ⟨hin, hleft, rfl⟩ := h
    rw [List.length_append, x.topByte_length] at hleft ⊢
    have hbyte : 8 ≤ b.left := (Nat.le_add_right _ _).trans hleft
    refine ⟨_, cmConsume_ok hbyte x w, hin, ?_, ?_⟩
    · rw [Bsi.left_advance hin hbyte]
      exact Nat.le_sub_of_add_le' hleft
    · rw [cmWindowAfter_add, Bsi.advance_advance]

/-! ## Lists of bits read -/

section
variable {tbl : Vector StateEntry 256} {x x' : CmCoder} {w w' : Nat} {l inp : List Bool}

/-- Reading a list of bits is coding it: for every byte that goes out one comes in (46_cm_coder.md R305). -/
theorem CmReads.bits (h : CmReads tbl x w l inp x' w') : ∃ out, CmBits tbl x l x' out ∧ out.length = inp.length := by
  induction l generalizing x w inp with
  | nil =>
    obtain ⟨rfl, _, rfl⟩ := h
    exact ⟨[], ⟨rfl, rfl⟩, rfl⟩
  | cons bit l ih =>
    obtain ⟨_, y, o₁, i₁, i₂, rfl, hlen, hbit, hrest⟩ := h
    obtain ⟨o₂, hbits, hlen'⟩ := ih hrest
    exact ⟨o₁ ++ o₂, ⟨y, o₁, o₂, rfl, hbit, hbits⟩, by rw [List.length_append, List.length_append, hlen, hlen']⟩

/-- Two lists of bits read, one after the other. -/
theorem CmReads.append {y : CmCoder} {wy : Nat} {m inp' : List Bool} (h : CmReads tbl x w l inp y wy)
    (k : CmReads tbl y wy m inp' x' w') : CmReads tbl x w (l ++ m) (inp ++ inp') x' w' := by
  induction l generalizing x w inp with
  | nil =>
    obtain ⟨rfl, rfl, rfl⟩ := h
    exact k
  | cons bit l ih =>
    obtain ⟨hselected, z, o₁, i₁, i₂, rfl, hlen, hbit, hrest⟩ := h
    exact ⟨hselected, z, o₁, i₁, i₂ ++ inp', List.append_assoc _ _ _, hlen, hbit, ih hrest⟩

/-- The window behind a list of bits: the last 32 bits of the window before it and of what came in (46_cm_coder.md R305). -/
theorem CmReads.window (h : CmReads tbl x w l inp x' w') (hw : w < 2 ^ 32) :
    w' = (w * 2 ^ inp.length + bitsValue inp) % 2 ^ 32 := by
  induction l generalizing x w inp with
  | nil =>
    obtain ⟨_, rfl, rfl⟩ := h
    rw [List.length_nil, Nat.pow_zero, Nat.mul_one]
    exact (Nat.mod_eq_of_lt hw).symm
  | cons bit l ih =>
    obtain ⟨_, y, o₁, i₁, i₂, rfl, _, _, hrest⟩ := h
    rw [ih hrest (Nat.mod_lt _ (by decide)), window_mod, List.length_append, bitsValue_append]

/-- The window behind a list of bits fits its register. -/
theorem CmReads.window_toNat (h : CmReads tbl x w l inp x' w') (hw : w < 2 ^ 32) : (BitVec.ofNat 32 w').toNat = w' := by
  rw [BitVec.toNat_ofNat, h.window hw, Nat.mod_mod]

/-- Every window selects a list of bits of any length, on any IN (46_cm_coder.md R305). -/
theorem exists_cmReads (hx : x.Inv) (w : Nat) (b : Bsi) (k : Nat) :
    ∃ l n x' w', l.length = k ∧ CmReads tbl x w l (b.ahead n) x' w' := by
  induction k generalizing x w b with
  | zero => exact ⟨[], 0, x, w, rfl, rfl, rfl, rfl⟩
  | succ k ih =>
    obtain ⟨y, o₁, hbit⟩ := exists_cmBit (tbl := tbl) hx (x.selected w)
    obtain ⟨l, n, x', w', hlen, hreads⟩ := ih (hbit.inv hx) (cmWindowAfter w b o₁.length).toNat (b.advance o₁.length)
    refine ⟨x.selected w :: l, o₁.length + n, x', w', congrArg Nat.succ hlen, rfl, y, o₁, b.ahead o₁.length, _,
      Bsi.ahead_add b _ _, Bsi.ahead_length _ _, hbit, ?_⟩
    rwa [Bsi.ahead_length, ← cmWindowAfter_toNat]

/-- Reading at least one bit, on what IN continues with (46_cm_coder.md R305). -/
theorem CmReads.ahead_cons {bit : Bool} {b : Bsi} {n : Nat} (h : CmReads tbl x w (bit :: l) (b.ahead n) x' w') :
    bit = x.selected w ∧ ∃ y out m, n = out.length + m ∧ CmBit tbl x bit y out ∧
      CmReads tbl y (cmWindowAfter w b out.length).toNat l ((b.advance out.length).ahead m) x' w' := by
  obtain ⟨hselected, y, out, i₁, i₂, hinp, hlen, hbit, hrest⟩ := h
  obtain ⟨m, hm⟩ : ∃ m, i₂.length = m := ⟨_, rfl⟩
  have hsum : n = out.length + m := by rw [← b.ahead_length n, hinp, List.length_append, hlen, hm]
  rw [hsum, Bsi.ahead_add] at hinp
  obtain ⟨rfl, rfl⟩ := List.append_inj hinp (by rw [Bsi.ahead_length, hlen])
  rw [Bsi.ahead_length, ← cmWindowAfter_toNat] at hrest
  exact ⟨hselected, y, out, m, hsum, hbit, hrest⟩

/-- At most four bytes come in for each bit (46_cm_coder.md R303, R305). -/
theorem CmReads.ahead_length {b : Bsi} {n : Nat} (h : CmReads tbl x w l (b.ahead n) x' w') : n ≤ 32 * l.length := by
  obtain ⟨out, hbits, hlen⟩ := h.bits
  rw [Bsi.ahead_length] at hlen
  exact hlen ▸ hbits.length_out.2

/-! ## CMD -/

/-- CMD's window selects the bit of the statements (46_cm_coder.md R301, R305). -/
theorem Cmd.bit_eq (d : Cmd) : d.bit = d.coder.selected d.current.toNat := by
  rw [Cmd.bit, CmCoder.split, Nat.shiftRight_eq_div_pow]
  rfl

variable {d : Cmd} {b : Bsi} (hx : d.coder.Inv) (hin : b.inBits.length < 2 ^ 64)
include hx hin

/-- CMD decodes the bit its window selects where the bytes of the bit are left (46_cm_coder.md R305). -/
theorem CmBit.decode {y : CmCoder} {out : List Bool} (h : CmBit tbl d.coder (d.coder.selected d.current.toNat) y out)
    (hleft : out.length ≤ b.left) : cmDecodeBit tbl (d, b) = .ok (d.coder.selected d.current.toNat)
      ({ d with coder := y, current := cmWindowAfter d.current.toNat b out.length }, b.advance out.length) := by
  have hloop := cmConsume_moves.bit (u := (d.current, b)) h hx ⟨hin, hleft, rfl⟩
  simp only [cmDecodeBit, Cmd.bit_eq, hloop, Run.within, Run.andThen, Cmd.putBack]

/-- CMD at a shift that finds no byte left: the shifts before it are done (46_cm_coder.md R305, 60_exceptions.md R342). -/
theorem CmShifted.decode_end {z : CmCoder} {out : List Bool}
    (h : CmShifted (d.coder.bitPart (d.coder.selected d.current.toNat)) z out)
    (hp : z.p = d.coder.p.update tbl (d.coder.selected d.current.toNat)) (hdue : z.due) (hleft : out.length ≤ b.left)
    (hend : b.left < out.length + 8) : cmDecodeBit tbl (d, b) = .stop .endOfStream
      ({ d with coder := z, current := cmWindowAfter d.current.toNat b out.length }, b.advance out.length) := by
  obtain ⟨k, hk⟩ := h.bytes
  have hfew : k ≤ 3 := by
    by_contra hmany
    obtain ⟨hlow, hhigh⟩ := h.whole (by omega)
    unfold CmCoder.due at hdue
    omega
  have hfuel : cmShifts = (3 - k) + 1 + k := by
    show 4 = _
    omega
  have hlast : (b.advance out.length).left < 8 := by
    rw [Bsi.left_advance hin hleft]
    omega
  rw [hx.bitPart_eq (tbl := tbl)] at h
  have hloop := cmConsume_moves.renorm hk h hp (u := (d.current, b)) ⟨hin, hleft, rfl⟩ (3 - k + 1)
  rw [← hfuel, cmRenorm, if_pos (z.settled_iff.mpr hdue)] at hloop
  simp only [cmConsume_end hlast] at hloop
  simp only [cmDecodeBit, Cmd.bit_eq, hloop, Run.within, Run.andThen, Cmd.putBack]

/-- CMD decodes the bits its window selects where the bytes that come in are left (46_cm_coder.md R305, R306). -/
theorem CmReads.decode {n : Nat} (h : CmReads tbl d.coder d.current.toNat l (b.ahead n) x' w') (hleft : n ≤ b.left)
    (j acc : Nat) : cmDecodeBits tbl (j + l.length) acc (d, b) =
      cmDecodeBits tbl j (l.foldl (fun v b => 2 * v + b.toNat) acc)
        ({ d with coder := x', current := BitVec.ofNat 32 w' }, b.advance n) := by
  induction l generalizing d b n acc with
  | nil =>
    obtain ⟨rfl, rfl, hnone⟩ := h
    have hzero : n = 0 := by rw [← b.ahead_length n, hnone, List.length_nil]
    rw [hzero, Bsi.advance_zero, BitVec.ofNat_toNat, BitVec.setWidth_eq]
    rfl
  | cons bit l ih =>
    obtain ⟨rfl, y, out, m, rfl, hbit, hrest⟩ := h.ahead_cons
    have hfirst : out.length ≤ b.left := (Nat.le_add_right _ _).trans hleft
    have hremain : m ≤ (b.advance out.length).left := by
      rw [Bsi.left_advance hin hfirst]
      exact Nat.le_sub_of_add_le' hleft
    rw [List.length_cons, ← Nat.add_assoc, cmDecodeBits, hbit.decode hx hin hfirst, ← Bsi.advance_advance]
    exact ih (d := { d with coder := y, current := cmWindowAfter d.current.toNat b out.length }) (b := b.advance out.length)
      (hbit.inv hx) hin hrest hremain _

/-- CMD decodes a symbol with its window loaded where 32 bytes are left (46_cm_coder.md R306, R316). -/
theorem cmDecodeSymbol_bits (hprimed : d.ustat.primed = true) (hleft : 256 ≤ b.left) : ∃ v n x' w',
    cmDecodeSymbol tbl (d, b) = .ok v ({ d with coder := x', current := BitVec.ofNat 32 w' }, b.advance n) ∧
      CmReads tbl d.coder d.current.toNat (bitsMsb v.toNat 8) (b.ahead n) x' w' ∧ n ≤ 256 := by
  obtain ⟨l, n, x', w', hlen, hreads⟩ := exists_cmReads (tbl := tbl) hx d.current.toNat b 8
  have hn := hreads.ahead_length
  rw [hlen] at hn
  obtain ⟨v, rfl⟩ := exists_symbol hlen
  have hprime : cmPrime (d, b) = .ok () (d, b) := if_pos hprimed
  have hbits : cmDecodeBits tbl 8 0 (d, b) = .ok (bitsValue (bitsMsb v.toNat 8)) _ :=
    hreads.decode hx hin (hn.trans hleft) 0 0
  have hvalue : BitVec.ofNat 8 (bitsValue (bitsMsb v.toNat 8)) = v := by
    rw [bitsValue_bitsMsb, Nat.mod_eq_of_lt v.isLt, BitVec.ofNat_toNat, BitVec.setWidth_eq]
  exact ⟨v, n, x', w', by simp only [cmDecodeSymbol, hprime, Run.andThen, hbits, hvalue], hreads, hn⟩

/-- CMD with its window loaded decodes some bits of a symbol and then stops at a shift (46_cm_coder.md R305, R306). -/
theorem cmDecodeSymbol_end {n : Nat} {r : Stop} {t : CmdSide} (hprimed : d.ustat.primed = true)
    (h : CmReads tbl d.coder d.current.toNat l (b.ahead n) x' w') (hleft : n ≤ b.left) (hfew : l.length < 8)
    (hstop : cmDecodeBit tbl ({ d with coder := x', current := BitVec.ofNat 32 w' }, b.advance n) = .stop r t) :
    cmDecodeSymbol tbl (d, b) = .stop r t := by
  obtain ⟨j, hj⟩ : ∃ j, 8 = j + 1 + l.length := ⟨7 - l.length, by omega⟩
  have hprime : cmPrime (d, b) = .ok () (d, b) := if_pos hprimed
  have hbits : cmDecodeBits tbl 8 0 (d, b) = .stop r t := by
    rw [hj, h.decode hx hin hleft, cmDecodeBits, hstop]
    rfl
  simp only [cmDecodeSymbol, hprime, Run.andThen, hbits]

end

/-! ## Bulk decoding -/

section
variable {tbl : Vector StateEntry 256} {d : Cmd} {b : Bsi}

/-- CMD with its window loaded stores symbols where 32 bytes each are left (46_cm_coder.md R317). -/
theorem decodeLoop_cmDecodeSymbol {k : Nat} (a : Nat) (m : List Host.Cell) (hx : d.coder.Inv) (hin : b.inBits.length < 2 ^ 64)
    (hprimed : d.ustat.primed = true) (hleft : 256 * k ≤ b.left) : ∃ vs n x' w' m',
    decodeLoop (cmDecodeSymbol tbl) k a ((d, b), m) =
      .ok () (({ d with coder := x', current := BitVec.ofNat 32 w' }, b.advance n), m') ∧
    vs.length = k ∧ Stored m m' a vs ∧ CmReads tbl d.coder d.current.toNat (symbolBits vs) (b.ahead n) x' w' := by
  induction k generalizing a d b m with
  | zero =>
    refine ⟨[], 0, d.coder, d.current.toNat, m, ?_, rfl, fun y => (if_neg (by simp)).symm, rfl, rfl, rfl⟩
    rw [BitVec.ofNat_toNat, BitVec.setWidth_eq, Bsi.advance_zero]
    rfl
  | succ k ih =>
    obtain ⟨v, n₁, y, w, hfirst, hreads, hn₁⟩ := cmDecodeSymbol_bits (tbl := tbl) hx hin hprimed (by omega)
    obtain ⟨out, hbits, _⟩ := hreads.bits
    have hremain : 256 * k ≤ (b.advance n₁).left := by
      rw [Bsi.left_advance hin (by omega)]
      omega
    obtain ⟨vs, n₂, x', w', m', hloop, hlen, hstored, hreads'⟩ :=
      ih (d := { d with coder := y, current := BitVec.ofNat 32 w }) (b := b.advance n₁) (a + 1) (memWrite m a v)
        (hbits.inv hx) hin hprimed hremain
    rw [hreads.window_toNat d.current.isLt] at hreads'
    refine ⟨v :: vs, n₁ + n₂, x', w', m', ?_, congrArg Nat.succ hlen, hstored.cons, ?_⟩
    · rw [decodeLoop, hfirst]
      dsimp only
      rw [hloop, Bsi.advance_advance]
    · rw [Bsi.ahead_add]
      exact hreads.append hreads'

/-- CMD's registers once its window is loaded (46_cm_coder.md R304). -/
def Cmd.load (d : Cmd) (b : Bsi) : Cmd :=
  if d.ustat.primed then d
  else { d with current := BitVec.ofNat 32 (bitsValue (b.ahead 32)), ustat := d.ustat.prime }

/-- How many bits of IN the load takes (46_cm_coder.md R304). -/
def Cmd.loadBits (d : Cmd) : Nat := if d.ustat.primed then 0 else 32

theorem Cmd.loadBits_le (d : Cmd) : d.loadBits ≤ 32 := by
  unfold Cmd.loadBits
  split <;> decide

theorem Cmd.loadBits_bytes (d : Cmd) : 8 ∣ d.loadBits := by
  unfold Cmd.loadBits
  split <;> decide

theorem Cmd.load_coder (d : Cmd) (b : Bsi) : (d.load b).coder = d.coder := by
  unfold Cmd.load
  split <;> rfl

theorem Cmd.load_ustat (d : Cmd) (b : Bsi) : (d.load b).ustat = { d.ustat with primed := true } := by
  unfold Cmd.load
  split
  · rename_i hprimed
    rw [← hprimed]
  · rfl

theorem Cmd.load_current (d : Cmd) (b : Bsi) :
    (d.load b).current.toNat = if d.ustat.primed then d.current.toNat else bitsValue (b.ahead 32) := by
  unfold Cmd.load
  split
  · rfl
  · exact Nat.mod_eq_of_lt (bitsValue_ahead_lt b 32)

/-- CMD that decodes loads its window first, where it is not (46_cm_coder.md R304). -/
theorem cmDecodeSymbol_loaded (hcan : b.canRead 32) :
    cmDecodeSymbol tbl (d, b) = cmDecodeSymbol tbl (d.load b, b.advance d.loadBits) := by
  unfold Cmd.load Cmd.loadBits
  split
  · rw [Bsi.advance_zero]
  · rename_i hprimed
    exact cmDecodeSymbol_load tbl (Bool.eq_false_iff.mpr hprimed) hcan

/-- CMD stores symbols where the load's four bytes and 32 for each symbol are left (46_cm_coder.md R304, R317). -/
theorem decodeLoop_cmDecodeSymbol_load {k : Nat} (a : Nat) (m : List Host.Cell) (hx : d.coder.Inv)
    (hin : b.inBits.length < 2 ^ 64) (hcan : b.canRead (32 + 256 * k)) (hk : k ≠ 0) : ∃ vs n x' w' m',
    decodeLoop (cmDecodeSymbol tbl) k a ((d, b), m) =
      .ok () (({ d.load b with coder := x', current := BitVec.ofNat 32 w' }, b.advance (d.loadBits + n)), m') ∧
    vs.length = k ∧ Stored m m' a vs ∧
    CmReads tbl d.coder (d.load b).current.toNat (symbolBits vs) ((b.advance d.loadBits).ahead n) x' w' := by
  have hleft := (canRead_iff_le_left (by omega)).mp hcan
  have hload : b.canRead 32 := (canRead_iff_le_left (by decide)).mpr (by omega)
  have hbits := d.loadBits_le
  have hremain : 256 * k ≤ (b.advance d.loadBits).left := by
    rw [Bsi.left_advance hin (by omega)]
    omega
  obtain ⟨vs, n, x, w, m', hloop, hlen, hstored, hreads⟩ := decodeLoop_cmDecodeSymbol (tbl := tbl) a m (d := d.load b)
    (b := b.advance d.loadBits) (by rwa [d.load_coder]) hin (by rw [d.load_ustat]) hremain
  rw [d.load_coder] at hreads
  rw [Bsi.advance_advance] at hloop
  exact ⟨vs, n, x, w, m', decodeLoop_primed (fun _ _ h => (cmDecodeSymbol_loaded hload).trans h) hk hloop, hlen, hstored, hreads⟩

end

/-! ## The faults of CMD -/

/-- A response with no fault but those of CMD: EndOfStream, InvalidArgument and UnitDead (46_cm_coder.md R316 to R321,
60_exceptions.md R342). -/
def CmdFaults (t : State) : Prop := t.rsp.flt = 0 ∨ t.rsp.flt = 1 ∨ t.rsp.flt = 3 ∨ t.rsp.flt = 5

theorem cmdFaults_success (s : State) (r : Quad) : CmdFaults (s.respond r .none) := .inl rfl

theorem cmdFaults_unitDead (s : State) : CmdFaults (s.refuse .unitDead) := .inr (.inr (.inr rfl))

theorem cmdFaults_endOfStream (s : State) : CmdFaults (s.endBy .cmd .endOfStream) := .inr (.inl rfl)

/-- Every command of CMD answers so: its procedures stop by EndOfStream alone (46_cm_coder.md R305, 60_exceptions.md R342). -/
theorem exec_cmd_faults {i : Instr} (hi : i.unit? = some .cmd) {s t : State} (hexec : exec i s = .next t) : CmdFaults t := by
  have hsymbol := cmDecodeSymbol_keeps (E := (· = .endOfStream)) rfl s.cfg.stateTable (cmdPart.get s)
  cases i with
  | cmdDecbyte =>
    cases hexec
    rcases single_cases s .cmd cmdPart (cmDecodeSymbol s.cfg.stateTable) fun v s => s.answer v.toNat with
      ⟨_, e⟩ | ⟨_, v, t, _, e⟩ | ⟨_, r, t, hstop, e⟩
    · exact e ▸ cmdFaults_unitDead s
    · exact e ▸ cmdFaults_success _ _
    · obtain ⟨_, rfl⟩ := (hsymbol _ ⟨.inl rfl, .refl _⟩).of_stop hstop
      exact e ▸ cmdFaults_endOfStream _
  | cmdDecode o l =>
    cases hexec
    rcases bulkDecode_cases s .cmd cmdPart (cmDecodeSymbol s.cfg.stateTable) o l with ⟨_, e⟩ | ⟨_, _, e⟩ | ⟨_, hin, e⟩
    · exact e ▸ cmdFaults_unitDead s
    · exact e ▸ .inr (.inr (.inl rfl))
    · have hloop := decodeLoop_keeps hsymbol o l s.cfg.bufSize s.buf hin l.toNat o.toNat (le_refl _) (le_refl _)
        (cmdPart.get s, s.buf) ⟨⟨.inl rfl, .refl _⟩, .refl _ _ _⟩
      cases hend : decodeLoop (cmDecodeSymbol s.cfg.stateTable) l.toNat o.toNat (cmdPart.get s, s.buf) with
      | ok _ t =>
        rw [hend] at e
        exact e ▸ cmdFaults_success _ _
      | stop r t =>
        obtain ⟨_, rfl⟩ := hloop.of_stop hend
        rw [hend] at e
        exact e ▸ cmdFaults_endOfStream _
  | cmdDispose =>
    cases hexec
    unfold State.disposeUnit
    dsimp only
    split
    · exact cmdFaults_success _ _
    · split <;> exact cmdFaults_success _ _
  | cmdInit | cmdStatus | cmdGetbs =>
    cases hexec
    exact cmdFaults_success _ _
  | _ => cases hi

end Sys2Proof.Machine

namespace Sys2Proof

open Machine

/-- Settles O48: the window selects bit after bit, each shift takes a byte in for the one that goes out, and the only stop is
a shift, or a load, that finds too few bits. -/
theorem contextMixingDecodeDeliversSymbols : Obligations.ContextMixingDecodeDeliversSymbols := by
  refine ⟨fun s hlive hx hidle hprimed hcan hin => ?_, fun s o l hlive hx hidle ho hcan hin hl => ?_,
    fun s bits inp out y z w hlive hx _ hprimed hin hfew hleft hend hinp hreads hshifted hp hdue => ?_,
    fun i s t hi hexec => exec_cmd_faults hi hexec⟩
  · obtain ⟨v, n, x, w, hdec, hreads, _⟩ := cmDecodeSymbol_bits (tbl := s.cfg.stateTable) hx hin hprimed
      ((canRead_iff_le_left (by decide)).mp hcan)
    obtain ⟨out, hbits, hlen⟩ := hreads.bits
    have hwindow := hreads.window s.cmd.current.isLt
    have hw := hreads.window_toNat s.cmd.current.isLt
    rw [Bsi.ahead_length] at hlen hwindow
    subst hlen
    exact ⟨v, x, out, BitVec.ofNat 32 w, congrArg _ (single_ok (part := cmdPart) hlive _ hdec), hbits.step hx hidle,
      hw.symm ▸ hreads, hw.trans hwindow⟩
  · obtain ⟨vs, n, x, w, m, hloop, hlen, hstored, hreads⟩ := decodeLoop_cmDecodeSymbol_load (tbl := s.cfg.stateTable) o.toNat
      s.buf hx hin hcan (mt (toNat_eq_zero_iff l).mp hl)
    have hload := s.cmd.loadBits_le
    have hn := hreads.ahead_length
    obtain ⟨out, hbits, hout⟩ := hreads.bits
    obtain ⟨hbytes, _⟩ := hbits.length_out
    rw [symbolBits_length, hlen] at hn
    rw [hout, Bsi.ahead_length] at hbytes
    refine ⟨vs, _, s.cmd.loadBits + n, m, congrArg Host.Outcome.next (bulkDecode_ok (part := cmdPart) hlive ho hloop), hlen,
      hstored, s.cmd.load_ustat s.bsi, hbits.inv hx, Nat.dvd_add s.cmd.loadBits_bytes hbytes, by omega, hbits.predictor,
      Nat.le_add_right _ _, ?_⟩
    show CmReads _ _ _ _ ((s.bsi.advance s.cmd.loadBits).ahead (s.cmd.loadBits + n - s.cmd.loadBits)) x (BitVec.ofNat 32 w).toNat
    rw [Nat.add_sub_cancel_left, hreads.window_toNat (s.cmd.load s.bsi).current.isLt, ← s.cmd.load_current]
    exact hreads
  · obtain ⟨_, hbits, _⟩ := hreads.bits
    have hw := hreads.window_toNat s.cmd.current.isLt
    have hremain : (s.bsi.advance inp.length).left = s.bsi.left - inp.length := Bsi.left_advance hin (by omega)
    rw [hinp] at hreads
    rw [← hw] at hshifted hp
    have hstop := CmShifted.decode_end (d := { s.cmd with coder := y, current := BitVec.ofNat 32 w })
      (b := s.bsi.advance inp.length) (hbits.inv hx) hin hshifted hp hdue (by omega) (by omega)
    have hdec := cmDecodeSymbol_end hx hin hprimed hreads (by omega) hfew hstop
    rw [hw, Bsi.advance_advance] at hdec
    refine congrArg Host.Outcome.next ((single_stop (part := cmdPart) hlive _ hdec).trans ?_)
    exact endBy_eq _ .cmd .endOfStream

end Sys2Proof

/-! SUPPORT. What the skeletons of 47_system_commands.md say of every unit: the gate, disposal, and the status words bit by bit. -/

namespace Sys2Proof.Machine

/-! ## The gate -/

/-- Every coding command is the gate of its unit before a body (47_system_commands.md R331). -/
theorem exec_coding {i : Instr} {u : UnitId} (hu : i.unit? = some u) (hi : i.isCoding = true) (s : State) :
    ∃ body, exec i s = .next (s.gated u body) := by
  cases i with
  | egeEncbyte | egeEncode | egdDecbyte | egdDecode | hfeEncbyte | hfeEncode | hfeUpdate | hfdDecbyte | hfdDecode
  | hfdReadlen | rceEncbyte | rceEncode | rcdDecbyte | rcdDecode | cmeEncbyte | cmeEncode | cmdDecbyte | cmdDecode =>
    cases hu
    exact ⟨_, rfl⟩
  | _ => cases hi

/-- A coding command of a dead or disposed unit answers UnitDead (47_system_commands.md R331). -/
theorem exec_coding_shut {i : Instr} {u : UnitId} (hu : i.unit? = some u) (hi : i.isCoding = true) {s : State}
    (hshut : ¬ Live s u) : exec i s = .next (failed s 5) := by
  obtain ⟨body, hexec⟩ := exec_coding hu hi s
  rw [hexec, gated_shut hshut, ← failed_eq s .unitDead (by decide)]
  rfl

/-- The response carries no UnitDead. -/
def NotUnitDead (t : State) : Prop := t.rsp.flt ≠ 5

/-- UnitDead is the one fault with code 5 (60_exceptions.md R341). -/
theorem notUnitDead_respond (s : State) (r : Quad) {c : FaultCode} (hc : c ≠ .unitDead) : NotUnitDead (s.respond r c) := by
  show c.code ≠ 5
  cases c with
  | unitDead => exact absurd rfl hc
  | none | endOfStream | invalidStream | invalidArgument | illegalCommand | writeFail => decide

theorem notUnitDead_answer (s : State) (n : Nat) : NotUnitDead (s.answer n) := notUnitDead_respond s _ nofun

theorem notUnitDead_refuseIf (s : State) (c : Bool) {t : State} (h : NotUnitDead t) :
    NotUnitDead (if c then s.refuse .invalidArgument else t) := by
  cases c with
  | true => exact notUnitDead_respond s _ nofun
  | false => exact h

theorem notUnitDead_answerRead (s : State) (x : Run Bsi Nat) : NotUnitDead (s.answerRead x) := by
  cases x with
  | ok v b => exact notUnitDead_answer _ v
  | stop r b => exact notUnitDead_respond _ _ nofun

/-- Disposal has no gate: its only fault is the EndOfStream of a short flush (47_system_commands.md R334). -/
theorem notUnitDead_disposeUnit (s : State) (u : UnitId) (flush : Bsi → Run Bsi Unit) :
    NotUnitDead (s.disposeUnit u flush) := by
  unfold State.disposeUnit
  dsimp only
  split
  · exact notUnitDead_answer _ 0
  · split
    · exact notUnitDead_answer _ 0
    · split
      · exact notUnitDead_answer _ 0
      · exact notUnitDead_respond _ _ nofun

/-- A command without a gate never answers UnitDead (47_system_commands.md R331). -/
theorem exec_ungated {i : Instr} (hi : i.isCoding = false) {s t : State} (hexec : exec i s = .next t) : NotUnitDead t := by
  cases i with
  | bsWrbit | bsFlush | bsHasmore | hcbSetfreq | hcbClrfreq | hcbGetsize | hcbGetcode | hcbGetfreq
  | egeGetbs | egdGetbs | hfeGetbs | hfdGetbs | rceGetbs | rcdGetbs | cmeGetbs | cmdGetbs
  | rceInit | rcdInit | cmeInit | cmdInit | bsClose | sysReset =>
    cases hexec
    exact notUnitDead_answer _ _
  | bsWritten | bsRead | sysStatus
  | egeStatus | egdStatus | hfeStatus | hfdStatus | rceStatus | rcdStatus | cmeStatus | cmdStatus =>
    cases hexec
    exact notUnitDead_respond _ _ nofun
  | bsRdbit =>
    cases hexec
    exact notUnitDead_answerRead _ _
  | bsRdbits =>
    cases hexec
    exact notUnitDead_refuseIf s _ (notUnitDead_answerRead _ _)
  | bsWrbits | egeInit | egdInit | hfeInit | hfdInit =>
    cases hexec
    exact notUnitDead_refuseIf s _ (notUnitDead_answer _ _)
  | hcbBuild =>
    cases hexec
    split
    · exact notUnitDead_respond s _ nofun
    · exact notUnitDead_answer _ _
  | egeDispose | egdDispose | hfeDispose | hfdDispose | rceDispose | rcdDispose | cmeDispose | cmdDispose =>
    cases hexec
    exact notUnitDead_disposeUnit s _ _
  | _ => cases hi

/-! ## Disposal -/

/-- The DISPOSE command of a unit is `Dispose` with a flush that offers the unit's flush bits to OUT (47_system_commands.md
R334, 44_range_coder.md R241, 46_cm_coder.md R307). -/
theorem exec_disposeOf (s : State) (u : UnitId) :
    ∃ flush, Offers flush (flushBits s u) ∧ exec (disposeOf u) s = .next (s.disposeUnit u flush) := by
  cases u with
  | rce | cme => exact ⟨_, offers_writeAll _ _, rfl⟩
  | ege | egd | hfe | hfd | rcd | cmd => exact ⟨_, offers_nil, rfl⟩

section
variable {s : State} {u : UnitId} {flush : Bsi → Run Bsi Unit}

theorem disposeUnit_of_disposed (h : (s.ustat u).disposed = true) : s.disposeUnit u flush = s.answer 0 := if_pos h

/-- A dead unit is disposed without a flush (47_system_commands.md R334). -/
theorem disposeUnit_of_dead (hdisposed : (s.ustat u).disposed = false) (hdead : (s.ustat u).dead = true) :
    s.disposeUnit u flush = (s.setUstat u (s.ustat u).dispose).answer 0 := by
  rw [State.disposeUnit, hdisposed, hdead]
  rfl

/-- A live unit whose flush fits writes it (47_system_commands.md R334). -/
theorem disposeUnit_of_fits {l : List Bool} (hflush : Offers flush l) (hlive : Live s u) (hfits : Fits s l) :
    s.disposeUnit u flush = (emitted (s.setUstat u (s.ustat u).dispose) l).answer 0 := by
  obtain ⟨hdead, hdisposed⟩ := hlive
  simp only [State.disposeUnit, hdisposed, hdead, Bool.false_eq_true, if_false, State.setUstat_bsi, hflush.full s.bsi hfits,
    emitted_eq, Bsi.offer_of_takes hfits]

/-- A short flush of a live unit kills it, and what the sink took stays (47_system_commands.md R334). -/
theorem disposeUnit_of_not_fits {l : List Bool} (hflush : Offers flush l) (hlive : Live s u) (hfits : ¬ Fits s l) :
    s.disposeUnit u flush = failed (died (emitted (s.setUstat u (s.ustat u).dispose) l) u 1) 1 := by
  obtain ⟨hdead, hdisposed⟩ := hlive
  refine Eq.trans ?_ (raise_eq _ u .endOfStream (by decide))
  simp only [State.disposeUnit, hdisposed, hdead, Bool.false_eq_true, if_false, State.setUstat_bsi, hflush.short s.bsi hfits,
    emitted_eq]

/-- However it ends, `Dispose` leaves the unit disposed (47_system_commands.md R334). -/
theorem ustat_disposeUnit : ((s.disposeUnit u flush).ustat u).disposed = true := by
  have hset (b : Bsi) : ({ s.setUstat u (s.ustat u).dispose with bsi := b }.ustat u).disposed = true := by cases u <;> rfl
  unfold State.disposeUnit
  dsimp only
  split
  · rename_i hdisposed
    rw [State.ustat_answer, hdisposed]
  · split
    · rw [State.ustat_answer, State.ustat_setUstat_self, UStat.dispose_disposed]
    · split
      · rw [State.ustat_answer, hset]
      · rw [State.raise, State.ustat_refuse, State.ustat_setUstat_self, UStat.die_disposed, hset]

theorem not_live_of_disposed (h : (s.ustat u).disposed = true) : ¬ Live s u := fun hlive =>
  absurd (h.symm.trans hlive.2) nofun

end

/-! ## Status words -/

section
variable {n k : Nat}

/-- A bit of a result is read off the number answered (30_encoding.md R92). -/
theorem getLsbD_ofNat_of_div {b : Bool} (hk : k < 64) (h : n / 2 ^ k % 2 = b.toNat) : (BitVec.ofNat 64 n).getLsbD k = b := by
  rw [BitVec.getLsbD_ofNat, decide_eq_true hk, Bool.true_and, Nat.testBit_eq_decide_div_mod_eq, h]
  cases b <;> rfl

/-- A field of a result is read off the number answered (30_encoding.md R92). -/
theorem extractLsb'_ofNat_of_div {w : Nat} {f : BitVec w} (hk : k + w ≤ 64) (h : n / 2 ^ k % 2 ^ w = f.toNat) :
    (BitVec.ofNat 64 n).extractLsb' k w = f := by
  apply BitVec.eq_of_getLsbD_eq
  intro i hi
  rw [BitVec.getLsbD_extractLsb', BitVec.getLsbD_ofNat, decide_eq_true hi, decide_eq_true (by omega : k + i < 64),
    Bool.true_and, Bool.true_and, ← BitVec.testBit_toNat, ← h, Nat.testBit_mod_two_pow, decide_eq_true hi, Bool.true_and,
    Nat.testBit_div_two_pow, Nat.add_comm]

theorem getLsbD_ofNat_eq_false (hk : k < 64) (h : n / 2 ^ k % 2 = 0) : (BitVec.ofNat 64 n).getLsbD k = false :=
  getLsbD_ofNat_of_div hk h

theorem extractLsb'_ofNat_eq_zero {w : Nat} (hk : k + w ≤ 64) (h : n / 2 ^ k % 2 ^ w = 0) :
    (BitVec.ofNat 64 n).extractLsb' k w = 0 :=
  extractLsb'_ofNat_of_div hk (h.trans BitVec.toNat_zero.symm)

end

/-- The configuration register a unit's status answers, as a number (47_system_commands.md R336). -/
theorem configWord_eq (s : State) (u : UnitId) : s.configWord u = (configBits s u).toNat := by
  cases u with
  | ege =>
    show s.ege.signedMode.toNat = (if s.ege.signedMode then (1 : Word) else 0).toNat
    cases s.ege.signedMode <;> rfl
  | egd =>
    show s.egd.signedMode.toNat = (if s.egd.signedMode then (1 : Word) else 0).toNat
    cases s.egd.signedMode <;> rfl
  | hfe | hfd | rce | rcd | cme | cmd => rfl

/-- The six bits of a status word as a number: it fits its register (10_state.md R24). -/
theorem UStat.word_toNat (v : UStat) :
    v.word.toNat = v.dead.toNat + 2 * v.fcode.toNat + 16 * v.disposed.toNat + 32 * v.primed.toNat := by
  have hfcode := v.fcode.isLt
  have hdead := v.dead.toNat_le
  have hdisposed := v.disposed.toNat_le
  have hprimed := v.primed.toNat_le
  rw [UStat.word, BitVec.toNat_ofNat, Nat.mod_eq_of_lt (by omega)]

/-- The fields of the answer of a STATUS command (47_system_commands.md R336). -/
theorem statusWord_fields (s : State) (u : UnitId) :
    (s.statusWord u).getLsbD 0 = (s.ustat u).dead ∧ (s.statusWord u).extractLsb' 1 3 = (s.ustat u).fcode ∧
      (s.statusWord u).getLsbD 4 = (s.ustat u).disposed ∧ (s.statusWord u).getLsbD 5 = (s.ustat u).primed ∧
      (s.statusWord u).extractLsb' 6 26 = 0 ∧ (s.statusWord u).extractLsb' 32 32 = configBits s u := by
  have hfcode := (s.ustat u).fcode.isLt
  have hdead := (s.ustat u).dead.toNat_le
  have hdisposed := (s.ustat u).disposed.toNat_le
  have hprimed := (s.ustat u).primed.toNat_le
  have hconfig := (configBits s u).isLt
  rw [State.statusWord, configWord_eq, UStat.word_toNat]
  refine ⟨getLsbD_ofNat_of_div (by decide) ?_, extractLsb'_ofNat_of_div (by decide) ?_, getLsbD_ofNat_of_div (by decide) ?_,
    getLsbD_ofNat_of_div (by decide) ?_, extractLsb'_ofNat_eq_zero (by decide) ?_, extractLsb'_ofNat_of_div (by decide) ?_⟩
  all_goals omega

/-- The fields of the answer of SYS_STATUS (47_system_commands.md R339). -/
theorem sysStatusWord_fields (s : State) :
    s.sysStatusWord.getLsbD 0 = false ∧ s.sysStatusWord.getLsbD 1 = s.ege.ustat.dead ∧
      s.sysStatusWord.getLsbD 2 = s.egd.ustat.dead ∧ s.sysStatusWord.getLsbD 3 = false ∧
      s.sysStatusWord.getLsbD 4 = s.hfe.ustat.dead ∧ s.sysStatusWord.getLsbD 5 = s.hfd.ustat.dead ∧
      s.sysStatusWord.getLsbD 6 = s.rce.ustat.dead ∧ s.sysStatusWord.getLsbD 7 = s.rcd.ustat.dead ∧
      s.sysStatusWord.getLsbD 8 = s.cme.ustat.dead ∧ s.sysStatusWord.getLsbD 9 = s.cmd.ustat.dead ∧
      s.sysStatusWord.extractLsb' 10 6 = 0 ∧ s.sysStatusWord.extractLsb' 16 3 = s.lastFlt ∧
      s.sysStatusWord.extractLsb' 19 5 = 0 ∧ s.sysStatusWord.getLsbD 24 = s.bsi.outClosed ∧
      s.sysStatusWord.getLsbD 25 = s.bsi.inClosed ∧ s.sysStatusWord.extractLsb' 26 38 = 0 := by
  have hege := s.ege.ustat.dead.toNat_le
  have hegd := s.egd.ustat.dead.toNat_le
  have hhfe := s.hfe.ustat.dead.toNat_le
  have hhfd := s.hfd.ustat.dead.toNat_le
  have hrce := s.rce.ustat.dead.toNat_le
  have hrcd := s.rcd.ustat.dead.toNat_le
  have hcme := s.cme.ustat.dead.toNat_le
  have hcmd := s.cmd.ustat.dead.toNat_le
  have hlast := s.lastFlt.isLt
  have hout := s.bsi.outClosed.toNat_le
  have hin := s.bsi.inClosed.toNat_le
  unfold State.sysStatusWord
  refine ⟨getLsbD_ofNat_eq_false (by decide) ?_, getLsbD_ofNat_of_div (by decide) ?_, getLsbD_ofNat_of_div (by decide) ?_,
    getLsbD_ofNat_eq_false (by decide) ?_, getLsbD_ofNat_of_div (by decide) ?_, getLsbD_ofNat_of_div (by decide) ?_,
    getLsbD_ofNat_of_div (by decide) ?_, getLsbD_ofNat_of_div (by decide) ?_, getLsbD_ofNat_of_div (by decide) ?_,
    getLsbD_ofNat_of_div (by decide) ?_, extractLsb'_ofNat_eq_zero (by decide) ?_, extractLsb'_ofNat_of_div (by decide) ?_,
    extractLsb'_ofNat_eq_zero (by decide) ?_, getLsbD_ofNat_of_div (by decide) ?_, getLsbD_ofNat_of_div (by decide) ?_,
    extractLsb'_ofNat_eq_zero (by decide) ?_⟩
  all_goals omega

/-- A STATUS command answers its unit's status word and changes nothing else (47_system_commands.md R336). -/
theorem exec_statusOf (s : State) (u : UnitId) :
    exec (statusOf u) s = .next { s with rsp := { flt := 0, r := s.statusWord u } } := by cases u <;> rfl

/-- A GETBS command answers the channel of its unit (47_system_commands.md R337). -/
theorem exec_getBsOf (s : State) (u : UnitId) :
    exec (getBsOf u) s = .next (answered s (if u.isEncoder then 0 else 1)) := by cases u <;> rfl

end Sys2Proof.Machine

namespace Sys2Proof

open Machine

/-- Settles O8: the answer 0 is the response the hardware reset leaves. -/
theorem sysResetIsTheHardwareReset : Obligations.SysResetIsTheHardwareReset := fun s =>
  ⟨s.hardReset, rfl, rfl, resetValues_hardReset s, rfl, rfl, rfl, rfl, rfl⟩

/-- Settles O10: every coding command starts with the gate of its unit, and no other way a command ends is UnitDead. -/
theorem gateRefusesDeadAndDisposedUnits : Obligations.GateRefusesDeadAndDisposedUnits := by
  refine ⟨fun i u s hu hi hshut => exec_coding_shut hu hi ?_, fun i s t hi hexec => exec_ungated hi hexec⟩
  rintro ⟨hdead, hdisposed⟩
  rcases hshut with h | h
  · exact absurd (h.symm.trans hdead) nofun
  · exact absurd (h.symm.trans hdisposed) nofun

/-- Settles O12: the flush offers its bits to OUT, and a disposed unit is shut. -/
theorem disposeFlushesALiveUnitOnce : Obligations.DisposeFlushesALiveUnitOnce := by
  intro s u
  obtain ⟨flush, hflush, hexec⟩ := exec_disposeOf s u
  rw [hexec]
  refine ⟨fun hdisposed => congrArg _ (disposeUnit_of_disposed hdisposed),
    fun hdisposed hdead => congrArg _ (disposeUnit_of_dead hdisposed hdead),
    fun hlive hfits => congrArg _ (disposeUnit_of_fits hflush hlive hfits),
    fun hlive hshort => congrArg _ (disposeUnit_of_not_fits hflush hlive hshort), fun i t ht hu hi => ?_⟩
  cases ht
  exact exec_coding_shut hu hi (not_live_of_disposed ustat_disposeUnit)

/-- Settles O13: each field of an answer is read off the number answered. -/
theorem statusCommandsAnswerFlagsAndChannel : Obligations.StatusCommandsAnswerFlagsAndChannel :=
  ⟨fun s u => ⟨s.statusWord u, exec_statusOf s u, statusWord_fields s u⟩, exec_getBsOf,
    fun _ => decode_of_opc .sysStatus, fun s => ⟨s.sysStatusWord, rfl, sysStatusWord_fields s⟩⟩

end Sys2Proof

/-! SUPPORT. A bulk command of EG, RC or CM as its single-symbol command on the first symbol and the bulk command on the rest
(47_system_commands.md R333, 70_reset_and_hazards.md R375). -/

namespace Sys2Proof.Machine

/-! ## Parts of the state -/

/-- A part is read back as it was put, and neither the response nor BUF belongs to it. -/
structure Part.Lens {σ : Type} (part : Part σ) : Prop where
  get_put : ∀ t s, part.get (part.put t s) = t := by intros; rfl
  get_answer : ∀ s n, part.get (s.answer n) = part.get s := by intros; rfl
  get_buf : ∀ s m, part.get { s with buf := m } = part.get s := by intros; rfl
  put_put : ∀ t t' s, part.put t' (part.put t s) = part.put t' s := by intros; rfl
  put_answer : ∀ t s n, part.put t (s.answer n) = (part.put t s).answer n := by intros; rfl
  put_buf : ∀ t s m, part.put t { s with buf := m } = { part.put t s with buf := m } := by intros; rfl
  cfg_put : ∀ t s, (part.put t s).cfg = s.cfg := by intros; rfl
  buf_put : ∀ t s, (part.put t s).buf = s.buf := by intros; rfl

theorem bsiPart_lens : bsiPart.Lens := {}
theorem rcePart_lens : rcePart.Lens := {}
theorem cmePart_lens : cmePart.Lens := {}
theorem rcdPart_lens : rcdPart.Lens := {}
theorem cmdPart_lens : cmdPart.Lens := {}

/-! ## The response of the first symbol -/

/-- The end of a bulk encode does not depend on the response that stood before. -/
theorem endEncode_over_answer (s : State) (u : UnitId) (k n : Nat) (r : Option Stop) :
    (s.answer k).endEncode u n r = s.endEncode u n r := by
  match r with
  | none | some .refused | some .noCode => rfl
  | some .endOfStream | some .invalidStream | some .shortWrite => cases u <;> rfl

/-- A bulk encode that stops at its first symbol ends as the single-symbol command does (47_system_commands.md R333). -/
theorem endEncode_zero (s : State) (u : UnitId) (r : Stop) : s.endEncode u 0 (some r) = s.endBy u r := by
  cases r <;> rfl

theorem endBy_over_answer (s : State) (u : UnitId) (k : Nat) (r : Stop) : (s.answer k).endBy u r = s.endBy u r := by
  rw [← endEncode_zero, endEncode_over_answer, endEncode_zero]

/-- A fault of the rest is the fault of the whole. -/
theorem plusDone_endBy (s : State) (u : UnitId) (k : Nat) {r : Stop} (hr : r.Faults) :
    plusDone (s.endBy u r) k = s.endBy u r := by
  rcases hr with rfl | rfl | rfl <;> rfl

/-! ## The range behind the first symbol -/

section
variable {s : State} {o l : Word} (hl : l ≠ 0) (hin : o.toNat + l.toNat ≤ s.cfg.bufSize)
include hl hin

/-- The rest of a range in BUF lies in BUF, one shorter and one further; only an empty rest may start at a wrapped address
(20_memory.md R71). -/
theorem rest_behind_first : (o + 1).toNat + (l - 1).toNat ≤ s.cfg.bufSize ∧ l.toNat = (l - 1).toNat + 1 ∧
    ((l - 1).toNat = 0 ∨ (o + 1).toNat = o.toNat + 1) := by
  have hpos : l.toNat ≠ 0 := mt (toNat_eq_zero_iff l).mp hl
  rcases Nat.lt_or_ge 1 l.toNat with hlt | hle
  · obtain ⟨ho, hrest⟩ := rest_of_range (k := 1) hlt hin
    rw [ho, hrest, show (1 : Word).toNat = 1 from rfl]
    omega
  · obtain rfl : l = 1 := BitVec.eq_of_toNat_eq (by rw [show (1 : Word).toNat = 1 from rfl]; omega)
    have hone : (o + 1).toNat ≤ o.toNat + 1 := (BitVec.toNat_add o 1).le.trans (Nat.mod_le _ _)
    rw [show (1 : Word).toNat = 1 from rfl] at hin
    rw [BitVec.sub_self, BitVec.toNat_zero]
    exact ⟨by omega, rfl, .inl rfl⟩

variable {σ : Type} {t t' : σ}

/-- The loop of a bulk encode whose first symbol is coded (47_system_commands.md R333). -/
theorem encodeLoop_behind_first {enc : Byte → σ → Run σ Unit} (m : List Host.Cell)
    (h : enc (memRead m o.toNat) t = .ok () t') :
    encodeLoop enc m l.toNat o.toNat 0 t = (1 + (encodeLoop enc m (l - 1).toNat (o + 1).toNat 0 t').1,
      (encodeLoop enc m (l - 1).toNat (o + 1).toNat 0 t').2) := by
  obtain ⟨_, hlength, hrest⟩ := rest_behind_first hl hin
  rw [hlength, encodeLoop, h]
  dsimp only
  rw [encodeLoop_count]
  rcases hrest with hzero | hnext
  · rw [hzero]
    rfl
  · rw [hnext]

/-- The loop of a bulk encode whose first symbol stops (47_system_commands.md R333). -/
theorem encodeLoop_stop_first {enc : Byte → σ → Run σ Unit} {r : Stop} (m : List Host.Cell)
    (h : enc (memRead m o.toNat) t = .stop r t') : encodeLoop enc m l.toNat o.toNat 0 t = (0, some r, t') := by
  obtain ⟨_, hlength, _⟩ := rest_behind_first hl hin
  rw [hlength, encodeLoop, h]

/-- The loop of a bulk decode whose first symbol is delivered (47_system_commands.md R333). -/
theorem decodeLoop_behind_first {dec : σ → Run σ Byte} {v : Byte} (m : List Host.Cell) (h : dec t = .ok v t') :
    decodeLoop dec l.toNat o.toNat (t, m) =
      decodeLoop dec (l - 1).toNat (o + 1).toNat (t', memWrite m o.toNat v) := by
  obtain ⟨_, hlength, hrest⟩ := rest_behind_first hl hin
  rw [hlength, decodeLoop, h]
  dsimp only
  rcases hrest with hzero | hnext
  · rw [hzero]
    rfl
  · rw [hnext]

/-- The loop of a bulk decode whose first symbol stops (47_system_commands.md R333). -/
theorem decodeLoop_stop_first {dec : σ → Run σ Byte} {r : Stop} (m : List Host.Cell) (h : dec t = .stop r t') :
    decodeLoop dec l.toNat o.toNat (t, m) = .stop r (t', m) := by
  obtain ⟨_, hlength, _⟩ := rest_behind_first hl hin
  rw [hlength, decodeLoop, h]

end

/-! ## Bulk encodes -/

section
variable {σ : Type} {s : State} {u : UnitId} {part : Part σ} {o l : Word}

/-- A bulk encode of a live unit in a range of BUF ends as its loop does (47_system_commands.md R333). -/
theorem bulkEncode_admitted {enc : Byte → σ → Run σ Unit} (hlive : Live s u) (hin : o.toNat + l.toNat ≤ s.cfg.bufSize)
    {n : Nat} {r : Option Stop} {t : σ} (h : encodeLoop enc s.buf l.toNat o.toNat 0 (part.get s) = (n, r, t)) :
    s.bulkEncode u part enc o l = (part.put t s).endEncode u n r := by
  rw [State.bulkEncode, gated_live hlive, bounded_inside hin, h]

/-- A bulk decode of a live unit in a range of BUF ends as its loop does (47_system_commands.md R333). -/
theorem bulkDecode_admitted {dec : σ → Run σ Byte} (hlive : Live s u) (hin : o.toNat + l.toNat ≤ s.cfg.bufSize) :
    s.bulkDecode u part dec o l =
      s.endDecode u part l (decodeLoop dec l.toNat o.toNat (part.get s, s.buf)) := by
  rw [State.bulkDecode, gated_live hlive, bounded_inside hin]

variable (hlive : Live s u) (hl : l ≠ 0) (hin : o.toNat + l.toNat ≤ s.cfg.bufSize)
include hlive hl hin

/-- A first symbol that is not coded ends the bulk encode as it ends the single-symbol command (47_system_commands.md
R333). -/
theorem bulkEncode_stop_first {enc : Byte → σ → Run σ Unit} {r : Stop} {t : σ}
    (h : enc (memRead s.buf o.toNat) (part.get s) = .stop r t) :
    s.bulkEncode u part enc o l = (part.put t s).endBy u r := by
  rw [bulkEncode_admitted hlive hin (encodeLoop_stop_first hl hin s.buf h), endEncode_zero]

/-- Behind a first symbol that is coded goes the same bulk encode on the rest (47_system_commands.md R333,
70_reset_and_hazards.md R375). -/
theorem bulkEncode_behind_first {enc : Byte → σ → Run σ Unit} {Q : σ → Prop} (hpart : part.Lens)
    (henc : ∀ v, Keeps Q (· ≠ .noCode) (enc v)) {t : σ} (ht : Q t) (hlive' : Live (part.put t s) u)
    (h : enc (memRead s.buf o.toNat) (part.get s) = .ok () t) :
    s.bulkEncode u part enc o l = plusDone (((part.put t s).answer 1).bulkEncode u part enc (o + 1) (l - 1)) 1 := by
  obtain ⟨hin', _⟩ := rest_behind_first hl hin
  have hwhole := encodeLoop_behind_first hl hin s.buf h
  obtain ⟨_, hstops⟩ := encodeLoop_keeps henc s.buf (l - 1).toNat (o + 1).toNat 0 t ht
  rcases hrest : encodeLoop enc s.buf (l - 1).toNat (o + 1).toNat 0 t with ⟨n, r, t'⟩
  rw [hrest] at hwhole hstops
  have hr : r ≠ some .noCode := fun hr => hstops .noCode hr rfl
  have hloop : encodeLoop enc ((part.put t s).answer 1).buf (l - 1).toNat (o + 1).toNat 0
      (part.get ((part.put t s).answer 1)) = (n, r, t') := by
    rw [hpart.get_answer, hpart.get_put, State.answer_buf, hpart.buf_put, hrest]
  have hlive'' : Live ((part.put t s).answer 1) u := by
    rwa [Live, State.ustat_answer]
  rw [bulkEncode_admitted hlive hin hwhole, bulkEncode_admitted hlive'' (by rwa [State.answer_cfg, hpart.cfg_put]) hloop,
    hpart.put_answer, hpart.put_put, endEncode_over_answer, plusDone_endEncode _ _ _ _ hr]

/-- A bulk encode command is its single-symbol command on the first symbol, and the bulk command on the rest where that
answers 1; `single` and `bulk` run the procedure `enc` of the unit (47_system_commands.md R333, 70_reset_and_hazards.md
R375). -/
theorem exec_encode_singly {enc : Byte → σ → Run σ Unit} {single : Byte → Instr} {bulk : Word → Word → Instr}
    {Q : σ → Prop} (hpart : part.Lens) (henc : ∀ v, Keeps Q (· ≠ .noCode) (enc v)) (hget : Q (part.get s))
    (hput : ∀ t, Live (part.put t s) u)
    (hsingle : ∀ v, exec (single v) s = .next (s.single u part (enc v) fun _ s => s.answer 1))
    (hbulk : ∀ o l, exec (bulk o l) s = .next (s.bulkEncode u part enc o l))
    (hafter : ∀ t o l, exec (bulk o l) ((part.put t s).answer 1) =
      .next (((part.put t s).answer 1).bulkEncode u part enc o l)) :
    ∃ t, exec (single (memRead s.buf o.toNat)) s = .next t ∧
      (t.rsp ≠ { flt := 0, r := 1 } → exec (bulk o l) s = .next t) ∧
      (t.rsp = { flt := 0, r := 1 } → ∃ t', exec (bulk (o + 1) (l - 1)) t = .next t' ∧
        exec (bulk o l) s = .next (plusDone t' 1)) := by
  rw [hsingle, hbulk]
  cases hfirst : enc (memRead s.buf o.toNat) (part.get s) with
  | stop r t =>
    refine ⟨_, congrArg _ (single_stop hlive _ hfirst), fun _ => ?_, fun hone => absurd hone (endBy_ne_one r)⟩
    exact congrArg _ (bulkEncode_stop_first hlive hl hin hfirst)
  | ok _ t =>
    have ht := (henc _ _ hget).of_ok hfirst
    refine ⟨_, congrArg _ (single_ok hlive _ hfirst), fun hne => absurd rfl hne, fun _ => ⟨_, hafter t _ _, ?_⟩⟩
    exact congrArg _ (bulkEncode_behind_first hlive hl hin hpart henc ht (hput t) hfirst)

/-! ## Bulk decodes -/

/-- A first symbol that faults ends the bulk decode as it ends the single-symbol command (47_system_commands.md R333). -/
theorem bulkDecode_stop_first {dec : σ → Run σ Byte} {r : Stop} {t : σ} (h : dec (part.get s) = .stop r t) :
    s.bulkDecode u part dec o l = (part.put t s).endBy u r := by
  rw [bulkDecode_admitted hlive hin, decodeLoop_stop_first hl hin s.buf h]
  rfl

omit hlive hin in
/-- LENGTH is answered for the whole of a decode that goes on behind its first symbol, and a fault of the rest is the
whole's (47_system_commands.md R333). -/
theorem plusDone_endDecode_rest (hpart : part.Lens) (t : σ) (n : Nat) (m : List Host.Cell)
    {x : Run (σ × List Host.Cell) Unit} (hx : x.Meets (fun _ => True) Stop.Faults) :
    plusDone (State.endDecode { (part.put t s).answer n with buf := m } u part (l - 1) x) 1 = s.endDecode u part l x := by
  have hput (y : σ × List Host.Cell) :
      part.put y.1 { (part.put t s).answer n with buf := y.2 } = (part.put y.1 { s with buf := y.2 }).answer n := by
    rw [hpart.put_buf y.1 _ y.2, hpart.put_answer, hpart.put_put, hpart.put_buf y.1 s y.2]
    rfl
  cases x with
  | stop r y =>
    show plusDone ((part.put y.1 { (part.put t s).answer n with buf := y.2 }).endBy u r) 1 = _
    rw [hput, endBy_over_answer]
    exact plusDone_endBy _ u 1 (hx.of_stop rfl).2
  | ok _ y =>
    have hpos : l.toNat ≠ 0 := mt (toNat_eq_zero_iff l).mp hl
    have hle : (1 : Word).toNat ≤ l.toNat := Nat.one_le_iff_ne_zero.mpr hpos
    have hadd : BitVec.ofNat 64 (l - 1).toNat + BitVec.ofNat 64 1 = BitVec.ofNat 64 l.toNat := by
      rw [← BitVec.ofNat_add, BitVec.toNat_sub_of_le (BitVec.le_def.mpr hle)]
      exact congrArg _ (Nat.sub_add_cancel hle)
    show plusDone ((part.put y.1 { (part.put t s).answer n with buf := y.2 }).answer (l - 1).toNat) 1 = _
    rw [hput]
    exact congrArg ((part.put y.1 { s with buf := y.2 }).respond · .none) hadd

/-- Behind a first symbol that is delivered, its byte stored, goes the same bulk decode on the rest (47_system_commands.md
R333, 70_reset_and_hazards.md R375). -/
theorem bulkDecode_behind_first {dec : σ → Run σ Byte} {Q : σ → Prop} (hpart : part.Lens)
    (hdec : Keeps Q Stop.Faults dec) {v : Byte} {t : σ} (ht : Q t)
    (hlive' : Live (part.put t s) u) (h : dec (part.get s) = .ok v t) (n : Nat) :
    s.bulkDecode u part dec o l =
      plusDone (State.bulkDecode { (part.put t s).answer n with buf := memWrite s.buf o.toNat v } u part dec
        (o + 1) (l - 1)) 1 := by
  obtain ⟨hin', _⟩ := rest_behind_first hl hin
  have hloop := decodeLoop_keeps hdec (o + 1) (l - 1) _ (memWrite s.buf o.toNat v) hin' (l - 1).toNat (o + 1).toNat
    (le_refl _) (le_refl _) (t, memWrite s.buf o.toNat v) ⟨ht, .refl _ _ _⟩
  have hlive'' : Live { (part.put t s).answer n with buf := memWrite s.buf o.toNat v } u := by
    revert hlive'
    cases u <;> exact id
  have hcfg : ((part.put t s).answer n).cfg = s.cfg := hpart.cfg_put t s
  rw [bulkDecode_admitted hlive hin, decodeLoop_behind_first hl hin s.buf h,
    bulkDecode_admitted hlive'' (by rwa [hcfg]), hpart.get_buf, hpart.get_answer, hpart.get_put,
    plusDone_endDecode_rest hl hpart t n _ (hloop.mono fun _ _ => trivial)]

/-- A bulk decode command is its single-symbol command, and the bulk command on the rest where that answers no fault, its
byte stored; `single` and `bulk` run the procedure `dec` of the unit (47_system_commands.md R333, 70_reset_and_hazards.md
R375). -/
theorem exec_decode_singly {dec : σ → Run σ Byte} {single : Instr} {bulk : Word → Word → Instr} {Q : σ → Prop}
    (hpart : part.Lens) (hdec : Keeps Q Stop.Faults dec) (hget : Q (part.get s)) (hput : ∀ t, Q t → Live (part.put t s) u)
    (hsingle : exec single s = .next (s.single u part dec fun v s => s.answer v.toNat))
    (hbulk : ∀ o l, exec (bulk o l) s = .next (s.bulkDecode u part dec o l))
    (hafter : ∀ t n m o l, exec (bulk o l) { (part.put t s).answer n with buf := m } =
      .next (State.bulkDecode { (part.put t s).answer n with buf := m } u part dec o l)) :
    ∃ t, exec single s = .next t ∧ (t.rsp.flt ≠ 0 → exec (bulk o l) s = .next t) ∧
      (t.rsp.flt = 0 → ∃ m t', Stored s.buf m o.toNat [t.rsp.r.setWidth 8] ∧
        exec (bulk (o + 1) (l - 1)) { t with buf := m } = .next t' ∧ exec (bulk o l) s = .next (plusDone t' 1)) := by
  have hrun := hdec _ hget
  rw [hsingle, hbulk]
  cases hfirst : dec (part.get s) with
  | stop r t =>
    obtain ⟨_, hr⟩ := hrun.of_stop hfirst
    refine ⟨_, congrArg _ (single_stop hlive _ hfirst), fun _ => ?_, fun hzero => absurd hzero (endBy_faults hr)⟩
    exact congrArg _ (bulkDecode_stop_first hlive hl hin hfirst)
  | ok v t =>
    have ht := hrun.of_ok hfirst
    have hv : (BitVec.ofNat 64 v.toNat).setWidth 8 = v := by
      rw [BitVec.ofNat_toNat, BitVec.setWidth_setWidth_of_le _ (by decide), BitVec.setWidth_eq]
    refine ⟨_, congrArg _ (single_ok hlive _ hfirst), fun hne => absurd rfl hne, fun _ =>
      ⟨memWrite s.buf o.toNat v, _, ?_, hafter t _ _ _ _, ?_⟩⟩
    · rw [State.answer_rsp, hv]
      exact stored_memWrite s.buf o.toNat v
    · exact congrArg _ (bulkDecode_behind_first hlive hl hin hpart hdec ht (hput t ht) hfirst v.toNat)

end

/-! ## The status word behind a symbol -/

/-- PRIMED does not shut a unit (47_system_commands.md R331). -/
theorem UStat.PrimedFrom.shut {v v' : UStat} (h : v.PrimedFrom v') : v'.dead = v.dead ∧ v'.disposed = v.disposed := by
  rcases h with rfl | rfl
  · exact ⟨rfl, rfl⟩
  · exact ⟨rfl, rfl⟩

section
variable {s : State}

theorem live_putRcd (hlive : Live s .rcd) {t : RcdSide} (h : PrimingKept Rcd.ustat (rcdPart.get s) t) :
    Live (rcdPart.put t s) .rcd := by
  obtain ⟨hdead, hdisposed⟩ := h.1.shut
  exact ⟨hdead.trans hlive.1, hdisposed.trans hlive.2⟩

theorem live_putCmd (hlive : Live s .cmd) {t : CmdSide} (h : PrimingKept Cmd.ustat (cmdPart.get s) t) :
    Live (cmdPart.put t s) .cmd := by
  obtain ⟨hdead, hdisposed⟩ := h.1.shut
  exact ⟨hdead.trans hlive.1, hdisposed.trans hlive.2⟩

end

end Sys2Proof.Machine

namespace Sys2Proof

open Machine

/-- Settles O25: the loop of a bulk command is its procedure on the first symbol and then the loop on the rest. -/
theorem bulkCommandsAreSingleCommands : Obligations.BulkCommandsAreSingleCommands := by
  constructor
  · intro c hc s o l hlive hl hin
    simp only [List.mem_cons, List.not_mem_nil, or_false] at hc
    rcases hc with rfl | rfl | rfl
    · exact exec_encode_singly hlive hl hin bsiPart_lens
        (fun v => egEncode_keeps nofun s.bsi (egValue v s.ege.signedMode) _) (.refl _) (fun _ => hlive)
        (fun _ => rfl) (fun _ _ => rfl) fun _ _ _ => rfl
    · exact exec_encode_singly hlive hl hin rcePart_lens (rcEncodeSymbol_keeps nofun nofun s.bsi) (.refl _) (fun _ => hlive)
        (fun _ => rfl) (fun _ _ => rfl) fun _ _ _ => rfl
    · exact exec_encode_singly hlive hl hin cmePart_lens
        (fun v => cmEncodeBits_keeps nofun s.bsi s.cfg.stateTable v 8) (.refl _) (fun _ => hlive)
        (fun _ => rfl) (fun _ _ => rfl) fun _ _ _ => rfl
  · intro c hc s o l hlive hl hin
    simp only [List.mem_cons, List.not_mem_nil, or_false] at hc
    rcases hc with rfl | rfl | rfl
    · exact exec_decode_singly hlive hl hin bsiPart_lens
        (egdSymbol_keeps (.inl rfl) (.inr (.inl rfl)) s.bsi s.egd.signedMode) (.refl _) (fun _ _ => hlive)
        rfl (fun _ _ => rfl) fun _ _ _ _ _ => rfl
    · exact exec_decode_singly hlive hl hin rcdPart_lens
        (rcDecodeSymbol_keeps (.inl rfl) (.inr (.inl rfl)) (.inr (.inr rfl)) _) ⟨.inl rfl, .refl _⟩
        (fun _ => live_putRcd hlive) rfl (fun _ _ => rfl) fun _ _ _ _ _ => rfl
    · exact exec_decode_singly hlive hl hin cmdPart_lens
        (cmDecodeSymbol_keeps (.inl rfl) s.cfg.stateTable _) ⟨.inl rfl, .refl _⟩
        (fun _ => live_putCmd hlive) rfl (fun _ _ => rfl) fun _ _ _ _ _ => rfl

end Sys2Proof

/-! SUPPORT. The machine right after reset against the invariants (70_reset_and_hazards.md R371, R372). -/

namespace Sys2Proof.Machine

/-- A machine with the reset values meets the base invariant, with the BUF and the IN the host left (70_reset_and_hazards.md
R371, R372). -/
theorem ResetValues.baseInv {s : State} (h : ResetValues s) (hbuf : BufInv s) (hlen : s.bsi.inBits.length < 2 ^ 64) :
    BaseInv s := by
  obtain ⟨hout, hwcnt, hrcnt, _, _⟩ := h.streams
  obtain ⟨hhfe, hhfd⟩ := h.blocks
  have hstatus : StatusInv s := (statusInv_iff s).mpr fun u => (h.ustat u).symm ▸ sound_reset u
  have hresponse : ResponseInv s := by
    rw [ResponseInv, h.rsp, h.lastFlt]
    exact ⟨Nat.zero_le _, Nat.zero_le _, fun hflt => absurd rfl hflt⟩
  have houtput : OutInv s := by
    rw [OutInv, hwcnt, hout]
    exact ⟨rfl, fun _ _ => Nat.zero_le _⟩
  have hinput : InInv s := by
    rw [InInv, hrcnt]
    exact ⟨hlen, Nat.zero_le _⟩
  have hblock : BlockInv s := by
    rw [BlockInv, hhfe, hhfd]
    decide
  exact ⟨hbuf, hstatus, hresponse, houtput, hinput, hblock⟩

/-- The hardware reset changes nothing right after reset (70_reset_and_hazards.md R370). -/
theorem hardReset_resetWith (l : Launch) : (State.resetWith l).hardReset = State.resetWith l := rfl

/-- The standard launch has an empty IN and a BUF of zeros (log entries 1 and 2). -/
theorem launchOk_standard : LaunchOk Launch.standard := ⟨rfl, nofun, Nat.two_pow_pos 64⟩

end Sys2Proof.Machine

namespace Sys2Proof

open Machine

/-- Settles O7, by the rows of the table one by one. -/
theorem resetLeavesTheTableOfValues : Obligations.ResetLeavesTheTableOfValues := resetValues_resetWith

/-- Settles O55: the base invariant follows from the reset values, and the other three are what the hardware reset leaves. -/
theorem resetMeetsTheInvariants : Obligations.ResetMeetsTheInvariants := by
  refine ⟨fun l hl => ?_, launchOk_standard⟩
  obtain ⟨hwf, hin, hlen⟩ := hl
  rw [← hardReset_resetWith l]
  exact ⟨(resetValues_hardReset _).baseInv ⟨hwf, hin⟩ hlen, tablesInv_hardReset _, rcInv_hardReset _, cmInv_hardReset _⟩

end Sys2Proof

/-! SUPPORT. How the coding commands of the encoders end without a fault (60_exceptions.md R344, 43_huffman_codec.md R200). -/

namespace Sys2Proof.Machine

/-- A unit that was asked for `all` has answered a fault, or all of it, or is dead of WriteFail (60_exceptions.md R344). -/
def AllOrDead (u : UnitId) (all : Quad) (t : State) : Prop :=
  t.rsp.flt = 0 → t.rsp.r = all ∨ ((t.ustat u).dead = true ∧ (t.ustat u).fcode = 6)

section
variable {u : UnitId} {all : Quad}

/-! ## How a command ends -/

theorem allOrDead_refuse (s : State) {c : FaultCode} (hc : c.code ≠ 0) : AllOrDead u all (s.refuse c) :=
  fun hflt => absurd hflt hc

theorem allOrDead_wrFail (s : State) (n : Nat) : AllOrDead u all ((s.wrFail u).answer n) := by
  intro _
  rw [State.ustat_answer, State.wrFail, State.ustat_setUstat_self]
  exact .inr ⟨rfl, rfl⟩

/-- The one stop that answers less without a fault and does not kill is a symbol without a code (43_huffman_codec.md
R200). -/
theorem allOrDead_endBy (s : State) {r : Stop} (hr : r ≠ .noCode) : AllOrDead u all (s.endBy u r) := by
  cases r with
  | noCode => exact absurd rfl hr
  | shortWrite => exact allOrDead_wrFail s 0
  | endOfStream => exact fun hflt => absurd hflt (endBy_faults (.inl rfl))
  | invalidStream => exact fun hflt => absurd hflt (endBy_faults (.inr (.inl rfl)))
  | refused => exact fun hflt => absurd hflt (endBy_faults (.inr (.inr rfl)))

theorem allOrDead_endEncode (s : State) {n : Nat} {r : Option Stop} (hall : r = none → BitVec.ofNat 64 n = all)
    (hr : r ≠ some .noCode) : AllOrDead u all (s.endEncode u n r) := by
  match r with
  | none => exact fun _ => .inl (hall rfl)
  | some .shortWrite => exact allOrDead_wrFail s n
  | some .endOfStream | some .invalidStream | some .refused | some .noCode =>
    exact allOrDead_endBy s fun h => hr (congrArg some h)

/-! ## The skeletons (47_system_commands.md R330 to R333) -/

theorem allOrDead_gated (s : State) {body : State → State} (h : AllOrDead u all (body s)) :
    AllOrDead u all (s.gated u body) := by
  rcases gated_cases s u body with ⟨_, e⟩ | ⟨_, e⟩
  · exact e ▸ h
  · exact e ▸ allOrDead_refuse s (by decide)

theorem allOrDead_bounded (s : State) (o l : Word) {body : State → State} (h : AllOrDead u all (body s)) :
    AllOrDead u all (s.bounded o l body) := by
  rcases bounded_cases s o l body with ⟨_, e⟩ | ⟨_, e⟩
  · exact e ▸ h
  · exact e ▸ allOrDead_refuse s (by decide)

section
variable {σ : Type} {part : Part σ} {Q : σ → Prop} {s : State} (hget : Q (part.get s))
include hget

theorem allOrDead_single {α : Type} {proc : σ → Run σ α} (hproc : Keeps Q (· ≠ .noCode) proc) :
    AllOrDead u 1 (s.single u part proc fun _ s => s.answer 1) := by
  rcases single_cases s u part proc fun _ s => s.answer 1 with ⟨_, e⟩ | ⟨_, _, t, _, e⟩ | ⟨_, r, t, hstop, e⟩
  · exact e ▸ allOrDead_refuse s (by decide)
  · exact e ▸ fun _ => .inl rfl
  · obtain ⟨_, hr⟩ := (hproc _ hget).of_stop hstop
    exact e ▸ allOrDead_endBy _ hr

/-- A bulk encode counts every symbol of a loop that does not stop (47_system_commands.md R333). -/
theorem allOrDead_bulkEncode {enc : Byte → σ → Run σ Unit} (henc : ∀ v, Keeps Q (· ≠ .noCode) (enc v)) (o l : Word) :
    AllOrDead u (l.setWidth 64) (s.bulkEncode u part enc o l) := by
  refine allOrDead_gated s (allOrDead_bounded s o l (allOrDead_endEncode _ (fun hnone => ?_) fun hr => ?_))
  · rw [(encodeLoop_fst enc s.buf l.toNat o.toNat 0 _).1 hnone, Nat.zero_add, BitVec.ofNat_toNat]
  · exact (encodeLoop_keeps henc s.buf l.toNat o.toNat 0 _ hget).2 .noCode hr rfl

end

end

/-! ## HFE -/

/-- A coded symbol stops only by a short write (43_huffman_codec.md R191). -/
theorem hfEncodeSymbol_of_coded {v : Byte} {z : Vector (BitVec 5) 256} (hv : symGet z v ≠ 0) :
    Keeps (fun t => t.2.1.sizes = z) (· ≠ .noCode) (hfEncodeSymbol v) := by
  rintro ⟨c, u, b⟩ rfl
  by_cases h : b.takes (hufBits u.sizes u.codes v)
  · exact hfEncodeSymbol_full c hv h ▸ meets_ok rfl
  · exact hfEncodeSymbol_short c hv h ▸ meets_stop rfl nofun

/-- A block of no symbols has no code: the builder refuses it (42_huffman_code_builder.md R173). -/
theorem buildLengths_noSymbols (m : List Host.Cell) (a : Nat) : buildLengths (blockCounts m a 0) = none := by
  refine buildLengths_of_none_present (List.eq_nil_iff_forall_not_mem.mpr fun p hp => ?_)
  obtain ⟨v, _, hv⟩ := exists_symbol_of_leaf hp
  exact hv (BitVec.eq_of_toNat_eq (symGet_blockCounts m a 0 (Nat.zero_le _) v))

theorem hfUpdate_noSymbols (m : List Host.Cell) (a : Nat) (t : HfeSide) :
    hfUpdate ({ t.1 with freq := blockCounts m a 0 }, t.2) = .stop .refused ({ t.1 with freq := blockCounts m a 0 }, t.2) :=
  hfUpdate_none (t := ({ t.1 with freq := blockCounts m a 0 }, t.2)) (buildLengths_noSymbols m a)

/-- A loop that does not stop counts all of its symbols, for every block size: one of 0 is refused at the first symbol
(43_huffman_codec.md R196). -/
theorem hfEncodeBlocks_counts_all (m : List Host.Cell) {fuel rem : Nat} (a n : Nat) (t : HfeSide) (hfuel : rem ≤ fuel)
    (hnone : (hfEncodeBlocks m fuel rem a n t).2.1 = none) : (hfEncodeBlocks m fuel rem a n t).1 = n + rem := by
  induction fuel generalizing rem a n t with
  | zero =>
    obtain rfl := Nat.le_zero.mp hfuel
    rfl
  | succ fuel ih =>
    unfold hfEncodeBlocks at hnone ⊢
    by_cases hrem : rem = 0
    · rw [if_pos hrem, hrem]
      rfl
    · rw [if_neg hrem] at hnone ⊢
      dsimp only at hnone ⊢
      have hk : min t.2.1.block.toNat rem ≤ rem := Nat.min_le_right _ _
      generalize min t.2.1.block.toNat rem = k at *
      cases hupdate : hfUpdate ({ t.1 with freq := blockCounts m a k }, t.2) with
      | stop r u =>
        rw [hupdate] at hnone
        cases hnone
      | ok _ u =>
        have hpos : k ≠ 0 := by
          rintro rfl
          cases hupdate.symm.trans (hfUpdate_noSymbols m a t)
        simp only [hupdate] at hnone ⊢
        have hcount := (encodeLoop_fst hfEncodeSymbol m k a n u).1
        rcases hloop : encodeLoop hfEncodeSymbol m k a n u with ⟨n', _ | r, u'⟩ <;> rw [hloop] at hcount
        · simp only [hloop] at hnone ⊢
          have hn : n' = n + k := hcount rfl
          have hrest := ih (a + k) n' u' (by omega) hnone
          omega
        · simp only [hloop] at hnone
          cases hnone

/-- HFE_ENCODE answers LENGTH, a fault, or leaves HFE dead: its blocks hold no symbol without a code (43_huffman_codec.md
R196, R201). -/
theorem allOrDead_hfeEncode {o l : Word} {s t : State} (hexec : exec (.hfeEncode o l) s = .next t) :
    AllOrDead .hfe (l.setWidth 64) t := by
  cases hexec
  refine allOrDead_gated s (allOrDead_bounded s o l (allOrDead_endEncode _ (fun hnone => ?_) ?_))
  · rw [hfEncodeBlocks_counts_all s.buf o.toNat 0 _ (le_refl _) hnone, Nat.zero_add, BitVec.ofNat_toNat]
  · exact hfEncodeBlocks_coded s.buf l.isLt l.toNat o.toNat 0 _

end Sys2Proof.Machine

namespace Sys2Proof

open Machine

/-- What a coding command is asked for: LENGTH symbols, or 1 (47_system_commands.md R333, 43_huffman_codec.md R205). -/
def Instr.asked (i : Instr) : Quad :=
  match i.bulk? with
  | some (_, l) => l.setWidth 64
  | none => 1

end Sys2Proof

namespace Sys2Proof.Machine

/-! ## Every coding command of an encoder -/

/-- A coding command of an encoder, but HFE_ENCBYTE of a symbol without a code (60_exceptions.md R344). -/
theorem exec_allOrDead {i : Instr} {u : UnitId} {s t : State} (hu : i.unit? = some u) (henc : u.isEncoder = true)
    (hi : i.isCoding = true) (hcode : ∀ v, i = .hfeEncbyte v → symGet s.hfe.sizes v ≠ 0) (hexec : exec i s = .next t) :
    AllOrDead u i.asked t := by
  cases i with
  | egeEncbyte v =>
    cases hu
    cases hexec
    exact allOrDead_single (.refl s.bsi) (egEncode_keeps nofun s.bsi _ _)
  | egeEncode o l =>
    cases hu
    cases hexec
    exact allOrDead_bulkEncode (.refl s.bsi) (fun v => egEncode_keeps nofun s.bsi (egValue v s.ege.signedMode) _) o l
  | hfeEncbyte v =>
    cases hu
    cases hexec
    exact allOrDead_single (Q := fun t => t.2.1.sizes = s.hfe.sizes) rfl (hfEncodeSymbol_of_coded (hcode v rfl))
  | hfeEncode o l =>
    cases hu
    exact allOrDead_hfeEncode hexec
  | hfeUpdate =>
    cases hu
    cases hexec
    exact allOrDead_single (.refl (hfePart.get s)) (hfUpdate_keeps nofun nofun _)
  | rceEncbyte v =>
    cases hu
    cases hexec
    exact allOrDead_single (.refl s.bsi) (rcEncodeSymbol_keeps nofun nofun s.bsi v)
  | rceEncode o l =>
    cases hu
    cases hexec
    exact allOrDead_bulkEncode (.refl s.bsi) (rcEncodeSymbol_keeps nofun nofun s.bsi) o l
  | cmeEncbyte v =>
    cases hu
    cases hexec
    exact allOrDead_single (.refl s.bsi) (cmEncodeBits_keeps nofun s.bsi s.cfg.stateTable v 8)
  | cmeEncode o l =>
    cases hu
    cases hexec
    exact allOrDead_bulkEncode (.refl s.bsi) (fun v => cmEncodeBits_keeps nofun s.bsi s.cfg.stateTable v 8) o l
  | egdDecbyte | egdDecode | hfdDecbyte | hfdDecode | hfdReadlen | rcdDecbyte | rcdDecode | cmdDecbyte | cmdDecode =>
    cases hu
    cases henc
  | _ => cases hi

/-- HFE_ENCBYTE of a symbol without a code changes the response alone, where the gate lets it (43_huffman_codec.md R200). -/
theorem exec_hfeEncbyte_noCode {s t : State} {v : Byte} (hv : symGet s.hfe.sizes v = 0)
    (hexec : exec (.hfeEncbyte v) s = .next t) (hflt : t.rsp.flt = 0) : t = answered s 0 := by
  obtain ⟨_, hcommand⟩ := huffmanEncodeWritesTheCode
  obtain ⟨hshut, hnone, _⟩ := hcommand s v
  by_cases hlive : Live s .hfe
  · rw [hnone hlive hv] at hexec
    cases hexec
    rfl
  · rw [hshut hlive] at hexec
    cases hexec
    exact absurd hflt (by decide : (5 : BitVec 3) ≠ 0)

/-- A coding command without a fault leaves LASTFLT (60_exceptions.md R344, R346). -/
theorem exec_coding_lastFlt {i : Instr} (hi : i.isCoding = true) {s t : State} (hexec : exec i s = .next t)
    (hflt : t.rsp.flt = 0) : t.lastFlt = s.lastFlt := by
  have hreset : i ≠ .sysReset := by
    rintro rfl
    cases hi
  obtain ⟨t', hexec', hanswers⟩ := exec_answers i hreset s
  rw [hexec] at hexec'
  cases hexec'
  rcases hanswers with ⟨_, hlast⟩ | ⟨hfault, _⟩
  · exact hlast
  · exact absurd hflt hfault

end Sys2Proof.Machine

namespace Sys2Proof

open Machine

/-- Settles O53: an encoder's procedure that stops without a fault stops by a short write, which kills its unit, or by a
symbol without a code, which HFE_ENCODE never meets. -/
theorem shortWritesKillTheEncoder : Obligations.ShortWritesKillTheEncoder := by
  intro i u s t hu henc hi hexec hflt
  by_cases hnone : ∃ v, i = .hfeEncbyte v ∧ symGet s.hfe.sizes v = 0
  · obtain ⟨v, rfl, hv⟩ := hnone
    exact .inr (.inr ⟨v, rfl, hv, exec_hfeEncbyte_noCode hv hexec hflt⟩)
  · have hcode (v : Byte) (hiv : i = .hfeEncbyte v) : symGet s.hfe.sizes v ≠ 0 := fun hv => hnone ⟨v, hiv, hv⟩
    rcases exec_allOrDead hu henc hi hcode hexec hflt with hall | hdead
    · exact .inl hall
    · exact .inr (.inl ⟨exec_coding_lastFlt hi hexec hflt, hdead⟩)

end Sys2Proof
